-- ==== Sys2Proof/Word.lean ====
section
/-!
DEFINITION. The machine's words (spec/00_scope.md R13): u8, u16, u32, u64 are bit vectors of those widths.
-/
namespace Sys2Proof

/-- A byte of `VIEW` or of the static dictionary (u8). -/
abbrev Byte := BitVec 8

/-- A register, position, length, distance or table entry (u32, spec/40_primitives.md R119). -/
abbrev Word := BitVec 32

/-- A 64-bit register, counter or `MATCH` record (u64). -/
abbrev Word64 := BitVec 64

end Sys2Proof
end

