-- ==== Sys2Proof/Syntax.lean ====
section
/-!
DEFINITION. The seven commands (spec/30_encoding.md R92), one constructor per row of spec/opcode_table.json.
-/
namespace Sys2Proof

/-- A command. Only CONFIGURE carries operands in its word (format C, R90, R91): two unsigned immediates, not scaled. -/
inductive Instr where
  /-- CONFIGURE, R221. -/
  | configure (quality lgwin : Nat)
  /-- RESET, R222. -/
  | reset
  /-- STORE, R223 (SkipByte on H10, R205). -/
  | store
  /-- STORE_RANGE, R224. -/
  | storeRange
  /-- FIND_LONGEST_MATCH, R225. -/
  | findLongestMatch
  /-- FIND_ALL_MATCHES, R226. -/
  | findAllMatches
  /-- PREPEND_CUSTOM_DICTIONARY, R227. -/
  | prependCustomDictionary
deriving DecidableEq, Repr

end Sys2Proof
end

