-- ==== Sys2Proof/WellFormed.lean ====
section
/-!
DEFINITION. Which terms of `Instr` are commands a word can encode: the two immediates of CONFIGURE fit their fields
(spec/30_encoding.md R90, R91). Values outside 1..10 and 10..24 are well formed: R91 rejects them at execution.
-/
namespace Sys2Proof

/-- The immediates fit: `quality` in 4 bits, `lgwin` in 5. -/
def Instr.WellFormed : Instr → Bool
  | .configure quality lgwin => decide (quality < 16) && decide (lgwin < 32)
  | .reset => true
  | .store => true
  | .storeRange => true
  | .findLongestMatch => true
  | .findAllMatches => true
  | .prependCustomDictionary => true

end Sys2Proof
end

