-- ==== Sys2Proof/Decode.lean ====
section
/-!
DEFINITION. Decoding of command words (spec/30_encoding.md R90 to R93), total on all 2^32 words and rejecting by name,
and after it the encoder, written from the same formats.
-/
namespace Sys2Proof

/-- Why a word is no command (R93); each raises E_ILLEGAL_CMD (`Machine.writeCmd`). -/
inductive DecodeError where
  /-- Opcode 0x00, or 0x08 to 0xFF. -/
  | unknownOpcode
  /-- A format N word with a non-zero bit in [31:8]. -/
  | reservedBitsN
  /-- A CONFIGURE word with a non-zero bit in [15:12] or [31:21]. -/
  | reservedBitsC
deriving DecidableEq, Repr

/-- `v[lo+len-1 : lo]` as an unsigned integer (spec/00_scope.md R13). -/
def field (v : Word) (lo len : Nat) : Nat := (v.toNat >>> lo) % 2 ^ len

/-- A row of R92's opcode map: `w` is the command iff `w & mask = pattern`. -/
structure OpcodeRow where
  pattern : Word
  mask : Word
deriving DecidableEq, Repr

/-- Whether a word is the row's command (R92). -/
def OpcodeRow.matchesWord (r : OpcodeRow) (w : Word) : Bool := w &&& r.mask == r.pattern

/-- The row of each command (R92's table). -/
def Instr.row : Instr → OpcodeRow
  | .configure _ _ => ⟨0x00000001#32, 0xFFE0F0FF#32⟩
  | .reset => ⟨0x00000002#32, 0xFFFFFFFF#32⟩
  | .store => ⟨0x00000003#32, 0xFFFFFFFF#32⟩
  | .storeRange => ⟨0x00000004#32, 0xFFFFFFFF#32⟩
  | .findLongestMatch => ⟨0x00000005#32, 0xFFFFFFFF#32⟩
  | .findAllMatches => ⟨0x00000006#32, 0xFFFFFFFF#32⟩
  | .prependCustomDictionary => ⟨0x00000007#32, 0xFFFFFFFF#32⟩

/-- The command whose opcode (bits [7:0]) and, for CONFIGURE, immediates stand in the word, reserved bits not looked at
(R90, R91). -/
def candidate (w : Word) : Option Instr :=
  match field w 0 8 with
  | 1 => some (.configure (field w 8 4) (field w 16 5))
  | 2 => some .reset
  | 3 => some .store
  | 4 => some .storeRange
  | 5 => some .findLongestMatch
  | 6 => some .findAllMatches
  | 7 => some .prependCustomDictionary
  | _ => none

/-- The decoder (R92, R93). -/
def decode (w : Word) : Except DecodeError Instr :=
  match candidate w with
  | none => .error .unknownOpcode
  | some i =>
    if i.row.matchesWord w then .ok i
    else if field w 0 8 = 1 then .error .reservedBitsC
    else .error .reservedBitsN

/-- The word of a command (R90; R100 gives CONFIGURE's as `0x01 | q << 8 | lgwin << 16`). -/
def encode : Instr → Word
  | .configure quality lgwin => 0x01#32 ||| BitVec.ofNat 32 quality <<< 8 ||| BitVec.ofNat 32 lgwin <<< 16
  | .reset => 0x02#32
  | .store => 0x03#32
  | .storeRange => 0x04#32
  | .findLongestMatch => 0x05#32
  | .findAllMatches => 0x06#32
  | .prependCustomDictionary => 0x07#32

/-- The instruction the decoder reads from an instruction whose bits are `w` (bit 0 least significant; a command word is
one 32-bit word, R90, so bits above `nbits` are 0 and a number of more than 32 bits is no command word). -/
def decodeTableWord (nbits w : Nat) : Option Instr :=
  if w < 2 ^ nbits ∧ w < 2 ^ 32 then
    match decode (BitVec.ofNat 32 w) with
    | .ok i => some i
    | .error _ => none
  else none

end Sys2Proof
end

