-- ==== Sys2Proof/Machine/Sparse.lean ====
section
/-!
DEFINITION. Sparse arrays: a list of (index, value) pairs in one canonical form, with one value that every unlisted
index reads as. VIEW, MATCH, the DICT tables and the index tables are held this way (notes/assumptions/10.md, 13.md).
Canonical: indices strictly rising, and no listed value equal to what an unlisted index reads as.
-/
namespace Sys2Proof.Machine

/-- An array by number; an index not listed reads as the array's default, which each use names. -/
abbrev Sparse (α : Type) := List (Nat × α)

namespace Sparse

/-- The element at `i`; `d` is what an unlisted index reads as. -/
def get {α : Type} (d : α) : Sparse α → Nat → α
  | [], _ => d
  | (a, v) :: rest, i => if a = i then v else get d rest i

/-- The list without index `i`. -/
def erase {α : Type} (i : Nat) : Sparse α → Sparse α
  | [] => []
  | (a, v) :: rest => if a = i then erase i rest else (a, v) :: erase i rest

/-- Puts the pair before the first larger index. -/
def insert {α : Type} (i : Nat) (v : α) : Sparse α → Sparse α
  | [] => [(i, v)]
  | (a, w) :: rest => if i < a then (i, v) :: (a, w) :: rest else (a, w) :: insert i v rest

/-- The array with `v` at `i`. Writing the default removes the entry. -/
def set {α : Type} [DecidableEq α] (d : α) (t : Sparse α) (i : Nat) (v : α) : Sparse α :=
  if v = d then erase i t else insert i v (erase i t)

/-- The canonical form. -/
abbrev Wf {α : Type} [DecidableEq α] (d : α) (t : Sparse α) : Prop :=
  t.Pairwise (fun p q => p.1 < q.1) ∧ ∀ p ∈ t, p.2 ≠ d

/-- Every listed index is below `n`. -/
abbrev Below {α : Type} (n : Nat) (t : Sparse α) : Prop := ∀ p ∈ t, p.1 < n

end Sparse

/-- A byte memory: (address, byte) pairs. -/
abbrev Memory := List Host.Cell

namespace Memory

/-- What a byte nothing has written reads as (notes/assumptions/10.md, DESIGN CHOICE). -/
def unwritten : Byte := 0#8

/-- The byte at an address. -/
def read (m : Memory) (a : Nat) : Byte := Sparse.get unwritten m a

/-- The memory with one byte written. -/
def write (m : Memory) (a : Nat) (b : Byte) : Memory := Sparse.set unwritten m a b

/-- The memory with consecutive bytes written, the address of the `j`-th being `at' + j` masked as `place` says. -/
def writeMany (place : Nat → Nat) : Memory → Nat → List Byte → Memory
  | m, _, [] => m
  | m, j, b :: rest => writeMany place (write m (place j) b) (j + 1) rest

/-- The canonical form of a byte memory. -/
abbrev wf (m : Memory) : Prop := Sparse.Wf unwritten m

end Memory

end Sys2Proof.Machine
end

