-- ==== Sys2Proof/Config.lean ====
section
/-!
DEFINITION. The parameters of an instance of the engine (spec/00_scope.md R9 to R11): their types, their
well-formedness conditions, and the free values. The parameters themselves are plain data in State, changed by no step
(notes/assumptions/5.md); their values at reset are in Machine/Defaults.lean.
-/
namespace Sys2Proof

/-- The quick strategies, quality 1 to 4 (R8). -/
inductive QuickStrategy where
  | h1 | h2 | h3 | h4
deriving DecidableEq, Repr

/-- The block-chain strategies, quality 5 to 9 (R8). -/
inductive ChainStrategy where
  | h5 | h6 | h7 | h8 | h9
deriving DecidableEq, Repr

/-- The ten strategies in their three families (R1, R8); the binary-tree family is H10 alone. -/
inductive Strategy where
  | quick (h : QuickStrategy)
  | chain (h : ChainStrategy)
  | tree
deriving DecidableEq, Repr

/-- A quick row of `STRATEGY` (R9): `k`, `s`, `use_dict`. -/
structure QuickParams where
  bucketBits : Nat
  sweep : Nat
  useDict : Bool
deriving DecidableEq, Repr

/-- A block-chain row of `STRATEGY` (R9): `k`, `b`, `last_dist_to_check`. -/
structure ChainParams where
  bucketBits : Nat
  blockBits : Nat
  lastDistToCheck : Nat
deriving DecidableEq, Repr

/-- The table `STRATEGY[q]` (R9); the H10 row's widths are constants (R7). -/
structure StrategyTable where
  h1 : QuickParams
  h2 : QuickParams
  h3 : QuickParams
  h4 : QuickParams
  h5 : ChainParams
  h6 : ChainParams
  h7 : ChainParams
  h8 : ChainParams
  h9 : ChainParams
deriving DecidableEq, Repr

/-- The five read-only tables of the static dictionary (spec/20_memory.md R63); the first four list their non-zero
entries, the fifth is the byte table, its length `DICT_BYTES_LEN`. -/
structure Dict where
  hash : Machine.Sparse (BitVec 16)
  offsetsByLength : Machine.Sparse Word
  sizeBitsByLength : Machine.Sparse Byte
  cutoffTransforms : Machine.Sparse Byte
  bytes : List Byte
deriving DecidableEq, Repr

/-- One present answer of `DICT_ALL_MATCHES` (spec/42_static_dictionary.md R147): a word id and a length code in
1..31, held as the code less one. -/
structure DictHit where
  wordId : Word
  lenCodeLess1 : Fin 31
deriving DecidableEq, Repr

/-- The length code of a hit, 1..31 (R147). -/
def DictHit.lenCode (h : DictHit) : Nat := h.lenCodeLess1.val + 1

/-- One line of a `DICT_ALL_MATCHES` given as data: its three arguments, the length, the answer. -/
structure DictAllEntry where
  bytes : List Byte
  minLen : Nat
  maxLen : Nat
  len : Nat
  hit : DictHit
deriving DecidableEq, Repr

/-- The open parameter `DICT_ALL_MATCHES` (R147): the platform's own function, about which nothing is known, or a
function given by the list of its present answers (notes/assumptions/8.md). -/
inductive DictAllMatches where
  | external
  | table (entries : List DictAllEntry)
deriving DecidableEq, Repr

/-- Every parameter of R11. -/
structure Params where
  /-- `ENGINE_BASE`, the bus address of the register block. -/
  engineBase : Nat
  strategy : StrategyTable
  /-- `DIST_INDEX[0..15]`, each in 0..3 (R10). -/
  distIndex : Vector (Fin 4) 16
  /-- `DIST_OFFSET[0..15]` (R10). -/
  distOffset : Vector Int 16
  /-- `H10_NICE_LENGTH`. -/
  h10NiceLength : Nat
  /-- `H10_MAX_SEARCH_DEPTH`. -/
  h10MaxSearchDepth : Nat
  /-- `DICT_MAX_LEN`. -/
  dictMaxLen : Nat
  dict : Dict
  dictAllMatches : DictAllMatches
deriving DecidableEq, Repr

/-- The row of a quick strategy. -/
def StrategyTable.quick (t : StrategyTable) : QuickStrategy → QuickParams
  | .h1 => t.h1
  | .h2 => t.h2
  | .h3 => t.h3
  | .h4 => t.h4

/-- The row of a block-chain strategy. -/
def StrategyTable.chain (t : StrategyTable) : ChainStrategy → ChainParams
  | .h5 => t.h5
  | .h6 => t.h6
  | .h7 => t.h7
  | .h8 => t.h8
  | .h9 => t.h9

/-- FREE VALUE: `DICT_ALL_MATCHES(bytes, min_len, max_len)` at a length, of the platform's own dictionary
(R147: "may assume nothing else about it"). -/
opaque Config.dictAllMatches (bytes : List Byte) (minLen maxLen len : Nat) : Option DictHit

/-- FREE VALUE: what a read of `DICT_BYTES` beyond `DICT_BYTES_LEN` returns (spec/20_memory.md R63 calls it a defect of
the supplied tables; spec/93 U25). -/
opaque Config.dictByteOutside (offset : Nat) : Byte

/-- R9's constraints on a quick row. -/
abbrev QuickParams.WellFormed (p : QuickParams) : Prop :=
  (p.sweep = 1 ∨ p.sweep = 2 ∨ p.sweep = 4) ∧ 1 ≤ p.bucketBits ∧ p.bucketBits ≤ 32

/-- R9's constraints on a block-chain row. -/
abbrev ChainParams.WellFormed (p : ChainParams) : Prop :=
  1 ≤ p.bucketBits ∧ p.bucketBits ≤ 32 ∧ p.blockBits ≤ 16 ∧
    (p.lastDistToCheck = 4 ∨ p.lastDistToCheck = 10 ∨ p.lastDistToCheck = 16)

/-- R9's constraints on `STRATEGY`. -/
abbrev StrategyTable.WellFormed (t : StrategyTable) : Prop :=
  t.h1.WellFormed ∧ t.h2.WellFormed ∧ t.h3.WellFormed ∧ t.h4.WellFormed ∧
    t.h5.WellFormed ∧ t.h6.WellFormed ∧ t.h7.WellFormed ∧ t.h8.WellFormed ∧ t.h9.WellFormed

/-- R63's conditions on the DICT tables: each is in its canonical form and inside its index range, size bits are below
32, and the word of every `DICT_HASH` entry with `L ≥ 1` lies inside `DICT_BYTES`. -/
abbrev Dict.WellFormed (d : Dict) : Prop :=
  (Machine.Sparse.Wf 0#16 d.hash ∧ Machine.Sparse.Below 32768 d.hash) ∧
  (Machine.Sparse.Wf 0#32 d.offsetsByLength ∧ Machine.Sparse.Below 32 d.offsetsByLength) ∧
  (Machine.Sparse.Wf 0#8 d.sizeBitsByLength ∧ Machine.Sparse.Below 32 d.sizeBitsByLength ∧
    ∀ p ∈ d.sizeBitsByLength, p.2.toNat < 32) ∧
  (Machine.Sparse.Wf 0#8 d.cutoffTransforms ∧ Machine.Sparse.Below 10 d.cutoffTransforms) ∧
  ∀ p ∈ d.hash, p.2.toNat % 32 ≠ 0 →
    (Machine.Sparse.get 0#32 d.offsetsByLength (p.2.toNat % 32)).toNat +
      p.2.toNat % 32 * (p.2.toNat / 32) + p.2.toNat % 32 ≤ d.bytes.length

/-- The conditions the spec puts on the parameters (R9, R10, R11, R63, R189). -/
abbrev Params.WellFormed (p : Params) : Prop :=
  p.strategy.WellFormed ∧
  (p.distIndex[0] = 0 ∧ p.distOffset[0] = 0) ∧
  4 ≤ p.h10NiceLength ∧ 1 ≤ p.h10MaxSearchDepth ∧ p.dictMaxLen < 325 ∧
  p.dict.WellFormed

end Sys2Proof
end

