-- ==== Sys2Proof/Machine/Defaults.lean ====
section
/-!
DEFINITION. The values the parameters have at `State.reset`: the spec's defaults where it gives one (spec/00_scope.md R9
to R11; cells marked general knowledge there), else values a log entry names (notes/assumptions/4.md to 8.md).
No meaning reads this file: every meaning reads the parameters from the state.
-/
namespace Sys2Proof.Machine

/-- R9's default table. -/
def defaultStrategy : StrategyTable where
  h1 := ⟨16, 1, true⟩
  h2 := ⟨16, 2, false⟩
  h3 := ⟨16, 4, false⟩
  h4 := ⟨17, 4, true⟩
  h5 := ⟨14, 4, 4⟩
  h6 := ⟨14, 5, 4⟩
  h7 := ⟨15, 6, 10⟩
  h8 := ⟨15, 7, 10⟩
  h9 := ⟨15, 8, 16⟩

/-- R10's default `DIST_INDEX`. -/
def defaultDistIndex : Vector (Fin 4) 16 := #v[0, 1, 2, 3, 0, 0, 0, 0, 0, 0, 1, 1, 1, 1, 1, 1]

/-- R10's default `DIST_OFFSET`. -/
def defaultDistOffset : Vector Int 16 := #v[0, 0, 0, 0, -1, 1, -2, 2, -3, 3, -1, 1, -2, 2, -3, 3]

/-- The empty dictionary: every `DICT_HASH` entry is a miss (notes/assumptions/7.md). -/
def emptyDict : Dict where
  hash := []
  offsetsByLength := []
  sizeBitsByLength := []
  cutoffTransforms := []
  bytes := []

/-- The parameters at reset. -/
def defaultParams : Params where
  engineBase := 0
  strategy := defaultStrategy
  distIndex := defaultDistIndex
  distOffset := defaultDistOffset
  h10NiceLength := 8
  h10MaxSearchDepth := 4
  dictMaxLen := 37
  dict := emptyDict
  dictAllMatches := .external

end Sys2Proof.Machine
end

