-- ==== Sys2Proof/Machine/State.lean ====
section
/-!
DEFINITION. The state of one engine (spec/10_state.md R20 to R34), the memories of the platform it reads and writes
(spec/20_memory.md R60), the host accesses still to come, and the parameters of the instance. Plain data throughout.
-/
namespace Sys2Proof.Machine

/-- Why the machine stops. The engine's own five faults are no stops: each is a next state (R252). -/
inductive Fault where
  /-- Raised by `step` for a host access to the register block that R27 does not offer: not word aligned, below
  `ENGINE_BASE`, or at offset 0x80 or above (spec/93 U21, "outside the spec"). Safe (notes/assumptions/3.md). -/
  | hostAccessOutsideMap
deriving DecidableEq, Repr

/-- Why a step has no meaning. -/
inductive Refusal where
  /-- Raised by an arm of `exec` whose instruction has no meaning yet; no arm does. Safe. -/
  | notModelled (mnemonic : String)
deriving DecidableEq, Repr

/-- The value of `STATUS.ERR` (spec/60_exceptions.md R251); codes 6 to 15 are never produced. -/
inductive ErrCode where
  | none
  | illegalCmd
  | notConfigured
  | badConfig
  | unsupported
  | badMask
deriving DecidableEq, Repr

/-- The index tables: those of the one configured strategy, and only those (R31 to R34). Before the first CONFIGURE none
exists (R280). Which strategy's they are is also what `STATUS.CONFIGURED` and `CONFIG.QUALITY` say
(notes/assumptions/12.md). -/
inductive Index where
  | absent
  /-- `QB` of H1 to H4 (R31); unlisted slots read 0. -/
  | quick (h : QuickStrategy) (qb : Sparse Word)
  /-- `NUM` and `RING` of H5 to H9 (R32), `RING[key][j]` at number `key * 2^b + j`; unlisted elements read 0. -/
  | chain (h : ChainStrategy) (num : Sparse (BitVec 16)) (ring : Sparse Word)
  /-- `HT` and `CHILD` of H10 (R33); unlisted elements read `SENTINEL`. -/
  | tree (ht child : Sparse Word)
deriving DecidableEq, Repr

/-- One access by the host (spec/10_state.md R27, spec/20_memory.md R60, R100, spec/70 R280). -/
inductive HostAction where
  /-- Write a word to the register block at a bus address. -/
  | write (address : Nat) (value : Word)
  /-- Read a word of the register block at a bus address. -/
  | read (address : Nat)
  /-- The owner writes one byte of VIEW at a byte address. -/
  | viewWrite (address : Word) (value : Byte)
  /-- The owner reads one byte of VIEW at a byte address. -/
  | viewRead (address : Word)
  /-- The script's `view <pos>, "<bytes>"`: bytes at positions `pos, pos+1, …` through RING_MASK (R100). -/
  | view (position : Word) (bytes : List Byte)
  /-- The owner reads one MATCH record by number. -/
  | matchRead (record : Word)
  /-- Power-on reset (R280). -/
  | powerOn
deriving DecidableEq, Repr

structure State where
  /-- `x[0..15]` (R21). -/
  x : Vector Word 16
  /-- `BEST_SCORE`, an i64 in hundredths (R22). -/
  bestScore : Word64
  /-- `CMD` (R23). -/
  cmd : Word
  /-- `STATUS.ERR` (R24). -/
  err : ErrCode
  /-- `STATUS.ERR_OP` (R24). -/
  errOp : Byte
  /-- `CONFIG.LGWIN` (R25). -/
  lgwin : BitVec 5
  /-- `RING_MASK` (R26). -/
  ringMask : Word
  /-- `NUM_DICT_LOOKUPS` (R29). -/
  numDictLookups : Word64
  /-- `NUM_DICT_MATCHES` (R29). -/
  numDictMatches : Word64
  /-- The index tables, and with them `STATUS.CONFIGURED` and `CONFIG.QUALITY`. -/
  index : Index
  /-- The bytes of VIEW (spec/20_memory.md R61). -/
  view : Memory
  /-- The MATCH records (spec/20_memory.md R64). -/
  matchSpace : Sparse Word64
  /-- The parameters of the instance (spec/00_scope.md R11); no step changes them. -/
  params : Params
  /-- The model's own: what the last host read returned (notes/assumptions/2.md). -/
  readData : Word64
  /-- The model's own: the host accesses still to come, in order (notes/assumptions/1.md). -/
  host : List HostAction
deriving DecidableEq, Repr

/-- Right after power-on reset (R38, R280), with the parameters of Machine/Defaults.lean, nothing written to VIEW or
MATCH, and no host access pending. -/
def State.reset : State where
  x := Vector.replicate 16 0#32
  bestScore := 0#64
  cmd := 0#32
  err := .none
  errOp := 0#8
  lgwin := 0#5
  ringMask := 0#32
  numDictLookups := 0#64
  numDictMatches := 0#64
  index := .absent
  view := []
  matchSpace := []
  params := defaultParams
  readData := 0#64
  host := []

end Sys2Proof.Machine
end

