-- ==== Sys2Proof/Machine/Ops.lean ====
section
/-!
DEFINITION. The shared operations: registers, VIEW and its loads (spec/20_memory.md R62, spec/40_primitives.md R110 to
R119), recording and clearing a fault (spec/60_exceptions.md R252, R254), power-on reset (spec/70 R280), the index tables
in their RESET state (spec/46_commands.md R222).
-/
namespace Sys2Proof.Machine

/-! Registers. -/

/-- Reads `x[i]`. -/
def State.getX (s : State) (i : Fin 16) : Word := s.x[i]

/-- Writes `x[i]`. -/
def State.setX (s : State) (i : Fin 16) (v : Word) : State := { s with x := s.x.set i v }

/-! The stream view. -/

/-- `VIEW` as a command sees it: the bytes and `RING_MASK` (R61). -/
structure Ring where
  bytes : Memory
  mask : Word
deriving DecidableEq, Repr

/-- The view of a state. -/
def State.ring (s : State) : Ring := ⟨s.view, s.ringMask⟩

/-- `ViewByte(p)` (R62): the byte at address `(p mod 2^32) & RING_MASK`; `p` is the position modulo 2^32. -/
def Ring.byte (r : Ring) (p : Word) : Byte := r.bytes.read (p &&& r.mask).toNat

/-- The byte at position `p + j`, each byte masked on its own (R62). -/
def Ring.byteAt (r : Ring) (p : Word) (j : Nat) : Byte := r.byte (p + BitVec.ofNat 32 j)

/-- `Load16(p)` (R110), little-endian. -/
def load16 (r : Ring) (p : Word) : BitVec 16 := r.byteAt p 1 ++ r.byteAt p 0

/-- `Load32(p)` (R111), little-endian. -/
def load32 (r : Ring) (p : Word) : Word :=
  r.byteAt p 3 ++ r.byteAt p 2 ++ r.byteAt p 1 ++ r.byteAt p 0

/-- `Load64(p)` (R112), little-endian. -/
def load64 (r : Ring) (p : Word) : Word64 :=
  r.byteAt p 7 ++ r.byteAt p 6 ++ r.byteAt p 5 ++ r.byteAt p 4 ++
    (r.byteAt p 3 ++ r.byteAt p 2 ++ r.byteAt p 1 ++ r.byteAt p 0)

/-- `ToU24(w)` (R113). -/
def toU24 (w : Word) : Word := w &&& 0x00FFFFFF#32

/-- `ToU16(w)` (R114). -/
def toU16 (w : Word) : Word := w &&& 0x0000FFFF#32

/-- `PrefixMatch(a, b, limit)` (R116): the number of equal leading bytes, at most `limit`. -/
def prefixMatch (r : Ring) (a b : Word) : Nat → Nat
  | 0 => 0
  | limit + 1 => if r.byte a = r.byte b then prefixMatch r (a + 1#32) (b + 1#32) limit + 1 else 0

/-- `HASH_MUL` (spec/00_scope.md R7). -/
def hashMul : Nat := 0x1E35A7BD

/-- `Hash32(w, k)` (R117): the top `k` bits of the product modulo 2^32. -/
def hash32 (w : Word) (k : Nat) : Nat := ((w * BitVec.ofNat 32 hashMul) >>> (32 - k)).toNat

/-- `Hash5(p, k)` (R118): the top `k` bits of the 64-bit product of the load shifted left by 24. -/
def hash5 (r : Ring) (p : Word) (k : Nat) : Nat :=
  (((load64 r p <<< 24) * BitVec.ofNat 64 hashMul) >>> (64 - k)).toNat

/-- `(cur − prev) mod 2^32` (R119), the candidate distance. -/
def backward (cur prev : Word) : Word := cur - prev

/-! Faults. -/

/-- `raise E` (R252), the one way a fault is recorded: CMD already holds the word. -/
def raise (e : ErrCode) (s : State) : State := { s with err := e, errOp := s.cmd.setWidth 8 }

/-- What a STATUS write does (R254), the return from a fault. -/
def clearErr (s : State) : State := { s with err := .none, errOp := 0#8 }

/-! Resets. -/

/-- Power-on reset (R38, R280): the engine's state is as after `State.reset`; VIEW, MATCH, the parameters and the host's
own side stay. -/
def powerOn (s : State) : State :=
  { State.reset with
    view := s.view, matchSpace := s.matchSpace, params := s.params, readData := s.readData, host := s.host }

/-- The tables of a strategy in their RESET state (R222, R31 to R33): nothing listed, so every element reads 0 (quick,
block-chain) or `SENTINEL` (H10). -/
def freshIndex : Strategy → Index
  | .quick h => .quick h []
  | .chain h => .chain h [] []
  | .tree => .tree [] []

/-- The strategy whose tables exist (R34). -/
def Index.strategy? : Index → Option Strategy
  | .absent => none
  | .quick h _ => some (.quick h)
  | .chain h _ _ => some (.chain h)
  | .tree _ _ => some .tree

/-- The tables in their RESET state; none stay none. -/
def Index.cleared (t : Index) : Index :=
  match t.strategy? with
  | none => .absent
  | some h => freshIndex h

/-- The strategy that a quality selects (spec/00_scope.md R8); none outside 1..10. -/
def strategyOfQuality : Nat → Option Strategy
  | 1 => some (.quick .h1)
  | 2 => some (.quick .h2)
  | 3 => some (.quick .h3)
  | 4 => some (.quick .h4)
  | 5 => some (.chain .h5)
  | 6 => some (.chain .h6)
  | 7 => some (.chain .h7)
  | 8 => some (.chain .h8)
  | 9 => some (.chain .h9)
  | 10 => some .tree
  | _ => none

/-! The MATCH space. -/

/-- What a MATCH record nothing has written reads as (notes/assumptions/10.md, DESIGN CHOICE). -/
def unwrittenRecord : Word64 := 0#64

/-- A MATCH record by number (R64). -/
def State.matchRecord (s : State) (n : Word) : Word64 := Sparse.get unwrittenRecord s.matchSpace n.toNat

/-- The MATCH space with records written at consecutive numbers modulo 2^32. -/
def writeRecords (m : Sparse Word64) (base : Word) : List Word64 → Sparse Word64
  | [] => m
  | v :: rest => writeRecords (Sparse.set unwrittenRecord m base.toNat v) (base + 1#32) rest

/-! Repetition over consecutive positions. -/

/-- Applies a store at positions `ix, ix+1, …` modulo 2^32, ascending (R224, R227). -/
def storeMany {α : Type} (store : Word → α → α) : Nat → Word → α → α
  | 0, _, t => t
  | n + 1, ix, t => storeMany store n (ix + 1#32) (store ix t)

end Sys2Proof.Machine
end

