-- ==== Sys2Proof/Machine/Operands.lean ====
section
/-!
DEFINITION. Where a command's operands are (spec/10_state.md R21): the register aliases, the last-distance cache
(spec/44_block_chain_matcher.md R183), and the MATCH record format (spec/20_memory.md R64).
-/
namespace Sys2Proof.Machine

/-! Register aliases (R21). -/

abbrev regCurIx : Fin 16 := 0
abbrev regMaxLength : Fin 16 := 1
abbrev regMaxBackward : Fin 16 := 2
abbrev regCount : Fin 16 := 3
abbrev regBestLen : Fin 16 := 4
abbrev regBestLenCode : Fin 16 := 5
abbrev regBestDistance : Fin 16 := 6
abbrev regResult : Fin 16 := 7
abbrev regDistCache0 : Fin 16 := 8
abbrev regMatchBase : Fin 16 := 12

/-- `DIST_CACHE<j>`, read as `i32` (R21, R119). -/
def State.distCache (s : State) (j : Fin 4) : Int := (s.getX ⟨8 + j.val, by omega⟩).toInt

/-- `CacheCandidate(i)` (R183), a mathematical integer. -/
def cacheCandidate (s : State) (i : Fin 16) : Int := s.distCache s.params.distIndex[i] + s.params.distOffset[i]

/-- `CacheCandidateOK(backward, cur, maxback)` (R183). -/
def cacheCandidateOK (d : Int) (cur maxback : Word) : Bool :=
  decide (1 ≤ d) && decide (d ≤ (cur.toNat : Int)) && decide (d ≤ (maxback.toNat : Int))

/-- A match of FIND_ALL_MATCHES: `(distance, length, length_code)`. -/
structure MatchRec where
  distance : Word
  length : Nat
  lengthCode : Nat
deriving DecidableEq, Repr

/-- The 5-bit code of a record: 0 when the length code is the length (R64). -/
def MatchRec.code (m : MatchRec) : Nat := if m.lengthCode = m.length then 0 else m.lengthCode

/-- `Pack(m)` (R64, R187): distance in [31:0], `(length << 5 | code)` truncated to 32 bits in [63:32]. -/
def MatchRec.pack (m : MatchRec) : Word64 := BitVec.ofNat 32 (m.length <<< 5 ||| m.code) ++ m.distance

/-- The output step of FIND_ALL_MATCHES (R187, R206): record `j` to `MATCH[(x[12] + j) mod 2^32]`, the count to `x[7]`. -/
def outputMatches (ms : List MatchRec) (s : State) : State :=
  { s with matchSpace := writeRecords s.matchSpace (s.getX regMatchBase) (ms.map MatchRec.pack) }.setX regResult
    (BitVec.ofNat 32 ms.length)

end Sys2Proof.Machine
end

