-- ==== Sys2Proof/Machine/Flags.lean ====
section
/-!
DEFINITION. The status-like computations: the words STATUS and CONFIG read as (spec/10_state.md R24, R25), the ring-mask
check (spec/46_commands.md R220), the window mask and the sentinel (spec/10_state.md R33), the throttle gate
(spec/42_static_dictionary.md R145). There are no condition codes (R30).
-/
namespace Sys2Proof.Machine

/-- The code of a fault (spec/60_exceptions.md R251). -/
def ErrCode.code : ErrCode → Nat
  | .none => 0
  | .illegalCmd => 1
  | .notConfigured => 2
  | .badConfig => 3
  | .unsupported => 4
  | .badMask => 5

/-- The quality that selects a strategy (spec/00_scope.md R8). -/
def Strategy.quality : Strategy → Nat
  | .quick .h1 => 1
  | .quick .h2 => 2
  | .quick .h3 => 3
  | .quick .h4 => 4
  | .chain .h5 => 5
  | .chain .h6 => 6
  | .chain .h7 => 7
  | .chain .h8 => 8
  | .chain .h9 => 9
  | .tree => 10

/-- `STATUS.CONFIGURED` (R24). -/
def State.configured (s : State) : Bool := s.index.strategy?.isSome

/-- `CONFIG.QUALITY` (R25): 0 before the first CONFIGURE. -/
def State.quality (s : State) : Nat :=
  match s.index.strategy? with
  | none => 0
  | some h => Strategy.quality h

/-- The word STATUS reads as (R24): CONFIGURED [0], BUSY [1] = 0, ERR [7:4], ERR_OP [15:8], the rest 0. -/
def State.statusWord (s : State) : Word :=
  BitVec.ofNat 32 ((if s.configured then 1 else 0) + s.err.code * 2 ^ 4 + s.errOp.toNat * 2 ^ 8)

/-- The word CONFIG reads as (R25): QUALITY [3:0], LGWIN [12:8], the rest 0. -/
def State.configWord (s : State) : Word := BitVec.ofNat 32 (s.quality + s.lgwin.toNat * 2 ^ 8)

/-- `window_mask = 2^LGWIN − 1` (R8, R25). -/
def windowMask (lgwin : BitVec 5) : Nat := 2 ^ lgwin.toNat - 1

/-- `SENTINEL = (2^32 − window_mask) mod 2^32` (R33). -/
def sentinel (lgwin : BitVec 5) : Word := BitVec.ofNat 32 (2 ^ 32 - windowMask lgwin)

/-- Whether the live tables are H10's. -/
def Index.isTree : Index → Bool
  | .tree _ _ => true
  | .absent => false
  | .quick _ _ => false
  | .chain _ _ _ => false

/-- `MaskOK()` (R220): `m & (m + 1) = 0`, and on H10 `m ≥ window_mask`. -/
def maskOK (s : State) : Bool :=
  (s.ringMask &&& (s.ringMask + 1#32) == 0#32) &&
    (!s.index.isTree || decide (windowMask s.lgwin ≤ s.ringMask.toNat))

/-- The throttle gate (R145): `NUM_DICT_MATCHES >= (NUM_DICT_LOOKUPS >> 7)`. -/
def throttleOpen (lookups hits : Word64) : Bool := decide (lookups >>> 7 ≤ hits)

end Sys2Proof.Machine
end

