-- ==== Sys2Proof/Machine/Score.lean ====
section
/-!
DEFINITION. Distance-length scoring (spec/41_scoring.md R130 to R132): exact integers in hundredths, and the running best
of a FIND_LONGEST_MATCH (spec/43_quick_matcher.md R163, `Take`).
-/
namespace Sys2Proof.Machine

/-- `Score(L, D)` (R131); callers have `D ≥ 1`. -/
def score (len : Nat) (dist : Word) : Int := 540 * (len : Int) - 120 * (Nat.log2 dist.toNat : Int)

/-- The cost table `C100` (R132). -/
def shortCodeCost : Vector Int 16 := #v[-60, 95, 117, 127, 93, 93, 96, 96, 99, 99, 105, 105, 115, 115, 125, 125]

/-- `ScoreLast(L, i)` (R132). -/
def scoreLast (len : Nat) (i : Fin 16) : Int := 540 * (len : Int) - shortCodeCost[i]

/-- What a FIND_LONGEST_MATCH carries along: the running best (x[4], x[5], x[6], BEST_SCORE), whether any candidate was
accepted, and the throttle counters. Commands are atomic, so the registers take these values at its end
(notes/assumptions/14.md). -/
structure Search where
  bestLen : Word
  bestLenCode : Word
  bestDistance : Word
  bestScore : Int
  found : Bool
  lookups : Word64
  hits : Word64
deriving DecidableEq, Repr

/-- The start of a search: the running best is what the host left in the registers (R163, R185). -/
def Search.start (s : State) : Search where
  bestLen := s.getX regBestLen
  bestLenCode := s.getX regBestLenCode
  bestDistance := s.getX regBestDistance
  bestScore := s.bestScore.toInt
  found := false
  lookups := s.numDictLookups
  hits := s.numDictMatches

/-- A candidate that passed its length test is taken iff its score is strictly better (D13); this is the only place the
running best changes (`Take`, R163). -/
def Search.offer (b : Search) (len code : Nat) (dist : Word) (sc : Int) : Search :=
  if b.bestScore < sc then
    { b with
      bestLen := BitVec.ofNat 32 len, bestLenCode := BitVec.ofNat 32 code, bestDistance := dist, bestScore := sc,
      found := true }
  else b

/-- The gate (D15): the bytes at offset `best_len` of the candidate and of the current position are equal. -/
def Search.gate (b : Search) (r : Ring) (prev cur : Word) : Bool := r.byte (prev + b.bestLen) == r.byte (cur + b.bestLen)

/-- The end of a search: RESULT on every execution, the other outputs only on improvement (R225). -/
def Search.finish (b : Search) (s : State) : State :=
  let counted := { s with numDictLookups := b.lookups, numDictMatches := b.hits }
  if b.found then
    ({ counted with bestScore := BitVec.ofInt 64 b.bestScore }.setX regBestLen b.bestLen
      |>.setX regBestLenCode b.bestLenCode |>.setX regBestDistance b.bestDistance).setX regResult 1#32
  else counted.setX regResult 0#32

end Sys2Proof.Machine
end

