-- ==== Sys2Proof/Machine/Dictionary.lean ====
section
/-!
DEFINITION. The static-dictionary probe and throttle (spec/42_static_dictionary.md R140 to R147).
-/
namespace Sys2Proof.Machine

/-- `DictKey(cur_ix)` (R140). -/
def dictKey (r : Ring) (cur : Word) : Nat := hash32 (load32 r cur) 14 <<< 1

/-- `DICT_BYTES[off]`; beyond `DICT_BYTES_LEN` a free value (notes/assumptions/9.md). -/
def dictByte (d : Dict) (off : Nat) : Byte :=
  match d.bytes[off]? with
  | some b => b
  | none => Config.dictByteOutside off

/-- `PrefixMatchDict(p, off, limit)` (R142). -/
def prefixMatchDict (d : Dict) (r : Ring) (p : Word) (off : Nat) : Nat → Nat
  | 0 => 0
  | limit + 1 => if r.byte p = dictByte d off then prefixMatchDict d r (p + 1#32) (off + 1) limit + 1 else 0

/-- The length of a `DICT_HASH` entry, bits [4:0] (R141). -/
def dictEntryLen (v : BitVec 16) : Nat := v.toNat % 32

/-- The slot of a `DICT_HASH` entry, bits [15:5] (R141). -/
def dictEntrySlot (v : BitVec 16) : Nat := v.toNat / 32

/-- Where the word of an entry starts in `DICT_BYTES` (R142). -/
def dictWordOffset (d : Dict) (len slot : Nat) : Nat := (Sparse.get 0#32 d.offsetsByLength len).toNat + len * slot

/-- `word_id = T × 2^size_bits[L] + slot` with `T` the transform of the shortfall (R143). -/
def dictWordId (d : Dict) (len slot shortfall : Nat) : Nat :=
  (Sparse.get 0#8 d.cutoffTransforms shortfall).toNat * 2 ^ (Sparse.get 0#8 d.sizeBitsByLength len).toNat + slot

/-- The synthetic distance of a word id (R143, R147): `(max_backward + word_id + 1) mod 2^32`. -/
def dictDistance (maxback : Word) (wordId : Nat) : Word := BitVec.ofNat 32 (maxback.toNat + wordId + 1)

/-- What `DictProbe` finds. -/
structure DictCandidate where
  distance : Word
  length : Nat
  lengthCode : Nat
  score : Int
deriving DecidableEq, Repr

/-- The part of `DictProbe` that looks at one entry (R143), tests in its order. -/
def dictLookup (d : Dict) (r : Ring) (cur maxlen maxback : Word) (idx : Nat) : Option DictCandidate :=
  let v := Sparse.get 0#16 d.hash idx
  let len := dictEntryLen v
  let slot := dictEntrySlot v
  if len = 0 then none
  else if maxlen.toNat < len then none
  else
    let m := prefixMatchDict d r cur (dictWordOffset d len slot) len
    if (len : Int) - 10 < (m : Int) ∧ 0 < m then
      let dist := dictDistance maxback (dictWordId d len slot (len - m))
      if dist = 0#32 then none
      else some { distance := dist, length := m, lengthCode := len, score := score m dist }
    else none

/-- One `DictProbe` call with its counting (R143, R146): a lookup always, a match exactly when the candidate is taken. -/
def dictProbe (d : Dict) (r : Ring) (cur maxlen maxback : Word) (idx : Nat) (b : Search) : Search :=
  let b := { b with lookups := b.lookups + 1#64 }
  match dictLookup d r cur maxlen maxback idx with
  | none => b
  | some c =>
    if b.bestScore < c.score then
      { b with hits := b.hits + 1#64 }.offer c.length c.lengthCode c.distance c.score
    else b

/-- `DICT_ALL_MATCHES(bytes, min_len, max_len)` at a length (R147). -/
def dictAllMatches (d : DictAllMatches) (bytes : List Byte) (lo hi len : Nat) : Option DictHit :=
  match d with
  | .external => Config.dictAllMatches bytes lo hi len
  | .table entries =>
    (entries.find? fun e =>
      e.bytes == bytes && e.minLen == lo && e.maxLen == hi && e.len == len).map DictAllEntry.hit

/-- The bytes `ViewByte(cur_ix + j)` for `j < n` (R147). -/
def viewBytes (r : Ring) (p : Word) : Nat → List Byte
  | 0 => []
  | n + 1 => r.byte p :: viewBytes r (p + 1#32) n

/-- The record of a present length (R189); none where the distance wraps to 0. DEDUCED: R189's text names no such test, R7,
R230 (a), R296, D33 and U9 know no distance 0 and drop the candidate (notes/assumptions/24.md). -/
def dictRecord (maxback : Word) (len : Nat) (h : DictHit) : Option MatchRec :=
  let dist := dictDistance maxback h.wordId.toNat
  if dist = 0#32 then none else some { distance := dist, length := len, lengthCode := h.lenCode }

/-- The dictionary phase of FIND_ALL_MATCHES (R187, R189): the record of each present length `lo .. hi`, ascending. -/
def dictRecords (p : Params) (r : Ring) (cur maxback : Word) (lo hi : Nat) : List MatchRec :=
  (List.range' lo (hi + 1 - lo)).filterMap fun len =>
    (dictAllMatches p.dictAllMatches (viewBytes r cur hi) lo hi len).bind (dictRecord maxback len)

end Sys2Proof.Machine
end

