-- ==== Sys2Proof/Machine/Chain.lean ====
section
/-!
DEFINITION. The block-chain matcher family, H5 to H9 (spec/44_block_chain_matcher.md R180 to R191).
-/
namespace Sys2Proof.Machine

/-- `ChainKey(ix)` (R180). -/
def chainKey (p : ChainParams) (r : Ring) (ix : Word) : Nat := hash32 (load32 r ix) p.bucketBits

/-- `NUM[key]` (R32). -/
def numGet (num : Sparse (BitVec 16)) (key : Nat) : BitVec 16 := Sparse.get 0#16 num key

/-- The number of `RING[key][j]` among the ring entries (R32). -/
def ringNumber (p : ChainParams) (key j : Nat) : Nat := key * 2 ^ p.blockBits + j

/-- `RING[key][j]` (R32). -/
def ringGet (p : ChainParams) (ring : Sparse Word) (key j : Nat) : Word := Sparse.get 0#32 ring (ringNumber p key j)

/-- `ChainStore(ix)` (R181): the ring index is computed before the counter is incremented (R301). -/
def chainStore (p : ChainParams) (r : Ring) (ix : Word) (t : Sparse (BitVec 16) × Sparse Word) :
    Sparse (BitVec 16) × Sparse Word :=
  let key := chainKey p r ix
  let n := numGet t.1 key
  (Sparse.set 0#16 t.1 key (n + 1#16), Sparse.set 0#32 t.2 (ringNumber p key (n.toNat % 2 ^ p.blockBits)) ix)

/-- The bucket's entries, newest first, `min(NUM[key], 2^b)` of them (R182). -/
def chainEntries (p : ChainParams) (r : Ring) (num : Sparse (BitVec 16)) (ring : Sparse Word) (cur : Word) : List Word :=
  let key := chainKey p r cur
  let n := (numGet num key).toNat
  (List.range (min n (2 ^ p.blockBits))).map fun t => ringGet p ring key ((n - 1 - t) % 2 ^ p.blockBits)

/-- `ChainWalk(cur, maxback)` (R182): the walk stops at the first entry beyond `maxback` and skips the self-distance. -/
def chainWalk (p : ChainParams) (r : Ring) (num : Sparse (BitVec 16)) (ring : Sparse Word) (cur maxback : Word) :
    List Word :=
  ((chainEntries p r num ring cur).takeWhile fun prev => decide (backward cur prev ≤ maxback)).filter fun prev =>
    decide (backward cur prev ≠ 0#32)

/-- One last-distance candidate (R185, step 1). -/
def chainCached (s : State) (r : Ring) (cur maxlen maxback : Word) (b : Search) (i : Fin 16) : Search :=
  let d := cacheCandidate s i
  if cacheCandidateOK d cur maxback then
    let dist := BitVec.ofInt 32 d
    let prev := cur - dist
    if b.gate r prev cur then
      let len := prefixMatch r prev cur maxlen.toNat
      if 3 ≤ len ∨ (len = 2 ∧ i.val < 2) then b.offer len len dist (scoreLast len i) else b
    else b
  else b

/-- Step 1 (R185): the first `last_dist_to_check` candidates, ascending. -/
def chainRecent (p : ChainParams) (s : State) (r : Ring) (cur maxlen maxback : Word) (b : Search) : Search :=
  ((List.finRange 16).take p.lastDistToCheck).foldl (chainCached s r cur maxlen maxback) b

/-- One bucket candidate (R185, step 2). -/
def chainProbe (r : Ring) (cur maxlen : Word) (b : Search) (prev : Word) : Search :=
  if b.gate r prev cur then
    let len := prefixMatch r prev cur maxlen.toNat
    if 4 ≤ len then b.offer len len (backward cur prev) (score len (backward cur prev)) else b
  else b

/-- Step 3 (R185, R186): the gate once, then both entries of the pair. -/
def chainDict (d : Dict) (r : Ring) (cur maxlen maxback : Word) (b : Search) : Search :=
  if !b.found && throttleOpen b.lookups b.hits then
    dictProbe d r cur maxlen maxback (dictKey r cur + 1) (dictProbe d r cur maxlen maxback (dictKey r cur) b)
  else b

/-- `ChainFind()` (R185). -/
def chainFind (p : ChainParams) (s : State) (r : Ring) (num : Sparse (BitVec 16)) (ring : Sparse Word)
    (cur maxlen maxback : Word) (b : Search) : Search :=
  if maxlen.toNat < 4 then b
  else
    chainDict s.params.dict r cur maxlen maxback
      ((chainWalk p r num ring cur maxback).foldl (chainProbe r cur maxlen) (chainRecent p s r cur maxlen maxback b))

/-! FIND_ALL_MATCHES. -/

/-- `kMaxZopfliLen` (spec/00_scope.md R7). -/
def maxZopfliLen : Nat := 325

/-- The reach of the near-position probe (spec/00_scope.md R7). -/
def nearReach : Nat := 64

/-- What FIND_ALL_MATCHES carries along: the running best length and the list (R187). -/
structure Collect where
  bestLen : Nat
  ms : List MatchRec
deriving DecidableEq, Repr

/-- `Record` (R187) for a candidate longer than the running best; others leave everything. -/
def Collect.offer (c : Collect) (dist : Word) (len : Nat) : Collect :=
  if c.bestLen < len then
    { bestLen := len, ms := (if maxZopfliLen ≤ len then [] else c.ms) ++ [⟨dist, len, len⟩] }
  else c

/-- Phase 1 (R187): backward 1, 2, … while it is at most 64, `cur` and `maxback` and `best_len ≤ 2`; the first argument
counts down from the reach. -/
def nearProbe (r : Ring) (cur maxlen maxback : Word) : Nat → Word → Collect → Collect
  | 0, _, c => c
  | left + 1, d, c =>
    if d ≤ cur ∧ d ≤ maxback ∧ c.bestLen ≤ 2 then
      nearProbe r cur maxlen maxback left (d + 1#32) (c.offer d (prefixMatch r (cur - d) cur maxlen.toNat))
    else c

/-- One entry of phase 2 (R187), with its gate. -/
def collectProbe (r : Ring) (cur maxlen : Word) (c : Collect) (prev : Word) : Collect :=
  if r.byteAt prev c.bestLen = r.byteAt cur c.bestLen then
    c.offer (backward cur prev) (prefixMatch r prev cur maxlen.toNat)
  else c

/-- Phases 1 and 2 (R187). -/
def chainCollect (p : ChainParams) (r : Ring) (num : Sparse (BitVec 16)) (ring : Sparse Word)
    (cur maxlen maxback : Word) : Collect :=
  (chainWalk p r num ring cur maxback).foldl (collectProbe r cur maxlen)
    (nearProbe r cur maxlen maxback nearReach 1#32 ⟨1, []⟩)

/-- The list of `ChainFindAll()` (R187). -/
def chainFindAll (p : ChainParams) (ps : Params) (r : Ring) (num : Sparse (BitVec 16)) (ring : Sparse Word)
    (cur maxlen maxback : Word) : List MatchRec :=
  if maxlen.toNat < 4 then []
  else
    let c := chainCollect p r num ring cur maxlen maxback
    c.ms ++ dictRecords ps r cur maxback (c.bestLen + 1) (min maxlen.toNat ps.dictMaxLen)

end Sys2Proof.Machine
end

