-- ==== Sys2Proof/Machine/Configuration.lean ====
section
/-!
DEFINITION. CONFIGURE and RESET (spec/46_commands.md R221, R222), and the checks the other commands share (R220,
spec/30_encoding.md R94). A meaning is run only for an accepted word: the refusal while ERR ≠ 0, the store to CMD and the
illegal words are in Machine/HostPort.lean (notes/assumptions/23.md).
-/
namespace Sys2Proof.Machine

/-- The outcome of a command that raises a fault: a next state (R252). -/
def faults (e : ErrCode) (s : State) : Host.Outcome State Fault Refusal := .next (raise e s)

/-- The prelude (R220): E_BAD_MASK, or the body's state. -/
def withPrelude (s : State) (body : State) : Host.Outcome State Fault Refusal :=
  if maskOK s then .next body else faults .badMask s

/-- The tables of a strategy in their RESET state, both throttle counters 0 (R221, R222). -/
def emptyTables (h : Strategy) (s : State) : State :=
  { s with index := freshIndex h, numDictLookups := 0#64, numDictMatches := 0#64 }

/-- CONFIGURE (R221). -/
def execConfigure (quality lgwin : Nat) (s : State) : Host.Outcome State Fault Refusal :=
  match strategyOfQuality quality with
  | none => faults .badConfig s
  | some h =>
    if lgwin < 10 ∨ 24 < lgwin then faults .badConfig s
    else .next { emptyTables h s with lgwin := BitVec.ofNat 5 lgwin }

/-- RESET (R222). -/
def execReset (s : State) : Host.Outcome State Fault Refusal :=
  match s.index.strategy? with
  | none => faults .notConfigured s
  | some h => .next (emptyTables h s)

end Sys2Proof.Machine
end

