-- ==== Sys2Proof/Machine/Quick.lean ====
section
/-!
DEFINITION. The quick matcher family, H1 to H4 (spec/43_quick_matcher.md R160 to R167).
-/
namespace Sys2Proof.Machine

/-- `QuickKey(ix)` (R161). -/
def quickKey (p : QuickParams) (r : Ring) (ix : Word) : Nat := hash5 r ix p.bucketBits

/-- The slot `QuickStore` writes (R160): `QuickKey(ix) + ((ix >> 3) mod s)`. -/
def quickSlot (p : QuickParams) (r : Ring) (ix : Word) : Nat := quickKey p r ix + (ix.toNat >>> 3) % p.sweep

/-- `QB[i]` (R31). -/
def qbGet (qb : Sparse Word) (i : Nat) : Word := Sparse.get 0#32 qb i

/-- `QuickStore(ix)` (R160). -/
def quickStore (p : QuickParams) (r : Ring) (ix : Word) (qb : Sparse Word) : Sparse Word :=
  Sparse.set 0#32 qb (quickSlot p r ix) ix

/-- Step 1 of `QuickFind` (R163): the last-distance candidate `x[8]`, tested against the start of the stream only. -/
def quickCached (r : Ring) (cur maxlen cache0 : Word) (b : Search) : Search :=
  if 1 ≤ cache0.toInt ∧ cache0.toInt ≤ (cur.toNat : Int) then
    let prev := cur - cache0
    if b.gate r prev cur then
      let len := prefixMatch r prev cur maxlen.toNat
      if 4 ≤ len then b.offer len len cache0 (scoreLast len 0) else b
    else b
  else b

/-- One bucket slot (R163, steps 2 and 3): the distance tests before any byte is compared, the gate, the length test. -/
def quickProbe (r : Ring) (cur maxlen maxback prev : Word) (b : Search) : Search :=
  let d := backward cur prev
  if d = 0#32 ∨ maxback < d then b
  else if b.gate r prev cur then
    let len := prefixMatch r prev cur maxlen.toNat
    if 4 ≤ len then b.offer len len d (score len d) else b
  else b

/-- Slots `key .. key + s − 1`, ascending (R163). -/
def quickSweep (p : QuickParams) (r : Ring) (qb : Sparse Word) (cur maxlen maxback : Word) (b : Search) : Search :=
  (List.range p.sweep).foldl (fun b j => quickProbe r cur maxlen maxback (qbGet qb (quickKey p r cur + j)) b) b

/-- Step 4 (R163, R165): entered iff nothing was accepted, the strategy has `use_dict`, and the throttle gate holds; one
probe, at the even entry. -/
def quickDict (p : QuickParams) (d : Dict) (r : Ring) (cur maxlen maxback : Word) (b : Search) : Search :=
  if !b.found && p.useDict && throttleOpen b.lookups b.hits then
    dictProbe d r cur maxlen maxback (dictKey r cur) b
  else b

/-- `QuickFind()` (R163). -/
def quickFind (p : QuickParams) (d : Dict) (r : Ring) (qb : Sparse Word) (cur maxlen maxback cache0 : Word)
    (b : Search) : Search :=
  if maxlen.toNat < 5 then b
  else
    let b1 := quickCached r cur maxlen cache0 b
    if b1.found && p.sweep == 1 then b1
    else quickDict p d r cur maxlen maxback (quickSweep p r qb cur maxlen maxback b1)

end Sys2Proof.Machine
end

