-- ==== Sys2Proof/Machine/Tree.lean ====
section
/-!
DEFINITION. The binary-tree matcher, H10 (spec/45_binary_tree_matcher.md R200 to R209).
-/
namespace Sys2Proof.Machine

/-- The `HT` index of the 2-byte key (R201). -/
def treeKey2 (r : Ring) (ix : Word) : Nat := hash32 (toU16 (load32 r ix)) 10

/-- The `HT` index of the 3-byte key (R201). -/
def treeKey3 (r : Ring) (ix : Word) : Nat := 2 ^ 10 + hash32 (toU24 (load32 r ix)) 15

/-- The `HT` index of the 4-byte key (R201). -/
def treeKey4 (r : Ring) (ix : Word) : Nat := 2 ^ 10 + 2 ^ 15 + hash32 (load32 r ix) 17

/-- The window slot of a position (R200): `p & window_mask`. -/
def windowSlot (lgwin : BitVec 5) (p : Word) : Nat := p.toNat % 2 ^ lgwin.toNat

/-- The number of a node's left child in `CHILD` (R200). -/
def leftChild (lgwin : BitVec 5) (p : Word) : Nat := 2 * windowSlot lgwin p

/-- The number of a node's right child in `CHILD` (R200). -/
def rightChild (lgwin : BitVec 5) (p : Word) : Nat := 2 * windowSlot lgwin p + 1

/-- `InWindow(cur, prev)` (R202): `1 ≤ backward ≤ window_mask − 15`. -/
def inWindow (lgwin : BitVec 5) (cur prev : Word) : Bool :=
  decide (1 ≤ (backward cur prev).toNat) && decide ((backward cur prev).toNat ≤ windowMask lgwin - 15)

/-- `HT[i]` or `CHILD[i]` (R33): an unlisted element is the sentinel. -/
def treeGet (lgwin : BitVec 5) (t : Sparse Word) (i : Nat) : Word := Sparse.get (sentinel lgwin) t i

/-- `HT` or `CHILD` with one element written. -/
def treeSet (lgwin : BitVec 5) (t : Sparse Word) (i : Nat) (v : Word) : Sparse Word := Sparse.set (sentinel lgwin) t i v

/-- What stays fixed during one `AdvanceOneByte(cur, maxlen, record)` (R203). -/
structure Advance where
  ring : Ring
  lgwin : BitVec 5
  niceLength : Nat
  cur : Word
  maxlen : Nat
  record : Bool
deriving DecidableEq, Repr

/-- What its loop carries along (R203). -/
structure Walk where
  child : Sparse Word
  pendingLt : Nat
  pendingGt : Nat
  prev : Word
  bestLtLen : Nat
  bestGtLen : Nat
  len : Nat
  bestLen : Nat
  ms : List MatchRec
deriving DecidableEq, Repr

/-- The match at distance `cur − prev` of a length; its length code is the length (R206). -/
def Advance.matchAt (e : Advance) (prev : Word) (len : Nat) : MatchRec := ⟨backward e.cur prev, len, len⟩

/-- Whether a record's bytes are equal over its whole length (R206 (b)). -/
def Advance.verified (e : Advance) (m : MatchRec) : Bool :=
  prefixMatch e.ring (e.cur - m.distance) e.cur m.length == m.length

/-- Step 1 of the loop: `len` goes on from its carried value while the bytes agree, capped by `maxlen`. -/
def Advance.extend (e : Advance) (w : Walk) : Walk :=
  { w with
    len := w.len +
      prefixMatch e.ring (w.prev + BitVec.ofNat 32 w.len) (e.cur + BitVec.ofNat 32 w.len) (e.maxlen - w.len) }

/-- Step 2: a longer match is recorded. -/
def Advance.emit (e : Advance) (w : Walk) : Walk :=
  if e.record && decide (w.bestLen < w.len) then
    { w with bestLen := w.len, ms := w.ms ++ [e.matchAt w.prev w.len] }
  else w

/-- The exit at `H10_NICE_LENGTH`: when recording, only that match stays. -/
def Advance.collapse (e : Advance) (w : Walk) : Walk :=
  if e.record then { w with ms := [e.matchAt w.prev w.len] } else w

/-- Step 3: hangs `prev` on the side it belongs to and descends to the other child. -/
def Advance.descend (e : Advance) (w : Walk) : Walk :=
  if e.ring.byteAt w.prev w.len < e.ring.byteAt e.cur w.len then
    let child := treeSet e.lgwin w.child w.pendingLt w.prev
    let pending := rightChild e.lgwin w.prev
    { w with
      child := child, pendingLt := pending, prev := treeGet e.lgwin child pending, bestLtLen := w.len,
      len := min w.len w.bestGtLen }
  else
    let child := treeSet e.lgwin w.child w.pendingGt w.prev
    let pending := leftChild e.lgwin w.prev
    { w with
      child := child, pendingGt := pending, prev := treeGet e.lgwin child pending, bestGtLen := w.len,
      len := min w.len w.bestLtLen }

/-- The loop (R203); the first argument is the remaining depth. -/
def Advance.loop (e : Advance) : Nat → Walk → Walk
  | 0, w => w
  | depth + 1, w =>
    if inWindow e.lgwin e.cur w.prev then
      let w1 := e.emit (e.extend w)
      if e.niceLength ≤ w1.len then e.collapse w1 else e.loop depth (e.descend w1)
    else w

/-- Part (a) for one direct table (R203): the holder of the hash, if in window and equal in the key's bytes. -/
def Advance.direct (e : Advance) (narrow : Word → Word) (len : Nat) (holder : Word) (c : Nat × List MatchRec) :
    Nat × List MatchRec :=
  if e.record && inWindow e.lgwin e.cur holder &&
      (narrow (load32 e.ring holder) == narrow (load32 e.ring e.cur)) then
    (len, c.2 ++ [e.matchAt holder len])
  else c

/-- The result of `AdvanceOneByte`: the two tables and the matches. -/
structure Advanced where
  ht : Sparse Word
  child : Sparse Word
  ms : List MatchRec
deriving DecidableEq, Repr

/-- Part (b): `cur` becomes the holder of its three hashes. -/
def Advance.install (e : Advance) (ht : Sparse Word) : Sparse Word :=
  treeSet e.lgwin
    (treeSet e.lgwin (treeSet e.lgwin ht (treeKey2 e.ring e.cur) e.cur) (treeKey3 e.ring e.cur) e.cur)
    (treeKey4 e.ring e.cur) e.cur

/-- Where the loop starts: at the prior root of the 4-byte key, the pending slots those of `cur`. -/
def Advance.startWalk (e : Advance) (ht child : Sparse Word) : Walk :=
  let c2 := e.direct toU16 2 (treeGet e.lgwin ht (treeKey2 e.ring e.cur)) (1, [])
  let c3 := e.direct toU24 3 (treeGet e.lgwin ht (treeKey3 e.ring e.cur)) c2
  { child := child
    pendingLt := leftChild e.lgwin e.cur
    pendingGt := rightChild e.lgwin e.cur
    prev := treeGet e.lgwin ht (treeKey4 e.ring e.cur)
    bestLtLen := 0
    bestGtLen := 0
    len := 0
    bestLen := c3.1
    ms := c3.2 }

/-- Both pending slots receive the sentinel (R203, step 4). -/
def Advance.close (e : Advance) (w : Walk) : Sparse Word :=
  treeSet e.lgwin (treeSet e.lgwin w.child w.pendingLt (sentinel e.lgwin)) w.pendingGt (sentinel e.lgwin)

/-- `AdvanceOneByte(cur, maxlen, record)` (R203); the three heads are read before they are overwritten (R301). -/
def Advance.run (e : Advance) (depth : Nat) (ht child : Sparse Word) : Advanced :=
  if e.maxlen < e.niceLength then ⟨ht, child, []⟩
  else
    let w := e.loop depth (e.startWalk ht child)
    ⟨e.install ht, e.close w, w.ms⟩

/-- The call `AdvanceOneByte(cur, maxlen, record)` with the parameters of the state. -/
def State.advanceAt (s : State) (cur : Word) (maxlen : Nat) (record : Bool) : Advance where
  ring := s.ring
  lgwin := s.lgwin
  niceLength := s.params.h10NiceLength
  cur := cur
  maxlen := maxlen
  record := record

/-- `AdvanceOneByte` on the tables of the state (R203). -/
def advanceOneByte (s : State) (cur : Word) (maxlen : Nat) (record : Bool) (ht child : Sparse Word) : Advanced :=
  (s.advanceAt cur maxlen record).run s.params.h10MaxSearchDepth ht child

/-- STORE_RANGE on H10 (R224): position by position, the lookahead shrinking by one and saturating at 0. -/
def advanceMany (s : State) : Nat → Word → Nat → Sparse Word → Sparse Word → Sparse Word × Sparse Word
  | 0, _, _, ht, child => (ht, child)
  | n + 1, ix, maxlen, ht, child =>
    let a := advanceOneByte s ix maxlen false ht child
    advanceMany s n (ix + 1#32) (maxlen - 1) a.ht a.child

end Sys2Proof.Machine
end

