-- ==== Sys2Proof/Machine/Indexing.lean ====
section
/-!
DEFINITION. STORE, STORE_RANGE, PREPEND_CUSTOM_DICTIONARY (spec/46_commands.md R223, R224, R227).
-/
namespace Sys2Proof.Machine

/-- The tables after stores at `n` consecutive positions from `ix`, with lookahead `maxlen` at the first (read on H10
only); the shared body of the three commands (R223, R224, R227). -/
def storedIndex (s : State) (n : Nat) (ix : Word) (maxlen : Nat) : Index :=
  match s.index with
  | .absent => .absent
  | .quick h qb => .quick h (storeMany (quickStore (s.params.strategy.quick h) s.ring) n ix qb)
  | .chain h num ring =>
    let t := storeMany (chainStore (s.params.strategy.chain h) s.ring) n ix (num, ring)
    .chain h t.1 t.2
  | .tree ht child =>
    let t := advanceMany s n ix maxlen ht child
    .tree t.1 t.2

/-- `HASH_LOAD` (D31): the bytes a key's load fetches. -/
def hashLoad : Index → Nat
  | .absent => 0
  | .quick _ _ => 8
  | .chain _ _ _ => 4
  | .tree _ _ => 4

/-- STORE (R223): one position; on H10 it is SkipByte (R205). -/
def execStore (s : State) : Host.Outcome State Fault Refusal :=
  match s.index with
  | .absent => faults .notConfigured s
  | .quick _ _ | .chain _ _ _ | .tree _ _ =>
    withPrelude s { s with index := storedIndex s 1 (s.getX regCurIx) (s.getX regMaxLength).toNat }

/-- STORE_RANGE (R224): `x[3]` positions from `x[0]`. -/
def execStoreRange (s : State) : Host.Outcome State Fault Refusal :=
  match s.index with
  | .absent => faults .notConfigured s
  | .quick _ _ | .chain _ _ _ | .tree _ _ =>
    withPrelude s
      { s with
        index := storedIndex s (s.getX regCount).toNat (s.getX regCurIx) (s.getX regMaxLength).toNat }

/-- PREPEND_CUSTOM_DICTIONARY (R227): every `ix` from 0 with `ix + HASH_LOAD ≤ x[3]`; unsupported on H10, tested before
the mask. -/
def execPrependCustomDictionary (s : State) : Host.Outcome State Fault Refusal :=
  match s.index with
  | .absent => faults .notConfigured s
  | .tree _ _ => faults .unsupported s
  | .quick _ _ | .chain _ _ _ =>
    withPrelude s { s with index := storedIndex s ((s.getX regCount).toNat + 1 - hashLoad s.index) 0#32 0 }

end Sys2Proof.Machine
end

