-- ==== Sys2Proof/Machine/Searching.lean ====
section
/-!
DEFINITION. FIND_LONGEST_MATCH and FIND_ALL_MATCHES (spec/46_commands.md R225, R226).
-/
namespace Sys2Proof.Machine

/-- The search of FIND_LONGEST_MATCH on H1 to H4 with the operands in their registers (R163). -/
def quickSearch (s : State) (h : QuickStrategy) (qb : Sparse Word) : Search :=
  quickFind (s.params.strategy.quick h) s.params.dict s.ring qb (s.getX regCurIx) (s.getX regMaxLength)
    (s.getX regMaxBackward) (s.getX regDistCache0) (Search.start s)

/-- The search of FIND_LONGEST_MATCH on H5 to H9 with the operands in their registers (R185). -/
def chainSearch (s : State) (h : ChainStrategy) (num : Sparse (BitVec 16)) (ring : Sparse Word) : Search :=
  chainFind (s.params.strategy.chain h) s s.ring num ring (s.getX regCurIx) (s.getX regMaxLength)
    (s.getX regMaxBackward) (Search.start s)

/-- The matches of FIND_ALL_MATCHES on H5 to H9 with the operands in their registers (R187). -/
def chainMatches (s : State) (h : ChainStrategy) (num : Sparse (BitVec 16)) (ring : Sparse Word) : List MatchRec :=
  chainFindAll (s.params.strategy.chain h) s.params s.ring num ring (s.getX regCurIx) (s.getX regMaxLength)
    (s.getX regMaxBackward)

/-- `AdvanceOneByte` as FIND_ALL_MATCHES calls it (R206): its tables and its list, as R203 computes them. -/
def treeAdvanced (s : State) (ht child : Sparse Word) : Advanced :=
  advanceOneByte s (s.getX regCurIx) (s.getX regMaxLength).toNat true ht child

/-- The matches of FIND_ALL_MATCHES on H10 (R206): the byte-exact ones of that list. In a tree that kept its order these are
all of it. DEDUCED: where the host broke the order, R206 (b), R290, R292, R295 and U3 keep every returned match byte-exact,
and R203's list alone would not (notes/assumptions/25.md). -/
def treeMatches (s : State) (ht child : Sparse Word) : List MatchRec :=
  (treeAdvanced s ht child).ms.filter
    (s.advanceAt (s.getX regCurIx) (s.getX regMaxLength).toNat true).verified

/-- FIND_LONGEST_MATCH (R225); unsupported on H10, tested before the mask. -/
def execFindLongestMatch (s : State) : Host.Outcome State Fault Refusal :=
  match s.index with
  | .absent => faults .notConfigured s
  | .tree _ _ => faults .unsupported s
  | .quick h qb => withPrelude s ((quickSearch s h qb).finish s)
  | .chain h num ring => withPrelude s ((chainSearch s h num ring).finish s)

/-- FIND_ALL_MATCHES (R226); unsupported on H1 to H4, tested before the mask; on H10 it installs the position. -/
def execFindAllMatches (s : State) : Host.Outcome State Fault Refusal :=
  match s.index with
  | .absent => faults .notConfigured s
  | .quick _ _ => faults .unsupported s
  | .chain h num ring => withPrelude s (outputMatches (chainMatches s h num ring) s)
  | .tree ht child =>
    let a := treeAdvanced s ht child
    withPrelude s (outputMatches (treeMatches s ht child) { s with index := .tree a.ht a.child })

end Sys2Proof.Machine
end

