-- ==== Sys2Proof/Machine/Dispatch.lean ====
section
/-!
DEFINITION. One arm per command, each one call of its meaning.
-/
namespace Sys2Proof.Machine

def exec (i : Instr) (s : State) : Host.Outcome State Fault Refusal :=
  match i with
  | .configure quality lgwin => Sys2Proof.Machine.execConfigure quality lgwin s
  | .reset => Sys2Proof.Machine.execReset s
  | .store => Sys2Proof.Machine.execStore s
  | .storeRange => Sys2Proof.Machine.execStoreRange s
  | .findLongestMatch => Sys2Proof.Machine.execFindLongestMatch s
  | .findAllMatches => Sys2Proof.Machine.execFindAllMatches s
  | .prependCustomDictionary => Sys2Proof.Machine.execPrependCustomDictionary s

end Sys2Proof.Machine
end

