-- ==== Sys2Proof/Machine/HostPort.lean ====
section
/-!
DEFINITION. The host's side of the engine: the register map (spec/10_state.md R27), the CMD write that starts a command
(R23, spec/30_encoding.md R94, spec/60_exceptions.md R253), VIEW and MATCH accesses (spec/20_memory.md R60), power-on
reset (spec/70 R280), and the pseudo-instructions of the host script (spec/30_encoding.md R101).
-/
namespace Sys2Proof.Machine

/-- What stands at an offset of the register block (R27). -/
inductive Port where
  | cmd
  | status
  | config
  | ringMask
  | lookupsLo
  | lookupsHi
  | matchesLo
  | matchesHi
  | bestScoreLo
  | bestScoreHi
  | x (i : Fin 16)
  /-- Any other word below 0x80: reads 0, ignores writes. -/
  | unassigned
deriving DecidableEq, Repr

/-- The register at word `n` of the block, byte offset `4·n` (R27's table). -/
def portOfWord (n : Nat) : Port :=
  match n with
  | 0 => .cmd
  | 1 => .status
  | 2 => .config
  | 3 => .ringMask
  | 4 => .lookupsLo
  | 5 => .lookupsHi
  | 6 => .matchesLo
  | 7 => .matchesHi
  | 8 => .bestScoreLo
  | 9 => .bestScoreHi
  | n => if h : 16 ≤ n ∧ n < 32 then .x ⟨n - 16, by omega⟩ else .unassigned

/-- The register at a bus address; none where R27 offers no access: below `ENGINE_BASE`, at offset 0x80 or above, not
word aligned (notes/assumptions/3.md). -/
def portOf (base address : Nat) : Option Port :=
  if base ≤ address ∧ address < base + 0x80 ∧ (address - base) % 4 = 0 then some (portOfWord ((address - base) / 4))
  else none

/-- The bus address of a byte offset of the register block (R27). -/
def busAddress (s : State) (offset : Nat) : Nat := s.params.engineBase + offset

/-- The low half of a 64-bit register (R27). -/
def lowHalf (v : Word64) : Word := v.setWidth 32

/-- The high half of a 64-bit register (R27). -/
def highHalf (v : Word64) : Word := (v >>> 32).setWidth 32

/-- What a host read of a register returns (R23 to R29). -/
def portRead (s : State) : Port → Word
  | .cmd => s.cmd
  | .status => s.statusWord
  | .config => s.configWord
  | .ringMask => s.ringMask
  | .lookupsLo => lowHalf s.numDictLookups
  | .lookupsHi => highHalf s.numDictLookups
  | .matchesLo => lowHalf s.numDictMatches
  | .matchesHi => highHalf s.numDictMatches
  | .bestScoreLo => lowHalf s.bestScore
  | .bestScoreHi => highHalf s.bestScore
  | .x i => s.getX i
  | .unassigned => 0#32

/-- A host write of a word to CMD (R94): store it; nothing else while a fault is recorded (R253); E_ILLEGAL_CMD for a
word that is no command; else the command runs. -/
def writeCmd (w : Word) (s : State) : Host.Outcome State Fault Refusal :=
  let s := { s with cmd := w }
  if s.err = .none then
    match decode w with
    | .error _ => faults .illegalCmd s
    | .ok i => exec i s
  else .next s

/-- A host write of a register (R23 to R29): CONFIG and the counters ignore writes, STATUS clears the fault. -/
def portWrite (s : State) (p : Port) (v : Word) : Host.Outcome State Fault Refusal :=
  match p with
  | .cmd => writeCmd v s
  | .status => .next (clearErr s)
  | .config => .next s
  | .ringMask => .next { s with ringMask := v }
  | .lookupsLo => .next s
  | .lookupsHi => .next s
  | .matchesLo => .next s
  | .matchesHi => .next s
  | .bestScoreLo => .next { s with bestScore := highHalf s.bestScore ++ v }
  | .bestScoreHi => .next { s with bestScore := v ++ lowHalf s.bestScore }
  | .x i => .next (s.setX i v)
  | .unassigned => .next s

/-- One host access. -/
def hostAccess (a : HostAction) (s : State) : Host.Outcome State Fault Refusal :=
  match a with
  | .write address v =>
    match portOf s.params.engineBase address with
    | none => .fault .hostAccessOutsideMap
    | some p => portWrite s p v
  | .read address =>
    match portOf s.params.engineBase address with
    | none => .fault .hostAccessOutsideMap
    | some p => .next { s with readData := (portRead s p).setWidth 64 }
  | .viewWrite address b => .next { s with view := s.view.write address.toNat b }
  | .viewRead address => .next { s with readData := (s.view.read address.toNat).setWidth 64 }
  | .view position bytes =>
    .next
      { s with
        view := Memory.writeMany (fun j => ((position + BitVec.ofNat 32 j) &&& s.ringMask).toNat) s.view 0 bytes }
  | .matchRead n => .next { s with readData := s.matchRecord n }
  | .powerOn => .next (powerOn s)

/-- One step: the host's next access; with none pending the engine stays as it is (notes/assumptions/1.md). -/
def hostStep (s : State) : Host.Outcome State Fault Refusal :=
  match s.host with
  | [] => .next s
  | a :: rest => hostAccess a { s with host := rest }

/-! The host script (R100, R101), as lists of accesses for an engine whose register block is at `base`. -/

/-- `wr x[i], v`. -/
def scriptX (base : Nat) (i : Fin 16) (v : Word) : List HostAction := [.write (base + 0x40 + 4 * i.val) v]

/-- `wr BEST_SCORE, v`: both halves (R100). -/
def scriptBestScore (base : Nat) (v : Int) : List HostAction :=
  [.write (base + 0x20) (lowHalf (BitVec.ofInt 64 v)), .write (base + 0x24) (highHalf (BitVec.ofInt 64 v))]

/-- `wr RING_MASK, m`. -/
def scriptRingMask (base : Nat) (m : Word) : List HostAction := [.write (base + 0x0C) m]

/-- `cmd <mnemonic>` (R100). -/
def scriptCmd (base : Nat) (i : Instr) : List HostAction := [.write base (encode i)]

/-- `cmd skip_byte` (R101). -/
def scriptSkipByte (base : Nat) : List HostAction := scriptCmd base .store

/-- `init q=<a>, lgwin=<b>, mask=<m>` (R101). -/
def scriptInit (base quality lgwin : Nat) (m : Word) : List HostAction :=
  scriptRingMask base m ++ scriptCmd base (.configure quality lgwin)

/-- `store_at <ix>` (R101). -/
def scriptStoreAt (base : Nat) (ix : Word) : List HostAction := scriptX base regCurIx ix ++ scriptCmd base .store

/-- `store_range_at <start>, <len>` (R101). -/
def scriptStoreRangeAt (base : Nat) (start len : Word) : List HostAction :=
  scriptX base regCurIx start ++ scriptX base regCount len ++ scriptCmd base .storeRange

/-- `dist_cache <a>, <b>, <c>, <d>` (R101). -/
def scriptDistCache (base : Nat) (a b c d : Word) : List HostAction :=
  scriptX base 8 a ++ scriptX base 9 b ++ scriptX base 10 c ++ scriptX base 11 d

/-- `clear_err` (R101). -/
def scriptClearErr (base : Nat) : List HostAction := [.write (base + 0x04) 0]

end Sys2Proof.Machine
end

