-- ==== Sys2Proof/Machine/Step.lean ====
section
/-!
DEFINITION. One step of the machine, and the placing of a command word where the step takes its next one.
-/
namespace Sys2Proof.Machine

/-- One step: the host's next access (spec/20_memory.md R72: a command is one atomic step). -/
def step (s : State) : Host.Outcome State Fault Refusal := hostStep s

/-- The host's next access is the write of this word to CMD, so that the very next step runs it
(notes/assumptions/1.md); `nbits` bits are given, the bits above are 0. -/
def State.withFetchWord (s : State) (nbits w : Nat) : State :=
  { s with host := .write s.params.engineBase (BitVec.ofNat 32 (w % 2 ^ nbits)) :: s.host }

end Sys2Proof.Machine
end

