-- ==== Sys2Proof/Safety.lean ====
section
/-!
DEFINITION. What the statements are said in: the invariant every step keeps, what a command leaves as it was, and which
registers a command reads (spec/46_commands.md R229).
-/
namespace Sys2Proof.Machine

/-! The invariant. -/

/-- The index tables are canonical and inside the index ranges of R31 to R33; the last slot of `QB` is never written
(R160). `CONFIG.LGWIN` is 0 before the first CONFIGURE and 10..24 after (R25). -/
def Index.Inv (p : StrategyTable) (lgwin : BitVec 5) : Index → Prop
  | .absent => lgwin = 0#5
  | .quick h qb =>
    10 ≤ lgwin.toNat ∧ lgwin.toNat ≤ 24 ∧ Sparse.Wf 0#32 qb ∧
      Sparse.Below (2 ^ (p.quick h).bucketBits + (p.quick h).sweep - 1) qb
  | .chain h num ring =>
    10 ≤ lgwin.toNat ∧ lgwin.toNat ≤ 24 ∧ Sparse.Wf 0#16 num ∧ Sparse.Below (2 ^ (p.chain h).bucketBits) num ∧
      Sparse.Wf 0#32 ring ∧ Sparse.Below (2 ^ (p.chain h).bucketBits * 2 ^ (p.chain h).blockBits) ring
  | .tree ht child =>
    10 ≤ lgwin.toNat ∧ lgwin.toNat ≤ 24 ∧ Sparse.Wf (sentinel lgwin) ht ∧ Sparse.Below 164864 ht ∧
      Sparse.Wf (sentinel lgwin) child ∧ Sparse.Below (2 ^ (lgwin.toNat + 1)) child

/-- What every step keeps: memories and tables in their canonical form and inside their spaces, the configuration fields
in their legal values, `ERR_OP = 0` while no fault is recorded (R24), the parameters well formed. -/
def State.Inv (s : State) : Prop :=
  (s.view.wf ∧ Sparse.Below (2 ^ 32) s.view) ∧
  (Sparse.Wf unwrittenRecord s.matchSpace ∧ Sparse.Below (2 ^ 32) s.matchSpace) ∧
  s.index.Inv s.params.strategy s.lgwin ∧
  (s.err = .none → s.errOp = 0#8) ∧
  s.params.WellFormed

/-! What stays. -/

/-- Every register but the listed ones reads as before. -/
def RegsKept (written : List (Fin 16)) (s t : State) : Prop := ∀ i, i ∉ written → t.getX i = s.getX i

/-- CMD, STATUS, CONFIG and RING_MASK read as before. -/
def ControlKept (s t : State) : Prop :=
  t.cmd = s.cmd ∧ t.statusWord = s.statusWord ∧ t.configWord = s.configWord ∧ t.ringMask = s.ringMask

/-- Every byte of VIEW reads as before. -/
def ViewKept (s t : State) : Prop := ∀ a : Word, t.view.read a.toNat = s.view.read a.toNat

/-- Every MATCH record reads as before. -/
def MatchKept (s t : State) : Prop := ∀ n : Word, t.matchRecord n = s.matchRecord n

/-- Both throttle counters are as before. -/
def CountersKept (s t : State) : Prop :=
  t.numDictLookups = s.numDictLookups ∧ t.numDictMatches = s.numDictMatches

/-- The parameters, the host's pending accesses and the value last read are as before. -/
def SurroundingsKept (s t : State) : Prop := t.params = s.params ∧ t.host = s.host ∧ t.readData = s.readData

/-- Nothing but the index tables changes: every register, BEST_SCORE, CMD, STATUS, CONFIG, RING_MASK, both counters,
every byte of VIEW, every MATCH record and the surroundings are as before. -/
def OnlyTablesChange (s t : State) : Prop :=
  RegsKept [] s t ∧ t.bestScore = s.bestScore ∧ ControlKept s t ∧ CountersKept s t ∧ ViewKept s t ∧ MatchKept s t ∧
    SurroundingsKept s t

/-- What a FIND_LONGEST_MATCH leaves as it was: every register but x[4] to x[7], the tables, CMD, STATUS, CONFIG,
RING_MASK, every byte of VIEW, every MATCH record and the surroundings. -/
def FindLongestFrame (s t : State) : Prop :=
  RegsKept [4, 5, 6, 7] s t ∧ t.index = s.index ∧ ControlKept s t ∧ ViewKept s t ∧ MatchKept s t ∧ SurroundingsKept s t

/-- What a FIND_ALL_MATCHES leaves as it was, besides the MATCH records it does not write and, on H1 to H9, the tables:
every register but x[7], BEST_SCORE, CMD, STATUS, CONFIG, RING_MASK, both counters, every byte of VIEW and the
surroundings. -/
def FindAllFrame (s t : State) : Prop :=
  RegsKept [7] s t ∧ t.bestScore = s.bestScore ∧ ControlKept s t ∧ CountersKept s t ∧ ViewKept s t ∧ SurroundingsKept s t

/-! Host accesses (spec/10_state.md R27). -/

/-- The host's read of the register at this byte offset returns the word and changes nothing of the engine. -/
def HostReads (s : State) (offset : Nat) (v : Word) : Prop :=
  ∀ rest, step { s with host := .read (s.params.engineBase + offset) :: rest } =
    .next { s with host := rest, readData := v.setWidth 64 }

/-- The host's write of the word at this byte offset leaves the state `t`. -/
def HostWrites (s : State) (offset : Nat) (v : Word) (t : State) : Prop :=
  ∀ rest, step { s with host := .write (s.params.engineBase + offset) v :: rest } = .next { t with host := rest }

/-! Reading the tables. -/

/-- Every element of the tables has its RESET value (R222): 0, or `SENTINEL` on H10. -/
def Index.AllReset (lgwin : BitVec 5) : Index → Prop
  | .absent => True
  | .quick _ qb => ∀ i, qbGet qb i = 0#32
  | .chain _ num ring => (∀ key, numGet num key = 0#16) ∧ ∀ i, Sparse.get 0#32 ring i = 0#32
  | .tree ht child => (∀ i, treeGet lgwin ht i = sentinel lgwin) ∧ ∀ i, treeGet lgwin child i = sentinel lgwin

/-! Matches. -/

/-- The `len` bytes at position `cur − dist` equal the `len` bytes at `cur`, each through the ring mask (R230 (a)). -/
def BytesAgree (r : Ring) (cur dist : Word) (len : Nat) : Prop :=
  ∀ j, j < len → r.byteAt (cur - dist) j = r.byteAt cur j

/-- `t` is `s` with the matches output (R187): the count in RESULT, record `j` at `MATCH[(x[12] + j) mod 2^32]`, every
other record as before. -/
def MatchesOutput (s t : State) (ms : List MatchRec) : Prop :=
  (t.getX regResult).toNat = ms.length ∧
  (∀ j (h : j < ms.length), t.matchRecord (s.getX regMatchBase + BitVec.ofNat 32 j) = ms[j].pack) ∧
  ∀ n : Word, (∀ j, j < ms.length → n ≠ s.getX regMatchBase + BitVec.ofNat 32 j) → t.matchRecord n = s.matchRecord n

/-- Lengths strictly increase along the list (R230 (c)). -/
def LengthsIncrease (ms : List MatchRec) : Prop := ms.Pairwise fun a b => a.length < b.length

/-! What a find examines before the dictionary (spec/43_quick_matcher.md R163, spec/44_block_chain_matcher.md R185). -/

/-- A candidate: its distance, the least length it may have, its score at a length. -/
structure Candidate where
  dist : Word
  least : Nat
  score : Nat → Int

/-- How far a candidate agrees with the current position, capped by the lookahead. -/
def Candidate.len (c : Candidate) (r : Ring) (cur : Word) (limit : Nat) : Nat := prefixMatch r (cur - c.dist) cur limit

/-- The candidates accepted one after the other, from a running best length and score on (`Take`, R163, R185): one whose byte
at the offset of the running best length equals the current position's (the gate, D15), that is long enough, and whose score
is strictly better (D13); its length and score are the next running best. -/
def takenFrom (r : Ring) (cur : Word) (limit : Nat) : Nat → Int → List Candidate → List Candidate
  | _, _, [] => []
  | bestLen, bestScore, c :: rest =>
    let len := c.len r cur limit
    if r.byteAt (cur - c.dist) bestLen = r.byteAt cur bestLen ∧ c.least ≤ len ∧ bestScore < c.score len then
      c :: takenFrom r cur limit len (c.score len) rest
    else takenFrom r cur limit bestLen bestScore rest

/-- The candidates of H1 to H4, in order (R163): the last distance when it is in 1..`x[0]`, then the slots of the sweep whose
distance is in 1..`x[2]`. -/
def quickCandidates (s : State) (h : QuickStrategy) (qb : Sparse Word) : List Candidate :=
  let cur := s.getX 0
  let p := s.params.strategy.quick h
  (if 1 ≤ (s.getX 8).toInt ∧ (s.getX 8).toInt ≤ cur.toNat then [⟨s.getX 8, 4, fun len => scoreLast len 0⟩] else []) ++
    (((List.range p.sweep).map fun j => cur - qbGet qb (hash5 s.ring cur p.bucketBits + j)).filter fun d =>
      decide (d ≠ 0#32 ∧ d ≤ s.getX 2)).map fun d => ⟨d, 4, fun len => score len d⟩

/-- The candidates of H5 to H9, in order (R185): the first `last_dist_to_check` cache candidates (R183) that are in 1..`x[0]`
and 1..`x[2]`, of length 3, the first two of length 2; then those of the walk (R182), of length 4. -/
def chainCandidates (s : State) (h : ChainStrategy) (num : Sparse (BitVec 16)) (ring : Sparse Word) : List Candidate :=
  let cur := s.getX 0
  let p := s.params.strategy.chain h
  (((List.finRange 16).take p.lastDistToCheck).filterMap fun i =>
    let d := (s.getX ⟨8 + s.params.distIndex[i].val, by omega⟩).toInt + s.params.distOffset[i]
    if 1 ≤ d ∧ d ≤ cur.toNat ∧ d ≤ (s.getX 2).toNat then
      some ⟨BitVec.ofInt 32 d, if i.val < 2 then 2 else 3, fun len => scoreLast len i⟩
    else none) ++
    (chainWalk p s.ring num ring cur (s.getX 2)).map fun prev => ⟨cur - prev, 4, fun len => score len (cur - prev)⟩

/-- What a find answers for its last accepted candidate: that candidate, as long as it agrees, with its score and no counter
moved; without one, at most a dictionary match, which is counted. -/
def AnswersWindow (s t : State) : Option Candidate → Prop
  | none => t.getX 7 = 1#32 → t.numDictMatches ≠ s.numDictMatches
  | some c =>
    let len := c.len s.ring (s.getX 0) (s.getX 1).toNat
    t.getX 7 = 1#32 ∧ (t.getX 4).toNat = len ∧ t.getX 5 = t.getX 4 ∧ t.getX 6 = c.dist ∧
      t.bestScore.toInt = c.score len ∧ CountersKept s t

/-! H10's tree (spec/45_binary_tree_matcher.md R203, R204; spec/10_state.md R36 (c)). -/

/-- The nodes that the loop of `AdvanceOneByte` visits from here on, in order (R203). -/
def Advance.visits (e : Advance) : Nat → Walk → List Word
  | 0, _ => []
  | depth + 1, w =>
    if inWindow e.lgwin e.cur w.prev then
      w.prev :: (if e.niceLength ≤ (e.extend w).len then [] else e.visits depth (e.descend (e.extend w)))
    else []

/-- `a` precedes `b` lexicographically: they differ within the first `n` bytes, and `a` holds the smaller byte where they
first do. -/
def LexBefore (r : Ring) (n : Nat) (a b : Word) : Prop :=
  ∃ k, k < n ∧ (∀ j, j < k → r.byteAt a j = r.byteAt b j) ∧ r.byteAt a k < r.byteAt b k

/-- The BST property of R36 (c), `levels` deep: every node reached from `p` through in-window links follows each node of
`below` and precedes each of `above`, and so along its own two subtrees with itself as bound. Compared are the first
`H10_NICE_LENGTH` bytes, as many as the loop ever compares before it hangs a node (R203). -/
def TreeOrdered (e : Advance) (child : Sparse Word) : Nat → Word → List Word → List Word → Prop
  | 0, _, _, _ => True
  | levels + 1, p, below, above =>
    inWindow e.lgwin e.cur p = true →
      (∀ q ∈ below, LexBefore e.ring e.niceLength q p) ∧ (∀ q ∈ above, LexBefore e.ring e.niceLength p q) ∧
      TreeOrdered e child levels (treeGet e.lgwin child (leftChild e.lgwin p)) below (p :: above) ∧
      TreeOrdered e child levels (treeGet e.lgwin child (rightChild e.lgwin p)) (p :: below) above

/-- How far a node agrees with the current position, capped by the lookahead. -/
def Advance.agree (e : Advance) (p : Word) : Nat := prefixMatch e.ring p e.cur e.maxlen

/-- A node that hangs below `cur` on the left: it differs from `cur` before the nice length, with the smaller byte. -/
def Advance.hangsLeft (e : Advance) (p : Word) : Bool :=
  decide (e.agree p < e.niceLength) && decide (e.ring.byteAt p (e.agree p) < e.ring.byteAt e.cur (e.agree p))

/-- A node that hangs on the right: it differs from `cur` before the nice length, with no smaller byte. -/
def Advance.hangsRight (e : Advance) (p : Word) : Bool :=
  decide (e.agree p < e.niceLength) && !decide (e.ring.byteAt p (e.agree p) < e.ring.byteAt e.cur (e.agree p))

/-- The search path for `cur` in a tree as it stands: at most `depth` in-window nodes from `p` down, right after a smaller
node, left after a greater one, ending at a node that agrees over the nice length (R204 (i)). -/
def treePath (e : Advance) (child : Sparse Word) : Nat → Word → List Word
  | 0, _ => []
  | depth + 1, p =>
    if inWindow e.lgwin e.cur p then
      p ::
        (if e.hangsLeft p then treePath e child depth (treeGet e.lgwin child (rightChild e.lgwin p))
        else if e.hangsRight p then treePath e child depth (treeGet e.lgwin child (leftChild e.lgwin p))
        else [])
    else []

/-! What a command reads and writes (R229). -/

/-- The registers that R229's row of the command, in the family's column, marks read or written. -/
def registersUsed (i : Instr) (t : Index) : List (Fin 16) :=
  match i, t with
  | .configure _ _, _ => []
  | .reset, _ => []
  | .store, .tree _ _ => [0, 1]
  | .store, _ => [0]
  | .storeRange, .tree _ _ => [0, 1, 3]
  | .storeRange, _ => [0, 3]
  | .findLongestMatch, .chain _ _ _ => [0, 1, 2, 4, 5, 6, 7, 8, 9, 10, 11]
  | .findLongestMatch, _ => [0, 1, 2, 4, 5, 6, 7, 8]
  | .findAllMatches, .tree _ _ => [0, 1, 7, 12]
  | .findAllMatches, _ => [0, 1, 2, 7, 12]
  | .prependCustomDictionary, _ => [3]

end Sys2Proof.Machine
end

