-- ==== Sys2Proof/Certificates/Slice0/Obligations.lean ====
section
/-!
DEFINITION. The statements for the provers: encoding, the host's side, faults, configuration, stores, searches, primitives,
invariants. Each docstring names the rule of spec/ it formalises.
-/
open Sys2Proof Sys2Proof.Machine

/-! Encoding (spec/30_encoding.md). -/

/-- R92, R93: words written out from the formats of R90, and what they stand for. -/
def Obligations.SpecWordsDecode : Prop :=
  decode 0x00160501#32 = .ok (.configure 5 22) ∧ decode 0x00100A01#32 = .ok (.configure 10 16) ∧
  decode 0x00000002#32 = .ok .reset ∧ decode 0x00000003#32 = .ok .store ∧ decode 0x00000004#32 = .ok .storeRange ∧
  decode 0x00000005#32 = .ok .findLongestMatch ∧ decode 0x00000006#32 = .ok .findAllMatches ∧
  decode 0x00000007#32 = .ok .prependCustomDictionary ∧
  decode 0x00000000#32 = .error .unknownOpcode ∧ decode 0x00000008#32 = .error .unknownOpcode ∧
  decode 0x00000105#32 = .error .reservedBitsN ∧ decode 0x00001501#32 = .error .reservedBitsC

/-- R90, R92: every command, with every operand its fields hold, decodes back from its word. -/
def Obligations.DecodeInvertsEncode : Prop := ∀ i : Instr, i.WellFormed = true → decode (encode i) = .ok i

/-- R90, R92: a word that decodes is the word of that command, no bit of it dropped. -/
def Obligations.EncodeInvertsDecode : Prop :=
  ∀ (w : Word) (i : Instr), decode w = .ok i → i.WellFormed = true ∧ encode i = w

/-- R92, R91: a word is the command iff `w & mask = match`; CONFIGURE's immediates are `w[11:8]` and `w[20:16]`. -/
def Obligations.RowsDecideCommands : Prop :=
  ∀ w : Word,
    (∀ quality lgwin, decode w = .ok (.configure quality lgwin) ↔
      w &&& 0xFFE0F0FF#32 = 0x00000001#32 ∧ quality = (w.extractLsb' 8 4).toNat ∧ lgwin = (w.extractLsb' 16 5).toNat) ∧
    (decode w = .ok .reset ↔ w &&& 0xFFFFFFFF#32 = 0x00000002#32) ∧
    (decode w = .ok .store ↔ w &&& 0xFFFFFFFF#32 = 0x00000003#32) ∧
    (decode w = .ok .storeRange ↔ w &&& 0xFFFFFFFF#32 = 0x00000004#32) ∧
    (decode w = .ok .findLongestMatch ↔ w &&& 0xFFFFFFFF#32 = 0x00000005#32) ∧
    (decode w = .ok .findAllMatches ↔ w &&& 0xFFFFFFFF#32 = 0x00000006#32) ∧
    (decode w = .ok .prependCustomDictionary ↔ w &&& 0xFFFFFFFF#32 = 0x00000007#32)

/-- R93: which words are illegal, and that a write of one to CMD raises E_ILLEGAL_CMD (R252). -/
def Obligations.IllegalWordsRaise : Prop :=
  ∀ w : Word,
    ((∀ i, decode w ≠ .ok i) ↔
      w.extractLsb' 0 8 = 0x00#8 ∨ 0x08#8 ≤ w.extractLsb' 0 8 ∨
      (0x02#8 ≤ w.extractLsb' 0 8 ∧ w.extractLsb' 0 8 ≤ 0x07#8 ∧ w.extractLsb' 8 24 ≠ 0#24) ∨
      (w.extractLsb' 0 8 = 0x01#8 ∧ (w.extractLsb' 12 4 ≠ 0#4 ∨ w.extractLsb' 21 11 ≠ 0#11))) ∧
    ∀ s : State, s.err = .none → (∀ i, decode w ≠ .ok i) →
      HostWrites s 0x00 w { s with cmd := w, err := .illegalCmd, errOp := w.extractLsb' 0 8 }

/-! The host's side (spec/10_state.md, spec/60_exceptions.md). -/

/-- R94, R23: with no fault recorded, a CMD write of a command's word stores the word and runs exactly that command; and
`withFetchWord` places such a write where the next step takes it (the placing is the model's, notes/assumptions/1.md). -/
def Obligations.StepRunsDecodedCommand : Prop :=
  ∀ (s : State) (w : Word) (i : Instr), s.err = .none → decode w = .ok i →
    (∀ rest, s.host = .write s.params.engineBase w :: rest → step s = exec i { s with host := rest, cmd := w }) ∧
    step (s.withFetchWord 32 w.toNat) = exec i { s with cmd := w }

/-- R27: the register map. Every read and every write of the table, and the words it leaves out. -/
def Obligations.RegisterMap : Prop :=
  ∀ s : State,
    (HostReads s 0x00 s.cmd ∧ HostReads s 0x04 s.statusWord ∧ HostReads s 0x08 s.configWord ∧
      HostReads s 0x0C s.ringMask ∧
      HostReads s 0x10 (s.numDictLookups.extractLsb' 0 32) ∧ HostReads s 0x14 (s.numDictLookups.extractLsb' 32 32) ∧
      HostReads s 0x18 (s.numDictMatches.extractLsb' 0 32) ∧ HostReads s 0x1C (s.numDictMatches.extractLsb' 32 32) ∧
      HostReads s 0x20 (s.bestScore.extractLsb' 0 32) ∧ HostReads s 0x24 (s.bestScore.extractLsb' 32 32) ∧
      ∀ i : Fin 16, HostReads s (0x40 + 4 * i.val) (s.getX i)) ∧
    (∀ v : Word,
      (∀ i t, s.err = .none → decode v = .ok i → exec i { s with cmd := v } = .next t → HostWrites s 0x00 v t) ∧
      HostWrites s 0x04 v { s with err := .none, errOp := 0#8 } ∧
      HostWrites s 0x08 v s ∧
      HostWrites s 0x0C v { s with ringMask := v } ∧
      HostWrites s 0x10 v s ∧ HostWrites s 0x14 v s ∧ HostWrites s 0x18 v s ∧ HostWrites s 0x1C v s ∧
      HostWrites s 0x20 v { s with bestScore := s.bestScore.extractLsb' 32 32 ++ v } ∧
      HostWrites s 0x24 v { s with bestScore := v ++ s.bestScore.extractLsb' 0 32 } ∧
      ∀ i : Fin 16, HostWrites s (0x40 + 4 * i.val) v (s.setX i v)) ∧
    ∀ offset, 0x28 ≤ offset → offset < 0x40 → offset % 4 = 0 →
      HostReads s offset 0#32 ∧ ∀ v, HostWrites s offset v s

/-- R24, R25, R251: the fields of the words STATUS and CONFIG read as, and the number of each fault; every other bit reads
0. -/
def Obligations.StatusAndConfigFields : Prop :=
  ∀ s : State,
    (s.statusWord.extractLsb' 0 1 = 1#1 ↔ s.index ≠ .absent) ∧ s.statusWord.extractLsb' 1 3 = 0#3 ∧
    s.statusWord.extractLsb' 4 4 = (match s.err with
      | .none => 0#4
      | .illegalCmd => 1#4
      | .notConfigured => 2#4
      | .badConfig => 3#4
      | .unsupported => 4#4
      | .badMask => 5#4) ∧
    s.statusWord.extractLsb' 8 8 = s.errOp ∧ s.statusWord.extractLsb' 16 16 = 0#16 ∧
    (s.configWord.extractLsb' 0 4).toNat = s.quality ∧ s.configWord.extractLsb' 4 4 = 0#4 ∧
    s.configWord.extractLsb' 8 5 = s.lgwin ∧ s.configWord.extractLsb' 13 19 = 0#19

/-- R253: while a fault is recorded a CMD write stores the word and does nothing else; the other host accesses work as
usual. -/
def Obligations.RefusedWhileFaultRecorded : Prop :=
  ∀ s : State, s.err ≠ .none →
    (∀ w, HostWrites s 0x00 w { s with cmd := w }) ∧
    (∀ (i : Fin 16) v, HostWrites s (0x40 + 4 * i.val) v (s.setX i v) ∧ HostReads s (0x40 + 4 * i.val) (s.getX i)) ∧
    (∀ v, HostWrites s 0x0C v { s with ringMask := v } ∧
      HostWrites s 0x20 v { s with bestScore := s.bestScore.extractLsb' 32 32 ++ v } ∧
      HostWrites s 0x24 v { s with bestScore := v ++ s.bestScore.extractLsb' 0 32 }) ∧
    HostReads s 0x00 s.cmd ∧ HostReads s 0x04 s.statusWord ∧ HostReads s 0x08 s.configWord ∧
    HostReads s 0x0C s.ringMask ∧
    HostReads s 0x10 (s.numDictLookups.extractLsb' 0 32) ∧ HostReads s 0x14 (s.numDictLookups.extractLsb' 32 32) ∧
    HostReads s 0x18 (s.numDictMatches.extractLsb' 0 32) ∧ HostReads s 0x1C (s.numDictMatches.extractLsb' 32 32) ∧
    HostReads s 0x20 (s.bestScore.extractLsb' 0 32) ∧ HostReads s 0x24 (s.bestScore.extractLsb' 32 32)

/-- R254: any STATUS write sets ERR and ERR_OP to 0 and changes nothing else; with ERR = 0 (and so ERR_OP = 0, R24) it has
no effect; the next word written to CMD is decoded normally: a command runs, any other word raises E_ILLEGAL_CMD. -/
def Obligations.StatusWriteClearsFault : Prop :=
  ∀ (s : State) (v : Word),
    HostWrites s 0x04 v { s with err := .none, errOp := 0#8 } ∧
    (s.err = .none → s.errOp = 0#8 → HostWrites s 0x04 v s) ∧
    ∀ (w : Word) (rest : List HostAction),
      s.host = .write (s.params.engineBase + 0x04) v :: .write s.params.engineBase w :: rest →
      ∃ t, step s = .next t ∧
        (∀ i, decode w = .ok i → step t = exec i { s with host := rest, cmd := w, err := .none, errOp := 0#8 }) ∧
        ((∀ i, decode w ≠ .ok i) →
          step t = .next { s with host := rest, cmd := w, err := .illegalCmd, errOp := w.extractLsb' 0 8 })

/-- R233: a word written to CMD has exactly one outcome in every state: refusal (R253), a fault (R252), or the state change
of its command. -/
def Obligations.EveryCommandWordHasAnOutcome : Prop :=
  ∀ (s : State) (w : Word), ∃ t, HostWrites s 0x00 w t ∧
    ((s.err ≠ .none ∧ t = { s with cmd := w }) ∨
     (s.err = .none ∧ t.err ≠ .none ∧ t = { s with cmd := w, err := t.err, errOp := w.extractLsb' 0 8 }) ∨
     (s.err = .none ∧ t.err = .none ∧ ∃ i, decode w = .ok i ∧ exec i { s with cmd := w } = .next t))

/-- The model's choices of notes/assumptions/1.md and 3.md: a step stops only on a host access to the register block that
R27 does not offer, and with no access pending the state stays. -/
def Obligations.StopsOnlyOutsideTheMap : Prop :=
  ∀ s : State,
    (s.host = [] → step s = .next s) ∧
    (∀ address rest, (s.host = .read address :: rest ∨ ∃ v, s.host = .write address v :: rest) →
      address < s.params.engineBase ∨ s.params.engineBase + 0x80 ≤ address ∨ (address - s.params.engineBase) % 4 ≠ 0 →
      step s = .fault .hostAccessOutsideMap) ∧
    ((∀ t, step s ≠ .next t) → ∃ address rest, (s.host = .read address :: rest ∨ ∃ v, s.host = .write address v :: rest) ∧
      (address < s.params.engineBase ∨ s.params.engineBase + 0x80 ≤ address ∨ (address - s.params.engineBase) % 4 ≠ 0))

/-- R60 to R62, R64, R100, with the model's choices of notes/assumptions/11.md (VIEW has every 32-bit byte address whatever
RING_MASK holds, DESIGN CHOICE), 16.md (`view` goes through RING_MASK even when it is illegal, DEDUCED) and 17.md (how the
host reads, DEDUCED): the owner's write of a VIEW byte is read back and touches no other byte; the script's `view` places
bytes through RING_MASK, every other byte of VIEW as before; the owner reads a VIEW byte and a MATCH record without changing
anything of the engine. -/
def Obligations.ViewHoldsWhatTheHostWrites : Prop :=
  ∀ (s : State) (rest : List HostAction),
    (∀ (a : Word) (v : Byte), ∃ t, step { s with host := .viewWrite a v :: rest } = .next t ∧
      t = { s with host := rest, view := t.view } ∧ t.view.read a.toNat = v ∧
      ∀ b : Word, b ≠ a → t.view.read b.toNat = s.view.read b.toNat) ∧
    (∀ (p : Word) (bytes : List Byte), ∃ t, step { s with host := .view p bytes :: rest } = .next t ∧
      t = { s with host := rest, view := t.view } ∧
      (∀ a : Word, (∀ j, j < bytes.length → a ≠ (p + BitVec.ofNat 32 j) &&& s.ringMask) →
        t.view.read a.toNat = s.view.read a.toNat) ∧
      ((∀ j k, j < bytes.length → k < bytes.length →
          (p + BitVec.ofNat 32 j) &&& s.ringMask = (p + BitVec.ofNat 32 k) &&& s.ringMask → j = k) →
        ∀ j (h : j < bytes.length), t.ring.byteAt p j = bytes[j])) ∧
    (∀ a : Word, step { s with host := .viewRead a :: rest } =
      .next { s with host := rest, readData := (s.view.read a.toNat).setWidth 64 }) ∧
    ∀ n : Word, step { s with host := .matchRead n :: rest } = .next { s with host := rest, readData := s.matchRecord n }

/-- R24, R25: STATUS.CONFIGURED is lost only by power-on reset, and CONFIG changes only by power-on reset or by a
CONFIGURE whose operands are legal, run while no fault is recorded. -/
def Obligations.ConfigurationChangesOnlyByConfigure : Prop :=
  ∀ s t : State, step s = .next t →
    (s.index ≠ .absent → t.index ≠ .absent ∨ ∃ rest, s.host = .powerOn :: rest) ∧
    (t.configWord ≠ s.configWord → (∃ rest, s.host = .powerOn :: rest) ∨
      ∃ w rest quality lgwin, s.host = .write s.params.engineBase w :: rest ∧ s.err = .none ∧
        decode w = .ok (.configure quality lgwin) ∧ 1 ≤ quality ∧ quality ≤ 10 ∧ 10 ≤ lgwin ∧ lgwin ≤ 24)

/-- R280, R38: what power-on reset leaves, and that then every command but CONFIGURE raises E_NOT_CONFIGURED, while
CONFIGURE creates the tables in their RESET state. `State.reset` holds the same register values. -/
def Obligations.PowerOnState : Prop :=
  ((∀ i, State.reset.getX i = 0#32) ∧ State.reset.bestScore = 0#64 ∧ State.reset.cmd = 0#32 ∧
    State.reset.statusWord = 0#32 ∧ State.reset.configWord = 0#32 ∧ State.reset.ringMask = 0#32 ∧
    State.reset.numDictLookups = 0#64 ∧ State.reset.numDictMatches = 0#64 ∧ State.reset.index = .absent) ∧
  ∀ (s : State) (rest : List HostAction), ∃ t, step { s with host := .powerOn :: rest } = .next t ∧
    (∀ i, t.getX i = 0#32) ∧ t.bestScore = 0#64 ∧ t.cmd = 0#32 ∧ t.statusWord = 0#32 ∧ t.configWord = 0#32 ∧
    t.ringMask = 0#32 ∧ t.numDictLookups = 0#64 ∧ t.numDictMatches = 0#64 ∧ t.index = .absent ∧
    t.view = s.view ∧ t.matchSpace = s.matchSpace ∧ t.params = s.params ∧
    (∀ i ∈ [Instr.reset, .store, .storeRange, .findLongestMatch, .findAllMatches, .prependCustomDictionary],
      exec i t = .next { t with err := .notConfigured, errOp := t.cmd.extractLsb' 0 8 }) ∧
    ∀ quality lgwin, 1 ≤ quality → quality ≤ 10 → 10 ≤ lgwin → lgwin ≤ 24 →
      ∃ u, exec (.configure quality lgwin) t = .next u ∧ u.index ≠ .absent ∧ u.index.AllReset u.lgwin

/-! Faults (spec/60_exceptions.md). -/

/-- R252: a command that raises a fault has written ERR and ERR_OP (bits [7:0] of CMD) and nothing else; which fault it
raises depends on the configuration and RING_MASK alone. -/
def Obligations.FaultsArePrecise : Prop :=
  (∀ (i : Instr) (s t : State), s.err = .none → exec i s = .next t → t.err ≠ .none →
    t = { s with err := t.err, errOp := s.cmd.extractLsb' 0 8 }) ∧
  ∀ (i : Instr) (s s' t t' : State), s.err = .none → s'.err = .none →
    s.index.strategy? = s'.index.strategy? → s.lgwin = s'.lgwin → s.ringMask = s'.ringMask →
    exec i s = .next t → exec i s' = .next t' → t.err = t'.err

/-- R94, R251: before the first CONFIGURE every other command raises E_NOT_CONFIGURED, whatever RING_MASK holds. -/
def Obligations.NotConfiguredFaults : Prop :=
  ∀ s : State, s.index = .absent →
    ∀ i ∈ [Instr.reset, .store, .storeRange, .findLongestMatch, .findAllMatches, .prependCustomDictionary],
      exec i s = .next { s with err := .notConfigured, errOp := s.cmd.extractLsb' 0 8 }

/-- R225, R226, R227, R251, R255: the three undefined (command, strategy) pairs raise E_UNSUPPORTED, whatever RING_MASK
holds. -/
def Obligations.UnsupportedPairsFault : Prop :=
  ∀ s : State,
    (∀ h qb, s.index = .quick h qb →
      exec .findAllMatches s = .next { s with err := .unsupported, errOp := s.cmd.extractLsb' 0 8 }) ∧
    (∀ ht child, s.index = .tree ht child →
      exec .findLongestMatch s = .next { s with err := .unsupported, errOp := s.cmd.extractLsb' 0 8 } ∧
      exec .prependCustomDictionary s = .next { s with err := .unsupported, errOp := s.cmd.extractLsb' 0 8 })

/-- R220, R26: RING_MASK passes iff it is `2^n − 1` with `n` in 0..32 and, on H10, at least `window_mask`; otherwise each
of the five commands raises E_BAD_MASK, where the strategy supports it. -/
def Obligations.PreludeChecksTheMask : Prop :=
  ∀ s : State,
    (maskOK s = true ↔ (∃ n, n ≤ 32 ∧ s.ringMask.toNat + 1 = 2 ^ n) ∧
      ∀ ht child, s.index = .tree ht child → 2 ^ s.lgwin.toNat - 1 ≤ s.ringMask.toNat) ∧
    (maskOK s = false →
      (s.index ≠ .absent → ∀ i ∈ [Instr.store, .storeRange],
        exec i s = .next { s with err := .badMask, errOp := s.cmd.extractLsb' 0 8 }) ∧
      (∀ h qb, s.index = .quick h qb → ∀ i ∈ [Instr.findLongestMatch, .prependCustomDictionary],
        exec i s = .next { s with err := .badMask, errOp := s.cmd.extractLsb' 0 8 }) ∧
      (∀ h num ring, s.index = .chain h num ring →
        ∀ i ∈ [Instr.findLongestMatch, .findAllMatches, .prependCustomDictionary],
          exec i s = .next { s with err := .badMask, errOp := s.cmd.extractLsb' 0 8 }) ∧
      ∀ ht child, s.index = .tree ht child →
        exec .findAllMatches s = .next { s with err := .badMask, errOp := s.cmd.extractLsb' 0 8 })

/-! Configuration and reset (spec/46_commands.md section 2). -/

/-- R221: CONFIGURE with legal immediates selects the strategy and the window, creates its tables in their RESET state,
clears both counters and leaves everything else; with others it raises E_BAD_CONFIG and nothing else changes. -/
def Obligations.ConfigureSelectsStrategy : Prop :=
  ∀ (s : State) (quality lgwin : Nat),
    (1 ≤ quality → quality ≤ 10 → 10 ≤ lgwin → lgwin ≤ 24 →
      ∃ t, exec (.configure quality lgwin) s = .next t ∧
        t.configWord = BitVec.ofNat 32 (quality + 256 * lgwin) ∧ t.quality = quality ∧ t.lgwin.toNat = lgwin ∧
        t.statusWord.extractLsb' 0 1 = 1#1 ∧ t.index ≠ .absent ∧ t.index.AllReset t.lgwin ∧ t.numDictLookups = 0#64 ∧ t.numDictMatches = 0#64 ∧
        RegsKept [] s t ∧ t.bestScore = s.bestScore ∧ t.cmd = s.cmd ∧ t.err = s.err ∧ t.errOp = s.errOp ∧
        t.ringMask = s.ringMask ∧ ViewKept s t ∧ MatchKept s t ∧ SurroundingsKept s t) ∧
    (quality < 1 ∨ 10 < quality ∨ lgwin < 10 ∨ 24 < lgwin →
      exec (.configure quality lgwin) s = .next { s with err := .badConfig, errOp := s.cmd.extractLsb' 0 8 })

/-- R222: RESET empties the tables of the configured strategy and both counters and leaves everything else, RING_MASK not
looked at; it answers what the CONFIGURE with CONFIG's current fields answers (R281); before the first CONFIGURE it raises
E_NOT_CONFIGURED, its one fault. -/
def Obligations.ResetEmptiesTables : Prop :=
  ∀ s : State,
    (s.index ≠ .absent →
      ∃ t, exec .reset s = .next t ∧ t.index.strategy? = s.index.strategy? ∧ t.index.AllReset s.lgwin ∧
        t.numDictLookups = 0#64 ∧ t.numDictMatches = 0#64 ∧
        RegsKept [] s t ∧ t.bestScore = s.bestScore ∧ ControlKept s t ∧ ViewKept s t ∧ MatchKept s t ∧
        SurroundingsKept s t) ∧
    (s.index ≠ .absent → 10 ≤ s.lgwin.toNat → s.lgwin.toNat ≤ 24 →
      exec .reset s = exec (.configure s.quality s.lgwin.toNat) s) ∧
    (s.index = .absent → exec .reset s = .next { s with err := .notConfigured, errOp := s.cmd.extractLsb' 0 8 })

/-! Stores (spec/43, 44, 45, spec/46_commands.md section 3). -/

/-- R160, R223: STORE on H1 to H4 writes `x[0]` to slot `QuickKey + ((x[0] >> 3) mod s)`, whatever bytes are there, and
nothing else; the slot is never the table's last. -/
def Obligations.QuickStoreEffect : Prop :=
  ∀ (s : State) (h : QuickStrategy) (qb : Sparse Word), s.index = .quick h qb → maskOK s = true →
    ∃ t qb', exec .store s = .next t ∧ t.index = .quick h qb' ∧ OnlyTablesChange s t ∧
      let p := s.params.strategy.quick h
      let slot := hash5 s.ring (s.getX 0) p.bucketBits + (s.getX 0).toNat / 8 % p.sweep
      qbGet qb' slot = s.getX 0 ∧ (∀ j, j ≠ slot → qbGet qb' j = qbGet qb j) ∧
      (p.WellFormed → slot < 2 ^ p.bucketBits + p.sweep - 1)

/-- R181, R223: STORE on H5 to H9 writes `x[0]` to `RING[key][NUM[key] & blk_mask]` and increments `NUM[key]` modulo 2^16,
and nothing else; the ring index goes on without a jump when the counter wraps. -/
def Obligations.ChainStoreEffect : Prop :=
  ∀ (s : State) (h : ChainStrategy) (num : Sparse (BitVec 16)) (ring : Sparse Word),
    s.index = .chain h num ring → maskOK s = true →
    ∃ t num' ring', exec .store s = .next t ∧ t.index = .chain h num' ring' ∧ OnlyTablesChange s t ∧
      let p := s.params.strategy.chain h
      let key := hash32 (load32 s.ring (s.getX 0)) p.bucketBits
      let n := (numGet num key).toNat
      (numGet num' key).toNat = (n + 1) % 2 ^ 16 ∧ (∀ key', key' ≠ key → numGet num' key' = numGet num key') ∧
      ringGet p ring' key (n % 2 ^ p.blockBits) = s.getX 0 ∧
      (∀ key' j, j < 2 ^ p.blockBits → (key' ≠ key ∨ j ≠ n % 2 ^ p.blockBits) →
        ringGet p ring' key' j = ringGet p ring key' j) ∧
      (p.WellFormed → (numGet num' key).toNat % 2 ^ p.blockBits = (n + 1) % 2 ^ p.blockBits ∧
        ((numGet num' key).toNat + 2 ^ 16 - 1) % 2 ^ p.blockBits = n % 2 ^ p.blockBits)

/-- R203 (b), R204 (f), R208, R223: STORE on H10, past the lookahead guard, makes `x[0]` the holder of its three hashes;
its two CHILD entries then hold SENTINEL or an in-window position; the walk visits at most `H10_MAX_SEARCH_DEPTH` nodes, all
in window, and every CHILD entry but those of `x[0]` and of the visited nodes is as before; nothing but the tables
changes. -/
def Obligations.TreeStoreInstalls : Prop :=
  ∀ (s : State) (ht child : Sparse Word), s.index = .tree ht child → maskOK s = true →
    s.params.h10NiceLength ≤ (s.getX 1).toNat →
    ∃ t ht' child', exec .store s = .next t ∧ t.index = .tree ht' child' ∧ OnlyTablesChange s t ∧
      let cur := s.getX 0
      let e := s.advanceAt cur (s.getX 1).toNat false
      let visited := e.visits s.params.h10MaxSearchDepth (e.startWalk ht child)
      (∀ i, treeGet s.lgwin ht' i =
        if i = treeKey2 s.ring cur ∨ i = treeKey3 s.ring cur ∨ i = treeKey4 s.ring cur then cur
        else treeGet s.lgwin ht i) ∧
      (∀ i ∈ [leftChild s.lgwin cur, rightChild s.lgwin cur],
        treeGet s.lgwin child' i = sentinel s.lgwin ∨ inWindow s.lgwin cur (treeGet s.lgwin child' i) = true) ∧
      visited.length ≤ s.params.h10MaxSearchDepth ∧ (∀ p ∈ visited, inWindow s.lgwin cur p = true) ∧
      ∀ i, (∀ p ∈ cur :: visited, i ≠ leftChild s.lgwin p ∧ i ≠ rightChild s.lgwin p) →
        treeGet s.lgwin child' i = treeGet s.lgwin child i

/-- R207: with a lookahead below `H10_NICE_LENGTH`, STORE on H10 changes nothing and FIND_ALL_MATCHES returns no match
without touching the tables. -/
def Obligations.TreeLookaheadGuard : Prop :=
  ∀ (s : State) (ht child : Sparse Word), s.index = .tree ht child → maskOK s = true →
    (s.getX 1).toNat < s.params.h10NiceLength →
    exec .store s = .next s ∧ exec .findAllMatches s = .next (s.setX 7 0#32)

/-- R203, steps 3 and 4, R204 (b), (d), R208, R36 (c). In every state: a root in window that agrees with `x[0]` over fewer
bytes than the nice length hangs left of `x[0]` when its first differing byte is smaller, else right; where its own child on
the side descended to is out of window, that child entry and the other of `x[0]` become SENTINEL, and no other CHILD entry
changes. Where the tree of `x[0]`'s key is ordered (R36 (c)): of the search path, at most `H10_MAX_SEARCH_DEPTH` nodes long,
the smaller nodes hang in a chain of right children from the left of `x[0]` and the greater ones in a chain of left children
from its right, each chain ended by SENTINEL; no other CHILD entry changes; and while SENTINEL is out of window (R295) both
halves are ordered, the left one before `x[0]`, the right one after it. -/
def Obligations.TreeHangsRoot : Prop :=
  ∀ (s : State) (ht child : Sparse Word), s.index = .tree ht child → maskOK s = true →
    s.params.h10NiceLength ≤ (s.getX 1).toNat →
    let cur := s.getX 0
    let root := treeGet s.lgwin ht (treeKey4 s.ring cur)
    let len := prefixMatch s.ring root cur (s.getX 1).toNat
    (1 ≤ s.params.h10MaxSearchDepth → inWindow s.lgwin cur root = true → len < s.params.h10NiceLength →
      (s.ring.byteAt root len < s.ring.byteAt cur len →
        inWindow s.lgwin cur (treeGet s.lgwin child (rightChild s.lgwin root)) = false →
        ∃ t ht' child', exec .store s = .next t ∧ t.index = .tree ht' child' ∧
          treeGet s.lgwin child' (leftChild s.lgwin cur) = root ∧
          treeGet s.lgwin child' (rightChild s.lgwin root) = sentinel s.lgwin ∧
          treeGet s.lgwin child' (rightChild s.lgwin cur) = sentinel s.lgwin ∧
          ∀ i, i ∉ [leftChild s.lgwin cur, rightChild s.lgwin root, rightChild s.lgwin cur] →
            treeGet s.lgwin child' i = treeGet s.lgwin child i) ∧
      (¬ s.ring.byteAt root len < s.ring.byteAt cur len →
        inWindow s.lgwin cur (treeGet s.lgwin child (leftChild s.lgwin root)) = false →
        ∃ t ht' child', exec .store s = .next t ∧ t.index = .tree ht' child' ∧
          treeGet s.lgwin child' (rightChild s.lgwin cur) = root ∧
          treeGet s.lgwin child' (leftChild s.lgwin root) = sentinel s.lgwin ∧
          treeGet s.lgwin child' (leftChild s.lgwin cur) = sentinel s.lgwin ∧
          ∀ i, i ∉ [rightChild s.lgwin cur, leftChild s.lgwin root, leftChild s.lgwin cur] →
            treeGet s.lgwin child' i = treeGet s.lgwin child i)) ∧
    let e := s.advanceAt cur (s.getX 1).toNat false
    ((∀ levels, TreeOrdered e child levels root [] []) →
      ∃ t ht' child', exec .store s = .next t ∧ t.index = .tree ht' child' ∧
        let path := treePath e child s.params.h10MaxSearchDepth root
        let smaller := path.filter e.hangsLeft
        let greater := path.filter e.hangsRight
        let leftChain := leftChild s.lgwin cur :: smaller.map (rightChild s.lgwin)
        let rightChain := rightChild s.lgwin cur :: greater.map (leftChild s.lgwin)
        leftChain.map (treeGet s.lgwin child') = smaller ++ [sentinel s.lgwin] ∧
        rightChain.map (treeGet s.lgwin child') = greater ++ [sentinel s.lgwin] ∧
        (∀ i, i ∉ leftChain → i ∉ rightChain → treeGet s.lgwin child' i = treeGet s.lgwin child i) ∧
        (inWindow s.lgwin cur (sentinel s.lgwin) = false →
          ∀ levels, TreeOrdered e child' levels (treeGet s.lgwin child' (leftChild s.lgwin cur)) [] [cur] ∧
            TreeOrdered e child' levels (treeGet s.lgwin child' (rightChild s.lgwin cur)) [cur] []))

/-- R205, R209 (g): on H10, STORE and FIND_ALL_MATCHES at the same position write the same tables. -/
def Obligations.RecordFlagKeepsTables : Prop :=
  ∀ (s : State) (ht child : Sparse Word), s.index = .tree ht child → maskOK s = true →
    ∃ t u, exec .store s = .next t ∧ exec .findAllMatches s = .next u ∧ u.index = t.index

/-- R224: STORE_RANGE stores nothing for `x[3] = 0`; otherwise it is one STORE followed by the STORE_RANGE of one position
fewer from the next position, the H10 lookahead one less and at least 0; it writes no register and nothing but the
tables; it faults where STORE does, with the same outcome. -/
def Obligations.StoreRangeIsStores : Prop :=
  ∀ s : State,
    (s.index ≠ .absent → maskOK s = true →
      (s.getX 3 = 0#32 → exec .storeRange s = .next s) ∧
      (s.getX 3 ≠ 0#32 → ∃ t u, exec .store s = .next t ∧
        exec .storeRange (((t.setX 0 (s.getX 0 + 1#32)).setX 1 (BitVec.ofNat 32 ((s.getX 1).toNat - 1))).setX 3
          (s.getX 3 - 1#32)) = .next u ∧
        exec .storeRange s = .next { u with x := s.x }) ∧
      ∃ t, exec .storeRange s = .next t ∧ OnlyTablesChange s t) ∧
    (s.index = .absent ∨ maskOK s = false → exec .storeRange s = exec .store s)

/-- R227: PREPEND_CUSTOM_DICTIONARY is the STORE_RANGE from position 0 of every position with `ix + HASH_LOAD ≤ x[3]` (8
on H1 to H4, 4 on H5 to H9), and writes no register and nothing but the tables. -/
def Obligations.PrependIsStoreRange : Prop :=
  ∀ (s : State) (load : Nat),
    ((∃ h qb, s.index = .quick h qb) ∧ load = 8 ∨ (∃ h num ring, s.index = .chain h num ring) ∧ load = 4) →
    maskOK s = true →
    ∃ t u, exec .prependCustomDictionary s = .next t ∧
      exec .storeRange ((s.setX 0 0#32).setX 3 (BitVec.ofNat 32 ((s.getX 3).toNat + 1 - load))) = .next u ∧
      t = { u with x := s.x } ∧ OnlyTablesChange s t

/-! FIND_LONGEST_MATCH (spec/43, 44, spec/46_commands.md R225). -/

/-- R225, R166: on H1 to H9 FIND_LONGEST_MATCH completes; `x[7]` is 0 or 1, and 1 iff BEST_SCORE strictly rose; with 0 no
other output changes; nothing beyond its outputs and the throttle counters changes. -/
def Obligations.FindLongestCompletes : Prop :=
  ∀ s : State, ((∃ h qb, s.index = .quick h qb) ∨ ∃ h num ring, s.index = .chain h num ring) → maskOK s = true →
    ∃ t, exec .findLongestMatch s = .next t ∧ FindLongestFrame s t ∧
      ((t.getX 7 = 1#32 ∧ s.bestScore.toInt < t.bestScore.toInt) ∨
       (t.getX 7 = 0#32 ∧ RegsKept [7] s t ∧ t.bestScore = s.bestScore))

/-- R167 (a), R191 (a): with `x[1]` below the hash width (5 on H1 to H4, 4 on H5 to H9) a find command writes
`x[7] = 0` and nothing else. -/
def Obligations.ShortLookaheadFindsNothing : Prop :=
  ∀ s : State, maskOK s = true →
    (∀ h qb, s.index = .quick h qb → (s.getX 1).toNat < 5 → exec .findLongestMatch s = .next (s.setX 7 0#32)) ∧
    ∀ h num ring, s.index = .chain h num ring → (s.getX 1).toNat < 4 →
      exec .findLongestMatch s = .next (s.setX 7 0#32) ∧ exec .findAllMatches s = .next (s.setX 7 0#32)

/-- R163: on H1 (sweep 1), where exactly one candidate is examined, the outputs are its length, distance and score, and
the dictionary is not probed: the last-distance candidate when it is accepted (its distance not tested against `x[2]`), the
bucket slot when `x[8]` is no distance into the stream. -/
def Obligations.QuickSingleProbe : Prop :=
  ∀ (s : State) (h : QuickStrategy) (qb : Sparse Word), s.index = .quick h qb → maskOK s = true →
    (s.params.strategy.quick h).sweep = 1 → 5 ≤ (s.getX 1).toNat →
    let cur := s.getX 0
    (1 ≤ (s.getX 8).toInt → (s.getX 8).toInt ≤ cur.toNat →
      let len := prefixMatch s.ring (cur - s.getX 8) cur (s.getX 1).toNat
      s.ring.byte (cur - s.getX 8 + s.getX 4) = s.ring.byte (cur + s.getX 4) → 4 ≤ len →
      s.bestScore.toInt < scoreLast len 0 →
      ∃ t, exec .findLongestMatch s = .next t ∧ t.getX 7 = 1#32 ∧ (t.getX 4).toNat = len ∧ (t.getX 5).toNat = len ∧
        t.getX 6 = s.getX 8 ∧ t.bestScore.toInt = scoreLast len 0 ∧ CountersKept s t ∧ FindLongestFrame s t) ∧
    (¬ (1 ≤ (s.getX 8).toInt ∧ (s.getX 8).toInt ≤ cur.toNat) →
      let prev := qbGet qb (hash5 s.ring cur (s.params.strategy.quick h).bucketBits)
      let len := prefixMatch s.ring prev cur (s.getX 1).toNat
      cur - prev ≠ 0#32 → cur - prev ≤ s.getX 2 →
      s.ring.byte (prev + s.getX 4) = s.ring.byte (cur + s.getX 4) → 4 ≤ len →
      s.bestScore.toInt < score len (cur - prev) →
      ∃ t, exec .findLongestMatch s = .next t ∧ t.getX 7 = 1#32 ∧ (t.getX 4).toNat = len ∧ (t.getX 5).toNat = len ∧
        t.getX 6 = cur - prev ∧ t.bestScore.toInt = score len (cur - prev) ∧ CountersKept s t ∧ FindLongestFrame s t)

/-- R163, R166 (b): a match of H1 to H4 that no dictionary answer gave is as long as its bytes agree within `x[1]`, at least
4; it is the candidate of a slot `QB[QuickKey + j]` of the sweep, its distance in 1..`x[2]`, with the general score, or the
last distance `x[8]`, in 1..`x[0]`, with that candidate's score. -/
def Obligations.QuickMatchIsTrue : Prop :=
  ∀ (s t : State) (h : QuickStrategy) (qb : Sparse Word), s.index = .quick h qb → maskOK s = true →
    exec .findLongestMatch s = .next t → t.getX 7 = 1#32 → t.numDictMatches = s.numDictMatches →
    let cur := s.getX 0
    let p := s.params.strategy.quick h
    let len := (t.getX 4).toNat
    let dist := t.getX 6
    4 ≤ len ∧ len = prefixMatch s.ring (cur - dist) cur (s.getX 1).toNat ∧ len ≤ (s.getX 1).toNat ∧
      t.getX 5 = t.getX 4 ∧ dist ≠ 0#32 ∧ BytesAgree s.ring cur dist len ∧
      ((dist ≤ s.getX 2 ∧ (∃ j, j < p.sweep ∧ cur - dist = qbGet qb (hash5 s.ring cur p.bucketBits + j)) ∧
          t.bestScore.toInt = score len dist) ∨
       (dist = s.getX 8 ∧ 1 ≤ (s.getX 8).toInt ∧ (s.getX 8).toInt ≤ cur.toNat ∧
          t.bestScore.toInt = scoreLast len 0))

/-- R185, R190 (a), (b): on H5 to H9 a match that no dictionary answer gave is as long as its bytes agree within `x[1]`, its
distance in 1..`x[2]`; it is a candidate of the walk, at least 4 long, with the general score, or one of the first
`last_dist_to_check` cache candidates (R183), at least 3 long or 2 for the first two, with that candidate's score. -/
def Obligations.ChainMatchIsTrue : Prop :=
  ∀ (s t : State) (h : ChainStrategy) (num : Sparse (BitVec 16)) (ring : Sparse Word),
    s.index = .chain h num ring → maskOK s = true →
    exec .findLongestMatch s = .next t → t.getX 7 = 1#32 → t.numDictMatches = s.numDictMatches →
    let len := (t.getX 4).toNat
    let dist := t.getX 6
    2 ≤ len ∧ len = prefixMatch s.ring (s.getX 0 - dist) (s.getX 0) (s.getX 1).toNat ∧ t.getX 5 = t.getX 4 ∧
      dist ≠ 0#32 ∧ dist ≤ s.getX 2 ∧ BytesAgree s.ring (s.getX 0) dist len ∧
      ((4 ≤ len ∧ t.bestScore.toInt = score len dist ∧
          ∃ prev ∈ chainWalk (s.params.strategy.chain h) s.ring num ring (s.getX 0) (s.getX 2), dist = s.getX 0 - prev) ∨
       ∃ i : Fin 16, i.val < (s.params.strategy.chain h).lastDistToCheck ∧
        (dist.toNat : Int) = (s.getX ⟨8 + s.params.distIndex[i].val, by omega⟩).toInt + s.params.distOffset[i] ∧
        dist ≤ s.getX 0 ∧ (3 ≤ len ∨ len = 2 ∧ i.val < 2) ∧ t.bestScore.toInt = scoreLast len i)

/-- R163, R166, R167 (e): a FIND_LONGEST_MATCH of H1 to H4 answers the last of the candidates accepted one after the other
(`quickCandidates`, `takenFrom`, the gate at the running best length among the tests; on H1 the first), and before the
dictionary stage nothing else: where none passes, `x[7]` is 0 or a dictionary match was counted. It improves whenever the
last-distance candidate or some slot of the sweep holds an admissible candidate of length at least 4, longer than `x[4]`,
whose score beats BEST_SCORE. It ends with a score at least that of the last-distance candidate, and at least that of
every slot's candidate that is longer than `x[4]`, than an accepted last-distance candidate and than the admissible
candidates of the earlier slots: a later, better one replaces an earlier one (on H1 an accepted last-distance candidate
ends the search). And of equal scores the earlier stays (R166 (c)): where such a candidate beats BEST_SCORE and the final
score is no more than its, the match is its own or that of a candidate before it. -/
def Obligations.QuickMissesNothing : Prop :=
  ∀ (s : State) (h : QuickStrategy) (qb : Sparse Word), s.index = .quick h qb → maskOK s = true →
    5 ≤ (s.getX 1).toNat →
    let cur := s.getX 0
    let sweep := (s.params.strategy.quick h).sweep
    let slot := fun j => qbGet qb (hash5 s.ring cur (s.params.strategy.quick h).bucketBits + j)
    let len := fun prev => prefixMatch s.ring prev cur (s.getX 1).toNat
    let admissible := fun prev => cur - prev ≠ 0#32 ∧ cur - prev ≤ s.getX 2
    let cached := 1 ≤ (s.getX 8).toInt ∧ (s.getX 8).toInt ≤ cur.toNat
    let last := len (cur - s.getX 8)
    let accepted := cached ∧ s.ring.byte (cur - s.getX 8 + s.getX 4) = s.ring.byte (cur + s.getX 4) ∧ 4 ≤ last ∧
      s.bestScore.toInt < scoreLast last 0
    let taken := takenFrom s.ring cur (s.getX 1).toNat (s.getX 4).toNat s.bestScore.toInt (quickCandidates s h qb)
    ∃ t, exec .findLongestMatch s = .next t ∧
      AnswersWindow s t (if sweep = 1 then taken.head? else taken.getLast?) ∧
      (((cached ∧ 4 ≤ last ∧ (s.getX 4).toNat < last ∧ s.bestScore.toInt < scoreLast last 0) ∨
        ∃ j prev, j < sweep ∧ prev = slot j ∧ admissible prev ∧ 4 ≤ len prev ∧ (s.getX 4).toNat < len prev ∧
          s.bestScore.toInt < score (len prev) (cur - prev)) →
        t.getX 7 = 1#32) ∧
      (cached → 4 ≤ last → (s.getX 4).toNat < last →
        scoreLast last 0 ≤ t.bestScore.toInt ∧
        (s.bestScore.toInt < scoreLast last 0 → t.bestScore.toInt = scoreLast last 0 → t.getX 6 = s.getX 8)) ∧
      ∀ j prev, j < sweep → prev = slot j → admissible prev → 4 ≤ len prev → (s.getX 4).toNat < len prev →
        (sweep = 1 → ¬ accepted) → (accepted → last < len prev) →
        (∀ j', j' < j → admissible (slot j') → len (slot j') < len prev) →
        score (len prev) (cur - prev) ≤ t.bestScore.toInt ∧
        (s.bestScore.toInt < score (len prev) (cur - prev) → t.bestScore.toInt = score (len prev) (cur - prev) →
          (∃ j', j' ≤ j ∧ cur - t.getX 6 = slot j') ∨ cached ∧ t.getX 6 = s.getX 8)

/-- R185, R190, R191 (e): the same on H5 to H9, over the first `last_dist_to_check` cache candidates (R183) and the
candidates of the walk (R182): the find answers the last of the candidates accepted one after the other (`chainCandidates`,
`takenFrom`; that the gate is applied to the cache candidates too is the spec's own decision, D15), and before the dictionary
stage nothing else; it improves whenever one of them, long enough and longer than `x[4]`, beats BEST_SCORE;
it ends with a score at least that of every such candidate that is longer than all admissible ones before it; and where such
a candidate beats BEST_SCORE and the final score is no more than its, the match is its own or that of a candidate before
it. -/
def Obligations.ChainMissesNothing : Prop :=
  ∀ (s : State) (h : ChainStrategy) (num : Sparse (BitVec 16)) (ring : Sparse Word),
    s.index = .chain h num ring → maskOK s = true → 4 ≤ (s.getX 1).toNat →
    let cur := s.getX 0
    let toCheck := (s.params.strategy.chain h).lastDistToCheck
    let walk := chainWalk (s.params.strategy.chain h) s.ring num ring cur (s.getX 2)
    let len := fun prev => prefixMatch s.ring prev cur (s.getX 1).toNat
    let candidate := fun (i : Fin 16) (d : Word) =>
      (d.toNat : Int) = (s.getX ⟨8 + s.params.distIndex[i].val, by omega⟩).toInt + s.params.distOffset[i] ∧
        d ≠ 0#32 ∧ d ≤ cur ∧ d ≤ s.getX 2
    let taken := takenFrom s.ring cur (s.getX 1).toNat (s.getX 4).toNat s.bestScore.toInt (chainCandidates s h num ring)
    ∃ t, exec .findLongestMatch s = .next t ∧ AnswersWindow s t taken.getLast? ∧
      (((∃ (i : Fin 16) (d : Word), i.val < toCheck ∧ candidate i d ∧
          (3 ≤ len (cur - d) ∨ len (cur - d) = 2 ∧ i.val < 2) ∧
          (s.getX 4).toNat < len (cur - d) ∧ s.bestScore.toInt < scoreLast (len (cur - d)) i) ∨
        ∃ prev ∈ walk, 4 ≤ len prev ∧ (s.getX 4).toNat < len prev ∧
          s.bestScore.toInt < score (len prev) (cur - prev)) →
        t.getX 7 = 1#32) ∧
      (∀ (i : Fin 16) (d : Word), i.val < toCheck → candidate i d →
        (3 ≤ len (cur - d) ∨ len (cur - d) = 2 ∧ i.val < 2) → (s.getX 4).toNat < len (cur - d) →
        (∀ (i' : Fin 16) (d' : Word), i'.val < i.val → candidate i' d' → len (cur - d') < len (cur - d)) →
        scoreLast (len (cur - d)) i ≤ t.bestScore.toInt ∧
        (s.bestScore.toInt < scoreLast (len (cur - d)) i → t.bestScore.toInt = scoreLast (len (cur - d)) i →
          ∃ i' : Fin 16, i'.val ≤ i.val ∧ candidate i' (t.getX 6))) ∧
      ∀ (newer older : List Word) (prev : Word), walk = newer ++ prev :: older → 4 ≤ len prev →
        (s.getX 4).toNat < len prev →
        (∀ (i : Fin 16) (d : Word), i.val < toCheck → candidate i d → len (cur - d) < len prev) →
        (∀ q ∈ newer, len q < len prev) →
        score (len prev) (cur - prev) ≤ t.bestScore.toInt ∧
        (s.bestScore.toInt < score (len prev) (cur - prev) → t.bestScore.toInt = score (len prev) (cur - prev) →
          (∃ q ∈ newer ++ [prev], t.getX 6 = cur - q) ∨ ∃ i : Fin 16, i.val < toCheck ∧ candidate i (t.getX 6))

/-- R182: the candidates of the walk are the ring entries of the key, newest first and in that order, at most `2^b` of them,
up to the first that is beyond `maxback`, the self-distance left out. -/
def Obligations.ChainWalkYields : Prop :=
  ∀ (p : ChainParams) (r : Ring) (num : Sparse (BitVec 16)) (ring : Sparse Word) (cur maxback : Word),
    let key := hash32 (load32 r cur) p.bucketBits
    let n := (numGet num key).toNat
    let entry := fun t => ringGet p ring key ((n - 1 - t) % 2 ^ p.blockBits)
    (chainWalk p r num ring cur maxback).Sublist ((List.range (min n (2 ^ p.blockBits))).map entry) ∧
    ∀ prev, prev ∈ chainWalk p r num ring cur maxback ↔
      ∃ t, t < n ∧ t < 2 ^ p.blockBits ∧ prev = entry t ∧ cur - prev ≠ 0#32 ∧ ∀ t', t' ≤ t → cur - entry t' ≤ maxback

/-- R231 (a), for H1 to H4: after a STORE at `p`, a find at `cur` over the same bytes improves when the five bytes at `p`
and `cur` agree, the distance is admissible, `x[4] = 0` and the candidate's score beats BEST_SCORE. -/
def Obligations.QuickStoreThenFind : Prop :=
  ∀ (s u : State) (h : QuickStrategy) (qb : Sparse Word), s.index = .quick h qb → maskOK s = true →
    (s.params.strategy.quick h).WellFormed →
    let p := s.getX 0
    let cur := u.getX 0
    ∃ t, exec .store s = .next t ∧
      (u.index = t.index → u.view = t.view → u.ringMask = t.ringMask → u.lgwin = t.lgwin → u.params = t.params →
        cur - p ≠ 0#32 → cur - p ≤ u.getX 2 → 5 ≤ (u.getX 1).toNat → u.getX 4 = 0#32 →
        (∀ j, j < 5 → u.ring.byteAt p j = u.ring.byteAt cur j) →
        u.bestScore.toInt < score (prefixMatch u.ring p cur (u.getX 1).toNat) (cur - p) →
        ∃ v, exec .findLongestMatch u = .next v ∧ v.getX 7 = 1#32)

/-- R231 (a), for H5 to H9, with four bytes; the counter must not wrap at this store (R182: after a wrap the walk covers
the entries stored since). -/
def Obligations.ChainStoreThenFind : Prop :=
  ∀ (s u : State) (h : ChainStrategy) (num : Sparse (BitVec 16)) (ring : Sparse Word),
    s.index = .chain h num ring → maskOK s = true →
    numGet num (hash32 (load32 s.ring (s.getX 0)) (s.params.strategy.chain h).bucketBits) ≠ 0xFFFF#16 →
    let p := s.getX 0
    let cur := u.getX 0
    ∃ t, exec .store s = .next t ∧
      (u.index = t.index → u.view = t.view → u.ringMask = t.ringMask → u.lgwin = t.lgwin → u.params = t.params →
        cur - p ≠ 0#32 → cur - p ≤ u.getX 2 → 4 ≤ (u.getX 1).toNat → u.getX 4 = 0#32 →
        (∀ j, j < 4 → u.ring.byteAt p j = u.ring.byteAt cur j) →
        u.bestScore.toInt < score (prefixMatch u.ring p cur (u.getX 1).toNat) (cur - p) →
        ∃ v, exec .findLongestMatch u = .next v ∧ v.getX 7 = 1#32)

/-- R164, R191 (b), R209 (a), R231 (e): RESET tables give no match at position 0 (on H10 at no position below the wrap of
R295), apart from a dictionary answer. -/
def Obligations.FreshTablesFindNothing : Prop :=
  ∀ s : State, maskOK s = true → s.index.AllReset s.lgwin →
    (s.getX 0 = 0#32 → ((∃ h qb, s.index = .quick h qb) ∨ ∃ h num ring, s.index = .chain h num ring) →
      ∃ t, exec .findLongestMatch s = .next t ∧ (t.getX 7 = 0#32 ∨ t.numDictMatches ≠ s.numDictMatches)) ∧
    (∀ h num ring, s.index = .chain h num ring → s.getX 0 = 0#32 → s.params.dictAllMatches = .table [] →
      exec .findAllMatches s = .next (s.setX 7 0#32)) ∧
    ∀ ht child, s.index = .tree ht child → (s.getX 0).toNat + windowMask s.lgwin < 2 ^ 32 →
      ∃ t, exec .findAllMatches s = .next t ∧ t.getX 7 = 0#32

/-! The static dictionary (spec/42_static_dictionary.md). -/

/-- R143, R142, R141, R146, R165, R186: what an accepted dictionary candidate is: an entry of the pair (the even one alone on
H1 to H4), its declared length at most `x[1]`, more than its length less 10 and at least 1 of its bytes equal, and exactly so
many; the length code the declared length; the distance the synthetic one; the score the general one. And once the
dictionary stage was entered, no candidate of a probed entry scores more than the result; and the even entry's, where it beats
BEST_SCORE, is the result unless the odd entry's, probed too, scores strictly more (R185: of equal scores the first stays). -/
def Obligations.DictionaryMatch : Prop :=
  ∀ s t : State, maskOK s = true → exec .findLongestMatch s = .next t →
    let d := s.params.dict
    let key := dictKey s.ring (s.getX 0)
    let probed := fun idx => idx = key ∨ (idx = key + 1 ∧ ∃ h num ring, s.index = .chain h num ring)
    let len := fun idx => (Sparse.get 0#16 d.hash idx).toNat % 32
    let slot := fun idx => (Sparse.get 0#16 d.hash idx).toNat / 32
    let off := fun idx => (Sparse.get 0#32 d.offsetsByLength (len idx)).toNat + len idx * slot idx
    let dist := fun idx matched => BitVec.ofNat 32 ((s.getX 2).toNat +
      ((Sparse.get 0#8 d.cutoffTransforms (len idx - matched)).toNat *
        2 ^ (Sparse.get 0#8 d.sizeBitsByLength (len idx)).toNat + slot idx) + 1)
    let matching := fun idx => prefixMatchDict d s.ring (s.getX 0) (off idx) (len idx)
    let candidate := fun idx => 1 ≤ len idx ∧ len idx ≤ (s.getX 1).toNat ∧ 1 ≤ matching idx ∧
      len idx < matching idx + 10 ∧ dist idx (matching idx) ≠ 0#32
    let scored := fun idx => score (matching idx) (dist idx (matching idx))
    (t.numDictMatches ≠ s.numDictMatches →
      ∃ idx, probed idx ∧
        let matched := (t.getX 4).toNat
        t.getX 7 = 1#32 ∧ 1 ≤ matched ∧ matched ≤ len idx ∧ len idx < matched + 10 ∧ len idx ≤ (s.getX 1).toNat ∧
        (t.getX 5).toNat = len idx ∧
        (∀ j, j < matched → s.ring.byteAt (s.getX 0) j = dictByte d (off idx + j)) ∧
        (matched < len idx → s.ring.byteAt (s.getX 0) matched ≠ dictByte d (off idx + matched)) ∧
        t.getX 6 = dist idx matched ∧ t.getX 6 ≠ 0#32 ∧ t.bestScore.toInt = score matched (t.getX 6)) ∧
    (t.numDictLookups ≠ s.numDictLookups →
      (∀ idx, probed idx → candidate idx → scored idx ≤ t.bestScore.toInt) ∧
      (candidate key → s.bestScore.toInt < scored key →
        (probed (key + 1) → candidate (key + 1) → scored (key + 1) ≤ scored key) →
        (t.getX 4).toNat = matching key ∧ (t.getX 5).toNat = len key ∧ t.getX 6 = dist key (matching key)))

/-- R145, R146, R165, R186: the throttle counters. On H1 to H4 one lookup is counted exactly when the dictionary stage is
entered (`use_dict`, the gate open, nothing accepted before), on H5 to H9 two; a match is counted for each accepted candidate:
that of the even entry when it beats BEST_SCORE, and on H5 to H9 that of the odd entry when it beats BEST_SCORE and the even
entry's. RESULT is then 1 exactly when one was. -/
def Obligations.ThrottleCounting : Prop :=
  ∀ s t : State, maskOK s = true → exec .findLongestMatch s = .next t →
    let key := dictKey s.ring (s.getX 0)
    let look := dictLookup s.params.dict s.ring (s.getX 0) (s.getX 1) (s.getX 2)
    let even := (look key).any fun c => decide (s.bestScore.toInt < c.score)
    let odd := (look (key + 1)).any fun c =>
      decide (s.bestScore.toInt < c.score) && (look key).all fun c' => decide (c'.score < c.score)
    (∀ h qb, s.index = .quick h qb →
      let entered := 5 ≤ (s.getX 1).toNat ∧ (s.params.strategy.quick h).useDict = true ∧
        s.numDictLookups >>> 7 ≤ s.numDictMatches
      (t.numDictLookups = s.numDictLookups ∧ t.numDictMatches = s.numDictMatches ∧ (entered → t.getX 7 = 1#32)) ∨
      (entered ∧ t.numDictLookups = s.numDictLookups + 1#64 ∧
        t.numDictMatches = s.numDictMatches + (if even then 1#64 else 0#64) ∧
        t.getX 7 = if even then 1#32 else 0#32)) ∧
    ∀ h num ring, s.index = .chain h num ring →
      let entered := 4 ≤ (s.getX 1).toNat ∧ s.numDictLookups >>> 7 ≤ s.numDictMatches
      (t.numDictLookups = s.numDictLookups ∧ t.numDictMatches = s.numDictMatches ∧ (entered → t.getX 7 = 1#32)) ∨
      (entered ∧ t.numDictLookups = s.numDictLookups + 2#64 ∧
        t.numDictMatches = s.numDictMatches + (if even then 1#64 else 0#64) + (if odd then 1#64 else 0#64) ∧
        t.getX 7 = if even || odd then 1#32 else 0#32)

/-- R145: the first 128 lookups are always granted; once 128 are counted with no match, no step but a RESET, a CONFIGURE or
power-on reset changes a counter again. -/
def Obligations.ThrottleStaysClosed : Prop :=
  (∀ lookups hits : Word64, lookups < 128#64 → throttleOpen lookups hits = true) ∧
  ∀ s t : State, 128#64 ≤ s.numDictLookups → s.numDictMatches = 0#64 → step s = .next t →
    CountersKept s t ∨ (∃ rest, s.host = .powerOn :: rest) ∨
      ∃ w rest, s.host = .write s.params.engineBase w :: rest ∧
        (decode w = .ok .reset ∨ ∃ quality lgwin, decode w = .ok (.configure quality lgwin))

/-! FIND_ALL_MATCHES (spec/44 R187 to R189, spec/45 R206). -/

/-- R187, R188 (a), (b), R189: on H5 to H9 FIND_ALL_MATCHES completes and outputs the list of its matches, lengths strictly
increasing: matches of the window, each within `x[2]` and as long as its bytes agree within `x[1]`, either at a near position
(at most 64 back and inside the stream, every nearer one agreeing over at most 2 bytes and over fewer) or at a candidate of
the walk (every newer one agreeing over fewer); then one record for every length from one above the longest of these (2
without one) to `min(x[1], DICT_MAX_LEN)` that `DICT_ALL_MATCHES` answers, ascending; with `x[1]` below 4 none. No distance is
0 (R230 (a)): that an answer whose distance wraps to 0 gives no record is the model's reading (notes/assumptions/24.md,
DEDUCED). Nothing else changes. -/
def Obligations.ChainFindAllRecords : Prop :=
  ∀ (s : State) (h : ChainStrategy) (num : Sparse (BitVec 16)) (ring : Sparse Word),
    s.index = .chain h num ring → maskOK s = true →
    let cur := s.getX 0
    let walk := chainWalk (s.params.strategy.chain h) s.ring num ring cur (s.getX 2)
    let len := fun prev => prefixMatch s.ring prev cur (s.getX 1).toNat
    ∃ t window dict, exec .findAllMatches s = .next t ∧ FindAllFrame s t ∧ t.index = s.index ∧
      chainMatches s h num ring = window ++ dict ∧ MatchesOutput s t (window ++ dict) ∧
      LengthsIncrease (window ++ dict) ∧ (∀ m ∈ window ++ dict, m.distance ≠ 0#32) ∧
      (∀ m ∈ window, 2 ≤ m.length ∧ m.length = len (cur - m.distance) ∧ m.length ≤ (s.getX 1).toNat ∧
        m.lengthCode = m.length ∧ m.distance ≤ s.getX 2 ∧ BytesAgree s.ring cur m.distance m.length ∧
        ((m.distance ≤ 64#32 ∧ m.distance ≤ cur ∧
            ∀ d : Word, d ≠ 0#32 → d < m.distance → len (cur - d) ≤ 2 ∧ len (cur - d) < m.length) ∨
          ∃ newer older, walk = newer ++ (cur - m.distance) :: older ∧ ∀ q ∈ newer, len q < m.length)) ∧
      ((s.getX 1).toNat < 4 → window = [] ∧ dict = []) ∧
      (4 ≤ (s.getX 1).toNat →
        let lo := (window.getLast?.map MatchRec.length).getD 1 + 1
        let hi := min (s.getX 1).toNat s.params.dictMaxLen
        dict = (List.range' lo (hi + 1 - lo)).filterMap fun len =>
          (dictAllMatches s.params.dictAllMatches (viewBytes s.ring cur hi) lo hi len).bind fun hit =>
            let dist := BitVec.ofNat 32 ((s.getX 2).toNat + hit.wordId.toNat + 1)
            if dist = 0#32 then none else some ⟨dist, len, hit.lenCode⟩)

/-- R188 (d), (e), R230 (d), R299: for a `DICT_MAX_LEN` in 1..324, a match of 325 or more is returned alone, and the count
is at most `322 + DICT_MAX_LEN`. -/
def Obligations.ChainFindAllCollapses : Prop :=
  ∀ (s : State) (h : ChainStrategy) (num : Sparse (BitVec 16)) (ring : Sparse Word),
    s.index = .chain h num ring → maskOK s = true → 1 ≤ s.params.dictMaxLen → s.params.dictMaxLen < 325 →
    let ms := chainMatches s h num ring
    ∃ t, exec .findAllMatches s = .next t ∧ MatchesOutput s t ms ∧
      (∀ m ∈ ms, 325 ≤ m.length → ms = [m]) ∧ (t.getX 7).toNat ≤ 322 + s.params.dictMaxLen

/-- R187, R188 (c), R189: every strictly longer candidate is output. A near position (up to 64 back, inside the stream and
`x[2]`, no nearer one agreeing over 3 bytes, where phase 1 ends) that agrees over 2 bytes and over more than every nearer one
has its match in the window's list, and so has a candidate of the walk that agrees over 2 bytes and over more than every near
position and every newer candidate, unless a longer record of 325 or more drops it. So every candidate of the walk is matched
or surpassed in length by a true match of the window that is output; so is every near position, and beyond the first of 3
bytes one up to length 3; and every answer of `DICT_ALL_MATCHES` above the longest of these is output, but for one whose
distance wraps to 0: that this one gives no record is the model's reading (notes/assumptions/24.md, DEDUCED). -/
def Obligations.ChainFindAllMissesNothing : Prop :=
  ∀ (s : State) (h : ChainStrategy) (num : Sparse (BitVec 16)) (ring : Sparse Word),
    s.index = .chain h num ring → maskOK s = true → 4 ≤ (s.getX 1).toNat →
    let cur := s.getX 0
    let walk := chainWalk (s.params.strategy.chain h) s.ring num ring cur (s.getX 2)
    let len := fun prev => prefixMatch s.ring prev cur (s.getX 1).toNat
    let near := fun d : Word => d ≠ 0#32 ∧ d ≤ 64#32 ∧ d ≤ cur ∧ d ≤ s.getX 2 ∧
      ∀ d' : Word, d' ≠ 0#32 → d' < d → len (cur - d') ≤ 2
    ∃ t window dict, exec .findAllMatches s = .next t ∧ chainMatches s h num ring = window ++ dict ∧
      MatchesOutput s t (window ++ dict) ∧
      (∀ m ∈ window, m.distance ≠ 0#32 ∧ m.distance ≤ s.getX 2 ∧ BytesAgree s.ring cur m.distance m.length) ∧
      (∀ prev ∈ walk, 2 ≤ len prev → ∃ m ∈ window, len prev ≤ m.length) ∧
      (∀ d, near d → 2 ≤ len (cur - d) → (∀ d' : Word, d' ≠ 0#32 → d' < d → len (cur - d') < len (cur - d)) →
        ⟨d, len (cur - d), len (cur - d)⟩ ∈ window ∨ ∃ m ∈ window, 325 ≤ m.length ∧ len (cur - d) < m.length) ∧
      (∀ newer older prev, walk = newer ++ prev :: older → 2 ≤ len prev → (∀ d, near d → len (cur - d) < len prev) →
        (∀ q ∈ newer, len q < len prev) →
        ⟨cur - prev, len prev, len prev⟩ ∈ window ∨ ∃ m ∈ window, 325 ≤ m.length ∧ len prev < m.length) ∧
      (∀ d : Word, d ≠ 0#32 → d ≤ 64#32 → d ≤ cur → d ≤ s.getX 2 → 2 ≤ len (cur - d) →
        ((∀ d' : Word, d' ≠ 0#32 → d' < d → len (cur - d') ≤ 2) → ∃ m ∈ window, len (cur - d) ≤ m.length) ∧
        ∃ m ∈ window, min 3 (len (cur - d)) ≤ m.length) ∧
      let lo := (window.getLast?.map MatchRec.length).getD 1 + 1
      let hi := min (s.getX 1).toNat s.params.dictMaxLen
      ∀ (l : Nat) (hit : DictHit), lo ≤ l → l ≤ hi →
        dictAllMatches s.params.dictAllMatches (viewBytes s.ring cur hi) lo hi l = some hit →
        let dist := BitVec.ofNat 32 ((s.getX 2).toNat + hit.wordId.toNat + 1)
        (dist ≠ 0#32 → ⟨dist, l, hit.lenCode⟩ ∈ dict) ∧ (dist = 0#32 → ∀ m ∈ dict, m.length ≠ l)

/-- R206 (a), (b), (c), (e), R203, R204 (c), R226, R290, R292, R295: on H10 FIND_ALL_MATCHES completes and outputs a list of
matches with strictly increasing lengths in 2..`x[1]`, distances in 1..`window_mask − 15`, length codes equal to the lengths
and equal bytes; one of the nice length or more stands alone; at most `2 + min(depth, nice − 4)`. It is the byte-exact part of
the list of `AdvanceOneByte`, in its order. Past the guard `x[0]` is installed. A 2-byte or 3-byte holder that is in window
and equal in its key's bytes is output, unless `AdvanceOneByte` records a match of the nice length. Every match is that of one
of these two holders or of a visited node, with all the bytes it agrees over, more than any node before it; every visited node
that agrees over 2 bytes is matched or surpassed in `AdvanceOneByte`'s list, and one that agrees over more bytes than the two
holders' records and every node before it is output itself, unless a longer record of the nice length stands alone or that
list holds one that is not byte-exact; and where the tree of `x[0]`'s key is ordered
(R36 (c)) the visited nodes are the search path and that list is output whole. That in a tree without order its other records
are left out is the model's reading (notes/assumptions/25.md, DEDUCED). -/
def Obligations.TreeFindAllRecords : Prop :=
  ∀ (s : State) (ht child : Sparse Word), s.index = .tree ht child → maskOK s = true → 4 ≤ s.params.h10NiceLength →
    let cur := s.getX 0
    let ms := treeMatches s ht child
    let advanced := (advanceOneByte s cur (s.getX 1).toNat true ht child).ms
    ∃ t ht' child', exec .findAllMatches s = .next t ∧ FindAllFrame s t ∧ t.index = .tree ht' child' ∧
      MatchesOutput s t ms ∧ LengthsIncrease ms ∧
      (∀ m ∈ ms, 2 ≤ m.length ∧ m.length ≤ (s.getX 1).toNat ∧ m.lengthCode = m.length ∧ m.distance ≠ 0#32 ∧
        m.distance.toNat ≤ windowMask s.lgwin - 15 ∧ (s.params.h10NiceLength ≤ m.length → ms = [m])) ∧
      ms.length ≤ 2 + min s.params.h10MaxSearchDepth (s.params.h10NiceLength - 4) ∧
      ms.Sublist advanced ∧ (∀ m, m ∈ ms ↔ m ∈ advanced ∧ BytesAgree s.ring cur m.distance m.length) ∧
      (s.params.h10NiceLength ≤ (s.getX 1).toNat →
        let p2 := treeGet s.lgwin ht (treeKey2 s.ring cur)
        let p3 := treeGet s.lgwin ht (treeKey3 s.ring cur)
        let root := treeGet s.lgwin ht (treeKey4 s.ring cur)
        let holds2 := inWindow s.lgwin cur p2 = true ∧ ∀ j, j < 2 → s.ring.byteAt p2 j = s.ring.byteAt cur j
        let holds3 := inWindow s.lgwin cur p3 = true ∧ ∀ j, j < 3 → s.ring.byteAt p3 j = s.ring.byteAt cur j
        let e := s.advanceAt cur (s.getX 1).toNat true
        let nodes := e.visits s.params.h10MaxSearchDepth (e.startWalk ht child)
        let len := fun p => prefixMatch s.ring p cur (s.getX 1).toNat
        (∀ i, treeGet s.lgwin ht' i =
          if i = treeKey2 s.ring cur ∨ i = treeKey3 s.ring cur ∨ i = treeKey4 s.ring cur
          then cur else treeGet s.lgwin ht i) ∧
        (holds2 → ⟨cur - p2, 2, 2⟩ ∈ ms ∨ ∃ m ∈ advanced, s.params.h10NiceLength ≤ m.length) ∧
        (holds3 → ⟨cur - p3, 3, 3⟩ ∈ ms ∨ ∃ m ∈ advanced, s.params.h10NiceLength ≤ m.length) ∧
        (∀ m ∈ ms, m = ⟨cur - p2, 2, 2⟩ ∨ m = ⟨cur - p3, 3, 3⟩ ∨
          ∃ before p after, nodes = before ++ p :: after ∧ m = ⟨cur - p, len p, len p⟩ ∧
            ∀ q ∈ before, len q < len p) ∧
        (∀ p ∈ nodes, 2 ≤ len p → ∃ m ∈ advanced, len p ≤ m.length) ∧
        (∀ before p after, nodes = before ++ p :: after → 2 ≤ len p → (holds2 → 2 < len p) → (holds3 → 3 < len p) →
          (∀ q ∈ before, len q < len p) →
          ⟨cur - p, len p, len p⟩ ∈ ms ∨ ∃ m ∈ advanced,
            (s.params.h10NiceLength ≤ m.length ∧ len p < m.length) ∨ ¬ BytesAgree s.ring cur m.distance m.length) ∧
        ((∀ levels, TreeOrdered e child levels root [] []) →
          nodes = treePath e child s.params.h10MaxSearchDepth root ∧ ms = advanced))

/-- R203, R206 (c): on H10, when the tree's root is in window and agrees with `x[0]` over at least the nice length, that
match alone is returned, byte-exact, and both child entries of `x[0]` hold SENTINEL. -/
def Obligations.TreeNiceLengthExit : Prop :=
  ∀ (s : State) (ht child : Sparse Word), s.index = .tree ht child → maskOK s = true →
    1 ≤ s.params.h10MaxSearchDepth → s.params.h10NiceLength ≤ (s.getX 1).toNat →
    let cur := s.getX 0
    let root := treeGet s.lgwin ht (treeKey4 s.ring cur)
    let len := prefixMatch s.ring root cur (s.getX 1).toNat
    inWindow s.lgwin cur root = true → s.params.h10NiceLength ≤ len →
    ∃ t ht' child', exec .findAllMatches s = .next t ∧ t.index = .tree ht' child' ∧
      MatchesOutput s t [⟨cur - root, len, len⟩] ∧ BytesAgree s.ring cur (cur - root) len ∧
      treeGet s.lgwin child' (leftChild s.lgwin cur) = sentinel s.lgwin ∧
      treeGet s.lgwin child' (rightChild s.lgwin cur) = sentinel s.lgwin

/-- R203 (a), R209 (b), (d): on H10, when the tree's root is out of window, exactly the 2-byte and the 3-byte holder that
are in window and equal in the key's bytes are returned, and both child entries of `x[0]` hold SENTINEL. -/
def Obligations.TreeDirectMatches : Prop :=
  ∀ (s : State) (ht child : Sparse Word), s.index = .tree ht child → maskOK s = true →
    s.params.h10NiceLength ≤ (s.getX 1).toNat →
    let cur := s.getX 0
    let p2 := treeGet s.lgwin ht (treeKey2 s.ring cur)
    let p3 := treeGet s.lgwin ht (treeKey3 s.ring cur)
    inWindow s.lgwin cur (treeGet s.lgwin ht (treeKey4 s.ring cur)) = false →
    ∃ t ht' child', exec .findAllMatches s = .next t ∧ t.index = .tree ht' child' ∧
      MatchesOutput s t
        ((if inWindow s.lgwin cur p2 = true ∧ s.ring.byteAt p2 0 = s.ring.byteAt cur 0 ∧
              s.ring.byteAt p2 1 = s.ring.byteAt cur 1 then
            [⟨cur - p2, 2, 2⟩] else []) ++
          (if inWindow s.lgwin cur p3 = true ∧ s.ring.byteAt p3 0 = s.ring.byteAt cur 0 ∧
              s.ring.byteAt p3 1 = s.ring.byteAt cur 1 ∧ s.ring.byteAt p3 2 = s.ring.byteAt cur 2 then
            [⟨cur - p3, 3, 3⟩] else [])) ∧
      treeGet s.lgwin child' (leftChild s.lgwin cur) = sentinel s.lgwin ∧
      treeGet s.lgwin child' (rightChild s.lgwin cur) = sentinel s.lgwin

/-! What commands read and write (spec/46_commands.md R229). -/

/-- R229, R21, R26, R61: what no command writes. -/
def Obligations.CommandsWriteOnlyTheirOwn : Prop :=
  ∀ (i : Instr) (s t : State), exec i s = .next t →
    RegsKept [4, 5, 6, 7] s t ∧ t.cmd = s.cmd ∧ t.ringMask = s.ringMask ∧ ViewKept s t ∧ SurroundingsKept s t ∧
    (i ≠ .findLongestMatch → RegsKept [7] s t ∧ t.bestScore = s.bestScore) ∧
    (i ≠ .findLongestMatch → i ≠ .findAllMatches → RegsKept [] s t) ∧
    (i ≠ .findAllMatches → MatchKept s t) ∧
    ((∀ quality lgwin, i ≠ .configure quality lgwin) → t.configWord = s.configWord ∧
      (i ≠ .reset → i ≠ .findLongestMatch → CountersKept s t)) ∧
    (i = .findLongestMatch → t.index = s.index)

/-- R229: a command neither reads nor writes a register its row does not list; BEST_SCORE is FIND_LONGEST_MATCH's alone;
CONFIGURE and RESET do not read RING_MASK. -/
def Obligations.CommandsReadOnlyTheirOwn : Prop :=
  ∀ (i : Instr) (s t : State), exec i s = .next t →
    (∀ r v, r ∉ registersUsed i s.index → exec i (s.setX r v) = .next (t.setX r v)) ∧
    (i ≠ .findLongestMatch → ∀ b, exec i { s with bestScore := b } = .next { t with bestScore := b }) ∧
    ((i = .reset ∨ ∃ quality lgwin, i = .configure quality lgwin) →
      ∀ m, exec i { s with ringMask := m } = .next { t with ringMask := m })

/-! Primitives (spec/40_primitives.md, 41_scoring.md, 20_memory.md). -/

/-- R110 to R114: the loads are little-endian, each byte its own `ViewByte`; the two narrowings keep the low bits. -/
def Obligations.LoadsAreLittleEndian : Prop :=
  ∀ (r : Ring) (p : Word),
    (load16 r p).toNat = (r.byteAt p 0).toNat + (r.byteAt p 1).toNat * 2 ^ 8 ∧
    (load32 r p).toNat = (r.byteAt p 0).toNat + (r.byteAt p 1).toNat * 2 ^ 8 + (r.byteAt p 2).toNat * 2 ^ 16 +
      (r.byteAt p 3).toNat * 2 ^ 24 ∧
    (load64 r p).toNat = (r.byteAt p 0).toNat + (r.byteAt p 1).toNat * 2 ^ 8 + (r.byteAt p 2).toNat * 2 ^ 16 +
      (r.byteAt p 3).toNat * 2 ^ 24 + (r.byteAt p 4).toNat * 2 ^ 32 + (r.byteAt p 5).toNat * 2 ^ 40 +
      (r.byteAt p 6).toNat * 2 ^ 48 + (r.byteAt p 7).toNat * 2 ^ 56 ∧
    (∀ j, r.byteAt p j = r.bytes.read ((p + BitVec.ofNat 32 j) &&& r.mask).toNat) ∧
    ∀ w : Word, (toU24 w).toNat = w.toNat % 2 ^ 24 ∧ (toU16 w).toNat = w.toNat % 2 ^ 16

/-- R116: `PrefixMatch(a, b, limit)` is the largest `n ≤ limit` such that the first `n` bytes agree; it is `limit` for
`a = b`, and symmetric; `PrefixMatchDict` is the same against `DICT_BYTES`. -/
def Obligations.PrefixMatchIsLargest : Prop :=
  ∀ (r : Ring) (a b : Word) (limit : Nat),
    (∀ n, n ≤ limit ∧ (∀ j, j < n → r.byteAt a j = r.byteAt b j) ↔ n ≤ prefixMatch r a b limit) ∧
    prefixMatch r a a limit = limit ∧ prefixMatch r a b limit = prefixMatch r b a limit ∧
    ∀ (d : Dict) (off n : Nat), n ≤ limit ∧ (∀ j, j < n → r.byteAt a j = dictByte d (off + j)) ↔
      n ≤ prefixMatchDict d r a off limit

/-- R117: `Hash32(w, k)` is the top `k` bits of `w × 0x1E35A7BD` modulo 2^32, in 0..2^k − 1, 0 for `w = 0`; the product is
a bijection on u32. -/
def Obligations.Hash32TopBits : Prop :=
  (∀ (w : Word) (k : Nat), 1 ≤ k → k ≤ 32 →
    hash32 w k = w.toNat * 0x1E35A7BD % 2 ^ 32 / 2 ^ (32 - k) ∧ hash32 w k < 2 ^ k ∧ hash32 0#32 k = 0) ∧
  (∀ v w : Word, v * 0x1E35A7BD#32 = w * 0x1E35A7BD#32 → v = w) ∧ ∀ v : Word, ∃ w : Word, w * 0x1E35A7BD#32 = v

/-- R118: `Hash5(p, k)` is the top `k` bits of the 64-bit product of the shifted load, in 0..2^k − 1, and depends on the
five bytes at `p` alone. -/
def Obligations.Hash5FiveBytes : Prop :=
  ∀ (r r' : Ring) (p p' : Word) (k : Nat), 1 ≤ k → k ≤ 64 →
    hash5 r p k = (load64 r p).toNat * 2 ^ 24 % 2 ^ 64 * 0x1E35A7BD % 2 ^ 64 / 2 ^ (64 - k) ∧ hash5 r p k < 2 ^ k ∧
    ((∀ j, j < 5 → r.byteAt p j = r'.byteAt p' j) → hash5 r p k = hash5 r' p' k)

/-- R131, R132, R133: the two scores, and how they compare. -/
def Obligations.ScoresCompare : Prop :=
  ∀ (len : Nat) (dist : Word), dist ≠ 0#32 →
    (∀ e : Nat, 2 ^ e ≤ dist.toNat → dist.toNat < 2 ^ (e + 1) → score len dist = 540 * (len : Int) - 120 * (e : Int)) ∧
    (∀ i : Fin 16, scoreLast len i = 540 * (len : Int) -
      ([-60, 95, 117, 127, 93, 93, 96, 96, 99, 99, 105, 105, 115, 115, 125, 125] : List Int)[i.val]) ∧
    score len dist < scoreLast len 0 ∧
    (∀ i : Fin 16, i.val ≠ 0 → 4 ≤ dist.toNat → score len dist < scoreLast len i)

/-- R64, R187: a record's distance, code and length fields, and that length and length code are read back from it while
the length is below 2^27 and the code is the length or in 1..31. -/
def Obligations.PackedRecordReadsBack : Prop :=
  ∀ m : MatchRec, (m.lengthCode = m.length ∨ 1 ≤ m.lengthCode ∧ m.lengthCode ≤ 31) →
    m.pack.extractLsb' 0 32 = m.distance ∧
    (m.pack.extractLsb' 32 5).toNat = (if m.lengthCode = m.length then 0 else m.lengthCode) ∧
    (m.pack.extractLsb' 37 27).toNat = m.length % 2 ^ 27 ∧
    (m.length < 2 ^ 27 →
      (if (m.pack.extractLsb' 32 5).toNat ≠ 0 then (m.pack.extractLsb' 32 5).toNat
        else (m.pack.extractLsb' 37 27).toNat) = m.lengthCode)

/-- R202: the window test, and that SENTINEL is never in window while `cur + window_mask < 2^32`. -/
def Obligations.WindowTest : Prop :=
  ∀ (lgwin : BitVec 5) (cur prev : Word),
    (inWindow lgwin cur prev = true ↔
      1 ≤ (cur - prev).toNat ∧ (cur - prev).toNat ≤ 2 ^ lgwin.toNat - 1 - 15) ∧
    (cur.toNat + (2 ^ lgwin.toNat - 1) < 2 ^ 32 → inWindow lgwin cur (sentinel lgwin) = false)

/-! Invariants. -/

/-- The invariant holds at reset. -/
def Obligations.ResetInv : Prop := State.reset.Inv

/-- Every step keeps the invariant (R31 to R33, R24, R25, R60): tables and memories canonical and inside their index
ranges, the configuration fields legal. -/
def Obligations.StepKeepsInv : Prop := ∀ s t : State, s.Inv → step s = .next t → t.Inv
end

