-- ==== Sys2Proof/Laws/Sparse.lean ====
section
/-!
SUPPORT. Sparse arrays: a read after a write, and that a write keeps the canonical form and the index bound.
-/
namespace Sys2Proof.Machine.Sparse

section
variable {α : Type}

@[simp] theorem get_nil (d : α) (i : Nat) : get d ([] : Sparse α) i = d := rfl

theorem get_erase_same (d : α) (t : Sparse α) (i : Nat) : get d (erase i t) i = d := by
  induction t with
  | nil => rfl
  | cons p rest ih =>
    obtain ⟨a, v⟩ := p
    by_cases h : a = i <;> simp [erase, get, h, ih]

theorem get_erase_ne (d : α) (t : Sparse α) {i j : Nat} (h : j ≠ i) : get d (erase i t) j = get d t j := by
  induction t with
  | nil => rfl
  | cons p rest ih =>
    obtain ⟨a, v⟩ := p
    by_cases ha : a = i
    · subst ha; simp [erase, get, ih, Ne.symm h]
    · by_cases hj : a = j
      · subst hj; simp [erase, get, ha]
      · simp [erase, get, ha, hj, ih]

theorem get_insert_ne (d : α) (t : Sparse α) {i j : Nat} (v : α) (h : j ≠ i) :
    get d (insert i v t) j = get d t j := by
  induction t with
  | nil => simp [insert, get, Ne.symm h]
  | cons p rest ih =>
    obtain ⟨a, w⟩ := p
    by_cases hj : a = j
    · subst hj; by_cases hi : i < a <;> simp [insert, get, hi, Ne.symm h]
    · by_cases hi : i < a <;> simp [insert, get, hi, hj, ih, Ne.symm h]

theorem mem_erase {t : Sparse α} {i : Nat} {p : Nat × α} (h : p ∈ erase i t) : p ∈ t ∧ p.1 ≠ i := by
  induction t with
  | nil => simp [erase] at h
  | cons q rest ih =>
    obtain ⟨a, v⟩ := q
    by_cases ha : a = i
    · simp only [erase, ha, if_true] at h
      exact ⟨List.mem_cons_of_mem _ (ih h).1, (ih h).2⟩
    · simp only [erase, ha, if_false, List.mem_cons] at h
      rcases h with rfl | h
      · exact ⟨List.mem_cons_self, ha⟩
      · exact ⟨List.mem_cons_of_mem _ (ih h).1, (ih h).2⟩

theorem mem_insert {t : Sparse α} {i : Nat} {v : α} {p : Nat × α} (h : p ∈ insert i v t) : p = (i, v) ∨ p ∈ t := by
  induction t with
  | nil => exact .inl (by simpa [insert] using h)
  | cons q rest ih =>
    obtain ⟨a, w⟩ := q
    by_cases ha : i < a
    · simpa [insert, ha] using h
    · simp only [insert, ha, if_false, List.mem_cons] at h
      rcases h with rfl | h
      · exact .inr List.mem_cons_self
      · exact (ih h).imp id (List.mem_cons_of_mem _)

/-- Without the index in the list, the inserted value is the one read. -/
theorem get_insert_same (d : α) {t : Sparse α} {i : Nat} (v : α) (h : ∀ p ∈ t, p.1 ≠ i) :
    get d (insert i v t) i = v := by
  induction t with
  | nil => simp [insert, get]
  | cons q rest ih =>
    obtain ⟨a, w⟩ := q
    have ha : a ≠ i := h _ List.mem_cons_self
    by_cases hi : i < a
    · simp [insert, get, hi]
    · simp [insert, get, hi, ha, ih fun p hp => h p (List.mem_cons_of_mem _ hp)]

theorem erase_sublist (t : Sparse α) (i : Nat) : (erase i t).Sublist t := by
  induction t with
  | nil => exact List.Sublist.slnil
  | cons q rest ih =>
    obtain ⟨a, v⟩ := q
    by_cases ha : a = i
    · simpa [erase, ha] using ih.cons (a, v)
    · simpa [erase, ha] using ih.cons_cons (a, v)

theorem insert_pairwise {t : Sparse α} {i : Nat} (v : α) (hs : t.Pairwise fun p q => p.1 < q.1)
    (h : ∀ p ∈ t, p.1 ≠ i) : (insert i v t).Pairwise fun p q => p.1 < q.1 := by
  induction t with
  | nil => simp [insert]
  | cons q rest ih =>
    obtain ⟨a, w⟩ := q
    have ha : a ≠ i := h _ List.mem_cons_self
    rw [List.pairwise_cons] at hs
    by_cases hi : i < a
    · simp only [insert, hi, if_true, List.pairwise_cons, List.mem_cons]
      refine ⟨?_, hs⟩
      rintro p (rfl | hp)
      · exact hi
      · exact lt_trans hi (hs.1 p hp)
    · simp only [insert, hi, if_false, List.pairwise_cons]
      refine ⟨fun p hp => ?_, ih hs.2 fun p hp => h p (List.mem_cons_of_mem _ hp)⟩
      rcases mem_insert hp with rfl | hp
      · simp only; omega
      · exact hs.1 p hp

theorem below_nil (n : Nat) : Below n ([] : Sparse α) := fun _ h => absurd h List.not_mem_nil

end

section
variable {α : Type} [DecidableEq α] {d : α}

/-- A read of the index just written. -/
@[simp] theorem get_set_same (d : α) (t : Sparse α) (i : Nat) (v : α) : get d (set d t i v) i = v := by
  unfold set
  split
  · rename_i h; subst h; exact get_erase_same _ t i
  · exact get_insert_same d v fun p hp => (mem_erase hp).2

/-- A write leaves every other index alone. -/
@[simp] theorem get_set_ne (d : α) (t : Sparse α) {i j : Nat} (v : α) (h : j ≠ i) : get d (set d t i v) j = get d t j := by
  unfold set
  split
  · exact get_erase_ne d t h
  · rw [get_insert_ne d _ v h, get_erase_ne d t h]

theorem get_set (d : α) (t : Sparse α) (i j : Nat) (v : α) :
    get d (set d t i v) j = if j = i then v else get d t j := by
  by_cases h : j = i
  · subst h; simp
  · simp [h]

/-- A write keeps the canonical form. -/
theorem set_wf {t : Sparse α} (i : Nat) (v : α) (h : Wf d t) : Wf d (set d t i v) := by
  have he : (erase i t).Pairwise fun p q => p.1 < q.1 := h.1.sublist (erase_sublist t i)
  unfold set
  split
  · exact ⟨he, fun p hp => h.2 p (mem_erase hp).1⟩
  · rename_i hv
    refine ⟨insert_pairwise v he fun p hp => (mem_erase hp).2, fun p hp => ?_⟩
    rcases mem_insert hp with rfl | hp
    · exact hv
    · exact h.2 p (mem_erase hp).1

/-- A write below the bound keeps the bound. -/
theorem set_below {t : Sparse α} {n i : Nat} (v : α) (h : Below n t) (hi : i < n) : Below n (set d t i v) := by
  unfold set
  split
  · exact fun p hp => h p (mem_erase hp).1
  · intro p hp
    rcases mem_insert hp with rfl | hp
    · exact hi
    · exact h p (mem_erase hp).1

theorem wf_nil (d : α) : Wf d ([] : Sparse α) := ⟨List.Pairwise.nil, fun _ h => absurd h (List.not_mem_nil)⟩

end

end Sys2Proof.Machine.Sparse

namespace Sys2Proof.Machine.Memory

@[simp] theorem read_write_same (m : Memory) (a : Nat) (b : Byte) : (m.write a b).read a = b :=
  Sparse.get_set_same _ _ _ _

@[simp] theorem read_write_ne (m : Memory) {a c : Nat} (b : Byte) (h : c ≠ a) : (m.write a b).read c = m.read c :=
  Sparse.get_set_ne _ _ _ h

theorem write_wf {m : Memory} (a : Nat) (b : Byte) (h : m.wf) : (m.write a b).wf := Sparse.set_wf a b h

/-- Writing several bytes keeps the canonical form. -/
theorem writeMany_wf {place : Nat → Nat} (bs : List Byte) {m : Memory} (j : Nat) (h : m.wf) :
    (m.writeMany place j bs).wf := by
  induction bs generalizing m j with
  | nil => exact h
  | cons b rest ih => exact ih _ (write_wf _ _ h)

/-- Writing several bytes below a bound keeps the bound. -/
theorem writeMany_below {place : Nat → Nat} {n : Nat} (hp : ∀ j, place j < n) (bs : List Byte) {m : Memory} (j : Nat)
    (h : Sparse.Below n m) : Sparse.Below n (m.writeMany place j bs) := by
  induction bs generalizing m j with
  | nil => exact h
  | cons b rest ih => exact ih _ (Sparse.set_below _ h (hp j))

/-- A byte that no place hits reads as before. -/
theorem read_writeMany_ne {place : Nat → Nat} (bs : List Byte) (m : Memory) (j c : Nat)
    (h : ∀ i, i < bs.length → c ≠ place (j + i)) : (m.writeMany place j bs).read c = m.read c := by
  induction bs generalizing m j with
  | nil => rfl
  | cons b rest ih =>
    have h0 : c ≠ place j := h 0 (Nat.succ_pos _)
    have hr := ih (m.write (place j) b) (j + 1) fun i hi => by
      have := h (i + 1) (Nat.succ_lt_succ hi)
      rwa [Nat.add_assoc, Nat.add_comm 1 i]
    rw [writeMany, hr, read_write_ne _ _ h0]

/-- Bytes written at different addresses are all read back. -/
theorem read_writeMany {place : Nat → Nat} (bs : List Byte) (m : Memory) (j : Nat)
    (hd : ∀ a b, a < bs.length → b < bs.length → place (j + a) = place (j + b) → a = b) :
    ∀ i (h : i < bs.length), (m.writeMany place j bs).read (place (j + i)) = bs[i] := by
  induction bs generalizing m j with
  | nil => intro i h; simp at h
  | cons b rest ih =>
    intro i h
    cases i with
    | zero =>
      rw [writeMany, read_writeMany_ne]
      · simp [read, write, Sparse.get_set_same]
      · intro k hk e
        have := hd 0 (k + 1) (by simp) (by simpa using hk) (by rw [e]; congr 1; omega)
        omega
    | succ i =>
      have := ih (m.write (place j) b) (j + 1) (fun a c ha hc e => by
        have := hd (a + 1) (c + 1) (by simpa using ha) (by simpa using hc)
          (by rw [show j + (a + 1) = j + 1 + a by omega, show j + (c + 1) = j + 1 + c by omega]; exact e)
        omega) i (by simpa using h)
      rw [show j + (i + 1) = j + 1 + i by omega]
      simpa [writeMany] using this

end Sys2Proof.Machine.Memory
end

