-- ==== Sys2Proof/Laws/State.lean ====
section
/-!
SUPPORT. What each named update of the state does to each field, true by rfl; and the register laws.
-/
namespace Sys2Proof.Machine

section
variable (s : State) (i : Fin 16) (v : Word) (e : ErrCode) (h : Strategy)

/-! `setX` writes one register. -/
@[simp] theorem State.setX_bestScore : (s.setX i v).bestScore = s.bestScore := rfl
@[simp] theorem State.setX_cmd : (s.setX i v).cmd = s.cmd := rfl
@[simp] theorem State.setX_err : (s.setX i v).err = s.err := rfl
@[simp] theorem State.setX_errOp : (s.setX i v).errOp = s.errOp := rfl
@[simp] theorem State.setX_lgwin : (s.setX i v).lgwin = s.lgwin := rfl
@[simp] theorem State.setX_ringMask : (s.setX i v).ringMask = s.ringMask := rfl
@[simp] theorem State.setX_numDictLookups : (s.setX i v).numDictLookups = s.numDictLookups := rfl
@[simp] theorem State.setX_numDictMatches : (s.setX i v).numDictMatches = s.numDictMatches := rfl
@[simp] theorem State.setX_index : (s.setX i v).index = s.index := rfl
@[simp] theorem State.setX_view : (s.setX i v).view = s.view := rfl
@[simp] theorem State.setX_matchSpace : (s.setX i v).matchSpace = s.matchSpace := rfl
@[simp] theorem State.setX_params : (s.setX i v).params = s.params := rfl
@[simp] theorem State.setX_readData : (s.setX i v).readData = s.readData := rfl
@[simp] theorem State.setX_host : (s.setX i v).host = s.host := rfl
@[simp] theorem State.setX_ring : (s.setX i v).ring = s.ring := rfl
@[simp] theorem State.setX_statusWord : (s.setX i v).statusWord = s.statusWord := rfl
@[simp] theorem State.setX_configWord : (s.setX i v).configWord = s.configWord := rfl
@[simp] theorem State.setX_matchRecord (n : Word) : (s.setX i v).matchRecord n = s.matchRecord n := rfl
@[simp] theorem State.setX_maskOK : maskOK (s.setX i v) = maskOK s := rfl

/-! `raise` writes ERR and ERR_OP. -/
@[simp] theorem raise_x : (raise e s).x = s.x := rfl
@[simp] theorem raise_getX : (raise e s).getX i = s.getX i := rfl
@[simp] theorem raise_bestScore : (raise e s).bestScore = s.bestScore := rfl
@[simp] theorem raise_cmd : (raise e s).cmd = s.cmd := rfl
@[simp] theorem raise_err : (raise e s).err = e := rfl
@[simp] theorem raise_errOp : (raise e s).errOp = s.cmd.setWidth 8 := rfl
@[simp] theorem raise_lgwin : (raise e s).lgwin = s.lgwin := rfl
@[simp] theorem raise_ringMask : (raise e s).ringMask = s.ringMask := rfl
@[simp] theorem raise_numDictLookups : (raise e s).numDictLookups = s.numDictLookups := rfl
@[simp] theorem raise_numDictMatches : (raise e s).numDictMatches = s.numDictMatches := rfl
@[simp] theorem raise_index : (raise e s).index = s.index := rfl
@[simp] theorem raise_view : (raise e s).view = s.view := rfl
@[simp] theorem raise_matchSpace : (raise e s).matchSpace = s.matchSpace := rfl
@[simp] theorem raise_params : (raise e s).params = s.params := rfl
@[simp] theorem raise_readData : (raise e s).readData = s.readData := rfl
@[simp] theorem raise_host : (raise e s).host = s.host := rfl

/-! `clearErr` clears ERR and ERR_OP. -/
@[simp] theorem clearErr_err : (clearErr s).err = .none := rfl
@[simp] theorem clearErr_errOp : (clearErr s).errOp = 0#8 := rfl
@[simp] theorem clearErr_getX : (clearErr s).getX i = s.getX i := rfl
@[simp] theorem clearErr_index : (clearErr s).index = s.index := rfl
@[simp] theorem clearErr_lgwin : (clearErr s).lgwin = s.lgwin := rfl
@[simp] theorem clearErr_view : (clearErr s).view = s.view := rfl
@[simp] theorem clearErr_matchSpace : (clearErr s).matchSpace = s.matchSpace := rfl
@[simp] theorem clearErr_params : (clearErr s).params = s.params := rfl

/-! `emptyTables` writes the tables and the counters. -/
@[simp] theorem emptyTables_getX : (emptyTables h s).getX i = s.getX i := rfl
@[simp] theorem emptyTables_bestScore : (emptyTables h s).bestScore = s.bestScore := rfl
@[simp] theorem emptyTables_cmd : (emptyTables h s).cmd = s.cmd := rfl
@[simp] theorem emptyTables_err : (emptyTables h s).err = s.err := rfl
@[simp] theorem emptyTables_errOp : (emptyTables h s).errOp = s.errOp := rfl
@[simp] theorem emptyTables_lgwin : (emptyTables h s).lgwin = s.lgwin := rfl
@[simp] theorem emptyTables_ringMask : (emptyTables h s).ringMask = s.ringMask := rfl
@[simp] theorem emptyTables_numDictLookups : (emptyTables h s).numDictLookups = 0#64 := rfl
@[simp] theorem emptyTables_numDictMatches : (emptyTables h s).numDictMatches = 0#64 := rfl
@[simp] theorem emptyTables_index : (emptyTables h s).index = freshIndex h := rfl
@[simp] theorem emptyTables_view : (emptyTables h s).view = s.view := rfl
@[simp] theorem emptyTables_matchSpace : (emptyTables h s).matchSpace = s.matchSpace := rfl
@[simp] theorem emptyTables_params : (emptyTables h s).params = s.params := rfl

/-! Power-on reset keeps what is not the engine's. -/
@[simp] theorem powerOn_view : (powerOn s).view = s.view := rfl
@[simp] theorem powerOn_matchSpace : (powerOn s).matchSpace = s.matchSpace := rfl
@[simp] theorem powerOn_params : (powerOn s).params = s.params := rfl
@[simp] theorem powerOn_host : (powerOn s).host = s.host := rfl
@[simp] theorem powerOn_readData : (powerOn s).readData = s.readData := rfl
@[simp] theorem powerOn_index : (powerOn s).index = .absent := rfl
@[simp] theorem powerOn_lgwin : (powerOn s).lgwin = 0#5 := rfl
@[simp] theorem powerOn_errOp : (powerOn s).errOp = 0#8 := rfl

end

/-- A read of the register just written. -/
@[simp] theorem State.getX_setX_same (s : State) (i : Fin 16) (v : Word) : (s.setX i v).getX i = v := by
  simp [State.getX, State.setX]

/-- A register write leaves every other register alone. -/
@[simp] theorem State.getX_setX_ne (s : State) {i j : Fin 16} (v : Word) (h : j ≠ i) :
    (s.setX i v).getX j = s.getX j := by
  have hv : i.val ≠ j.val := fun e => h (Fin.ext e.symm)
  simp [State.getX, State.setX, hv]

theorem State.getX_setX (s : State) (i j : Fin 16) (v : Word) :
    (s.setX i v).getX j = if j = i then v else s.getX j := by
  by_cases h : j = i
  · subst h; simp
  · simp [h]

/-- Writes of two different registers commute. -/
theorem State.setX_comm (s : State) {i j : Fin 16} (v w : Word) (h : i ≠ j) :
    (s.setX i v).setX j w = (s.setX j w).setX i v := by
  have hv : i.val ≠ j.val := fun e => h (Fin.ext e)
  simp only [State.setX]
  congr 1
  exact Vector.set_comm _ _ hv

/-- A command that raises a fault answers the state with the fault recorded. -/
theorem faults_next {e : ErrCode} {s t : State} (h : faults e s = .next t) : t = raise e s := by
  simpa [faults] using h.symm

/-- What the prelude can answer: the body, or E_BAD_MASK. -/
theorem withPrelude_cases {s body t : State} (h : withPrelude s body = .next t) :
    (maskOK s = true ∧ t = body) ∨ (maskOK s = false ∧ t = raise .badMask s) := by
  cases hm : maskOK s
  · exact .inr ⟨rfl, faults_next (by simpa [withPrelude, hm] using h)⟩
  · exact .inl ⟨rfl, by simpa [withPrelude, hm] using h.symm⟩

@[simp] theorem withPrelude_ok {s : State} (body : State) (h : maskOK s = true) : withPrelude s body = .next body := by
  simp [withPrelude, h]

@[simp] theorem withPrelude_bad {s : State} (body : State) (h : maskOK s = false) :
    withPrelude s body = .next (raise .badMask s) := by
  simp [withPrelude, h, faults]

end Sys2Proof.Machine
end

