-- ==== Sys2Proof/Laws/Ops.lean ====
section
/-!
SUPPORT. What the shared operations can answer: prefix comparison, hashes, loads, repeated stores, record output.
-/
namespace Sys2Proof.Machine

/-! Prefix comparison (R116). -/

theorem prefixMatch_le (r : Ring) (a b : Word) (limit : Nat) : prefixMatch r a b limit ≤ limit := by
  induction limit generalizing a b with
  | zero => simp [prefixMatch]
  | succ n ih =>
    unfold prefixMatch
    split
    · exact Nat.succ_le_succ (ih _ _)
    · exact Nat.zero_le _

theorem Ring.byteAt_zero (r : Ring) (p : Word) : r.byteAt p 0 = r.byte p := by simp [Ring.byteAt]

theorem Ring.byteAt_succ (r : Ring) (p : Word) (j : Nat) : r.byteAt p (j + 1) = r.byteAt (p + 1#32) j := by
  have : p + BitVec.ofNat 32 (j + 1) = p + 1#32 + BitVec.ofNat 32 j := by
    rw [BitVec.ofNat_add, BitVec.add_comm (BitVec.ofNat 32 j), ← BitVec.add_assoc]
  simp [Ring.byteAt, this]

/-- The bytes below the answer are equal. -/
theorem prefixMatch_bytes (r : Ring) (a b : Word) (limit : Nat) :
    ∀ j, j < prefixMatch r a b limit → r.byteAt a j = r.byteAt b j := by
  induction limit generalizing a b with
  | zero => intro j hj; simp [prefixMatch] at hj
  | succ n ih =>
    intro j hj
    unfold prefixMatch at hj
    split at hj
    · rename_i h
      cases j with
      | zero => simpa [Ring.byteAt_zero] using h
      | succ j => simpa [Ring.byteAt_succ] using ih _ _ j (by omega)
    · omega

/-- An answer below the limit is at a difference. -/
theorem prefixMatch_stops (r : Ring) (a b : Word) (limit : Nat) (h : prefixMatch r a b limit < limit) :
    r.byteAt a (prefixMatch r a b limit) ≠ r.byteAt b (prefixMatch r a b limit) := by
  induction limit generalizing a b with
  | zero => omega
  | succ n ih =>
    by_cases hb : r.byte a = r.byte b
    · simp only [prefixMatch, hb, if_true] at h ⊢
      simpa [Ring.byteAt_succ] using ih (a + 1#32) (b + 1#32) (by omega)
    · simp [prefixMatch, hb, Ring.byteAt_zero]

/-- Equal bytes up to a bound within the limit make the answer at least the bound. -/
theorem le_prefixMatch (r : Ring) (a b : Word) {limit n : Nat} (hn : n ≤ limit)
    (h : ∀ j, j < n → r.byteAt a j = r.byteAt b j) : n ≤ prefixMatch r a b limit := by
  by_contra hc
  have hlt : prefixMatch r a b limit < n := by omega
  exact prefixMatch_stops r a b limit (by omega) (h _ hlt)

/-! Byte-exactness (R230 (a)). -/

/-- The bytes a prefix comparison found equal, as a match at a distance. -/
theorem bytesAgree_of_prefix (r : Ring) (cur prev : Word) (limit : Nat) :
    BytesAgree r cur (backward cur prev) (prefixMatch r prev cur limit) := by
  intro j hj
  have : cur - backward cur prev = prev := by simp [backward]
  rw [this]
  exact prefixMatch_bytes r prev cur limit j hj

theorem bytesAgree_of_prefix_sub (r : Ring) (cur dist : Word) (limit : Nat) :
    BytesAgree r cur dist (prefixMatch r (cur - dist) cur limit) :=
  fun j hj => prefixMatch_bytes r (cur - dist) cur limit j hj

/-- The dictionary variant: the bytes below the answer are equal, at most the limit, and below the limit the next byte
differs (R142). -/
theorem prefixMatchDict_spec (d : Dict) (r : Ring) (p : Word) (off limit : Nat) :
    prefixMatchDict d r p off limit ≤ limit ∧
    (∀ j, j < prefixMatchDict d r p off limit → r.byteAt p j = dictByte d (off + j)) ∧
    (prefixMatchDict d r p off limit < limit →
      r.byteAt p (prefixMatchDict d r p off limit) ≠ dictByte d (off + prefixMatchDict d r p off limit)) := by
  induction limit generalizing p off with
  | zero => simp [prefixMatchDict]
  | succ n ih =>
    by_cases hb : r.byte p = dictByte d off
    · obtain ⟨h1, h2, h3⟩ := ih (p + 1#32) (off + 1)
      simp only [prefixMatchDict, hb, if_true]
      refine ⟨by omega, fun j hj => ?_, fun hlt => ?_⟩
      · cases j with
        | zero => simpa [Ring.byteAt_zero] using hb
        | succ j => simpa [Ring.byteAt_succ, Nat.add_assoc, Nat.add_comm 1] using h2 j (by omega)
      · simpa [Ring.byteAt_succ, Nat.add_assoc, Nat.add_comm 1] using h3 (by omega)
    · simp [prefixMatchDict, hb, Ring.byteAt_zero]

/-! Hashes (R117, R118). -/

theorem ushiftRight_lt {n : Nat} (v : BitVec n) {k : Nat} (hk : k ≤ n) : (v >>> (n - k)).toNat < 2 ^ k := by
  rw [BitVec.toNat_ushiftRight, Nat.shiftRight_eq_div_pow, Nat.div_lt_iff_lt_mul (by positivity), ← pow_add]
  have : k + (n - k) = n := by omega
  rw [this]
  exact v.isLt

/-- A 32-bit hash is below `2^k`. -/
theorem hash32_lt (w : Word) {k : Nat} (hk : k ≤ 32) : hash32 w k < 2 ^ k := ushiftRight_lt _ hk

theorem hashMul_toNat (n : Nat) (h : 32 ≤ n) : (BitVec.ofNat n hashMul).toNat = 0x1E35A7BD := by
  rw [BitVec.toNat_ofNat]
  exact Nat.mod_eq_of_lt (lt_of_lt_of_le (by decide : hashMul < 2 ^ 32) (Nat.pow_le_pow_right (by decide) h))

/-- `Hash32` in numbers (R117). -/
theorem hash32_eq (w : Word) (k : Nat) : hash32 w k = w.toNat * 0x1E35A7BD % 2 ^ 32 / 2 ^ (32 - k) := by
  unfold hash32
  rw [BitVec.toNat_ushiftRight, Nat.shiftRight_eq_div_pow, BitVec.toNat_mul, hashMul_toNat _ (by decide)]

/-- `Hash5` in numbers (R118). -/
theorem hash5_eq (r : Ring) (p : Word) (k : Nat) :
    hash5 r p k = (load64 r p).toNat * 2 ^ 24 % 2 ^ 64 * 0x1E35A7BD % 2 ^ 64 / 2 ^ (64 - k) := by
  unfold hash5
  rw [BitVec.toNat_ushiftRight, Nat.shiftRight_eq_div_pow, BitVec.toNat_mul, hashMul_toNat _ (by decide),
    BitVec.toNat_shiftLeft, Nat.shiftLeft_eq]

/-- The 4-byte keys read four bytes (R111). -/
theorem load32_congr {r r' : Ring} {p p' : Word} (h : ∀ j, j < 4 → r.byteAt p j = r'.byteAt p' j) :
    load32 r p = load32 r' p' := by
  simp only [load32, h 0 (by decide), h 1 (by decide), h 2 (by decide), h 3 (by decide)]

/-- The three high bytes of the load are shifted out of `Hash5` (R118). -/
theorem hash5_congr {r r' : Ring} {p p' : Word} (h : ∀ j, j < 5 → r.byteAt p j = r'.byteAt p' j) (k : Nat) :
    hash5 r p k = hash5 r' p' k := by
  have hs : load64 r p <<< 24 = load64 r' p' <<< 24 := by
    apply BitVec.eq_of_getLsbD_eq
    intro i hi
    simp only [BitVec.getLsbD_shiftLeft, load64, h 0 (by decide), h 1 (by decide), h 2 (by decide), h 3 (by decide),
      h 4 (by decide), BitVec.getLsbD_append]
    by_cases h24 : i < 24
    · simp [h24]
    · by_cases h56 : i - 24 < 32
      · simp [hi, h24, h56]
      · have h64 : i - 24 - 32 < 8 := by omega
        simp [hi, h24, h56, h64]
  simp only [hash5, hs]

/-- A five-byte hash is below `2^k`. -/
theorem hash5_lt (r : Ring) (p : Word) {k : Nat} (hk : k ≤ 64) : hash5 r p k < 2 ^ k := ushiftRight_lt _ hk

/-! Loads (R110 to R112). -/

theorem load16_eq (r : Ring) (p : Word) : load16 r p = (load32 r p).setWidth 16 := by
  apply BitVec.eq_of_getLsbD_eq
  intro i hi
  simp only [load16, load32, BitVec.getLsbD_setWidth, BitVec.getLsbD_append]
  by_cases h8 : i < 8
  · simp [h8, hi]
  · have : i - 8 < 8 := by omega
    simp [h8, this, hi]

theorem load32_eq (r : Ring) (p : Word) : load32 r p = (load64 r p).setWidth 32 := by
  apply BitVec.eq_of_getLsbD_eq
  intro i hi
  simp only [load64, BitVec.getLsbD_setWidth]
  rw [BitVec.getLsbD_append]
  simp [load32, hi]

/-- `Load32` in numbers (R111). -/
theorem load32_toNat (r : Ring) (p : Word) : (load32 r p).toNat = (r.byteAt p 0).toNat + (r.byteAt p 1).toNat * 2 ^ 8 +
    (r.byteAt p 2).toNat * 2 ^ 16 + (r.byteAt p 3).toNat * 2 ^ 24 := by
  have h0 := (r.byteAt p 0).isLt
  have h1 := (r.byteAt p 1).isLt
  have h2 := (r.byteAt p 2).isLt
  simp only [load32, BitVec.toNat_append, Nat.shiftLeft_eq]
  rw [Nat.mul_comm, ← Nat.two_pow_add_eq_or_of_lt h0, Nat.mul_comm _ (2 ^ 8), ← Nat.two_pow_add_eq_or_of_lt h1,
    Nat.mul_comm _ (2 ^ 8), ← Nat.two_pow_add_eq_or_of_lt h2]
  omega

/-- The narrowed loads of two positions are equal iff their first two bytes are (R114). -/
theorem toU16_load32_eq (r : Ring) (p q : Word) : toU16 (load32 r p) = toU16 (load32 r q) ↔
    r.byteAt p 0 = r.byteAt q 0 ∧ r.byteAt p 1 = r.byteAt q 1 := by
  have key : ∀ p, (toU16 (load32 r p)).toNat = (r.byteAt p 0).toNat + (r.byteAt p 1).toNat * 2 ^ 8 := fun p => by
    have h0 := (r.byteAt p 0).isLt
    have h1 := (r.byteAt p 1).isLt
    have : (toU16 (load32 r p)).toNat = (load32 r p).toNat % 2 ^ 16 := by
      simp only [toU16, BitVec.toNat_and]; exact Nat.and_two_pow_sub_one_eq_mod _ 16
    rw [this, load32_toNat]
    omega
  have h0 := (r.byteAt p 0).isLt
  have h0' := (r.byteAt q 0).isLt
  rw [← BitVec.toNat_inj, key, key, ← BitVec.toNat_inj, ← BitVec.toNat_inj]
  omega

/-- The same over three bytes (R113). -/
theorem toU24_load32_eq (r : Ring) (p q : Word) : toU24 (load32 r p) = toU24 (load32 r q) ↔
    r.byteAt p 0 = r.byteAt q 0 ∧ r.byteAt p 1 = r.byteAt q 1 ∧ r.byteAt p 2 = r.byteAt q 2 := by
  have key : ∀ p, (toU24 (load32 r p)).toNat =
      (r.byteAt p 0).toNat + (r.byteAt p 1).toNat * 2 ^ 8 + (r.byteAt p 2).toNat * 2 ^ 16 := fun p => by
    have h0 := (r.byteAt p 0).isLt
    have h1 := (r.byteAt p 1).isLt
    have h2 := (r.byteAt p 2).isLt
    have : (toU24 (load32 r p)).toNat = (load32 r p).toNat % 2 ^ 24 := by
      simp only [toU24, BitVec.toNat_and]; exact Nat.and_two_pow_sub_one_eq_mod _ 24
    rw [this, load32_toNat]
    omega
  have h0 := (r.byteAt p 0).isLt
  have h0' := (r.byteAt q 0).isLt
  have h1 := (r.byteAt p 1).isLt
  have h1' := (r.byteAt q 1).isLt
  rw [← BitVec.toNat_inj, key, key, ← BitVec.toNat_inj, ← BitVec.toNat_inj, ← BitVec.toNat_inj]
  omega

/-! Repetition (R224). -/

@[simp] theorem storeMany_zero {α : Type} (f : Word → α → α) (ix : Word) (t : α) : storeMany f 0 ix t = t := rfl

theorem storeMany_succ {α : Type} (f : Word → α → α) (n : Nat) (ix : Word) (t : α) :
    storeMany f (n + 1) ix t = storeMany f n (ix + 1#32) (f ix t) := rfl

/-- What every single store keeps, a range of stores keeps. -/
theorem storeMany_keeps {α : Type} {P : α → Prop} {f : Word → α → α} (h : ∀ ix t, P t → P (f ix t)) (n : Nat) :
    ∀ (ix : Word) (t : α), P t → P (storeMany f n ix t) := by
  induction n with
  | zero => exact fun _ _ ht => ht
  | succ n ih => exact fun ix t ht => ih _ _ (h ix t ht)

/-! Record output (R187). -/

/-- A record no number of the output hits reads as before. -/
theorem writeRecords_ne (vs : List Word64) (m : Sparse Word64) (base n : Word)
    (h : ∀ j, j < vs.length → n ≠ base + BitVec.ofNat 32 j) :
    Sparse.get unwrittenRecord (writeRecords m base vs) n.toNat = Sparse.get unwrittenRecord m n.toNat := by
  induction vs generalizing m base with
  | nil => rfl
  | cons v rest ih =>
    have h0 : n ≠ base := by simpa using h 0 (Nat.succ_pos _)
    have hn : n.toNat ≠ base.toNat := fun e => h0 (BitVec.eq_of_toNat_eq e)
    rw [writeRecords, ih, Sparse.get_set_ne _ _ _ hn]
    intro j hj e
    refine h (j + 1) (Nat.succ_lt_succ hj) ?_
    rw [e, BitVec.ofNat_add, BitVec.add_comm (BitVec.ofNat 32 j), ← BitVec.add_assoc]

/-- Record `j` of an output of at most `2^32` records. -/
theorem writeRecords_get (vs : List Word64) (m : Sparse Word64) (base : Word) (hl : vs.length ≤ 2 ^ 32) (j : Nat)
    (h : j < vs.length) :
    Sparse.get unwrittenRecord (writeRecords m base vs) (base + BitVec.ofNat 32 j).toNat = vs[j] := by
  induction vs generalizing m base j with
  | nil => simp at h
  | cons v rest ih =>
    simp only [List.length_cons] at hl h
    cases j with
    | zero =>
      rw [writeRecords, writeRecords_ne]
      · simp
      · intro i hi e
        have := congrArg BitVec.toNat e
        simp only [BitVec.toNat_add, BitVec.toNat_ofNat] at this
        have hb := base.isLt
        omega
    | succ j =>
      have : base + BitVec.ofNat 32 (j + 1) = base + 1#32 + BitVec.ofNat 32 j := by
        rw [BitVec.ofNat_add, BitVec.add_comm (BitVec.ofNat 32 j), ← BitVec.add_assoc]
      rw [writeRecords, this]
      simpa using ih (Sparse.set unwrittenRecord m base.toNat v) (base + 1#32) (by omega) j (by omega)

/-- Record output keeps the canonical form. -/
theorem writeRecords_wf (vs : List Word64) {m : Sparse Word64} (base : Word) (h : Sparse.Wf unwrittenRecord m) :
    Sparse.Wf unwrittenRecord (writeRecords m base vs) := by
  induction vs generalizing m base with
  | nil => exact h
  | cons v rest ih => exact ih _ (Sparse.set_wf _ _ h)

/-- Record output stays inside the MATCH space. -/
theorem writeRecords_below (vs : List Word64) {m : Sparse Word64} (base : Word) (h : Sparse.Below (2 ^ 32) m) :
    Sparse.Below (2 ^ 32) (writeRecords m base vs) := by
  induction vs generalizing m base with
  | nil => exact h
  | cons v rest ih => exact ih _ (Sparse.set_below _ h base.isLt)

/-- A record in numbers (R64): the code fits its five bits, so the length stands above it and the distance below. -/
theorem MatchRec.pack_toNat (m : MatchRec) (hm : m.lengthCode = m.length ∨ m.lengthCode < 32) :
    m.code < 32 ∧ m.pack.toNat = (m.length * 32 + m.code) % 2 ^ 32 * 2 ^ 32 + m.distance.toNat := by
  have hc : m.code < 32 := by unfold MatchRec.code; split <;> omega
  refine ⟨hc, ?_⟩
  have hor : m.length <<< 5 ||| m.code = m.length * 32 + m.code := by
    rw [Nat.shiftLeft_eq, show (2 : Nat) ^ 5 = 32 from rfl, Nat.mul_comm]
    exact (Nat.two_pow_add_eq_or_of_lt (i := 5) hc _).symm
  unfold MatchRec.pack
  rw [BitVec.toNat_append, hor, BitVec.toNat_ofNat, Nat.shiftLeft_eq, Nat.mul_comm _ (2 ^ 32),
    ← Nat.two_pow_add_eq_or_of_lt m.distance.isLt, Nat.mul_comm]

/-- What the output step gives (R187): the count, the records, every other record as before. -/
theorem outputMatches_spec (ms : List MatchRec) (s : State) (hl : ms.length < 2 ^ 32) :
    MatchesOutput s (outputMatches ms s) ms := by
  refine ⟨?_, fun j hj => ?_, fun n hn => ?_⟩
  · simp only [outputMatches, State.getX_setX_same, BitVec.toNat_ofNat]
    exact Nat.mod_eq_of_lt hl
  · have := writeRecords_get (ms.map MatchRec.pack) s.matchSpace (s.getX regMatchBase) (by simp; omega) j (by simpa using hj)
    simpa [outputMatches, State.matchRecord] using this
  · have := writeRecords_ne (ms.map MatchRec.pack) s.matchSpace (s.getX regMatchBase) n (by simpa using hn)
    simpa [outputMatches, State.matchRecord] using this

/-! The ring mask (R220). -/

/-- A number with no bit in common with its successor is one less than a power of two. -/
theorem succ_eq_two_pow {k n : Nat} (hn : n < 2 ^ k) (h0 : n &&& (n + 1) = 0) : ∃ j, j ≤ k ∧ n + 1 = 2 ^ j := by
  induction k generalizing n with
  | zero => exact ⟨0, le_refl _, by simp at hn; simp [hn]⟩
  | succ k ih =>
    rcases Nat.even_or_odd' n with ⟨c, rfl | rfl⟩
    · cases c with
      | zero => exact ⟨0, by omega, rfl⟩
      | succ c =>
        exfalso
        have := congrArg (· / 2) h0
        simp only [Nat.and_div_two] at this
        rw [show 2 * (c + 1) / 2 = c + 1 by omega, show (2 * (c + 1) + 1) / 2 = c + 1 by omega, Nat.and_self] at this
        omega
    · have := congrArg (· / 2) h0
      simp only [Nat.and_div_two] at this
      rw [show (2 * c + 1) / 2 = c by omega, show (2 * c + 1 + 1) / 2 = c + 1 by omega] at this
      obtain ⟨j, hj, e⟩ := ih (n := c) (by rw [pow_succ] at hn; omega) (by simpa using this)
      exact ⟨j + 1, by omega, by rw [pow_succ]; omega⟩

/-- The bit test of the mask says exactly that it is `2^n − 1` with `n` in 0..32. -/
theorem mask_test (m : Word) : m &&& (m + 1#32) = 0#32 ↔ ∃ n, n ≤ 32 ∧ m.toNat + 1 = 2 ^ n := by
  constructor
  · intro h
    have h' : (m &&& (m + 1#32)).toNat = 0 := by rw [h]; rfl
    rw [BitVec.toNat_and] at h'
    by_cases hm : m.toNat + 1 = 2 ^ 32
    · exact ⟨32, le_refl _, hm⟩
    · have hl := m.isLt
      have hs : (m + 1#32).toNat = m.toNat + 1 := by
        rw [BitVec.toNat_add]; simp; omega
      rw [hs] at h'
      exact succ_eq_two_pow hl h'
  · rintro ⟨n, hn, h⟩
    apply BitVec.eq_of_toNat_eq
    have hm : m.toNat = 2 ^ n - 1 := by omega
    rw [BitVec.toNat_and, BitVec.toNat_add]
    simp only [BitVec.toNat_ofNat]
    rw [show m.toNat + 1 % 2 ^ 32 = m.toNat + 1 by rfl, h, hm]
    interval_cases n <;> decide

end Sys2Proof.Machine
end

