-- ==== Sys2Proof/Laws/Search.lean ====
section
/-!
SUPPORT. What a FIND_LONGEST_MATCH search can do, once: one offer, one dictionary probe, and what its end writes.
-/
namespace Sys2Proof.Machine

/-! Scores (R130 to R132, R119). -/

/-- A score an i64 holds. -/
def ScoreFits (sc : Int) : Prop := -2 ^ 63 ≤ sc ∧ sc < 2 ^ 63

theorem scoreFits_toInt (v : Word64) : ScoreFits v.toInt := by
  have h1 := v.toInt_lt
  have h2 := v.le_toInt
  exact ⟨by simpa using h2, by simpa using h1⟩

theorem toInt_ofInt_of_fits {sc : Int} (h : ScoreFits sc) : (BitVec.ofInt 64 sc).toInt = sc := by
  rw [BitVec.toInt_ofInt]
  apply Int.bmod_eq_of_le <;> have := h.1 <;> have := h.2 <;> omega

theorem log2_word_lt (d : Word) : Nat.log2 d.toNat < 32 := by
  rcases Nat.eq_zero_or_pos d.toNat with h | h
  · rw [h]; decide
  · exact (Nat.log2_lt (by omega)).2 d.isLt

/-- A general score of a 32-bit length fits. -/
theorem score_fits {len : Nat} (h : len < 2 ^ 32) (d : Word) : ScoreFits (score len d) := by
  have := log2_word_lt d
  unfold ScoreFits score
  constructor <;> omega

theorem shortCodeCost_bounds (i : Fin 16) : -60 ≤ shortCodeCost[i] ∧ shortCodeCost[i] ≤ 127 := by
  revert i; decide

/-- A recent-distance score of a 32-bit length fits. -/
theorem scoreLast_fits {len : Nat} (h : len < 2 ^ 32) (i : Fin 16) : ScoreFits (scoreLast len i) := by
  have := shortCodeCost_bounds i
  unfold ScoreFits scoreLast
  constructor <;> omega

/-! Offers. -/

theorem Search.offer_take {b : Search} {sc : Int} (len code : Nat) (dist : Word) (h : b.bestScore < sc) :
    b.offer len code dist sc =
      { b with
        bestLen := BitVec.ofNat 32 len, bestLenCode := BitVec.ofNat 32 code, bestDistance := dist, bestScore := sc,
        found := true } := by
  simp [Search.offer, h]

theorem Search.offer_leave {b : Search} {sc : Int} (len code : Nat) (dist : Word) (h : ¬ b.bestScore < sc) :
    b.offer len code dist sc = b := by
  simp [Search.offer, h]

/-- Along the window stages of a search that began at `b0`: the counters stay, nothing changes until a candidate is
taken, and what has been taken satisfies `G` and beats the start. -/
structure Search.Tracks (b0 : Search) (G : Nat → Word → Int → Prop) (b : Search) : Prop where
  lookups : b.lookups = b0.lookups
  hits : b.hits = b0.hits
  fits : ScoreFits b.bestScore
  idle : b.found = false → b = b0
  taken : b.found = true → b0.bestScore < b.bestScore ∧ b.bestLenCode = b.bestLen ∧
    G b.bestLen.toNat b.bestDistance b.bestScore

/-- A tracked search that beats the start has found something. -/
theorem Search.Tracks.found {b0 b : Search} {G : Nat → Word → Int → Prop} (h : Search.Tracks b0 G b)
    (hb : b0.bestScore < b.bestScore) : b.found = true := by
  by_contra hf
  rw [h.idle (by simpa using hf)] at hb
  exact absurd hb (lt_irrefl _)

theorem Search.Tracks.refl {b0 : Search} (G : Nat → Word → Int → Prop) (hf : ScoreFits b0.bestScore)
    (h : b0.found = false) : Search.Tracks b0 G b0 :=
  ⟨rfl, rfl, hf, fun _ => rfl, fun h' => by simp [h] at h'⟩

/-- Offering a good candidate keeps the track. -/
theorem Search.Tracks.offer {b0 b : Search} {G : Nat → Word → Int → Prop} (hb : Search.Tracks b0 G b) {len : Nat}
    {dist : Word} {sc : Int} (hlen : len < 2 ^ 32) (hs : ScoreFits sc) (hG : G len dist sc) :
    Search.Tracks b0 G (b.offer len len dist sc) := by
  by_cases h : b.bestScore < sc
  · rw [Search.offer_take _ _ _ h]
    refine ⟨hb.lookups, hb.hits, hs, fun h' => by simp at h', fun _ => ⟨?_, rfl, ?_⟩⟩
    · cases hf : b.found
      · have := hb.idle hf; subst this; exact h
      · exact lt_trans (hb.taken hf).1 h
    · have hm : (BitVec.ofNat 32 len).toNat = len := by rw [BitVec.toNat_ofNat]; exact Nat.mod_eq_of_lt hlen
      simpa only [hm] using hG
  · rw [Search.offer_leave _ _ _ h]; exact hb

/-- Once found, always found. -/
theorem Search.offer_found {b : Search} (len code : Nat) (dist : Word) (sc : Int) (h : b.found = true) :
    (b.offer len code dist sc).found = true := by
  unfold Search.offer; split <;> simp_all

/-- An offer after which nothing is found left everything. -/
theorem Search.offer_idle {b : Search} {len code : Nat} {dist : Word} {sc : Int}
    (h : (b.offer len code dist sc).found = false) : b.offer len code dist sc = b := by
  unfold Search.offer at *; split at h <;> simp_all

/-- After an offer the running score is at least the offered one. -/
theorem Search.offer_beats (b : Search) (len code : Nat) (dist : Word) (sc : Int) :
    sc ≤ (b.offer len code dist sc).bestScore := by
  unfold Search.offer; split_ifs with h
  · exact le_refl _
  · exact not_lt.1 h

/-- Offering a length below a bound keeps the best length below it. -/
theorem Search.offer_short {b : Search} {n len code : Nat} {dist : Word} {sc : Int} (hb : b.bestLen.toNat < n)
    (hl : len < n) (hw : len < 2 ^ 32) : (b.offer len code dist sc).bestLen.toNat < n := by
  unfold Search.offer; split_ifs
  · rw [BitVec.toNat_ofNat, Nat.mod_eq_of_lt hw]; exact hl
  · exact hb

/-- What a window step does to the running best (R166): nothing, or a strict rise of the score. -/
def Search.Rises (b c : Search) : Prop := c = b ∨ b.bestScore < c.bestScore

theorem Search.Rises.le {b c : Search} (h : Search.Rises b c) : b.bestScore ≤ c.bestScore := by
  rcases h with rfl | h
  · exact le_refl _
  · exact le_of_lt h

/-- Of equal scores the earlier stays: without a rise nothing changed (R166 (c), R191 (e)). -/
theorem Search.Rises.settled {b c : Search} (h : Search.Rises b c) (hle : c.bestScore ≤ b.bestScore) : c = b :=
  h.resolve_right (not_lt.2 hle)

theorem Search.offer_rises (b : Search) (len code : Nat) (dist : Word) (sc : Int) :
    Search.Rises b (b.offer len code dist sc) := by
  unfold Search.offer; split_ifs with h
  · exact .inr h
  · exact .inl rfl

/-- A fold of such steps is such a step. -/
theorem foldl_rises {α : Type} {f : Search → α → Search} (h : ∀ b a, Search.Rises b (f b a)) (l : List α) :
    ∀ b, Search.Rises b (l.foldl f b) := by
  induction l with
  | nil => exact fun _ => .inl rfl
  | cons a rest ih =>
    intro b
    rcases ih (f b a) with h1 | h1
    · rw [List.foldl_cons, h1]; exact h b a
    · exact .inr (lt_of_le_of_lt (h b a).le h1)

/-- A fold of steps, each idle when it finds nothing: if the fold found nothing, every step was idle. -/
theorem foldl_idle {α : Type} {f : Search → α → Search} (h : ∀ b a, (f b a).found = false → f b a = b) (l : List α) :
    ∀ b, (l.foldl f b).found = false → l.foldl f b = b ∧ ∀ a ∈ l, f b a = b := by
  induction l with
  | nil => exact fun _ _ => ⟨rfl, by simp⟩
  | cons a rest ih =>
    intro b hb
    have h1 := ih (f b a) hb
    have h2 : f b a = b := h b a (by rw [← h1.1]; exact hb)
    rw [h2] at h1
    refine ⟨by rw [List.foldl_cons, h2]; exact h1.1, fun c hc => ?_⟩
    rcases List.mem_cons.1 hc with rfl | hc
    · exact h2
    · exact h1.2 c hc

/-- A fold of steps that each keep a property keeps it. -/
theorem foldl_keeps {α β : Type} {P : β → Prop} {f : β → α → β} (h : ∀ b a, P b → P (f b a)) (l : List α) :
    ∀ b, P b → P (l.foldl f b) := by
  induction l with
  | nil => exact fun _ hb => hb
  | cons a rest ih => exact fun b hb => ih _ (h b a hb)

/-- A fold of steps that keep a property on the list's members keeps it. -/
theorem foldl_keeps_mem {α β : Type} {P : β → Prop} {f : β → α → β} (l : List α)
    (h : ∀ b, ∀ a ∈ l, P b → P (f b a)) : ∀ b, P b → P (l.foldl f b) := by
  induction l with
  | nil => exact fun _ hb => hb
  | cons a rest ih =>
    exact fun b hb => ih (fun b a ha => h b a (List.mem_cons_of_mem _ ha)) _ (h b a List.mem_cons_self hb)

/-! The candidates one after the other (R163, R185). -/

/-- One candidate in a search: the gate, the length test, the offer. -/
def Search.consider (r : Ring) (cur maxlen : Word) (b : Search) (c : Candidate) : Search :=
  if b.gate r (cur - c.dist) cur then
    let len := prefixMatch r (cur - c.dist) cur maxlen.toNat
    if c.least ≤ len then b.offer len len c.dist (c.score len) else b
  else b

/-- A search whose running best is this candidate. -/
def Search.took (r : Ring) (cur maxlen : Word) (b : Search) (c : Candidate) : Search :=
  { b with
    bestLen := BitVec.ofNat 32 (c.len r cur maxlen.toNat), bestLenCode := BitVec.ofNat 32 (c.len r cur maxlen.toNat),
    bestDistance := c.dist, bestScore := c.score (c.len r cur maxlen.toNat), found := true }

theorem Candidate.len_toNat (c : Candidate) (r : Ring) (cur maxlen : Word) :
    (BitVec.ofNat 32 (c.len r cur maxlen.toNat)).toNat = c.len r cur maxlen.toNat := by
  rw [BitVec.toNat_ofNat]
  exact Nat.mod_eq_of_lt (lt_of_le_of_lt (prefixMatch_le _ _ _ _) maxlen.isLt)

/-- Examining candidates in order ends in the last one taken, or changes nothing. -/
theorem foldl_consider (r : Ring) (cur maxlen : Word) (l : List Candidate) : ∀ b : Search,
    l.foldl (Search.consider r cur maxlen) b =
      (takenFrom r cur maxlen.toNat b.bestLen.toNat b.bestScore l).getLast?.elim b (b.took r cur maxlen) := by
  induction l with
  | nil => exact fun _ => rfl
  | cons c rest ih =>
    intro b
    have hg : b.gate r (cur - c.dist) cur = true ↔
        r.byteAt (cur - c.dist) b.bestLen.toNat = r.byteAt cur b.bestLen.toNat := by
      simp [Search.gate, Ring.byteAt]
    rw [List.foldl_cons, ih, takenFrom]
    split_ifs with h
    · have hc : b.consider r cur maxlen c = b.took r cur maxlen c := by
        rw [Search.consider, if_pos (hg.2 h.1)]
        exact (if_pos h.2.1).trans (Search.offer_take _ _ _ h.2.2)
      have ht : (b.took r cur maxlen c).bestLen.toNat = c.len r cur maxlen.toNat := c.len_toNat r cur maxlen
      have hs : (b.took r cur maxlen c).bestScore = c.score (c.len r cur maxlen.toNat) := rfl
      rw [hc, ht, hs, List.getLast?_cons]
      cases (takenFrom r cur maxlen.toNat _ _ rest).getLast? <;> rfl
    · have hc : b.consider r cur maxlen c = b := by
        unfold Search.consider
        simp only
        split_ifs with h1 h2
        · exact Search.offer_leave _ _ _ fun h3 => h ⟨hg.1 h1, h2, h3⟩
        · rfl
        · rfl
      rw [hc]

theorem takenFrom_sublist (r : Ring) (cur : Word) (limit : Nat) (l : List Candidate) :
    ∀ n sc, (takenFrom r cur limit n sc l).Sublist l := by
  induction l with
  | nil => exact fun _ _ => List.Sublist.refl _
  | cons c rest ih =>
    intro n sc
    rw [takenFrom]
    split_ifs
    · exact (ih _ _).cons_cons _
    · exact (ih _ _).cons _

/-! The dictionary (R143, R146). -/

/-- What one entry can give (R143). -/
structure DictFinds (d : Dict) (r : Ring) (cur maxlen maxback : Word) (idx : Nat) (c : DictCandidate) : Prop where
  code : c.lengthCode = dictEntryLen (Sparse.get 0#16 d.hash idx)
  codePos : c.lengthCode ≠ 0
  codeLe : c.lengthCode ≤ maxlen.toNat
  length : c.length = prefixMatchDict d r cur
    (dictWordOffset d c.lengthCode (dictEntrySlot (Sparse.get 0#16 d.hash idx))) c.lengthCode
  lengthPos : 0 < c.length
  lengthLe : c.length ≤ c.lengthCode
  shortfall : c.lengthCode < c.length + 10
  distance : c.distance = dictDistance maxback
    (dictWordId d c.lengthCode (dictEntrySlot (Sparse.get 0#16 d.hash idx)) (c.lengthCode - c.length))
  distancePos : c.distance ≠ 0#32
  score : c.score = score c.length c.distance

theorem dictLookup_finds {d : Dict} {r : Ring} {cur maxlen maxback : Word} {idx : Nat} {c : DictCandidate}
    (h : dictLookup d r cur maxlen maxback idx = some c) : DictFinds d r cur maxlen maxback idx c := by
  simp only [dictLookup] at h
  split_ifs at h with h1 h2 h3 h4
  simp only [Option.some.injEq] at h
  subst h
  have hle := (prefixMatchDict_spec d r cur (dictWordOffset d (dictEntryLen (Sparse.get 0#16 d.hash idx))
    (dictEntrySlot (Sparse.get 0#16 d.hash idx))) (dictEntryLen (Sparse.get 0#16 d.hash idx))).1
  exact ⟨rfl, h1, Nat.le_of_not_lt h2, rfl, h3.2, hle, by have := h3.1; simp only; omega, rfl, h4, rfl⟩

/-- What one probe can do (R143, R146): count a lookup, and besides either nothing or take the entry's candidate and
count a match. -/
theorem dictProbe_cases (d : Dict) (r : Ring) (cur maxlen maxback : Word) (idx : Nat) (b : Search) :
    dictProbe d r cur maxlen maxback idx b = { b with lookups := b.lookups + 1#64 } ∨
    ∃ c, DictFinds d r cur maxlen maxback idx c ∧ b.bestScore < c.score ∧
      dictProbe d r cur maxlen maxback idx b =
        { bestLen := BitVec.ofNat 32 c.length, bestLenCode := BitVec.ofNat 32 c.lengthCode, bestDistance := c.distance,
          bestScore := c.score, found := true, lookups := b.lookups + 1#64, hits := b.hits + 1#64 } := by
  cases hl : dictLookup d r cur maxlen maxback idx with
  | none => left; simp [dictProbe, hl]
  | some c =>
    by_cases hs : b.bestScore < c.score
    · right
      exact ⟨c, dictLookup_finds hl, hs, by simp [dictProbe, hl, hs, Search.offer]⟩
    · left; simp [dictProbe, hl, hs]

/-- The entry has a candidate that beats the running score (R146). -/
def dictTakes (d : Dict) (r : Ring) (cur maxlen maxback : Word) (idx : Nat) (sc : Int) : Bool :=
  (dictLookup d r cur maxlen maxback idx).any fun c => decide (sc < c.score)

/-- What one probe counts: a lookup always, a match exactly when the entry's candidate beats the running score. -/
theorem dictProbe_counts (d : Dict) (r : Ring) (cur maxlen maxback : Word) (idx : Nat) (b : Search) :
    (dictProbe d r cur maxlen maxback idx b).lookups = b.lookups + 1#64 ∧
    (dictProbe d r cur maxlen maxback idx b).hits =
      b.hits + (if dictTakes d r cur maxlen maxback idx b.bestScore then 1#64 else 0#64) ∧
    (dictProbe d r cur maxlen maxback idx b).found = (b.found || dictTakes d r cur maxlen maxback idx b.bestScore) := by
  unfold dictTakes dictProbe
  cases dictLookup d r cur maxlen maxback idx with
  | none => simp
  | some c => by_cases h : b.bestScore < c.score <;> simp [h, Search.offer]

/-- What it leaves as the running best. -/
theorem dictProbe_some {d : Dict} {r : Ring} {cur maxlen maxback : Word} {idx : Nat} {c : DictCandidate} {b : Search}
    (h : dictLookup d r cur maxlen maxback idx = some c) (hs : b.bestScore < c.score) :
    dictProbe d r cur maxlen maxback idx b =
      { bestLen := BitVec.ofNat 32 c.length, bestLenCode := BitVec.ofNat 32 c.lengthCode, bestDistance := c.distance,
        bestScore := c.score, found := true, lookups := b.lookups + 1#64, hits := b.hits + 1#64 } := by
  simp [dictProbe, h, hs, Search.offer]

/-- A probe whose candidate does not beat the running score only counts its lookup. -/
theorem dictProbe_leaves {d : Dict} {r : Ring} {cur maxlen maxback : Word} {idx : Nat} {b : Search}
    (h : ∀ c, dictLookup d r cur maxlen maxback idx = some c → c.score ≤ b.bestScore) :
    dictProbe d r cur maxlen maxback idx b = { b with lookups := b.lookups + 1#64 } := by
  cases hl : dictLookup d r cur maxlen maxback idx with
  | none => simp [dictProbe, hl]
  | some c => simp [dictProbe, hl, not_lt.2 (h c hl)]

/-- What the pair counts (R186): two lookups, and a match for each candidate that is taken, the odd entry's when it beats
the running score and the even entry's candidate. -/
theorem dictPair_counts (d : Dict) (r : Ring) (cur maxlen maxback : Word) (k : Nat) (b : Search) :
    let look := dictLookup d r cur maxlen maxback
    let even := (look k).any fun c => decide (b.bestScore < c.score)
    let odd := (look (k + 1)).any fun c =>
      decide (b.bestScore < c.score) && (look k).all fun c' => decide (c'.score < c.score)
    let b2 := dictProbe d r cur maxlen maxback (k + 1) (dictProbe d r cur maxlen maxback k b)
    b2.lookups = b.lookups + 2#64 ∧ b2.hits = b.hits + (if even then 1#64 else 0#64) + (if odd then 1#64 else 0#64) ∧
      b2.found = (b.found || (even || odd)) := by
  intro look even odd b2
  have h1 := dictProbe_counts d r cur maxlen maxback k b
  have h2 := dictProbe_counts d r cur maxlen maxback (k + 1) (dictProbe d r cur maxlen maxback k b)
  have ho : dictTakes d r cur maxlen maxback (k + 1) (dictProbe d r cur maxlen maxback k b).bestScore = odd := by
    simp only [odd, look, dictTakes]
    congr 1
    funext c
    cases hl : dictLookup d r cur maxlen maxback k with
    | none => rw [dictProbe_leaves (by simp [hl])]; simp
    | some c' =>
      by_cases hs : b.bestScore < c'.score
      · rw [dictProbe_some hl hs]
        simp only [Option.all_some]
        by_cases hc : c'.score < c.score
        · simp [hc, lt_trans hs hc]
        · simp [hc]
      · rw [dictProbe_leaves (by simp only [hl, Option.some.injEq]; rintro _ rfl; exact not_lt.1 hs)]
        simp only [Option.all_some]
        by_cases hc : b.bestScore < c.score
        · simp [hc, lt_of_le_of_lt (not_lt.1 hs) hc]
        · simp [hc]
  rw [ho] at h2
  refine ⟨?_, ?_, ?_⟩
  · rw [h2.1, h1.1, BitVec.add_assoc]; rfl
  · rw [h2.2.1, h1.2.1]; rfl
  · rw [h2.2.2, h1.2.2, Bool.or_assoc]; rfl

/-- A probe never loses what was found. -/
theorem dictProbe_found {d : Dict} {r : Ring} {cur maxlen maxback : Word} {idx : Nat} {b : Search} (h : b.found = true) :
    (dictProbe d r cur maxlen maxback idx b).found = true := by
  rcases dictProbe_cases d r cur maxlen maxback idx b with e | ⟨c, _, _, e⟩ <;> rw [e]
  exact h

/-- A probe never lowers the running score, and leaves it at least the score of its entry's candidate (R146). -/
theorem dictProbe_raises (d : Dict) (r : Ring) (cur maxlen maxback : Word) (idx : Nat) (b : Search) :
    b.bestScore ≤ (dictProbe d r cur maxlen maxback idx b).bestScore := by
  rcases dictProbe_cases d r cur maxlen maxback idx b with e | ⟨c, _, hs, e⟩ <;> rw [e]
  exact le_of_lt hs

theorem dictProbe_beats {d : Dict} {r : Ring} {cur maxlen maxback : Word} {idx : Nat} {c : DictCandidate}
    (h : dictLookup d r cur maxlen maxback idx = some c) (b : Search) :
    c.score ≤ (dictProbe d r cur maxlen maxback idx b).bestScore := by
  simp only [dictProbe, h]
  split_ifs with hs
  · exact Search.offer_beats _ _ _ _ _
  · exact not_lt.1 hs

/-- What the block-chain family's two probes do (R186): two lookups counted, and either nothing found or the last accepted
candidate in the running best. -/
theorem dictPair_spec (d : Dict) (r : Ring) (cur maxlen maxback : Word) (k : Nat) {b : Search} (h0 : b.found = false)
    {b2 : Search} (hb : b2 = dictProbe d r cur maxlen maxback (k + 1) (dictProbe d r cur maxlen maxback k b)) :
    b2.lookups = b.lookups + 2#64 ∧
    ((b2.found = false ∧ b2.hits = b.hits) ∨
     (b2.found = true ∧ (b2.hits = b.hits + 1#64 ∨ b2.hits = b.hits + 2#64) ∧
      ∃ idx c, (idx = k ∨ idx = k + 1) ∧ DictFinds d r cur maxlen maxback idx c ∧
        b2.bestLen = BitVec.ofNat 32 c.length ∧ b2.bestLenCode = BitVec.ofNat 32 c.lengthCode ∧
        b2.bestDistance = c.distance ∧ b2.bestScore = c.score)) := by
  have l2 : ∀ a : Word64, a + 1#64 + 1#64 = a + 2#64 := fun a => by rw [BitVec.add_assoc]; rfl
  subst hb
  rcases dictProbe_cases d r cur maxlen maxback k b with e1 | ⟨c1, hc1, _, e1⟩ <;>
  rcases dictProbe_cases d r cur maxlen maxback (k + 1) (dictProbe d r cur maxlen maxback k b) with
    e2 | ⟨c2, hc2, _, e2⟩ <;>
  rw [e2, e1]
  · exact ⟨l2 _, .inl ⟨h0, rfl⟩⟩
  · exact ⟨l2 _, .inr ⟨rfl, .inl rfl, k + 1, c2, .inr rfl, hc2, rfl, rfl, rfl, rfl⟩⟩
  · exact ⟨l2 _, .inr ⟨rfl, .inl rfl, k, c1, .inl rfl, hc1, rfl, rfl, rfl, rfl⟩⟩
  · exact ⟨l2 _, .inr ⟨rfl, .inr (l2 _), k + 1, c2, .inr rfl, hc2, rfl, rfl, rfl, rfl⟩⟩

/-! The end (R225). -/

/-- When something was found, the outputs are the running best. -/
theorem Search.finish_found {b : Search} (s : State) (h : b.found = true) :
    (b.finish s).getX 4 = b.bestLen ∧ (b.finish s).getX 5 = b.bestLenCode ∧ (b.finish s).getX 6 = b.bestDistance ∧
    (b.finish s).getX 7 = 1#32 ∧ (b.finish s).bestScore = BitVec.ofInt 64 b.bestScore := by
  simp [Search.finish, h, regResult, regBestDistance, regBestLenCode, regBestLen]

/-- When nothing was found, only RESULT and the counters are written. -/
theorem Search.finish_idle {b : Search} (s : State) (h : b.found = false) :
    b.finish s = { s with numDictLookups := b.lookups, numDictMatches := b.hits }.setX 7 0#32 := by
  simp [Search.finish, h]

/-- What the end never writes. -/
theorem Search.finish_frame (b : Search) (s : State) :
    RegsKept [4, 5, 6, 7] s (b.finish s) ∧ (b.finish s).index = s.index ∧ (b.finish s).cmd = s.cmd ∧
    (b.finish s).err = s.err ∧ (b.finish s).errOp = s.errOp ∧ (b.finish s).lgwin = s.lgwin ∧
    (b.finish s).ringMask = s.ringMask ∧ (b.finish s).view = s.view ∧ (b.finish s).matchSpace = s.matchSpace ∧
    (b.finish s).params = s.params ∧ (b.finish s).readData = s.readData ∧ (b.finish s).host = s.host ∧
    (b.finish s).numDictLookups = b.lookups ∧ (b.finish s).numDictMatches = b.hits := by
  unfold Search.finish
  split <;> refine ⟨fun i hi => ?_, rfl, rfl, rfl, rfl, rfl, rfl, rfl, rfl, rfl, rfl, rfl, rfl, rfl⟩
  all_goals
    simp only [List.mem_cons, List.not_mem_nil, or_false, not_or] at hi
    simp [hi]
    rfl

end Sys2Proof.Machine
end

