-- ==== Sys2Proof/Laws/Quick.lean ====
section
/-!
SUPPORT. The quick family (H1 to H4): what its store writes, and what its search can give.
-/
namespace Sys2Proof.Machine

/-! The store (R160). -/

@[simp] theorem qbGet_quickStore_slot (p : QuickParams) (r : Ring) (ix : Word) (qb : Sparse Word) :
    qbGet (quickStore p r ix qb) (quickSlot p r ix) = ix := Sparse.get_set_same _ _ _ _

theorem qbGet_quickStore_ne (p : QuickParams) (r : Ring) (ix : Word) (qb : Sparse Word) {j : Nat}
    (h : j ≠ quickSlot p r ix) : qbGet (quickStore p r ix qb) j = qbGet qb j := Sparse.get_set_ne _ _ _ h

/-- The slot lies below the last slot of the table, which is therefore never written (R160). -/
theorem quickSlot_lt {p : QuickParams} (hp : p.WellFormed) (r : Ring) (ix : Word) :
    quickSlot p r ix < 2 ^ p.bucketBits + p.sweep - 1 := by
  have hk : quickKey p r ix < 2 ^ p.bucketBits := hash5_lt _ _ (by have := hp.2.2; omega)
  have hs : 0 < p.sweep := by rcases hp.1 with h | h | h <;> omega
  have := Nat.mod_lt (ix.toNat >>> 3) hs
  unfold quickSlot
  omega

/-- A store keeps the table canonical and inside its range. -/
theorem quickStore_inv {p : QuickParams} (hp : p.WellFormed) (r : Ring) (ix : Word) {qb : Sparse Word}
    (h : Sparse.Wf 0#32 qb ∧ Sparse.Below (2 ^ p.bucketBits + p.sweep - 1) qb) :
    Sparse.Wf 0#32 (quickStore p r ix qb) ∧ Sparse.Below (2 ^ p.bucketBits + p.sweep - 1) (quickStore p r ix qb) :=
  ⟨Sparse.set_wf _ _ h.1, Sparse.set_below _ h.2 (quickSlot_lt hp r ix)⟩

/-! The search (R163). -/

/-- The slots `QB[QuickKey + j]`, `j < n`, in order (R163). -/
def quickSlots (p : QuickParams) (r : Ring) (qb : Sparse Word) (cur : Word) (n : Nat) : List Word :=
  (List.range n).map fun j => qbGet qb (quickKey p r cur + j)

theorem mem_quickSlots {p : QuickParams} {r : Ring} {qb : Sparse Word} {cur x : Word} {n : Nat} :
    x ∈ quickSlots p r qb cur n ↔ ∃ j, j < n ∧ qbGet qb (quickKey p r cur + j) = x := by
  simp [quickSlots]

theorem quickSlots_succ (p : QuickParams) (r : Ring) (qb : Sparse Word) (cur : Word) (n : Nat) :
    quickSlots p r qb cur (n + 1) = quickSlots p r qb cur n ++ [qbGet qb (quickKey p r cur + n)] := by
  simp [quickSlots, List.range_succ]

theorem quickSlots_split (p : QuickParams) (r : Ring) (qb : Sparse Word) (cur : Word) {j n : Nat} (h : j < n) :
    ∃ rest, quickSlots p r qb cur n = quickSlots p r qb cur (j + 1) ++ rest := by
  obtain ⟨m, rfl⟩ : ∃ m, n = j + 1 + m := ⟨n - (j + 1), by omega⟩
  exact ⟨_, by unfold quickSlots; rw [List.range_add, List.map_append]⟩

theorem quickSweep_eq (p : QuickParams) (r : Ring) (qb : Sparse Word) (cur maxlen maxback : Word) (b : Search) :
    quickSweep p r qb cur maxlen maxback b =
      (quickSlots p r qb cur p.sweep).foldl (fun b prev => quickProbe r cur maxlen maxback prev b) b := by
  simp only [quickSweep, quickSlots, List.foldl_map]

/-- The last distance is one into the stream (R163, step 1). -/
def QuickCachedOK (cur cache0 : Word) : Prop := 1 ≤ cache0.toInt ∧ cache0.toInt ≤ (cur.toNat : Int)

/-- What an accepted candidate of steps 1 to 3 satisfies (R163, R166 (b)). -/
structure QuickGood (r : Ring) (cur maxlen maxback cache0 : Word) (slots : List Word) (len : Nat) (dist : Word) (sc : Int) :
    Prop where
  lenGe : 4 ≤ len
  lenEq : len = prefixMatch r (cur - dist) cur maxlen.toNat
  distPos : dist ≠ 0#32
  source : (dist ≤ maxback ∧ cur - dist ∈ slots ∧ sc = score len dist) ∨
    (dist = cache0 ∧ QuickCachedOK cur cache0 ∧ sc = scoreLast len 0)

theorem prefixMatch_word_lt (r : Ring) (a b maxlen : Word) : prefixMatch r a b maxlen.toNat < 2 ^ 32 :=
  lt_of_le_of_lt (prefixMatch_le r a b _) maxlen.isLt

theorem quickCached_tracks {b0 b : Search} (r : Ring) (cur maxlen maxback cache0 : Word) (slots : List Word)
    (hb : Search.Tracks b0 (QuickGood r cur maxlen maxback cache0 slots) b) :
    Search.Tracks b0 (QuickGood r cur maxlen maxback cache0 slots) (quickCached r cur maxlen cache0 b) := by
  simp only [quickCached]
  split_ifs with h1 h2 h3
  · have hl := prefixMatch_word_lt r (cur - cache0) cur maxlen
    refine hb.offer hl (scoreLast_fits hl 0) ⟨h3, rfl, ?_, .inr ⟨rfl, h1, rfl⟩⟩
    rintro rfl
    have := h1.1
    simp at this
  all_goals exact hb

theorem quickProbe_tracks {b0 b : Search} (r : Ring) (cur maxlen maxback cache0 : Word) {slots : List Word} {prev : Word}
    (hp : prev ∈ slots) (hb : Search.Tracks b0 (QuickGood r cur maxlen maxback cache0 slots) b) :
    Search.Tracks b0 (QuickGood r cur maxlen maxback cache0 slots) (quickProbe r cur maxlen maxback prev b) := by
  simp only [quickProbe]
  split_ifs with h1 h2 h3
  · exact hb
  · have hl := prefixMatch_word_lt r prev cur maxlen
    have hx : cur - backward cur prev = prev := by simp [backward]
    rw [not_or] at h1
    exact hb.offer hl (score_fits hl _) ⟨h3, by rw [hx], h1.1,
      .inl ⟨BitVec.not_lt.1 h1.2, by rw [hx]; exact hp, rfl⟩⟩
  all_goals exact hb

/-- Steps 1 and 2 over any list of slots. -/
theorem quickSlots_tracks {b0 : Search} (r : Ring) (cur maxlen maxback cache0 : Word) (slots : List Word)
    (hf : ScoreFits b0.bestScore) (h0 : b0.found = false) :
    Search.Tracks b0 (QuickGood r cur maxlen maxback cache0 slots)
      (slots.foldl (fun b prev => quickProbe r cur maxlen maxback prev b) (quickCached r cur maxlen cache0 b0)) :=
  foldl_keeps_mem _ (fun _ _ hm h => quickProbe_tracks r cur maxlen maxback cache0 hm h) _
    (quickCached_tracks r cur maxlen maxback cache0 slots (Search.Tracks.refl _ hf h0))

/-- What `QuickFind` can give (R163): the window stages' result, found whenever the dictionary stage's other conditions
hold, or, when they found nothing and that stage is entered, one probe at the even entry (R165). -/
theorem quickFind_cases (p : QuickParams) (d : Dict) (r : Ring) (qb : Sparse Word) (cur maxlen maxback cache0 : Word)
    {b0 : Search} (hf : ScoreFits b0.bestScore) (h0 : b0.found = false) :
    (Search.Tracks b0 (QuickGood r cur maxlen maxback cache0 (quickSlots p r qb cur p.sweep))
        (quickFind p d r qb cur maxlen maxback cache0 b0) ∧
      (5 ≤ maxlen.toNat → p.useDict = true → throttleOpen b0.lookups b0.hits = true →
        (quickFind p d r qb cur maxlen maxback cache0 b0).found = true)) ∨
    (5 ≤ maxlen.toNat ∧ p.useDict = true ∧ throttleOpen b0.lookups b0.hits = true ∧
      quickFind p d r qb cur maxlen maxback cache0 b0 = dictProbe d r cur maxlen maxback (dictKey r cur) b0) := by
  have hr := Search.Tracks.refl (QuickGood r cur maxlen maxback cache0 (quickSlots p r qb cur p.sweep)) hf h0
  have h1 := quickCached_tracks r cur maxlen maxback cache0 _ hr
  have h2 := quickSlots_tracks r cur maxlen maxback cache0 (quickSlots p r qb cur p.sweep) hf h0
  rw [← quickSweep_eq] at h2
  simp only [quickFind]
  split_ifs with hs hx
  · exact .inl ⟨hr, fun h => absurd hs (by omega)⟩
  · simp only [Bool.and_eq_true] at hx
    exact .inl ⟨h1, fun _ _ _ => hx.1⟩
  · unfold quickDict
    split_ifs with hd
    · simp only [Bool.and_eq_true, Bool.not_eq_true'] at hd
      have he := h2.idle hd.1.1
      rw [he] at hd ⊢
      exact .inr ⟨by omega, hd.1.2, hd.2, rfl⟩
    · refine .inl ⟨h2, fun _ hu ht => ?_⟩
      rw [← h2.lookups, ← h2.hits] at ht
      simpa [hu, ht] using hd

/-! Completeness (R163, R166): a search that found nothing had nothing to accept. -/

theorem quickCached_idle {r : Ring} {cur maxlen cache0 : Word} {b : Search}
    (h : (quickCached r cur maxlen cache0 b).found = false) : quickCached r cur maxlen cache0 b = b := by
  simp only [quickCached] at *
  split_ifs at * <;> first | rfl | exact Search.offer_idle h

theorem quickProbe_idle {r : Ring} {cur maxlen maxback prev : Word} {b : Search}
    (h : (quickProbe r cur maxlen maxback prev b).found = false) : quickProbe r cur maxlen maxback prev b = b := by
  simp only [quickProbe] at *
  split_ifs at * <;> first | rfl | exact Search.offer_idle h

/-- When `QuickFind` found nothing, step 1 and every slot of the sweep, each started from the host's values, were idle. -/
theorem quickFind_idle {p : QuickParams} {d : Dict} {r : Ring} {qb : Sparse Word} {cur maxlen maxback cache0 : Word}
    {b0 : Search} (hl : 5 ≤ maxlen.toNat) (h : (quickFind p d r qb cur maxlen maxback cache0 b0).found = false) :
    quickCached r cur maxlen cache0 b0 = b0 ∧
    ∀ j, j < p.sweep → quickProbe r cur maxlen maxback (qbGet qb (quickKey p r cur + j)) b0 = b0 := by
  simp only [quickFind] at h
  split_ifs at h with hs hx
  · omega
  · simp only [Bool.and_eq_true] at hx
    rw [hx.1] at h
    simp at h
  · have h2 : (quickSweep p r qb cur maxlen maxback (quickCached r cur maxlen cache0 b0)).found = false := by
      by_contra hc
      simp only [Bool.not_eq_false] at hc
      simp [quickDict, hc] at h
    have h3 := foldl_idle (fun b j hb => quickProbe_idle (prev := qbGet qb (quickKey p r cur + j)) hb) _ _ h2
    have h4 : (quickCached r cur maxlen cache0 b0).found = false := by
      rw [← h3.1]; exact h2
    have h5 := quickCached_idle h4
    refine ⟨h5, fun j hj => ?_⟩
    have := h3.2 j (List.mem_range.2 hj)
    rwa [h5] at this

/-- The gate passes for a candidate longer than the best length. -/
theorem Search.gate_of_longer {b : Search} {r : Ring} {prev cur : Word} {limit : Nat}
    (h : b.bestLen.toNat < prefixMatch r prev cur limit) : b.gate r prev cur = true := by
  have := prefixMatch_bytes r prev cur limit _ h
  simpa [Search.gate, Ring.byteAt] using this

theorem Search.offer_takes {b : Search} {len code : Nat} {dist : Word} {sc : Int} (h : b.bestScore < sc) :
    (b.offer len code dist sc).found = true := by rw [Search.offer_take _ _ _ h]

/-- An admissible, long enough, better last-distance candidate is taken. -/
theorem quickCached_takes {r : Ring} {cur maxlen cache0 : Word} {b : Search}
    (h1 : 1 ≤ cache0.toInt ∧ cache0.toInt ≤ (cur.toNat : Int))
    (h2 : 4 ≤ prefixMatch r (cur - cache0) cur maxlen.toNat)
    (h3 : b.bestLen.toNat < prefixMatch r (cur - cache0) cur maxlen.toNat)
    (h4 : b.bestScore < scoreLast (prefixMatch r (cur - cache0) cur maxlen.toNat) 0) :
    (quickCached r cur maxlen cache0 b).found = true := by
  simp only [quickCached, if_pos h1, Search.gate_of_longer h3, if_true, if_pos h2]
  exact Search.offer_takes h4

/-- An admissible, long enough, better slot candidate is taken. -/
theorem quickProbe_takes {r : Ring} {cur maxlen maxback prev : Word} {b : Search}
    (h1 : cur - prev ≠ 0#32) (h1' : cur - prev ≤ maxback)
    (h2 : 4 ≤ prefixMatch r prev cur maxlen.toNat)
    (h3 : b.bestLen.toNat < prefixMatch r prev cur maxlen.toNat)
    (h4 : b.bestScore < score (prefixMatch r prev cur maxlen.toNat) (cur - prev)) :
    (quickProbe r cur maxlen maxback prev b).found = true := by
  have hor : ¬ (backward cur prev = 0#32 ∨ maxback < backward cur prev) := by
    rintro (hx | hx)
    · exact h1 hx
    · rw [BitVec.lt_def] at hx; rw [BitVec.le_def] at h1'; simp only [backward] at hx; omega
  simp only [quickProbe, if_neg hor, Search.gate_of_longer h3, if_true, if_pos h2]
  exact Search.offer_takes h4

/-! The best candidate wins, of equal ones the earlier (R163, R166): no step lowers the running score, a candidate longer
than all before it is scored, and only a strictly better one replaces it. -/

/-- Step 1 accepts the last-distance candidate (R163): it is one into the stream, passes the gate, is long enough and
beats the running score. -/
def QuickAccepts (r : Ring) (cur maxlen cache0 : Word) (b : Search) : Prop :=
  QuickCachedOK cur cache0 ∧ r.byte (cur - cache0 + b.bestLen) = r.byte (cur + b.bestLen) ∧
    4 ≤ prefixMatch r (cur - cache0) cur maxlen.toNat ∧
    b.bestScore < scoreLast (prefixMatch r (cur - cache0) cur maxlen.toNat) 0

theorem quickCached_rejects {r : Ring} {cur maxlen cache0 : Word} {b : Search} (h : ¬ QuickAccepts r cur maxlen cache0 b) :
    quickCached r cur maxlen cache0 b = b := by
  simp only [quickCached]
  split_ifs with h1 h2 h3
  · exact Search.offer_leave _ _ _ fun h4 => h ⟨h1, by simpa [Search.gate] using h2, h3, h4⟩
  all_goals rfl

theorem quickCached_rises (r : Ring) (cur maxlen cache0 : Word) (b : Search) :
    Search.Rises b (quickCached r cur maxlen cache0 b) := by
  simp only [quickCached]
  split_ifs <;> first | exact Search.offer_rises _ _ _ _ _ | exact .inl rfl

theorem quickProbe_rises (r : Ring) (cur maxlen maxback prev : Word) (b : Search) :
    Search.Rises b (quickProbe r cur maxlen maxback prev b) := by
  simp only [quickProbe]
  split_ifs <;> first | exact Search.offer_rises _ _ _ _ _ | exact .inl rfl

theorem quickDict_raises (p : QuickParams) (d : Dict) (r : Ring) (cur maxlen maxback : Word) (b : Search) :
    b.bestScore ≤ (quickDict p d r cur maxlen maxback b).bestScore := by
  unfold quickDict
  split_ifs
  · exact dictProbe_raises _ _ _ _ _ _ _
  · exact le_refl _

theorem quickDict_found {p : QuickParams} {d : Dict} {r : Ring} {cur maxlen maxback : Word} {b : Search}
    (h : b.found = true) : quickDict p d r cur maxlen maxback b = b := by
  simp [quickDict, h]

theorem quickCached_short {r : Ring} {cur maxlen cache0 : Word} {n : Nat} {b : Search} (hb : b.bestLen.toNat < n)
    (h : QuickAccepts r cur maxlen cache0 b → prefixMatch r (cur - cache0) cur maxlen.toNat < n) :
    (quickCached r cur maxlen cache0 b).bestLen.toNat < n := by
  by_cases ha : QuickAccepts r cur maxlen cache0 b
  · simp only [quickCached]
    split_ifs
    · exact Search.offer_short hb (h ha) (prefixMatch_word_lt _ _ _ _)
    all_goals exact hb
  · rw [quickCached_rejects ha]; exact hb

theorem quickProbe_short {r : Ring} {cur maxlen maxback prev : Word} {n : Nat} {b : Search} (hb : b.bestLen.toNat < n)
    (h : cur - prev ≠ 0#32 → cur - prev ≤ maxback → prefixMatch r prev cur maxlen.toNat < n) :
    (quickProbe r cur maxlen maxback prev b).bestLen.toNat < n := by
  simp only [quickProbe]
  split_ifs with h1
  · exact hb
  · rw [not_or] at h1
    exact Search.offer_short hb (h h1.1 (BitVec.not_lt.1 h1.2)) (prefixMatch_word_lt _ _ _ _)
  all_goals exact hb

/-- An admissible candidate longer than the running best length is scored. -/
theorem quickProbe_beats {r : Ring} {cur maxlen maxback prev : Word} {b : Search} (hd : cur - prev ≠ 0#32)
    (hb : cur - prev ≤ maxback) (h2 : 4 ≤ prefixMatch r prev cur maxlen.toNat)
    (h3 : b.bestLen.toNat < prefixMatch r prev cur maxlen.toNat) :
    score (prefixMatch r prev cur maxlen.toNat) (cur - prev) ≤ (quickProbe r cur maxlen maxback prev b).bestScore := by
  have hor : ¬ (backward cur prev = 0#32 ∨ maxback < backward cur prev) := by
    rintro (hx | hx)
    · exact hd hx
    · exact absurd hb (BitVec.not_le.2 hx)
  simp only [quickProbe, if_neg hor, Search.gate_of_longer h3, if_true, if_pos h2]
  exact Search.offer_beats _ _ _ _ _

/-- What a candidate of score `sc` that was scored after the slots of a list means for the whole find: the final score is at
least `sc`, and if it is no more, nothing after these slots was taken. -/
theorem quickFind_settles {p : QuickParams} {d : Dict} {r : Ring} {qb : Sparse Word} {cur maxlen maxback cache0 : Word}
    {b0 : Search} (hf : ScoreFits b0.bestScore) (h0 : b0.found = false) (hl : 5 ≤ maxlen.toNat) {sc : Int}
    {slots rest : List Word} (hs : quickSlots p r qb cur p.sweep = slots ++ rest)
    (hx : slots = [] ∨ ((quickCached r cur maxlen cache0 b0).found && p.sweep == 1) = false)
    (hb : sc ≤ (slots.foldl (fun b prev => quickProbe r cur maxlen maxback prev b)
      (quickCached r cur maxlen cache0 b0)).bestScore) :
    sc ≤ (quickFind p d r qb cur maxlen maxback cache0 b0).bestScore ∧
    (b0.bestScore < sc → (quickFind p d r qb cur maxlen maxback cache0 b0).bestScore = sc →
      QuickGood r cur maxlen maxback cache0 slots (quickFind p d r qb cur maxlen maxback cache0 b0).bestLen.toNat
        (quickFind p d r qb cur maxlen maxback cache0 b0).bestDistance
        (quickFind p d r qb cur maxlen maxback cache0 b0).bestScore) := by
  have ht := quickSlots_tracks r cur maxlen maxback cache0 slots hf h0
  have hr := foldl_rises (fun b prev => quickProbe_rises r cur maxlen maxback prev b) rest
    (slots.foldl (fun b prev => quickProbe r cur maxlen maxback prev b) (quickCached r cur maxlen cache0 b0))
  simp only [quickFind]
  rw [if_neg (by omega), quickSweep_eq, hs, List.foldl_append]
  generalize hb2 : slots.foldl (fun b prev => quickProbe r cur maxlen maxback prev b)
    (quickCached r cur maxlen cache0 b0) = b2 at hb ht hr
  have done : b0.bestScore < sc → QuickGood r cur maxlen maxback cache0 slots b2.bestLen.toNat b2.bestDistance b2.bestScore :=
    fun h => (ht.taken (ht.found (lt_of_lt_of_le h hb))).2.2
  split_ifs with hq
  · rcases hx with rfl | hx
    · rw [List.foldl_nil] at hb2
      rw [hb2]
      exact ⟨hb, fun h _ => done h⟩
    · rw [hx] at hq; exact absurd hq (by decide)
  · refine ⟨le_trans hb (le_trans hr.le (quickDict_raises _ _ _ _ _ _ _)), fun h he => ?_⟩
    have hc := hr.settled (le_trans (quickDict_raises p d r cur maxlen maxback _) (by rw [he]; exact hb))
    rw [hc, quickDict_found (ht.found (lt_of_lt_of_le h hb))]
    exact done h

/-- The last-distance candidate, when longer than the start: the final score is at least its, and if no more, the match is
at the last distance. -/
theorem quickFind_best_cached {p : QuickParams} {d : Dict} {r : Ring} {qb : Sparse Word}
    {cur maxlen maxback cache0 : Word} {b0 : Search} (hf : ScoreFits b0.bestScore) (h0 : b0.found = false)
    (hl : 5 ≤ maxlen.toNat) (h1 : QuickCachedOK cur cache0)
    (h2 : 4 ≤ prefixMatch r (cur - cache0) cur maxlen.toNat)
    (h3 : b0.bestLen.toNat < prefixMatch r (cur - cache0) cur maxlen.toNat) :
    scoreLast (prefixMatch r (cur - cache0) cur maxlen.toNat) 0 ≤
      (quickFind p d r qb cur maxlen maxback cache0 b0).bestScore ∧
    (b0.bestScore < scoreLast (prefixMatch r (cur - cache0) cur maxlen.toNat) 0 →
      (quickFind p d r qb cur maxlen maxback cache0 b0).bestScore =
        scoreLast (prefixMatch r (cur - cache0) cur maxlen.toNat) 0 →
      (quickFind p d r qb cur maxlen maxback cache0 b0).bestDistance = cache0) := by
  have h4 : scoreLast (prefixMatch r (cur - cache0) cur maxlen.toNat) 0 ≤ (quickCached r cur maxlen cache0 b0).bestScore := by
    unfold QuickCachedOK at h1
    simp only [quickCached, if_pos h1, Search.gate_of_longer h3, if_true, if_pos h2]
    exact Search.offer_beats _ _ _ _ _
  have h := quickFind_settles (d := d) (maxback := maxback) hf h0 hl (List.nil_append (quickSlots p r qb cur p.sweep)).symm
    (.inl rfl) h4
  refine ⟨h.1, fun hb he => ?_⟩
  rcases (h.2 hb he).source with ⟨_, hm, _⟩ | ⟨hm, _⟩
  · simp at hm
  · exact hm

/-- A slot's candidate longer than the start, than an accepted last-distance candidate and than every earlier slot's: the
final score is at least its, and if no more, the match is of this slot, an earlier one or the last distance. -/
theorem quickFind_best_slot {p : QuickParams} {d : Dict} {r : Ring} {qb : Sparse Word}
    {cur maxlen maxback cache0 : Word} {b0 : Search} (hf : ScoreFits b0.bestScore) (h0 : b0.found = false)
    (hl : 5 ≤ maxlen.toNat) {j : Nat} (hj : j < p.sweep) {prev : Word} (hp : prev = qbGet qb (quickKey p r cur + j))
    (hd : cur - prev ≠ 0#32) (hb : cur - prev ≤ maxback) (h2 : 4 ≤ prefixMatch r prev cur maxlen.toNat)
    (h3 : b0.bestLen.toNat < prefixMatch r prev cur maxlen.toNat)
    (hs : p.sweep = 1 → ¬ QuickAccepts r cur maxlen cache0 b0)
    (hc : QuickAccepts r cur maxlen cache0 b0 →
      prefixMatch r (cur - cache0) cur maxlen.toNat < prefixMatch r prev cur maxlen.toNat)
    (he : ∀ j', j' < j → cur - qbGet qb (quickKey p r cur + j') ≠ 0#32 → cur - qbGet qb (quickKey p r cur + j') ≤ maxback →
      prefixMatch r (qbGet qb (quickKey p r cur + j')) cur maxlen.toNat < prefixMatch r prev cur maxlen.toNat) :
    score (prefixMatch r prev cur maxlen.toNat) (cur - prev) ≤
      (quickFind p d r qb cur maxlen maxback cache0 b0).bestScore ∧
    (b0.bestScore < score (prefixMatch r prev cur maxlen.toNat) (cur - prev) →
      (quickFind p d r qb cur maxlen maxback cache0 b0).bestScore =
        score (prefixMatch r prev cur maxlen.toNat) (cur - prev) →
      (∃ j', j' ≤ j ∧ cur - (quickFind p d r qb cur maxlen maxback cache0 b0).bestDistance =
        qbGet qb (quickKey p r cur + j')) ∨
      (QuickCachedOK cur cache0 ∧ (quickFind p d r qb cur maxlen maxback cache0 b0).bestDistance = cache0)) := by
  have hx : ((quickCached r cur maxlen cache0 b0).found && p.sweep == 1) = false := by
    by_contra hx
    simp only [Bool.not_eq_false, Bool.and_eq_true, beq_iff_eq] at hx
    rw [quickCached_rejects (hs hx.2), h0] at hx
    exact absurd hx.1 (by decide)
  obtain ⟨rest, hsplit⟩ := quickSlots_split p r qb cur hj
  have h4 := foldl_keeps_mem (P := fun b : Search => b.bestLen.toNat < prefixMatch r prev cur maxlen.toNat)
    (f := fun b prev => quickProbe r cur maxlen maxback prev b) (quickSlots p r qb cur j)
    (fun b q hq hb' => by
      obtain ⟨j', hj', rfl⟩ := mem_quickSlots.1 hq
      exact quickProbe_short hb' (he j' hj'))
    _ (quickCached_short (n := prefixMatch r prev cur maxlen.toNat) h3 hc)
  have h5 : score (prefixMatch r prev cur maxlen.toNat) (cur - prev) ≤ ((quickSlots p r qb cur (j + 1)).foldl
      (fun b prev => quickProbe r cur maxlen maxback prev b) (quickCached r cur maxlen cache0 b0)).bestScore := by
    rw [quickSlots_succ, List.foldl_append, ← hp]
    exact quickProbe_beats hd hb h2 h4
  have h := quickFind_settles (d := d) hf h0 hl hsplit (.inr hx) h5
  refine ⟨h.1, fun hb he => ?_⟩
  rcases (h.2 hb he).source with ⟨_, hm, _⟩ | ⟨hm, hok, _⟩
  · obtain ⟨j', hj', hm⟩ := mem_quickSlots.1 hm
    exact .inl ⟨j', by omega, hm.symm⟩
  · exact .inr ⟨hok, hm⟩

end Sys2Proof.Machine
end

