-- ==== Sys2Proof/Laws/Chain.lean ====
section
/-!
SUPPORT. The block-chain family (H5 to H9): what its store writes, what its walk visits, and what its searches can give.
-/
namespace Sys2Proof.Machine

/-! The store (R181). -/

theorem chainKey_lt {p : ChainParams} (hp : p.WellFormed) (r : Ring) (ix : Word) :
    chainKey p r ix < 2 ^ p.bucketBits := hash32_lt _ hp.2.1

theorem ringNumber_lt {p : ChainParams} {key j : Nat} (hk : key < 2 ^ p.bucketBits) (hj : j < 2 ^ p.blockBits) :
    ringNumber p key j < 2 ^ p.bucketBits * 2 ^ p.blockBits := by
  unfold ringNumber
  calc key * 2 ^ p.blockBits + j < key * 2 ^ p.blockBits + 2 ^ p.blockBits := by omega
    _ = (key + 1) * 2 ^ p.blockBits := by ring
    _ ≤ 2 ^ p.bucketBits * 2 ^ p.blockBits := Nat.mul_le_mul_right _ hk

/-- Different elements of the rings have different numbers. -/
theorem ringNumber_inj {p : ChainParams} {k j k' j' : Nat} (hj : j < 2 ^ p.blockBits) (hj' : j' < 2 ^ p.blockBits)
    (h : ringNumber p k j = ringNumber p k' j') : k = k' ∧ j = j' := by
  unfold ringNumber at h
  have hp : 0 < 2 ^ p.blockBits := by positivity
  have h1 := congrArg (· / 2 ^ p.blockBits) h
  have h2 := congrArg (· % 2 ^ p.blockBits) h
  simp only [Nat.mul_comm k, Nat.mul_comm k', Nat.mul_add_div hp, Nat.mul_add_mod, Nat.mod_eq_of_lt hj,
    Nat.mod_eq_of_lt hj', Nat.div_eq_of_lt hj, Nat.div_eq_of_lt hj', Nat.add_zero] at h1 h2
  exact ⟨h1, h2⟩

/-- A store writes the counter and one ring entry of the key, and no other element (R181). -/
theorem chainStore_spec (p : ChainParams) (r : Ring) (ix : Word) (t : Sparse (BitVec 16) × Sparse Word) :
    numGet (chainStore p r ix t).1 (chainKey p r ix) = numGet t.1 (chainKey p r ix) + 1#16 ∧
    (∀ key, key ≠ chainKey p r ix → numGet (chainStore p r ix t).1 key = numGet t.1 key) ∧
    ringGet p (chainStore p r ix t).2 (chainKey p r ix) ((numGet t.1 (chainKey p r ix)).toNat % 2 ^ p.blockBits) = ix ∧
    ∀ key j, j < 2 ^ p.blockBits →
      ¬(key = chainKey p r ix ∧ j = (numGet t.1 (chainKey p r ix)).toNat % 2 ^ p.blockBits) →
      ringGet p (chainStore p r ix t).2 key j = ringGet p t.2 key j := by
  refine ⟨Sparse.get_set_same _ _ _ _, fun key h => Sparse.get_set_ne _ _ _ h, Sparse.get_set_same _ _ _ _,
    fun key j hj h => Sparse.get_set_ne _ _ _ fun e => h ?_⟩
  exact ringNumber_inj hj (Nat.mod_lt _ (by positivity)) e

/-- The tables' form and ranges. -/
def ChainTablesInv (p : ChainParams) (t : Sparse (BitVec 16) × Sparse Word) : Prop :=
  Sparse.Wf 0#16 t.1 ∧ Sparse.Below (2 ^ p.bucketBits) t.1 ∧ Sparse.Wf 0#32 t.2 ∧
    Sparse.Below (2 ^ p.bucketBits * 2 ^ p.blockBits) t.2

/-- A store keeps the tables canonical and inside their ranges. -/
theorem chainStore_inv {p : ChainParams} (hp : p.WellFormed) (r : Ring) (ix : Word)
    {t : Sparse (BitVec 16) × Sparse Word} (h : ChainTablesInv p t) : ChainTablesInv p (chainStore p r ix t) :=
  ⟨Sparse.set_wf _ _ h.1, Sparse.set_below _ h.2.1 (chainKey_lt hp r ix), Sparse.set_wf _ _ h.2.2.1,
    Sparse.set_below _ h.2.2.2 (ringNumber_lt (chainKey_lt hp r ix) (Nat.mod_lt _ (by positivity)))⟩

/-! The walk (R182). -/

/-- Every candidate of the walk has a distance in 1..maxback. -/
theorem chainWalk_mem {p : ChainParams} {r : Ring} {num : Sparse (BitVec 16)} {ring : Sparse Word}
    {cur maxback prev : Word} (h : prev ∈ chainWalk p r num ring cur maxback) :
    backward cur prev ≠ 0#32 ∧ backward cur prev ≤ maxback := by
  unfold chainWalk at h
  rw [List.mem_filter] at h
  exact ⟨by simpa using h.2, by simpa using List.mem_takeWhile_imp h.1⟩

/-- The walk keeps the order of the entries, newest first (R182). -/
theorem chainWalk_sublist (p : ChainParams) (r : Ring) (num : Sparse (BitVec 16)) (ring : Sparse Word)
    (cur maxback : Word) : (chainWalk p r num ring cur maxback).Sublist (chainEntries p r num ring cur) :=
  List.filter_sublist.trans (List.takeWhile_sublist _)

/-- The members of a prefix of a numbered list. -/
theorem mem_takeWhile_range {α : Type} (f : Nat → α) (q : α → Bool) (n : Nat) (x : α) :
    x ∈ ((List.range n).map f).takeWhile q ↔ ∃ t, t < n ∧ x = f t ∧ ∀ t', t' ≤ t → q (f t') = true := by
  induction n generalizing f with
  | zero => simp
  | succ n ih =>
    rw [List.range_succ_eq_map, List.map_cons, List.map_map, List.takeWhile_cons]
    split
    · rename_i h0
      rw [List.mem_cons, ih]
      constructor
      · rintro (rfl | ⟨t, ht, rfl, h⟩)
        · refine ⟨0, by omega, rfl, fun t' ht' => ?_⟩
          obtain rfl : t' = 0 := by omega
          exact h0
        · refine ⟨t + 1, by omega, rfl, fun t' ht' => ?_⟩
          cases t' with
          | zero => exact h0
          | succ t' => exact h t' (by omega)
      · rintro ⟨t, ht, rfl, h⟩
        cases t with
        | zero => exact .inl rfl
        | succ t => exact .inr ⟨t, by omega, rfl, fun t' ht' => h (t' + 1) (by omega)⟩
    · rename_i h0
      simp only [List.not_mem_nil, false_iff, not_exists, not_and]
      rintro t ht rfl h
      exact h0 (h 0 (by omega))

/-! The search (R185). -/

theorem take_finRange_lt {n : Nat} {i : Fin 16} (h : i ∈ (List.finRange 16).take n) : i.val < n := by
  obtain ⟨k, hk, rfl⟩ := List.mem_iff_getElem.1 h
  simp at hk ⊢
  omega

/-- Where an accepted candidate of steps 1 and 2 comes from, with its length floor and its score (R185, R190 (a)): an entry
of the walk, or the cache candidate `i`, one of the first `n`. -/
def ChainSource (n : Nat) (s : State) (cur : Word) (walk : List Word) (len : Nat) (dist : Word) (sc : Int) : Prop :=
  (4 ≤ len ∧ sc = score len dist ∧ ∃ prev ∈ walk, dist = cur - prev) ∨
  ∃ i : Fin 16, i.val < n ∧ (dist.toNat : Int) = cacheCandidate s i ∧ dist ≤ cur ∧
    (3 ≤ len ∨ len = 2 ∧ i.val < 2) ∧ sc = scoreLast len i

/-- What an accepted candidate of steps 1 and 2 satisfies (R190). -/
structure ChainGood (n : Nat) (s : State) (r : Ring) (cur maxlen maxback : Word) (walk : List Word) (len : Nat)
    (dist : Word) (sc : Int) : Prop where
  lenEq : len = prefixMatch r (cur - dist) cur maxlen.toNat
  distPos : dist ≠ 0#32
  distLe : dist ≤ maxback
  source : ChainSource n s cur walk len dist sc

theorem chainCached_tracks {n : Nat} {s : State} {walk : List Word} {b0 b : Search} (r : Ring)
    (cur maxlen maxback : Word) {i : Fin 16} (hi : i.val < n)
    (hb : Search.Tracks b0 (ChainGood n s r cur maxlen maxback walk) b) :
    Search.Tracks b0 (ChainGood n s r cur maxlen maxback walk) (chainCached s r cur maxlen maxback b i) := by
  simp only [chainCached]
  split_ifs with h1 h2 h3
  · have hl := prefixMatch_word_lt r (cur - BitVec.ofInt 32 (cacheCandidate s i)) cur maxlen
    simp only [cacheCandidateOK, Bool.and_eq_true, decide_eq_true_eq] at h1
    have hc := cur.isLt
    have hn : (BitVec.ofInt 32 (cacheCandidate s i)).toNat = (cacheCandidate s i).toNat := by
      rw [BitVec.toNat_ofInt]; omega
    refine hb.offer hl (scoreLast_fits hl i) ⟨rfl, fun e => ?_, ?_, .inr ⟨i, hi, ?_, ?_, h3, rfl⟩⟩
    · rw [e] at hn; simp at hn; omega
    · rw [BitVec.le_def, hn]; omega
    · rw [hn]; omega
    · rw [BitVec.le_def, hn]; omega
  all_goals exact hb

theorem chainProbe_tracks {n : Nat} {s : State} {walk : List Word} {b0 b : Search} (r : Ring)
    (cur maxlen maxback prev : Word) (hw : prev ∈ walk)
    (hp : backward cur prev ≠ 0#32 ∧ backward cur prev ≤ maxback)
    (hb : Search.Tracks b0 (ChainGood n s r cur maxlen maxback walk) b) :
    Search.Tracks b0 (ChainGood n s r cur maxlen maxback walk) (chainProbe r cur maxlen b prev) := by
  simp only [chainProbe]
  split_ifs with h2 h3
  · have hl := prefixMatch_word_lt r prev cur maxlen
    refine hb.offer hl (score_fits hl _) ⟨?_, hp.1, hp.2, .inl ⟨h3, rfl, prev, hw, rfl⟩⟩
    rw [show cur - backward cur prev = prev by simp [backward]]
  all_goals exact hb

/-- Steps 1 and 2 (R185) over any number of cache candidates and any list of admissible positions. -/
theorem chainStages_tracks {b0 : Search} (n : Nat) (s : State) (r : Ring) (cur maxlen maxback : Word) (walk : List Word)
    (hw : ∀ q ∈ walk, backward cur q ≠ 0#32 ∧ backward cur q ≤ maxback) (hf : ScoreFits b0.bestScore)
    (h0 : b0.found = false) :
    Search.Tracks b0 (ChainGood n s r cur maxlen maxback walk)
      (walk.foldl (chainProbe r cur maxlen) (((List.finRange 16).take n).foldl (chainCached s r cur maxlen maxback) b0)) :=
  foldl_keeps_mem _ (fun _ q hm h => chainProbe_tracks r cur maxlen maxback q hm (hw q hm) h) _
    (foldl_keeps_mem _ (fun _ _ hi h => chainCached_tracks r cur maxlen maxback (take_finRange_lt hi) h) _
      (Search.Tracks.refl _ hf h0))

/-- What `ChainFind` can give (R185): the window stages' result, found whenever the throttle gate holds, or, when they
found nothing and the dictionary stage is entered, the two probes of the pair (R186). -/
theorem chainFind_cases (p : ChainParams) (s : State) (r : Ring) (num : Sparse (BitVec 16)) (ring : Sparse Word)
    (cur maxlen maxback : Word) {b0 : Search} (hf : ScoreFits b0.bestScore) (h0 : b0.found = false) :
    (Search.Tracks b0 (ChainGood p.lastDistToCheck s r cur maxlen maxback (chainWalk p r num ring cur maxback))
        (chainFind p s r num ring cur maxlen maxback b0) ∧
      (4 ≤ maxlen.toNat → throttleOpen b0.lookups b0.hits = true →
        (chainFind p s r num ring cur maxlen maxback b0).found = true)) ∨
    (4 ≤ maxlen.toNat ∧ throttleOpen b0.lookups b0.hits = true ∧
      chainFind p s r num ring cur maxlen maxback b0 =
        dictProbe s.params.dict r cur maxlen maxback (dictKey r cur + 1)
          (dictProbe s.params.dict r cur maxlen maxback (dictKey r cur) b0)) := by
  have h2 := chainStages_tracks p.lastDistToCheck s r cur maxlen maxback (chainWalk p r num ring cur maxback)
    (fun _ h => chainWalk_mem h) hf h0
  simp only [chainFind]
  split_ifs with hs
  · exact .inl ⟨Search.Tracks.refl _ hf h0, fun h => absurd hs (by omega)⟩
  · unfold chainDict chainRecent
    split_ifs with hd
    · simp only [Bool.and_eq_true, Bool.not_eq_true'] at hd
      have he := h2.idle hd.1
      rw [he] at hd ⊢
      exact .inr ⟨by omega, hd.2, rfl⟩
    · refine .inl ⟨h2, fun _ ht => ?_⟩
      rw [← h2.lookups, ← h2.hits] at ht
      simpa [ht] using hd

/-! Completeness (R185, R190): a search that found nothing had nothing to accept. -/

theorem chainCached_idle {s : State} {r : Ring} {cur maxlen maxback : Word} {b : Search} {i : Fin 16}
    (h : (chainCached s r cur maxlen maxback b i).found = false) : chainCached s r cur maxlen maxback b i = b := by
  simp only [chainCached] at *
  split_ifs at * <;> first | rfl | exact Search.offer_idle h

theorem chainProbe_idle {r : Ring} {cur maxlen prev : Word} {b : Search}
    (h : (chainProbe r cur maxlen b prev).found = false) : chainProbe r cur maxlen b prev = b := by
  simp only [chainProbe] at *
  split_ifs at * <;> first | rfl | exact Search.offer_idle h

/-- When `ChainFind` found nothing, every cache candidate and every candidate of the walk, each started from the host's
values, was idle. -/
theorem chainFind_idle {p : ChainParams} {s : State} {r : Ring} {num : Sparse (BitVec 16)} {ring : Sparse Word}
    {cur maxlen maxback : Word} {b0 : Search} (hl : 4 ≤ maxlen.toNat)
    (h : (chainFind p s r num ring cur maxlen maxback b0).found = false) :
    (∀ i : Fin 16, i.val < p.lastDistToCheck → chainCached s r cur maxlen maxback b0 i = b0) ∧
    ∀ prev ∈ chainWalk p r num ring cur maxback, chainProbe r cur maxlen b0 prev = b0 := by
  simp only [chainFind] at h
  split_ifs at h with hs
  · omega
  · have h2 : ((chainWalk p r num ring cur maxback).foldl (chainProbe r cur maxlen)
        (chainRecent p s r cur maxlen maxback b0)).found = false := by
      by_contra hc
      simp only [Bool.not_eq_false] at hc
      simp [chainDict, hc] at h
    have h3 := foldl_idle (fun b prev hb => chainProbe_idle hb) _ _ h2
    have h4 : (chainRecent p s r cur maxlen maxback b0).found = false := by
      rw [← h3.1]; exact h2
    have h5 := foldl_idle (fun b i hb => chainCached_idle hb) _ _ h4
    have h6 : chainRecent p s r cur maxlen maxback b0 = b0 := h5.1
    refine ⟨fun i hi => h5.2 i ?_, fun prev hp => ?_⟩
    · rw [List.mem_take_iff_getElem]
      exact ⟨i.val, by simp; omega, by simp⟩
    · have := h3.2 prev hp
      rwa [h6] at this

/-- An admissible, long enough, better cache candidate is taken. -/
theorem chainCached_takes {s : State} {r : Ring} {cur maxlen maxback : Word} {b : Search} {i : Fin 16} {d : Word}
    (hd : (d.toNat : Int) = cacheCandidate s i) (h0 : d ≠ 0#32) (hc : d ≤ cur) (hm : d ≤ maxback)
    (h2 : 3 ≤ prefixMatch r (cur - d) cur maxlen.toNat ∨ prefixMatch r (cur - d) cur maxlen.toNat = 2 ∧ i.val < 2)
    (h3 : b.bestLen.toNat < prefixMatch r (cur - d) cur maxlen.toNat)
    (h4 : b.bestScore < scoreLast (prefixMatch r (cur - d) cur maxlen.toNat) i) :
    (chainCached s r cur maxlen maxback b i).found = true := by
  have hok : cacheCandidateOK (cacheCandidate s i) cur maxback = true := by
    rw [BitVec.le_def] at hc hm
    have : d.toNat ≠ 0 := fun e => h0 (BitVec.eq_of_toNat_eq e)
    simp only [cacheCandidateOK, ← hd, Bool.and_eq_true, decide_eq_true_eq]
    omega
  have he : BitVec.ofInt 32 (cacheCandidate s i) = d := by
    rw [← hd]; simp
  simp only [chainCached, hok, if_true, he, Search.gate_of_longer h3, if_pos h2]
  exact Search.offer_takes h4

/-- A long enough, better candidate of the walk is taken. -/
theorem chainProbe_takes {r : Ring} {cur maxlen prev : Word} {b : Search}
    (h2 : 4 ≤ prefixMatch r prev cur maxlen.toNat)
    (h3 : b.bestLen.toNat < prefixMatch r prev cur maxlen.toNat)
    (h4 : b.bestScore < score (prefixMatch r prev cur maxlen.toNat) (cur - prev)) :
    (chainProbe r cur maxlen b prev).found = true := by
  simp only [chainProbe, Search.gate_of_longer h3, if_true, if_pos h2]
  exact Search.offer_takes h4

/-! The best candidate wins, of equal ones the earlier (R185, R191 (e)): no step lowers the running score, a candidate longer
than all before it is scored, and only a strictly better one replaces it. -/

theorem chainCached_rises (s : State) (r : Ring) (cur maxlen maxback : Word) (b : Search) (i : Fin 16) :
    Search.Rises b (chainCached s r cur maxlen maxback b i) := by
  simp only [chainCached]
  split_ifs <;> first | exact Search.offer_rises _ _ _ _ _ | exact .inl rfl

theorem chainProbe_rises (r : Ring) (cur maxlen : Word) (b : Search) (prev : Word) :
    Search.Rises b (chainProbe r cur maxlen b prev) := by
  simp only [chainProbe]
  split_ifs <;> first | exact Search.offer_rises _ _ _ _ _ | exact .inl rfl

theorem chainDict_raises (d : Dict) (r : Ring) (cur maxlen maxback : Word) (b : Search) :
    b.bestScore ≤ (chainDict d r cur maxlen maxback b).bestScore := by
  unfold chainDict
  split_ifs
  · exact le_trans (dictProbe_raises _ _ _ _ _ _ _) (dictProbe_raises _ _ _ _ _ _ _)
  · exact le_refl _

/-- A cache candidate that passes its tests is no longer than `n`. -/
def CachedBelow (s : State) (r : Ring) (cur maxlen maxback : Word) (n : Nat) (i : Fin 16) : Prop :=
  ∀ d : Word, (d.toNat : Int) = cacheCandidate s i → d ≠ 0#32 → d ≤ cur → d ≤ maxback →
    prefixMatch r (cur - d) cur maxlen.toNat < n

theorem chainCached_short {s : State} {r : Ring} {cur maxlen maxback : Word} {n : Nat} {b : Search} {i : Fin 16}
    (hb : b.bestLen.toNat < n) (h : CachedBelow s r cur maxlen maxback n i) :
    (chainCached s r cur maxlen maxback b i).bestLen.toNat < n := by
  simp only [chainCached]
  split_ifs with h1 h2 h3
  · simp only [cacheCandidateOK, Bool.and_eq_true, decide_eq_true_eq] at h1
    have hc := cur.isLt
    have hn : (BitVec.ofInt 32 (cacheCandidate s i)).toNat = (cacheCandidate s i).toNat := by
      rw [BitVec.toNat_ofInt]; omega
    refine Search.offer_short hb (h _ (by rw [hn]; omega) (fun e => ?_) ?_ ?_) (prefixMatch_word_lt _ _ _ _)
    · rw [e] at hn; simp at hn; omega
    · rw [BitVec.le_def, hn]; omega
    · rw [BitVec.le_def, hn]; omega
  all_goals exact hb

theorem chainProbe_short {r : Ring} {cur maxlen : Word} {n : Nat} {b : Search} {prev : Word}
    (hb : b.bestLen.toNat < n) (h : prefixMatch r prev cur maxlen.toNat < n) :
    (chainProbe r cur maxlen b prev).bestLen.toNat < n := by
  simp only [chainProbe]
  split_ifs
  · exact Search.offer_short hb h (prefixMatch_word_lt _ _ _ _)
  all_goals exact hb

/-- An admissible candidate longer than the running best length is scored. -/
theorem chainCached_beats {s : State} {r : Ring} {cur maxlen maxback : Word} {b : Search} {i : Fin 16} {d : Word}
    (hd : (d.toNat : Int) = cacheCandidate s i) (h0 : d ≠ 0#32) (hc : d ≤ cur) (hm : d ≤ maxback)
    (h2 : 3 ≤ prefixMatch r (cur - d) cur maxlen.toNat ∨ prefixMatch r (cur - d) cur maxlen.toNat = 2 ∧ i.val < 2)
    (h3 : b.bestLen.toNat < prefixMatch r (cur - d) cur maxlen.toNat) :
    scoreLast (prefixMatch r (cur - d) cur maxlen.toNat) i ≤ (chainCached s r cur maxlen maxback b i).bestScore := by
  have hok : cacheCandidateOK (cacheCandidate s i) cur maxback = true := by
    rw [BitVec.le_def] at hc hm
    have : d.toNat ≠ 0 := fun e => h0 (BitVec.eq_of_toNat_eq e)
    simp only [cacheCandidateOK, ← hd, Bool.and_eq_true, decide_eq_true_eq]
    omega
  have he : BitVec.ofInt 32 (cacheCandidate s i) = d := by rw [← hd]; simp
  simp only [chainCached, hok, if_true, he, Search.gate_of_longer h3, if_pos h2]
  exact Search.offer_beats _ _ _ _ _

theorem chainProbe_beats {r : Ring} {cur maxlen prev : Word} {b : Search}
    (h2 : 4 ≤ prefixMatch r prev cur maxlen.toNat) (h3 : b.bestLen.toNat < prefixMatch r prev cur maxlen.toNat) :
    score (prefixMatch r prev cur maxlen.toNat) (cur - prev) ≤ (chainProbe r cur maxlen b prev).bestScore := by
  simp only [chainProbe, Search.gate_of_longer h3, if_true, if_pos h2]
  exact Search.offer_beats _ _ _ _ _

/-- What a candidate of score `sc` scored in `b` means for the end of the find: the final score is at least `sc`, and if it is
no more, nothing after it was taken. -/
theorem chainDict_settles {d : Dict} {r : Ring} {cur maxlen maxback : Word} {b0 b c : Search} {G : Nat → Word → Int → Prop}
    (ht : Search.Tracks b0 G b) (hr : Search.Rises b c) {sc : Int} (hb : sc ≤ b.bestScore) :
    sc ≤ (chainDict d r cur maxlen maxback c).bestScore ∧
    (b0.bestScore < sc → (chainDict d r cur maxlen maxback c).bestScore = sc →
      G (chainDict d r cur maxlen maxback c).bestLen.toNat (chainDict d r cur maxlen maxback c).bestDistance
        (chainDict d r cur maxlen maxback c).bestScore) := by
  refine ⟨le_trans hb (le_trans hr.le (chainDict_raises _ _ _ _ _ _)), fun h he => ?_⟩
  have hf := ht.found (lt_of_lt_of_le h hb)
  have hc := hr.settled (le_trans (chainDict_raises d r cur maxlen maxback _) (by rw [he]; exact hb))
  have : chainDict d r cur maxlen maxback b = b := by simp [chainDict, hf]
  rw [hc, this]
  exact (ht.taken hf).2.2

theorem finRange_take_succ (i : Fin 16) :
    (List.finRange 16).take (i.val + 1) = (List.finRange 16).take i.val ++ [i] := by
  have h : i.val < (List.finRange 16).length := by simp
  rw [List.take_succ_eq_append_getElem h]; simp

/-- A cache candidate longer than the start and than every earlier one: the final score is at least its, and if no more, the
match is that of this candidate or of an earlier one. -/
theorem chainFind_best_cached {p : ChainParams} {s : State} {r : Ring} {num : Sparse (BitVec 16)} {ring : Sparse Word}
    {cur maxlen maxback : Word} {b0 : Search} (hf : ScoreFits b0.bestScore) (hf0 : b0.found = false) (hl : 4 ≤ maxlen.toNat)
    {i : Fin 16} (hi : i.val < p.lastDistToCheck) {d : Word}
    (hd : (d.toNat : Int) = cacheCandidate s i) (h0 : d ≠ 0#32) (hc : d ≤ cur) (hm : d ≤ maxback)
    (h2 : 3 ≤ prefixMatch r (cur - d) cur maxlen.toNat ∨ prefixMatch r (cur - d) cur maxlen.toNat = 2 ∧ i.val < 2)
    (h3 : b0.bestLen.toNat < prefixMatch r (cur - d) cur maxlen.toNat)
    (hb : ∀ i' : Fin 16, i'.val < i.val →
      CachedBelow s r cur maxlen maxback (prefixMatch r (cur - d) cur maxlen.toNat) i') :
    let t := chainFind p s r num ring cur maxlen maxback b0
    let sc := scoreLast (prefixMatch r (cur - d) cur maxlen.toNat) i
    sc ≤ t.bestScore ∧ (b0.bestScore < sc → t.bestScore = sc →
      ChainGood (i.val + 1) s r cur maxlen maxback [] t.bestLen.toNat t.bestDistance t.bestScore) := by
  have hs := foldl_keeps_mem (P := fun b : Search => b.bestLen.toNat < prefixMatch r (cur - d) cur maxlen.toNat)
    (f := chainCached s r cur maxlen maxback) ((List.finRange 16).take i.val)
    (fun b i' hi' hb' => chainCached_short hb' (hb i' (take_finRange_lt hi'))) b0 h3
  have hsplit : (List.finRange 16).take p.lastDistToCheck = (List.finRange 16).take (i.val + 1) ++
      ((List.finRange 16).take p.lastDistToCheck).drop (i.val + 1) := by
    conv_lhs => rw [← List.take_append_drop (i.val + 1) ((List.finRange 16).take p.lastDistToCheck),
      List.take_take, Nat.min_eq_left hi]
  simp only [chainFind]
  rw [if_neg (by omega)]
  unfold chainRecent
  rw [hsplit, List.foldl_append]
  refine chainDict_settles (chainStages_tracks (i.val + 1) s r cur maxlen maxback [] (by simp) hf hf0) ?_ ?_
  · rcases foldl_rises (chainProbe_rises r cur maxlen) (chainWalk p r num ring cur maxback) _ with h | h
    · rw [h]; exact foldl_rises (chainCached_rises s r cur maxlen maxback) _ _
    · exact .inr (lt_of_le_of_lt (foldl_rises (chainCached_rises s r cur maxlen maxback) _ _).le h)
  · rw [List.foldl_nil, finRange_take_succ, List.foldl_append]
    exact chainCached_beats hd h0 hc hm h2 hs

/-- A candidate of the walk longer than the start, than every cache candidate and than every newer one of the walk: the
final score is at least its, and if no more, the match is that of this candidate, a newer one or a cache candidate. -/
theorem chainFind_best_walk {p : ChainParams} {s : State} {r : Ring} {num : Sparse (BitVec 16)} {ring : Sparse Word}
    {cur maxlen maxback : Word} {b0 : Search} (hf : ScoreFits b0.bestScore) (hf0 : b0.found = false) (hl : 4 ≤ maxlen.toNat)
    {pre post : List Word} {prev : Word} (hw : chainWalk p r num ring cur maxback = pre ++ prev :: post)
    (h2 : 4 ≤ prefixMatch r prev cur maxlen.toNat) (h3 : b0.bestLen.toNat < prefixMatch r prev cur maxlen.toNat)
    (hc : ∀ i : Fin 16, i.val < p.lastDistToCheck →
      CachedBelow s r cur maxlen maxback (prefixMatch r prev cur maxlen.toNat) i)
    (hp : ∀ q ∈ pre, prefixMatch r q cur maxlen.toNat < prefixMatch r prev cur maxlen.toNat) :
    let t := chainFind p s r num ring cur maxlen maxback b0
    let sc := score (prefixMatch r prev cur maxlen.toNat) (cur - prev)
    sc ≤ t.bestScore ∧ (b0.bestScore < sc → t.bestScore = sc →
      ChainGood p.lastDistToCheck s r cur maxlen maxback (pre ++ [prev]) t.bestLen.toNat t.bestDistance t.bestScore) := by
  have hw' : chainWalk p r num ring cur maxback = (pre ++ [prev]) ++ post := by rw [hw]; simp
  have hadm : ∀ q ∈ pre ++ [prev], backward cur q ≠ 0#32 ∧ backward cur q ≤ maxback := fun q hq =>
    chainWalk_mem (p := p) (r := r) (num := num) (ring := ring) (by rw [hw']; exact List.mem_append_left _ hq)
  have h1 := foldl_keeps_mem (P := fun b : Search => b.bestLen.toNat < prefixMatch r prev cur maxlen.toNat)
    (f := chainCached s r cur maxlen maxback) ((List.finRange 16).take p.lastDistToCheck)
    (fun b i' hi' hb' => chainCached_short hb' (hc i' (take_finRange_lt hi'))) b0 h3
  have hs := foldl_keeps_mem (P := fun b : Search => b.bestLen.toNat < prefixMatch r prev cur maxlen.toNat)
    (f := chainProbe r cur maxlen) pre (fun b q hq hb' => chainProbe_short hb' (hp q hq)) _ h1
  simp only [chainFind]
  rw [if_neg (by omega), hw', List.foldl_append]
  refine chainDict_settles (chainStages_tracks p.lastDistToCheck s r cur maxlen maxback (pre ++ [prev]) hadm hf hf0)
    (foldl_rises (chainProbe_rises r cur maxlen) _ _) ?_
  rw [List.foldl_append]
  exact chainProbe_beats h2 hs

/-! FIND_ALL_MATCHES (R187, R188). -/

/-- Along phases 1 and 2: the list's lengths increase strictly up to the running best, every record is a window match,
and a record of `kMaxZopfliLen` or more is alone. -/
structure Collect.Good (r : Ring) (cur maxlen maxback : Word) (c : Collect) : Prop where
  best : 1 ≤ c.bestLen
  bestLe : c.bestLen ≤ max 1 maxlen.toNat
  increase : LengthsIncrease c.ms
  below : ∀ m ∈ c.ms, m.length ≤ c.bestLen
  window : ∀ m ∈ c.ms, 2 ≤ m.length ∧ m.length ≤ maxlen.toNat ∧ m.lengthCode = m.length ∧ m.distance ≠ 0#32 ∧
    m.distance ≤ maxback ∧ BytesAgree r cur m.distance m.length
  alone : ∀ m ∈ c.ms, maxZopfliLen ≤ m.length → c.ms = [m]

theorem Collect.good_start (r : Ring) (cur maxlen maxback : Word) :
    Collect.Good r cur maxlen maxback ⟨1, []⟩ :=
  ⟨le_refl _, le_max_left _ _, List.Pairwise.nil, by simp, by simp, by simp⟩

/-- Recording a window candidate keeps the list good. -/
theorem Collect.Good.offer {r : Ring} {cur maxlen maxback : Word} {c : Collect} (hc : Collect.Good r cur maxlen maxback c)
    {dist : Word} {len : Nat} (hl : len ≤ maxlen.toNat) (hd : dist ≠ 0#32) (hm : dist ≤ maxback)
    (hb : BytesAgree r cur dist len) : Collect.Good r cur maxlen maxback (c.offer dist len) := by
  unfold Collect.offer
  split_ifs with h hz
  · refine ⟨?_, ?_, ?_, ?_, ?_, ?_⟩
    · have := hc.best; simp only; omega
    · simp only; omega
    · exact List.pairwise_singleton _ _
    · simp
    · have := hc.best
      simpa using ⟨by omega, hl, hd, hm, hb⟩
    · simp
  · refine ⟨?_, ?_, ?_, ?_, ?_, ?_⟩
    · have := hc.best; simp only; omega
    · simp only; omega
    · refine List.pairwise_append.2 ⟨hc.increase, List.pairwise_singleton _ _, fun a ha b hb' => ?_⟩
      have := hc.below a ha
      simp only [List.mem_singleton] at hb'
      subst hb'
      simp only; omega
    · intro m hm'
      rcases List.mem_append.1 hm' with hm' | hm'
      · have := hc.below m hm'; simp only; omega
      · simp only [List.mem_singleton] at hm'; subst hm'; exact le_refl _
    · intro m hm'
      rcases List.mem_append.1 hm' with hm' | hm'
      · exact hc.window m hm'
      · have := hc.best
        simp only [List.mem_singleton] at hm'; subst hm'
        exact ⟨by simp only; omega, hl, rfl, hd, hm, hb⟩
    · intro m hm' hz'
      rcases List.mem_append.1 hm' with hm' | hm'
      · have := hc.below m hm'; omega
      · simp only [List.mem_singleton] at hm'; subst hm'; exact absurd hz' hz
  · exact hc

theorem nearProbe_good {r : Ring} {cur maxlen maxback : Word} (left : Nat) {d : Word} {c : Collect}
    (hd : 1 ≤ d.toNat) (hn : d.toNat + left < 2 ^ 32) (hc : Collect.Good r cur maxlen maxback c) :
    Collect.Good r cur maxlen maxback (nearProbe r cur maxlen maxback left d c) := by
  induction left generalizing d c with
  | zero => exact hc
  | succ n ih =>
    unfold nearProbe
    split_ifs with h
    · have hs : (d + 1#32).toNat = d.toNat + 1 := by
        rw [BitVec.toNat_add]; simp only [BitVec.toNat_ofNat]; omega
      refine ih (by omega) (by omega) (hc.offer (prefixMatch_le _ _ _ _) (fun e => ?_) h.2.1
        (bytesAgree_of_prefix_sub _ _ _ _))
      rw [e] at hd; simp at hd
    · exact hc

theorem collectProbe_good {r : Ring} {cur maxlen maxback : Word} {c : Collect} {prev : Word}
    (hp : backward cur prev ≠ 0#32 ∧ backward cur prev ≤ maxback) (hc : Collect.Good r cur maxlen maxback c) :
    Collect.Good r cur maxlen maxback (collectProbe r cur maxlen c prev) := by
  unfold collectProbe
  split_ifs
  · exact hc.offer (prefixMatch_le _ _ _ _) hp.1 hp.2 (bytesAgree_of_prefix _ _ _ _)
  · exact hc

/-- What phases 1 and 2 give. -/
theorem chainCollect_good (p : ChainParams) (r : Ring) (num : Sparse (BitVec 16)) (ring : Sparse Word)
    (cur maxlen maxback : Word) :
    Collect.Good r cur maxlen maxback (chainCollect p r num ring cur maxlen maxback) :=
  foldl_keeps_mem _ (fun _ _ hm h => collectProbe_good (chainWalk_mem hm) h) _
    (nearProbe_good _ (by decide) (by decide) (Collect.good_start r cur maxlen maxback))

/-- A record of the dictionary phase: the answer's distance, not 0, and its length code (R189, R230 (a)). -/
theorem dictRecord_eq_some {maxback : Word} {len : Nat} {h : DictHit} {m : MatchRec} :
    dictRecord maxback len h = some m ↔
      m = ⟨dictDistance maxback h.wordId.toNat, len, h.lenCode⟩ ∧ m.distance ≠ 0#32 := by
  unfold dictRecord
  simp only
  split_ifs with hz
  · simp only [false_iff, not_and, not_not]; rintro rfl; exact hz
  · simp only [Option.some.injEq]
    exact ⟨by rintro rfl; exact ⟨rfl, hz⟩, fun e => e.1.symm⟩

/-- The dictionary phase: ascending lengths inside its range, each record the answer of `DICT_ALL_MATCHES` (R189). -/
theorem dictRecords_spec (ps : Params) (r : Ring) (cur maxback : Word) (lo hi : Nat) :
    LengthsIncrease (dictRecords ps r cur maxback lo hi) ∧
    ∀ m ∈ dictRecords ps r cur maxback lo hi, lo ≤ m.length ∧ m.length ≤ hi ∧
      ∃ h, dictAllMatches ps.dictAllMatches (viewBytes r cur hi) lo hi m.length = some h ∧
        dictRecord maxback m.length h = some m := by
  have key : ∀ len m, m ∈ (dictAllMatches ps.dictAllMatches (viewBytes r cur hi) lo hi len).bind (dictRecord maxback len) →
      m.length = len := by
    intro len m hm
    simp only [Option.mem_def, Option.bind_eq_some_iff, dictRecord_eq_some] at hm
    obtain ⟨h, _, rfl, _⟩ := hm
    rfl
  constructor
  · refine (List.pairwise_filterMap (R := fun a b : MatchRec => a.length < b.length)).2
      ((List.pairwise_lt_range' (s := lo) (n := hi + 1 - lo)).imp ?_)
    intro a b hab m hm m' hm'
    rw [key a m (by simpa using hm), key b m' (by simpa using hm')]
    exact hab
  · intro m hm
    obtain ⟨len, hl, he⟩ := List.mem_filterMap.1 hm
    have hk := key len m (by simpa using he)
    simp only [Option.bind_eq_some_iff] at he
    obtain ⟨h, h1, h2⟩ := he
    rw [List.mem_range'_1] at hl
    refine ⟨by omega, by omega, h, by rw [hk]; exact h1, by rw [hk]; exact h2⟩

/-! The whole list of FIND_ALL_MATCHES (R188). -/

/-- Strictly increasing lengths inside a range are no more than the range. -/
theorem LengthsIncrease.count {ms : List MatchRec} (h : LengthsIncrease ms) {lo hi : Nat}
    (hb : ∀ m ∈ ms, lo ≤ m.length ∧ m.length ≤ hi) : ms.length ≤ hi + 1 - lo := by
  induction ms generalizing lo with
  | nil => simp
  | cons m rest ih =>
    have hm := hb m List.mem_cons_self
    have h' := List.pairwise_cons.1 h
    have := ih h'.2 (lo := m.length + 1) fun a ha =>
      ⟨h'.1 a ha, (hb a (List.mem_cons_of_mem _ ha)).2⟩
    simp only [List.length_cons]
    omega

/-- What the list of FIND_ALL_MATCHES consists of (R187, R188 (a), (b), R189). -/
structure ChainListed (ps : Params) (r : Ring) (cur maxlen maxback : Word) (ms : List MatchRec) : Prop where
  increase : LengthsIncrease ms
  range : ∀ m ∈ ms, 2 ≤ m.length ∧ m.length ≤ maxlen.toNat
  source : ∀ m ∈ ms,
    (m.lengthCode = m.length ∧ m.distance ≠ 0#32 ∧ m.distance ≤ maxback ∧ BytesAgree r cur m.distance m.length) ∨
    (m.length ≤ ps.dictMaxLen ∧ ∃ lo hit,
      dictAllMatches ps.dictAllMatches (viewBytes r cur (min maxlen.toNat ps.dictMaxLen)) lo
        (min maxlen.toNat ps.dictMaxLen) m.length = some hit ∧ dictRecord maxback m.length hit = some m)
  alone : ps.dictMaxLen < 325 → ∀ m ∈ ms, 325 ≤ m.length → ms = [m]

theorem chainFindAll_listed (p : ChainParams) (ps : Params) (r : Ring) (num : Sparse (BitVec 16)) (ring : Sparse Word)
    (cur maxlen maxback : Word) :
    ChainListed ps r cur maxlen maxback (chainFindAll p ps r num ring cur maxlen maxback) := by
  unfold chainFindAll
  split_ifs with hl
  · exact ⟨List.Pairwise.nil, by simp, by simp, by simp⟩
  · have hc := chainCollect_good p r num ring cur maxlen maxback
    have hd := dictRecords_spec ps r cur maxback ((chainCollect p r num ring cur maxlen maxback).bestLen + 1)
      (min maxlen.toNat ps.dictMaxLen)
    simp only
    generalize chainCollect p r num ring cur maxlen maxback = c at hc hd
    have hb := hc.best
    refine ⟨List.pairwise_append.2 ⟨hc.increase, hd.1, fun a ha b hb' => ?_⟩, fun m hm => ?_, fun m hm => ?_,
      fun hmax m hm h325 => ?_⟩
    · have := hc.below a ha; have := (hd.2 b hb').1; omega
    · rcases List.mem_append.1 hm with hm | hm
      · exact ⟨(hc.window m hm).1, (hc.window m hm).2.1⟩
      · have := hd.2 m hm; omega
    · rcases List.mem_append.1 hm with hm | hm
      · exact .inl (hc.window m hm).2.2
      · obtain ⟨_, h2, hit, h3, h4⟩ := hd.2 m hm
        exact .inr ⟨by omega, _, hit, h3, h4⟩
    · rcases List.mem_append.1 hm with hm | hm
      · have h1 := hc.alone m hm h325
        have h2 := hc.below m hm
        have : dictRecords ps r cur maxback (c.bestLen + 1) (min maxlen.toNat ps.dictMaxLen) = [] := by
          apply List.eq_nil_iff_forall_not_mem.2
          intro m' hm'
          have := hd.2 m' hm'
          omega
        rw [this, h1, List.append_nil]
      · have := hd.2 m hm; omega

/-- No distance is 0 (R230 (a)). -/
theorem ChainListed.distPos {ps : Params} {r : Ring} {cur maxlen maxback : Word} {ms : List MatchRec}
    (h : ChainListed ps r cur maxlen maxback ms) : ∀ m ∈ ms, m.distance ≠ 0#32 := fun m hm => by
  rcases h.source m hm with ⟨_, h0, _⟩ | ⟨_, _, _, _, h1⟩
  · exact h0
  · exact (dictRecord_eq_some.1 h1).2

/-- The list fits RESULT. -/
theorem ChainListed.count {ps : Params} {r : Ring} {cur maxlen maxback : Word} {ms : List MatchRec}
    (h : ChainListed ps r cur maxlen maxback ms) : ms.length < 2 ^ 32 := by
  have := h.increase.count h.range
  have := maxlen.isLt
  omega

/-! Completeness (R187, R188 (c)). -/

/-- The running best is 1 or the length of a record. -/
def Collect.Top (c : Collect) : Prop := c.bestLen = 1 ∨ ∃ m ∈ c.ms, m.length = c.bestLen

theorem Collect.offer_mono (c : Collect) (dist : Word) (len : Nat) :
    c.bestLen ≤ (c.offer dist len).bestLen ∧ len ≤ (c.offer dist len).bestLen := by
  unfold Collect.offer
  split_ifs with h hz
  · exact ⟨by simp only; omega, le_refl _⟩
  · exact ⟨by simp only; omega, le_refl _⟩
  · exact ⟨le_refl _, by omega⟩

theorem Collect.Top.offer {c : Collect} (h : c.Top) (dist : Word) (len : Nat) : (c.offer dist len).Top := by
  unfold Collect.offer
  split_ifs with h1 hz
  · exact .inr ⟨⟨dist, len, len⟩, by simp, rfl⟩
  · exact .inr ⟨⟨dist, len, len⟩, by simp, rfl⟩
  · exact h

theorem collectProbe_mono (r : Ring) (cur maxlen : Word) (c : Collect) (prev : Word) :
    c.bestLen ≤ (collectProbe r cur maxlen c prev).bestLen ∧
    prefixMatch r prev cur maxlen.toNat ≤ (collectProbe r cur maxlen c prev).bestLen := by
  unfold collectProbe
  split_ifs with h
  · exact c.offer_mono _ _
  · refine ⟨le_refl _, ?_⟩
    by_contra hc
    exact h (prefixMatch_bytes r prev cur maxlen.toNat c.bestLen (by omega))

theorem collectProbe_top {r : Ring} {cur maxlen : Word} {c : Collect} (h : c.Top) (prev : Word) :
    (collectProbe r cur maxlen c prev).Top := by
  unfold collectProbe
  split_ifs
  · exact h.offer _ _
  · exact h

theorem foldl_collect_covers (r : Ring) (cur maxlen : Word) (l : List Word) :
    ∀ c : Collect, c.bestLen ≤ (l.foldl (collectProbe r cur maxlen) c).bestLen ∧
      ∀ prev ∈ l, prefixMatch r prev cur maxlen.toNat ≤ (l.foldl (collectProbe r cur maxlen) c).bestLen := by
  induction l with
  | nil => exact fun c => ⟨le_refl _, by simp⟩
  | cons a rest ih =>
    intro c
    have h1 := ih (collectProbe r cur maxlen c a)
    have h2 := collectProbe_mono r cur maxlen c a
    refine ⟨le_trans h2.1 h1.1, fun prev hp => ?_⟩
    rcases List.mem_cons.1 hp with rfl | hp
    · exact le_trans h2.2 h1.1
    · exact h1.2 prev hp

/-- A position nearer than `e` agrees over 3 bytes or more. -/
def NearerThree (r : Ring) (cur maxlen e : Word) : Prop :=
  ∃ e' : Word, e' ≠ 0#32 ∧ e' < e ∧ 3 ≤ prefixMatch r (cur - e') cur maxlen.toNat

theorem nearProbe_covers (r : Ring) (cur maxlen maxback : Word) (left : Nat) :
    ∀ (d : Word) (c : Collect), c.Top → d ≠ 0#32 → d.toNat + left < 2 ^ 32 → (c.bestLen ≤ 2 ∨ NearerThree r cur maxlen d) →
      (nearProbe r cur maxlen maxback left d c).Top ∧ c.bestLen ≤ (nearProbe r cur maxlen maxback left d c).bestLen ∧
      ∀ e : Word, d ≤ e → e.toNat < d.toNat + left → e ≤ cur → e ≤ maxback →
        prefixMatch r (cur - e) cur maxlen.toNat ≤ (nearProbe r cur maxlen maxback left d c).bestLen ∨
        (3 ≤ (nearProbe r cur maxlen maxback left d c).bestLen ∧ NearerThree r cur maxlen e) := by
  induction left with
  | zero =>
    intro d c ht _ _ _
    refine ⟨ht, le_refl _, fun e he hl => ?_⟩
    rw [BitVec.le_def] at he; omega
  | succ n ih =>
    intro d c ht h0 hb hc3
    unfold nearProbe
    split_ifs with h
    · have hs : (d + 1#32).toNat = d.toNat + 1 := by
        rw [BitVec.toNat_add]; simp only [BitVec.toNat_ofNat]; omega
      have hlt : d < d + 1#32 := by rw [BitVec.lt_def]; omega
      have hm := c.offer_mono d (prefixMatch r (cur - d) cur maxlen.toNat)
      have h3' : (c.offer d (prefixMatch r (cur - d) cur maxlen.toNat)).bestLen ≤ 2 ∨ NearerThree r cur maxlen (d + 1#32) := by
        by_cases h3 : 3 ≤ prefixMatch r (cur - d) cur maxlen.toNat
        · exact .inr ⟨d, h0, hlt, h3⟩
        · left; unfold Collect.offer; split_ifs <;> first | omega | (simp only; omega)
      obtain ⟨h1, h2, h3⟩ := ih (d + 1#32) _ (ht.offer d (prefixMatch r (cur - d) cur maxlen.toNat))
        (fun e => by rw [e] at hs; simp at hs) (by omega) h3'
      refine ⟨h1, le_trans hm.1 h2, fun e he hl hc hk => ?_⟩
      by_cases hde : e = d
      · subst hde; exact .inl (le_trans hm.2 h2)
      · rw [BitVec.le_def] at he
        have : e.toNat ≠ d.toNat := fun e' => hde (BitVec.eq_of_toNat_eq e')
        exact h3 e (by rw [BitVec.le_def]; omega) (by omega) hc hk
    · refine ⟨ht, le_refl _, fun e he hl hc hk => .inr ?_⟩
      have h2 : ¬ c.bestLen ≤ 2 := by
        intro h2
        apply h
        rw [BitVec.le_def] at *
        exact ⟨by omega, by rw [BitVec.le_def] at *; omega, h2⟩
      obtain ⟨e', g1, g2, g3⟩ := hc3.resolve_left h2
      exact ⟨by omega, e', g1, by rw [BitVec.lt_def] at *; rw [BitVec.le_def] at he; omega, g3⟩

/-- Phases 1 and 2 miss nothing: neither a candidate of the walk nor a near position up to the first that agrees over 3
bytes. -/
theorem chainCollect_covers (p : ChainParams) (r : Ring) (num : Sparse (BitVec 16)) (ring : Sparse Word)
    (cur maxlen maxback : Word) :
    (chainCollect p r num ring cur maxlen maxback).Top ∧
    (∀ prev ∈ chainWalk p r num ring cur maxback,
      prefixMatch r prev cur maxlen.toNat ≤ (chainCollect p r num ring cur maxlen maxback).bestLen) ∧
    ∀ d : Word, d ≠ 0#32 → d ≤ 64#32 → d ≤ cur → d ≤ maxback →
      prefixMatch r (cur - d) cur maxlen.toNat ≤ (chainCollect p r num ring cur maxlen maxback).bestLen ∨
      (3 ≤ (chainCollect p r num ring cur maxlen maxback).bestLen ∧ NearerThree r cur maxlen d) := by
  have hn := nearProbe_covers r cur maxlen maxback nearReach 1#32 ⟨1, []⟩ (.inl rfl) (by decide) (by decide)
    (.inl (by decide))
  have hf := foldl_collect_covers r cur maxlen (chainWalk p r num ring cur maxback)
    (nearProbe r cur maxlen maxback nearReach 1#32 ⟨1, []⟩)
  refine ⟨foldl_keeps (P := Collect.Top) (f := collectProbe r cur maxlen) (fun _ _ h => collectProbe_top h _) _ _ hn.1, hf.2, fun d h0 h64 hc hm => ?_⟩
  refine (hn.2.2 d ?_ ?_ hc hm).imp (fun h => le_trans h hf.1) (fun h => ⟨le_trans h.1 hf.1, h.2⟩)
  · have : d.toNat ≠ 0 := fun e => h0 (BitVec.eq_of_toNat_eq e)
    rw [BitVec.le_def]; simp; omega
  · rw [BitVec.le_def] at h64
    simp only [nearReach, BitVec.toNat_ofNat] at *; omega

/-! Where a record of the window comes from (R187). -/

/-- A near position (phase 1): at most 64 back and inside the stream, and every nearer one agrees over at most 2 bytes and
over fewer than it. -/
def NearSource (r : Ring) (cur maxlen : Word) (m : MatchRec) : Prop :=
  m.distance ≤ 64#32 ∧ m.distance ≤ cur ∧
    ∀ d : Word, d ≠ 0#32 → d < m.distance →
      prefixMatch r (cur - d) cur maxlen.toNat ≤ 2 ∧ prefixMatch r (cur - d) cur maxlen.toNat < m.length

/-- A candidate of the walk (phase 2): every newer one agrees over fewer bytes than it. -/
def WalkSource (r : Ring) (cur maxlen : Word) (walk : List Word) (m : MatchRec) : Prop :=
  ∃ newer older, walk = newer ++ (cur - m.distance) :: older ∧
    ∀ q ∈ newer, prefixMatch r q cur maxlen.toNat < m.length

/-- A record of either source has the whole prefix as its length. -/
def WindowSource (r : Ring) (cur maxlen : Word) (walk : List Word) (m : MatchRec) : Prop :=
  m.length = prefixMatch r (cur - m.distance) cur maxlen.toNat ∧
    (NearSource r cur maxlen m ∨ WalkSource r cur maxlen walk m)

theorem Collect.offer_ms {c : Collect} {dist : Word} {len : Nat} {m : MatchRec} (h : m ∈ (c.offer dist len).ms) :
    m ∈ c.ms ∨ (c.bestLen < len ∧ m = ⟨dist, len, len⟩) := by
  unfold Collect.offer at h
  split_ifs at h with h1 h2
  · exact .inr ⟨h1, by simpa using h⟩
  · rcases List.mem_append.1 h with h | h
    · exact .inl h
    · exact .inr ⟨h1, List.mem_singleton.1 h⟩
  · exact .inl h

theorem nearProbe_source (r : Ring) (cur maxlen maxback : Word) (walk : List Word) (left : Nat) :
    ∀ (d : Word) (c : Collect), d.toNat + left = 65 → d ≠ 0#32 →
      (∀ d' : Word, d' ≠ 0#32 → d' < d → prefixMatch r (cur - d') cur maxlen.toNat ≤ c.bestLen) →
      (∀ m ∈ c.ms, WindowSource r cur maxlen walk m) →
      ∀ m ∈ (nearProbe r cur maxlen maxback left d c).ms, WindowSource r cur maxlen walk m := by
  induction left with
  | zero => intro d c _ _ _ h; exact h
  | succ n ih =>
    intro d c hd h0 hc hm
    unfold nearProbe
    split_ifs with h
    · have hs : (d + 1#32).toNat = d.toNat + 1 := by
        rw [BitVec.toNat_add]; simp only [BitVec.toNat_ofNat]; omega
      have ho := c.offer_mono d (prefixMatch r (cur - d) cur maxlen.toNat)
      refine ih (d + 1#32) _ (by omega) (fun e => by rw [e] at hs; simp at hs) (fun d' h1 h2 => ?_) (fun m hm' => ?_)
      · by_cases he : d' = d
        · subst he; exact ho.2
        · have : d'.toNat ≠ d.toNat := fun e' => he (BitVec.eq_of_toNat_eq e')
          rw [BitVec.lt_def] at h2
          exact le_trans (hc d' h1 (by rw [BitVec.lt_def]; omega)) ho.1
      · rcases Collect.offer_ms hm' with hm' | ⟨hl, rfl⟩
        · exact hm m hm'
        · refine ⟨rfl, .inl ⟨?_, h.1, fun d' h1 h2 => ?_⟩⟩
          · rw [BitVec.le_def]; simp; omega
          · have := hc d' h1 h2
            have := h.2.2
            exact ⟨by omega, by simp only; omega⟩
    · exact hm

theorem foldl_collect_source (r : Ring) (cur maxlen : Word) (walk : List Word) (rest : List Word) :
    ∀ (seen : List Word) (c : Collect), walk = seen ++ rest →
      (∀ q ∈ seen, prefixMatch r q cur maxlen.toNat ≤ c.bestLen) → (∀ m ∈ c.ms, WindowSource r cur maxlen walk m) →
      ∀ m ∈ (rest.foldl (collectProbe r cur maxlen) c).ms, WindowSource r cur maxlen walk m := by
  induction rest with
  | nil => intro _ c _ _ h; exact h
  | cons a rest ih =>
    intro seen c hw hs hm
    have h2 := collectProbe_mono r cur maxlen c a
    refine ih (seen ++ [a]) _ (by rw [hw]; simp) (fun q hq => ?_) (fun m hm' => ?_)
    · rcases List.mem_append.1 hq with hq | hq
      · exact le_trans (hs q hq) h2.1
      · rw [List.mem_singleton] at hq; subst hq; exact h2.2
    · unfold collectProbe at hm'
      split_ifs at hm'
      · rcases Collect.offer_ms hm' with hm' | ⟨hl, rfl⟩
        · exact hm m hm'
        · have hx : cur - backward cur a = a := by simp [backward]
          refine ⟨by simp only [hx], .inr ⟨seen, rest, by simp only [hx]; exact hw, fun q hq => ?_⟩⟩
          have := hs q hq
          simp only; omega
      · exact hm m hm'

theorem chainCollect_source (p : ChainParams) (r : Ring) (num : Sparse (BitVec 16)) (ring : Sparse Word)
    (cur maxlen maxback : Word) :
    ∀ m ∈ (chainCollect p r num ring cur maxlen maxback).ms,
      WindowSource r cur maxlen (chainWalk p r num ring cur maxback) m :=
  foldl_collect_source r cur maxlen _ _ [] _ (List.nil_append _).symm (by simp)
    (nearProbe_source r cur maxlen maxback _ nearReach 1#32 ⟨1, []⟩ (by decide) (by decide)
      (fun d h0 h1 => absurd (BitVec.eq_of_toNat_eq (by rw [BitVec.lt_def] at h1; simp at h1 ⊢; omega)) h0) (by simp))

/-! Every strictly longer candidate is recorded (R187). -/

/-- What phases 1 and 2 do to the list: a record stays, unless one of `kMaxZopfliLen` or more, longer than it, drops it. -/
def Collect.Keeps (c c' : Collect) : Prop :=
  ∀ m ∈ c.ms, m ∈ c'.ms ∨ ∃ m' ∈ c'.ms, maxZopfliLen ≤ m'.length ∧ m.length < m'.length

theorem Collect.Keeps.refl (c : Collect) : c.Keeps c := fun _ h => .inl h

theorem Collect.Keeps.trans {a b c : Collect} (h : a.Keeps b) (h' : b.Keeps c) : a.Keeps c := fun m hm => by
  rcases h m hm with hb | ⟨m', hb, hz, hl⟩
  · exact h' m hb
  · rcases h' m' hb with hc | ⟨m'', hc, hz', hl'⟩
    · exact .inr ⟨m', hc, hz, hl⟩
    · exact .inr ⟨m'', hc, hz', lt_trans hl hl'⟩

theorem Collect.Good.keeps {r : Ring} {cur maxlen maxback : Word} {c : Collect} (h : Collect.Good r cur maxlen maxback c)
    (dist : Word) (len : Nat) : c.Keeps (c.offer dist len) := fun m hm => by
  have := h.below m hm
  unfold Collect.offer
  split_ifs with h1 h2
  · exact .inr ⟨_, List.mem_singleton.2 rfl, h2, by simp only; omega⟩
  · exact .inl (List.mem_append_left _ hm)
  · exact .inl hm

/-- A longer candidate is in the list after its offer. -/
theorem Collect.offer_mem {c : Collect} {len : Nat} (h : c.bestLen < len) (dist : Word) :
    (⟨dist, len, len⟩ : MatchRec) ∈ (c.offer dist len).ms := by
  unfold Collect.offer
  rw [if_pos h]
  exact List.mem_append_right _ List.mem_cons_self

/-- Offers below a bound keep the running best below it. -/
theorem Collect.offer_below {c : Collect} {n len : Nat} (h : c.bestLen < n) (hl : len < n) (dist : Word) :
    (c.offer dist len).bestLen < n := by
  unfold Collect.offer; split_ifs <;> first | exact hl | exact h

theorem collectProbe_below {r : Ring} {cur maxlen : Word} {c : Collect} {n : Nat} {prev : Word} (h : c.bestLen < n)
    (hl : prefixMatch r prev cur maxlen.toNat < n) : (collectProbe r cur maxlen c prev).bestLen < n := by
  unfold collectProbe
  split_ifs
  · exact Collect.offer_below h hl _
  · exact h

theorem collectProbe_mem {r : Ring} {cur maxlen : Word} {c : Collect} {prev : Word}
    (h : c.bestLen < prefixMatch r prev cur maxlen.toNat) :
    (⟨cur - prev, prefixMatch r prev cur maxlen.toNat, prefixMatch r prev cur maxlen.toNat⟩ : MatchRec) ∈
      (collectProbe r cur maxlen c prev).ms := by
  unfold collectProbe
  rw [if_pos (prefixMatch_bytes r prev cur maxlen.toNat _ h)]
  exact Collect.offer_mem h _

theorem foldl_collect_keeps {r : Ring} {cur maxlen maxback : Word} (l : List Word)
    (hl : ∀ q ∈ l, backward cur q ≠ 0#32 ∧ backward cur q ≤ maxback) :
    ∀ c : Collect, Collect.Good r cur maxlen maxback c →
      c.Keeps (l.foldl (collectProbe r cur maxlen) c) := by
  induction l with
  | nil => exact fun c _ => Collect.Keeps.refl c
  | cons a rest ih =>
    intro c hc
    have h1 : c.Keeps (collectProbe r cur maxlen c a) := by
      unfold collectProbe
      split_ifs
      · exact hc.keeps _ _
      · exact Collect.Keeps.refl c
    exact h1.trans (ih (fun q hq => hl q (List.mem_cons_of_mem _ hq)) _
      (collectProbe_good (hl a List.mem_cons_self) hc))

/-- The near positions that phase 1 examines: inside its bounds, no nearer one agreeing over 3 bytes. -/
def NearPosition (r : Ring) (cur maxlen maxback d : Word) : Prop :=
  d ≠ 0#32 ∧ d ≤ 64#32 ∧ d ≤ cur ∧ d ≤ maxback ∧
    ∀ d' : Word, d' ≠ 0#32 → d' < d → prefixMatch r (cur - d') cur maxlen.toNat ≤ 2

/-- Phase 1 from the distance `d` on: lengths below a bound keep the running best below it; and a near position longer than
every nearer one is recorded. -/
theorem nearProbe_takes {r : Ring} {cur maxlen maxback : Word} (left : Nat) :
    ∀ (d : Word) (c : Collect), d.toNat + left = 65 → d ≠ 0#32 → Collect.Good r cur maxlen maxback c →
      (∀ d' : Word, d' ≠ 0#32 → d' < d → prefixMatch r (cur - d') cur maxlen.toNat ≤ c.bestLen) →
      (∀ n, c.bestLen < n → (∀ e, NearPosition r cur maxlen maxback e → prefixMatch r (cur - e) cur maxlen.toNat < n) →
        (nearProbe r cur maxlen maxback left d c).bestLen < n) ∧
      c.Keeps (nearProbe r cur maxlen maxback left d c) ∧
      ∀ e, NearPosition r cur maxlen maxback e → d ≤ e → c.bestLen < prefixMatch r (cur - e) cur maxlen.toNat →
        (c.bestLen ≤ 2) →
        (∀ d' : Word, d' ≠ 0#32 → d' < e →
          prefixMatch r (cur - d') cur maxlen.toNat < prefixMatch r (cur - e) cur maxlen.toNat) →
        (⟨e, prefixMatch r (cur - e) cur maxlen.toNat, prefixMatch r (cur - e) cur maxlen.toNat⟩ : MatchRec) ∈
            (nearProbe r cur maxlen maxback left d c).ms ∨
          ∃ m ∈ (nearProbe r cur maxlen maxback left d c).ms,
            maxZopfliLen ≤ m.length ∧ prefixMatch r (cur - e) cur maxlen.toNat < m.length := by
  induction left with
  | zero =>
    intro d c hd _ _ _
    refine ⟨fun n h _ => h, Collect.Keeps.refl c, fun e he hde => ?_⟩
    have := he.2.1
    rw [BitVec.le_def] at this hde; simp at this; omega
  | succ k ih =>
    intro d c hd h0 hc hnear
    unfold nearProbe
    split_ifs with h
    · have hs : (d + 1#32).toNat = d.toNat + 1 := by
        rw [BitVec.toNat_add]; simp only [BitVec.toNat_ofNat]; omega
      have hmono := c.offer_mono d (prefixMatch r (cur - d) cur maxlen.toNat)
      have hpos : NearPosition r cur maxlen maxback d :=
        ⟨h0, by rw [BitVec.le_def]; simp; omega, h.1, h.2.1, fun d' h1 h2 => le_trans (hnear d' h1 h2) h.2.2⟩
      obtain ⟨i1, i2, i3⟩ := ih (d + 1#32) (c.offer d (prefixMatch r (cur - d) cur maxlen.toNat)) (by omega)
        (fun e => by rw [e] at hs; simp at hs)
        (hc.offer (prefixMatch_le _ _ _ _) h0 h.2.1 (bytesAgree_of_prefix_sub _ _ _ _))
        (fun d' h1 h2 => by
          by_cases he : d' = d
          · subst he; exact hmono.2
          · have : d'.toNat ≠ d.toNat := fun e' => he (BitVec.eq_of_toNat_eq e')
            rw [BitVec.lt_def] at h2
            exact le_trans (hnear d' h1 (by rw [BitVec.lt_def]; omega)) hmono.1)
      refine ⟨fun n hn hb => i1 n (Collect.offer_below hn (hb d hpos) _) hb, (hc.keeps _ _).trans i2,
        fun e he hde hlt h2 hlong => ?_⟩
      by_cases hed : e = d
      · subst hed
        exact i2 _ (Collect.offer_mem hlt e)
      · have hne : e.toNat ≠ d.toNat := fun e' => hed (BitVec.eq_of_toNat_eq e')
        rw [BitVec.le_def] at hde
        have hde' : d < e := by rw [BitVec.lt_def]; omega
        refine i3 e he (by rw [BitVec.le_def]; omega) (Collect.offer_below hlt (hlong d h0 hde') _) ?_ hlong
        have := he.2.2.2.2 d h0 hde'
        unfold Collect.offer; split_ifs <;> omega
    · refine ⟨fun n hn _ => hn, Collect.Keeps.refl c, fun e he hde _ h2 _ => absurd ⟨?_, ?_, h2⟩ h⟩
      · exact BitVec.le_trans hde he.2.2.1
      · exact BitVec.le_trans hde he.2.2.2.1

/-- Phases 1 and 2 record every near position and every candidate of the walk that agrees over 2 bytes and over more than all
examined before it, unless a longer record of `kMaxZopfliLen` or more drops it. -/
theorem chainCollect_takes (p : ChainParams) (r : Ring) (num : Sparse (BitVec 16)) (ring : Sparse Word)
    (cur maxlen maxback : Word) :
    let ms := (chainCollect p r num ring cur maxlen maxback).ms
    let len := fun prev => prefixMatch r prev cur maxlen.toNat
    (∀ d, NearPosition r cur maxlen maxback d → 2 ≤ len (cur - d) →
      (∀ d' : Word, d' ≠ 0#32 → d' < d → len (cur - d') < len (cur - d)) →
      ⟨d, len (cur - d), len (cur - d)⟩ ∈ ms ∨ ∃ m ∈ ms, maxZopfliLen ≤ m.length ∧ len (cur - d) < m.length) ∧
    ∀ newer older prev, chainWalk p r num ring cur maxback = newer ++ prev :: older → 2 ≤ len prev →
      (∀ d, NearPosition r cur maxlen maxback d → len (cur - d) < len prev) → (∀ q ∈ newer, len q < len prev) →
      ⟨cur - prev, len prev, len prev⟩ ∈ ms ∨ ∃ m ∈ ms, maxZopfliLen ≤ m.length ∧ len prev < m.length := by
  intro ms len
  have hg := Collect.good_start r cur maxlen maxback
  obtain ⟨n1, _, n3⟩ := nearProbe_takes (r := r) (cur := cur) (maxlen := maxlen) (maxback := maxback) nearReach 1#32 ⟨1, []⟩
    (by decide) (by decide) hg
    (fun d h0 h1 => absurd (BitVec.eq_of_toNat_eq (by rw [BitVec.lt_def] at h1; simp at h1 ⊢; omega)) h0)
  have hn := nearProbe_good nearReach (d := 1#32) (by decide) (by decide) hg
  have hadm : ∀ q ∈ chainWalk p r num ring cur maxback, backward cur q ≠ 0#32 ∧ backward cur q ≤ maxback :=
    fun q hq => chainWalk_mem hq
  refine ⟨fun d hd h2 hlong => ?_, fun newer older prev hw h2 hb hnew => ?_⟩
  · have hk := foldl_collect_keeps _ hadm _ hn
    have hd1 : 1#32 ≤ d := by
      have : d.toNat ≠ 0 := fun e => hd.1 (BitVec.eq_of_toNat_eq e)
      rw [BitVec.le_def]; simp; omega
    rcases n3 d hd hd1 h2 (by decide) hlong with h | ⟨m, h, hz, hl⟩
    · exact hk _ h
    · rcases hk _ h with h' | ⟨m', h', hz', hl'⟩
      · exact .inr ⟨m, h', hz, hl⟩
      · exact .inr ⟨m', h', hz', lt_trans hl hl'⟩
  · have hms : ms = (older.foldl (collectProbe r cur maxlen) (collectProbe r cur maxlen
        (newer.foldl (collectProbe r cur maxlen) (nearProbe r cur maxlen maxback nearReach 1#32 ⟨1, []⟩)) prev)).ms := by
      show (chainCollect p r num ring cur maxlen maxback).ms = _
      rw [chainCollect, hw, List.foldl_append, List.foldl_cons]
    rw [hw] at hadm
    have hc := foldl_keeps_mem (P := Collect.Good r cur maxlen maxback) (f := collectProbe r cur maxlen) newer
      (fun c q hq h => collectProbe_good (hadm q (List.mem_append_left _ hq)) h) _ hn
    have hbest := foldl_keeps_mem (P := fun c : Collect => c.bestLen < len prev) (f := collectProbe r cur maxlen) newer
      (fun c q hq h => collectProbe_below h (hnew q hq)) _ (n1 (len prev) h2 hb)
    have hk := foldl_collect_keeps older
      (fun q hq => hadm q (List.mem_append_right _ (List.mem_cons_of_mem _ hq))) _
      (collectProbe_good (hadm prev (List.mem_append_right _ List.mem_cons_self)) hc)
    rw [hms]
    exact hk _ (collectProbe_mem hbest)

/-! The window's records and the dictionary's (R187, R189). -/

/-- The running best is the last record's length, 1 without a record. -/
def Collect.Last (c : Collect) : Prop := c.bestLen = (c.ms.getLast?.map MatchRec.length).getD 1

theorem Collect.Last.offer {c : Collect} (h : c.Last) (dist : Word) (len : Nat) : (c.offer dist len).Last := by
  unfold Collect.offer
  split_ifs
  · simp [Collect.Last]
  · simp [Collect.Last]
  · exact h

theorem nearProbe_last (r : Ring) (cur maxlen maxback : Word) (left : Nat) :
    ∀ (d : Word) (c : Collect), c.Last → (nearProbe r cur maxlen maxback left d c).Last := by
  induction left with
  | zero => exact fun _ _ h => h
  | succ n ih =>
    intro d c h
    unfold nearProbe
    split_ifs
    · exact ih _ _ (h.offer _ _)
    · exact h

theorem chainCollect_last (p : ChainParams) (r : Ring) (num : Sparse (BitVec 16)) (ring : Sparse Word)
    (cur maxlen maxback : Word) : (chainCollect p r num ring cur maxlen maxback).Last :=
  foldl_keeps (P := Collect.Last) (f := collectProbe r cur maxlen)
    (fun c prev h => by unfold collectProbe; split_ifs; exacts [h.offer _ _, h]) _ _
    (nearProbe_last r cur maxlen maxback nearReach 1#32 ⟨1, []⟩ rfl)

/-- The whole list: the window's records, then the dictionary's from one above the last of them. -/
theorem chainFindAll_split (p : ChainParams) (ps : Params) (r : Ring) (num : Sparse (BitVec 16)) (ring : Sparse Word)
    (cur maxlen maxback : Word) (hl : 4 ≤ maxlen.toNat) :
    let window := (chainCollect p r num ring cur maxlen maxback).ms
    chainFindAll p ps r num ring cur maxlen maxback = window ++
      dictRecords ps r cur maxback ((window.getLast?.map MatchRec.length).getD 1 + 1) (min maxlen.toNat ps.dictMaxLen) := by
  have h := chainCollect_last p r num ring cur maxlen maxback
  unfold Collect.Last at h
  simp only [chainFindAll, if_neg (Nat.not_lt.2 hl), ← h]

end Sys2Proof.Machine
end

