-- ==== Sys2Proof/Laws/Decode.lean ====
section
/-!
SUPPORT. What the decoder answers, once (spec/30_encoding.md R92, R93).
-/
namespace Sys2Proof

/-- A field of a word is its bit slice. -/
theorem field_extract (w : Word) (lo len : Nat) : field w lo len = (w.extractLsb' lo len).toNat := by
  simp [field, BitVec.extractLsb'_toNat]

/-- The decoder answers the candidate of the opcode whose row the word matches. -/
theorem decode_ok (w : Word) (i : Instr) : decode w = .ok i ↔ candidate w = some i ∧ i.row.matchesWord w = true := by
  unfold decode
  split
  · simp_all
  · rename_i j hj
    split_ifs with h1 h2
    · simp only [Except.ok.injEq, hj, Option.some.injEq]
      exact ⟨fun e => ⟨e, e ▸ h1⟩, fun e => e.1⟩
    · simp only [false_iff, hj, Option.some.injEq, not_and]; rintro rfl; exact h1
    · simp only [false_iff, hj, Option.some.injEq, not_and]; rintro rfl; exact h1

/-- The full mask leaves a word as it is. -/
theorem and_full_mask (w : Word) : w &&& 0xFFFFFFFF#32 = w := by
  have : (0xFFFFFFFF#32 : BitVec 32) = BitVec.allOnes 32 := by decide
  rw [this, BitVec.and_allOnes]

/-- A word of CONFIGURE's row has CONFIGURE's opcode. -/
theorem configure_opcode {w : Word} (h : w &&& 0xFFE0F0FF#32 = 0x00000001#32) : w.extractLsb' 0 8 = 0x01#8 := by
  have := congrArg (fun v : Word => v.extractLsb' 0 8) h
  simp only [BitVec.extractLsb'_and] at this
  have a1 : BitVec.extractLsb' 0 8 0xFFE0F0FF#32 = BitVec.allOnes 8 := by decide
  rw [a1, BitVec.and_allOnes] at this
  exact this.trans (by decide)

/-- A format N command's row is its word. -/
theorem row_of_formatN {i : Instr} (hi : ∀ quality lgwin, i ≠ .configure quality lgwin) :
    i.row = ⟨encode i, 0xFFFFFFFF#32⟩ := by
  cases i with
  | configure q l => exact absurd rfl (hi q l)
  | _ => rfl

end Sys2Proof
end

