-- ==== Sys2Proof/Laws/Tree.lean ====
section
/-!
SUPPORT. What `AdvanceOneByte` can do, once (spec/45_binary_tree_matcher.md R203 to R209): its tables, its matches, and
that the record flag changes no table.
-/
namespace Sys2Proof.Machine

/-! Indices (R200, R201). -/

theorem treeKey2_lt (r : Ring) (ix : Word) : treeKey2 r ix < 1024 := hash32_lt _ (by decide)

theorem treeKey3_range (r : Ring) (ix : Word) : 1024 ≤ treeKey3 r ix ∧ treeKey3 r ix < 33792 := by
  have := hash32_lt (toU24 (load32 r ix)) (k := 15) (by decide)
  unfold treeKey3
  omega

theorem treeKey4_range (r : Ring) (ix : Word) : 33792 ≤ treeKey4 r ix ∧ treeKey4 r ix < 164864 := by
  have := hash32_lt (load32 r ix) (k := 17) (by decide)
  unfold treeKey4
  omega

theorem windowSlot_lt (lgwin : BitVec 5) (p : Word) : windowSlot lgwin p < 2 ^ lgwin.toNat :=
  Nat.mod_lt _ (by positivity)

theorem leftChild_lt (lgwin : BitVec 5) (p : Word) : leftChild lgwin p < 2 ^ (lgwin.toNat + 1) := by
  have := windowSlot_lt lgwin p
  unfold leftChild
  rw [pow_succ]
  omega

theorem rightChild_lt (lgwin : BitVec 5) (p : Word) : rightChild lgwin p < 2 ^ (lgwin.toNat + 1) := by
  have := windowSlot_lt lgwin p
  unfold rightChild
  rw [pow_succ]
  omega

/-- The window test in numbers (R202). -/
theorem inWindow_iff (lgwin : BitVec 5) (cur prev : Word) :
    inWindow lgwin cur prev = true ↔
      1 ≤ (backward cur prev).toNat ∧ (backward cur prev).toNat ≤ windowMask lgwin - 15 := by
  unfold inWindow
  rw [Bool.and_eq_true, decide_eq_true_iff, decide_eq_true_iff]

/-- SENTINEL lies `window_mask` beyond any position, so it is in no window below the wrap (R209 (a), R295). -/
theorem sentinel_outside {lgwin : BitVec 5} {cur : Word} (h : cur.toNat + windowMask lgwin < 2 ^ 32) :
    inWindow lgwin cur (sentinel lgwin) = false := by
  have hl := lgwin.isLt
  have hp : 2 ^ lgwin.toNat ≤ 2 ^ 31 := Nat.pow_le_pow_right (by decide) (by omega)
  have hp0 : 0 < 2 ^ lgwin.toNat := Nat.two_pow_pos _
  have key : (backward cur (sentinel lgwin)).toNat = (cur.toNat + windowMask lgwin) % 2 ^ 32 := by
    have hm : windowMask lgwin < 2 ^ 31 := by unfold windowMask; omega
    rw [backward, BitVec.toNat_sub, sentinel, BitVec.toNat_ofNat]
    generalize windowMask lgwin = n at *
    by_cases h0 : n = 0
    · subst h0; simp
    · rw [Nat.mod_eq_of_lt (show 2 ^ 32 - n < 2 ^ 32 by omega)]
      congr 1; omega
  rw [Bool.eq_false_iff, ne_eq, inWindow_iff, key, Nat.mod_eq_of_lt h]
  unfold windowMask
  omega

/-- Two positions less than a window apart have different nodes (R200, R202). -/
theorem windowSlot_ne {lgwin : BitVec 5} {cur prev : Word} (h : inWindow lgwin cur prev = true) :
    windowSlot lgwin cur ≠ windowSlot lgwin prev := by
  rw [inWindow_iff] at h
  intro he
  unfold windowSlot at he
  unfold windowMask at h
  have hl := lgwin.isLt
  obtain ⟨c, hc⟩ : 2 ^ lgwin.toNat ∣ 2 ^ 32 := pow_dvd_pow 2 (by omega)
  have hd : (backward cur prev).toNat = (2 ^ 32 - prev.toNat + cur.toNat) % 2 ^ 32 := BitVec.toNat_sub _ _
  have h1 : (backward cur prev).toNat % 2 ^ lgwin.toNat = 0 := by
    rw [hd, Nat.mod_mod_of_dvd _ ⟨c, hc⟩]
    have hr := prev.isLt
    have hm : (2 ^ 32 - prev.toNat + cur.toNat) % 2 ^ lgwin.toNat =
        (2 ^ 32 - prev.toNat + prev.toNat) % 2 ^ lgwin.toNat := Nat.ModEq.add_left _ he
    rw [hm, show 2 ^ 32 - prev.toNat + prev.toNat = 2 ^ 32 by omega, hc, Nat.mul_mod_right]
  rw [Nat.mod_eq_of_lt (by omega)] at h1
  omega

/-- A walk ends at the first node out of window (R203, step 4). -/
theorem Advance.loop_outside {e : Advance} {w : Walk} (h : inWindow e.lgwin e.cur w.prev = false) (depth : Nat) :
    e.loop depth w = w := by
  cases depth <;> simp [Advance.loop, h]

/-- One element of a tree table after a write. -/
theorem treeGet_treeSet (lgwin : BitVec 5) (t : Sparse Word) (i j : Nat) (v : Word) :
    treeGet lgwin (treeSet lgwin t i v) j = if j = i then v else treeGet lgwin t j := by
  by_cases h : j = i
  · subst h; simp [treeGet, treeSet, Sparse.get_set_same]
  · simp only [h, if_false]; exact Sparse.get_set_ne _ _ _ h

/-! The new heads (R203, part (b)). -/

/-- The three heads hold `cur`; every other element of `HT` is as before. -/
theorem Advance.install_get (e : Advance) (ht : Sparse Word) (i : Nat) :
    treeGet e.lgwin (e.install ht) i =
      if i = treeKey2 e.ring e.cur ∨ i = treeKey3 e.ring e.cur ∨ i = treeKey4 e.ring e.cur then e.cur
      else treeGet e.lgwin ht i := by
  simp only [Advance.install, treeGet_treeSet]
  split_ifs <;> simp_all

/-! Step 1 of the loop (R204 (c)). -/

/-- Comparing from an agreed prefix on gives the whole prefix. -/
theorem prefixMatch_resume (r : Ring) (n : Nat) : ∀ (a b : Word) (limit : Nat), n ≤ limit →
    (∀ j, j < n → r.byteAt a j = r.byteAt b j) →
    n + prefixMatch r (a + BitVec.ofNat 32 n) (b + BitVec.ofNat 32 n) (limit - n) = prefixMatch r a b limit := by
  induction n with
  | zero => intro a b limit _ _; simp
  | succ n ih =>
    intro a b limit hl h
    obtain ⟨limit, rfl⟩ : ∃ m, limit = m + 1 := ⟨limit - 1, by omega⟩
    have h0 : r.byte a = r.byte b := by simpa [Ring.byteAt_zero] using h 0 (by omega)
    have h1 := ih (a + 1#32) (b + 1#32) limit (by omega) fun j hj => by
      simpa [Ring.byteAt_succ] using h (j + 1) (by omega)
    have hn : ∀ x : Word, x + BitVec.ofNat 32 (n + 1) = x + 1#32 + BitVec.ofNat 32 n := fun x => by
      rw [BitVec.ofNat_add, BitVec.add_comm (BitVec.ofNat 32 n), ← BitVec.add_assoc]
    rw [hn, hn, Nat.add_sub_add_right, prefixMatch, if_pos h0, ← h1]
    omega

theorem Advance.agree_le (e : Advance) (p : Word) : e.agree p ≤ e.maxlen := prefixMatch_le _ _ _ _

theorem Advance.agree_bytes (e : Advance) (p : Word) :
    ∀ j, j < e.agree p → e.ring.byteAt p j = e.ring.byteAt e.cur j := prefixMatch_bytes _ _ _ _

theorem Advance.extend_le (e : Advance) {w : Walk} (h : w.len ≤ e.maxlen) : (e.extend w).len ≤ e.maxlen := by
  have := prefixMatch_le e.ring (w.prev + BitVec.ofNat 32 w.len) (e.cur + BitVec.ofNat 32 w.len) (e.maxlen - w.len)
  simp only [Advance.extend]; omega

/-- Where the carried bytes agree, the extension gives the whole prefix (R204 (c)). -/
theorem Advance.extend_len (e : Advance) {w : Walk} (h : w.len ≤ e.maxlen)
    (hc : ∀ j, j < w.len → e.ring.byteAt w.prev j = e.ring.byteAt e.cur j) : (e.extend w).len = e.agree w.prev :=
  prefixMatch_resume _ _ _ _ _ h hc

/-- In any tree it gives no less. -/
theorem Advance.agree_le_extend (e : Advance) {w : Walk} (h : w.len ≤ e.maxlen) : e.agree w.prev ≤ (e.extend w).len := by
  by_cases hc : ∀ j, j < w.len → e.ring.byteAt w.prev j = e.ring.byteAt e.cur j
  · exact (e.extend_len h hc).ge
  · push Not at hc
    obtain ⟨j, hj, hne⟩ := hc
    have h1 : e.agree w.prev ≤ j := not_lt.1 fun hl => hne (e.agree_bytes _ j hl)
    have h2 : w.len ≤ (e.extend w).len := Nat.le_add_right _ _
    omega

/-! The byte test (R206 (b)). -/

theorem Advance.verified_iff {e : Advance} {m : MatchRec} :
    e.verified m = true ↔ BytesAgree e.ring e.cur m.distance m.length := by
  simp only [Advance.verified, beq_iff_eq]
  constructor
  · intro h j hj; exact prefixMatch_bytes _ _ _ _ j (by rw [h]; exact hj)
  · intro h
    exact Nat.le_antisymm (prefixMatch_le _ _ _ _) (not_lt.1 fun hl => prefixMatch_stops _ _ _ _ hl (h _ hl))

theorem Advance.bytes_matchAt {e : Advance} {p : Word} {n : Nat} :
    BytesAgree e.ring e.cur (e.matchAt p n).distance n ↔ ∀ j, j < n → e.ring.byteAt p j = e.ring.byteAt e.cur j := by
  have : e.cur - (e.matchAt p n).distance = p := by simp [Advance.matchAt, backward]
  unfold BytesAgree
  rw [this]

/-! The call (R203, R207). -/

section

variable (s : State) (cur : Word) (maxlen : Nat) (record : Bool)

@[simp] theorem State.advanceAt_ring : (s.advanceAt cur maxlen record).ring = s.ring := rfl
@[simp] theorem State.advanceAt_lgwin : (s.advanceAt cur maxlen record).lgwin = s.lgwin := rfl
@[simp] theorem State.advanceAt_niceLength : (s.advanceAt cur maxlen record).niceLength = s.params.h10NiceLength := rfl
@[simp] theorem State.advanceAt_cur : (s.advanceAt cur maxlen record).cur = cur := rfl
@[simp] theorem State.advanceAt_maxlen : (s.advanceAt cur maxlen record).maxlen = maxlen := rfl
@[simp] theorem State.advanceAt_record : (s.advanceAt cur maxlen record).record = record := rfl

end

/-- The lookahead guard touches nothing. -/
theorem Advance.run_guard {e : Advance} (h : e.maxlen < e.niceLength) (depth : Nat) (ht child : Sparse Word) :
    e.run depth ht child = ⟨ht, child, []⟩ := if_pos h

/-- Past the guard. -/
theorem Advance.run_past {e : Advance} (h : e.niceLength ≤ e.maxlen) (depth : Nat) (ht child : Sparse Word) :
    e.run depth ht child =
      ⟨e.install ht, e.close (e.loop depth (e.startWalk ht child)), (e.loop depth (e.startWalk ht child)).ms⟩ :=
  if_neg (Nat.not_lt.2 h)

/-! The record flag (R205, R209 (g)). -/

/-- Two walks that differ at most in what they recorded. -/
structure Walk.SameTables (a b : Walk) : Prop where
  child : a.child = b.child
  pendingLt : a.pendingLt = b.pendingLt
  pendingGt : a.pendingGt = b.pendingGt
  prev : a.prev = b.prev
  bestLtLen : a.bestLtLen = b.bestLtLen
  bestGtLen : a.bestGtLen = b.bestGtLen
  len : a.len = b.len

theorem Walk.SameTables.eq {a b : Walk} (h : Walk.SameTables a b) :
    a = { b with bestLen := a.bestLen, ms := a.ms } := by
  cases a; cases b; obtain ⟨h1, h2, h3, h4, h5, h6, h7⟩ := h; simp_all

theorem Advance.emit_sameTables (e : Advance) (w : Walk) : Walk.SameTables (e.emit w) w := by
  unfold Advance.emit; split <;> exact ⟨rfl, rfl, rfl, rfl, rfl, rfl, rfl⟩

theorem Advance.collapse_sameTables (e : Advance) (w : Walk) : Walk.SameTables (e.collapse w) w := by
  unfold Advance.collapse; split <;> exact ⟨rfl, rfl, rfl, rfl, rfl, rfl, rfl⟩

theorem Walk.SameTables.symm {a b : Walk} (h : Walk.SameTables a b) : Walk.SameTables b a :=
  ⟨h.1.symm, h.2.symm, h.3.symm, h.4.symm, h.5.symm, h.6.symm, h.7.symm⟩

theorem Walk.SameTables.trans {a b c : Walk} (h : Walk.SameTables a b) (h' : Walk.SameTables b c) :
    Walk.SameTables a c :=
  ⟨h.1.trans h'.1, h.2.trans h'.2, h.3.trans h'.3, h.4.trans h'.4, h.5.trans h'.5, h.6.trans h'.6, h.7.trans h'.7⟩

theorem Advance.descend_sameTables (e : Advance) (f : Bool) {a b : Walk} (h : Walk.SameTables a b) :
    Walk.SameTables ({ e with record := f }.descend a) (e.descend b) := by
  obtain ⟨h1, h2, h3, h4, h5, h6, h7⟩ := h
  unfold Advance.descend
  simp only [h1, h2, h3, h4, h5, h6, h7]
  split <;> exact ⟨rfl, rfl, rfl, rfl, rfl, rfl, rfl⟩

theorem Advance.extend_sameTables (e : Advance) (f : Bool) {a b : Walk} (h : Walk.SameTables a b) :
    Walk.SameTables ({ e with record := f }.extend a) (e.extend b) := by
  obtain ⟨h1, h2, h3, h4, h5, h6, h7⟩ := h
  exact ⟨h1, h2, h3, h4, h5, h6, by simp only [Advance.extend, h4, h7]⟩

theorem Advance.loop_sameTables (e : Advance) (f : Bool) (depth : Nat) {a b : Walk} (h : Walk.SameTables a b) :
    Walk.SameTables ({ e with record := f }.loop depth a) (e.loop depth b) := by
  induction depth generalizing a b with
  | zero => exact h
  | succ n ih =>
    have h1 : Walk.SameTables ({ e with record := f }.emit ({ e with record := f }.extend a)) (e.emit (e.extend b)) :=
      (Advance.emit_sameTables _ _).trans ((e.extend_sameTables f h).trans (e.emit_sameTables _).symm)
    simp only [Advance.loop, h.prev, h1.len]
    split
    · split
      · exact (Advance.collapse_sameTables _ _).trans (h1.trans (e.collapse_sameTables _).symm)
      · exact ih (e.descend_sameTables f h1)
    · exact h

/-- Both flags write the same tables. -/
theorem Advance.run_tables (e : Advance) (f : Bool) (depth : Nat) (ht child : Sparse Word) :
    ({ e with record := f }.run depth ht child).ht = (e.run depth ht child).ht ∧
    ({ e with record := f }.run depth ht child).child = (e.run depth ht child).child := by
  have h := e.loop_sameTables f depth (a := { e with record := f }.startWalk ht child) (b := e.startWalk ht child)
    ⟨rfl, rfl, rfl, rfl, rfl, rfl, rfl⟩
  simp only [Advance.run]
  split
  · exact ⟨rfl, rfl⟩
  · exact ⟨rfl, by simp only [Advance.close, h.child, h.pendingLt, h.pendingGt]⟩

/-! The CHILD table (R204 (f), R208). -/

/-- The four CHILD numbers the call may touch for a position: those of `cur` and of in-window positions. -/
def Advance.Reaches (e : Advance) (i : Nat) : Prop :=
  ∃ p, (p = e.cur ∨ inWindow e.lgwin e.cur p = true) ∧ (i = leftChild e.lgwin p ∨ i = rightChild e.lgwin p)

/-- A value a CHILD write of this call may store. -/
def Advance.Stores (e : Advance) (v : Word) : Prop := v = sentinel e.lgwin ∨ inWindow e.lgwin e.cur v = true

/-- Along the loop: the pending slots are reachable ones; every other element is as at the start or was stored; the two
slots of `cur` are pending or hold a stored value. -/
structure Advance.Hangs (e : Advance) (child : Sparse Word) (w : Walk) : Prop where
  lt : e.Reaches w.pendingLt
  gt : e.Reaches w.pendingGt
  kept : ∀ i, ¬ e.Reaches i → treeGet e.lgwin w.child i = treeGet e.lgwin child i
  left : w.pendingLt = leftChild e.lgwin e.cur ∨ e.Stores (treeGet e.lgwin w.child (leftChild e.lgwin e.cur))
  right : w.pendingGt = rightChild e.lgwin e.cur ∨ e.Stores (treeGet e.lgwin w.child (rightChild e.lgwin e.cur))

theorem Advance.hangs_start (e : Advance) (ht child : Sparse Word) : e.Hangs child (e.startWalk ht child) :=
  ⟨⟨e.cur, .inl rfl, .inl rfl⟩, ⟨e.cur, .inl rfl, .inr rfl⟩, fun _ _ => rfl, .inl rfl, .inl rfl⟩

theorem Advance.Hangs.sameTables {e : Advance} {child : Sparse Word} {a b : Walk} (h : Walk.SameTables a b)
    (hb : e.Hangs child b) : e.Hangs child a := by
  obtain ⟨h1, h2, h3, h4, h5⟩ := hb
  exact ⟨by rwa [h.pendingLt], by rwa [h.pendingGt], by rwa [h.child], by rwa [h.pendingLt, h.child],
    by rwa [h.pendingGt, h.child]⟩

/-- A write of a stored value at a reachable number keeps what the invariant says of the table. -/
theorem Advance.stores_treeSet {e : Advance} {t : Sparse Word} {i j : Nat} {v : Word} (hv : e.Stores v)
    (h : i = j ∨ e.Stores (treeGet e.lgwin t j)) : e.Stores (treeGet e.lgwin (treeSet e.lgwin t i v) j) := by
  rw [treeGet_treeSet]
  split_ifs with hij
  · exact hv
  · exact h.resolve_left (fun e' => hij e'.symm)

theorem Advance.Hangs.descend {e : Advance} {child : Sparse Word} {w : Walk} (h : e.Hangs child w)
    (hp : inWindow e.lgwin e.cur w.prev = true) : e.Hangs child (e.descend w) := by
  have hs : e.Stores w.prev := .inr hp
  unfold Advance.descend
  split
  · refine ⟨⟨w.prev, .inr hp, .inr rfl⟩, h.gt, fun i hi => ?_, ?_, ?_⟩
    · have hne : i ≠ w.pendingLt := fun e' => hi (e' ▸ h.lt)
      simp only [treeGet_treeSet, hne, if_false]; exact h.kept i hi
    · exact .inr (Advance.stores_treeSet hs h.left)
    · rcases h.right with hr | hr
      · exact .inl hr
      · exact .inr (Advance.stores_treeSet hs (.inr hr))
  · refine ⟨h.lt, ⟨w.prev, .inr hp, .inl rfl⟩, fun i hi => ?_, ?_, ?_⟩
    · have hne : i ≠ w.pendingGt := fun e' => hi (e' ▸ h.gt)
      simp only [treeGet_treeSet, hne, if_false]; exact h.kept i hi
    · rcases h.left with hr | hr
      · exact .inl hr
      · exact .inr (Advance.stores_treeSet hs (.inr hr))
    · exact .inr (Advance.stores_treeSet hs h.right)

theorem Advance.extend_prev (e : Advance) (w : Walk) : (e.emit (e.extend w)).prev = w.prev :=
  (e.emit_sameTables _).prev

theorem Advance.loop_hangs (e : Advance) (child : Sparse Word) (depth : Nat) {w : Walk} (h : e.Hangs child w) :
    e.Hangs child (e.loop depth w) := by
  induction depth generalizing w with
  | zero => exact h
  | succ n ih =>
    unfold Advance.loop
    split
    · rename_i hp
      have h1 : e.Hangs child (e.emit (e.extend w)) :=
        (Advance.Hangs.sameTables (e.emit_sameTables _) (by exact ⟨h.lt, h.gt, h.kept, h.left, h.right⟩))
      simp only
      split
      · exact h1.sameTables (e.collapse_sameTables _)
      · exact ih (h1.descend (by rw [e.extend_prev]; exact hp))
    · exact h

/-- What the call leaves in CHILD: numbers it cannot reach are as before, the two slots of `cur` hold `SENTINEL` or an
in-window position. -/
theorem Advance.run_child (e : Advance) (depth : Nat) (ht child : Sparse Word) (h : e.niceLength ≤ e.maxlen) :
    (∀ i, ¬ e.Reaches i →
      treeGet e.lgwin (e.run depth ht child).child i = treeGet e.lgwin child i) ∧
    e.Stores (treeGet e.lgwin (e.run depth ht child).child (leftChild e.lgwin e.cur)) ∧
    e.Stores (treeGet e.lgwin (e.run depth ht child).child (rightChild e.lgwin e.cur)) := by
  have hw := e.loop_hangs child depth (e.hangs_start ht child)
  have hs : e.Stores (sentinel e.lgwin) := .inl rfl
  simp only [Advance.run, Nat.not_lt.2 h, if_false, Advance.close]
  refine ⟨fun i hi => ?_, ?_, ?_⟩
  · have h1 : i ≠ (e.loop depth (e.startWalk ht child)).pendingLt := fun e' => hi (e' ▸ hw.lt)
    have h2 : i ≠ (e.loop depth (e.startWalk ht child)).pendingGt := fun e' => hi (e' ▸ hw.gt)
    simp only [treeGet_treeSet, h1, h2, if_false]
    exact hw.kept i hi
  · exact Advance.stores_treeSet hs (.inr (Advance.stores_treeSet hs hw.left))
  · refine Advance.stores_treeSet hs (hw.right.imp id fun hr => Advance.stores_treeSet hs (.inr hr))

/-! The tables stay canonical and inside their ranges (R33). -/

/-- The canonical form of a tree table of `n` elements. -/
abbrev TreeTable (lgwin : BitVec 5) (n : Nat) (t : Sparse Word) : Prop :=
  Sparse.Wf (sentinel lgwin) t ∧ Sparse.Below n t

theorem TreeTable.set {lgwin : BitVec 5} {n : Nat} {t : Sparse Word} (h : TreeTable lgwin n t) {i : Nat} (v : Word)
    (hi : i < n) : TreeTable lgwin n (treeSet lgwin t i v) :=
  ⟨Sparse.set_wf _ _ h.1, Sparse.set_below _ h.2 hi⟩

theorem Advance.loop_table (e : Advance) (depth : Nat) {w : Walk}
    (h : TreeTable e.lgwin (2 ^ (e.lgwin.toNat + 1)) w.child ∧ w.pendingLt < 2 ^ (e.lgwin.toNat + 1) ∧
      w.pendingGt < 2 ^ (e.lgwin.toNat + 1)) :
    TreeTable e.lgwin (2 ^ (e.lgwin.toNat + 1)) (e.loop depth w).child ∧
      (e.loop depth w).pendingLt < 2 ^ (e.lgwin.toNat + 1) ∧ (e.loop depth w).pendingGt < 2 ^ (e.lgwin.toNat + 1) := by
  induction depth generalizing w with
  | zero => exact h
  | succ n ih =>
    unfold Advance.loop
    split
    · have hs := e.emit_sameTables (e.extend w)
      have h1 : (e.emit (e.extend w)).child = w.child := hs.child
      have h2 : (e.emit (e.extend w)).pendingLt = w.pendingLt := hs.pendingLt
      have h3 : (e.emit (e.extend w)).pendingGt = w.pendingGt := hs.pendingGt
      simp only
      split
      · have hc := e.collapse_sameTables (e.emit (e.extend w))
        rw [hc.child, hc.pendingLt, hc.pendingGt, h1, h2, h3]; exact h
      · apply ih
        unfold Advance.descend
        split
        · exact ⟨by rw [h1, h2]; exact h.1.set _ h.2.1, rightChild_lt _ _, by rw [h3]; exact h.2.2⟩
        · exact ⟨by rw [h1, h3]; exact h.1.set _ h.2.2, by rw [h2]; exact h.2.1, leftChild_lt _ _⟩
    · exact h

theorem Advance.run_table (e : Advance) (depth : Nat) {ht child : Sparse Word} (h : TreeTable e.lgwin 164864 ht)
    (hc : TreeTable e.lgwin (2 ^ (e.lgwin.toNat + 1)) child) :
    TreeTable e.lgwin 164864 (e.run depth ht child).ht ∧
      TreeTable e.lgwin (2 ^ (e.lgwin.toNat + 1)) (e.run depth ht child).child := by
  unfold Advance.run
  split
  · exact ⟨h, hc⟩
  · have hw := e.loop_table depth (w := e.startWalk ht child) ⟨hc, leftChild_lt _ _, rightChild_lt _ _⟩
    have k2 := treeKey2_lt e.ring e.cur
    have k3 := (treeKey3_range e.ring e.cur).2
    have k4 := (treeKey4_range e.ring e.cur).2
    exact ⟨((h.set _ (by omega)).set _ (by omega)).set _ k4, (hw.1.set _ hw.2.1).set _ hw.2.2⟩

/-- A range of positions keeps the two tables' form (R224). -/
theorem advanceMany_table (s : State) (n : Nat) (ix : Word) (maxlen : Nat) {ht child : Sparse Word}
    (h : TreeTable s.lgwin 164864 ht) (hc : TreeTable s.lgwin (2 ^ (s.lgwin.toNat + 1)) child) :
    TreeTable s.lgwin 164864 (advanceMany s n ix maxlen ht child).1 ∧
      TreeTable s.lgwin (2 ^ (s.lgwin.toNat + 1)) (advanceMany s n ix maxlen ht child).2 := by
  induction n generalizing ix maxlen ht child with
  | zero => exact ⟨h, hc⟩
  | succ n ih =>
    have := Advance.run_table ⟨s.ring, s.lgwin, s.params.h10NiceLength, ix, maxlen, false⟩ s.params.h10MaxSearchDepth h hc
    exact ih _ _ this.1 this.2

/-! The matches (R206). -/

/-- A record of this call: its length at least 2 and inside the lookahead, its length code the length, its distance inside
the window. -/
structure Advance.Record (e : Advance) (m : MatchRec) : Prop where
  lenGe : 2 ≤ m.length
  lenLe : m.length ≤ e.maxlen
  code : m.lengthCode = m.length
  distPos : m.distance ≠ 0#32
  distLe : m.distance.toNat ≤ windowMask e.lgwin - 15

theorem Advance.record_of_inWindow {e : Advance} {prev : Word} {len : Nat} (hp : inWindow e.lgwin e.cur prev = true)
    (h2 : 2 ≤ len) (hl : len ≤ e.maxlen) : e.Record (e.matchAt prev len) := by
  simp only [inWindow, Bool.and_eq_true, decide_eq_true_eq] at hp
  refine ⟨h2, hl, rfl, fun e' => ?_, hp.2⟩
  have : (backward e.cur prev).toNat = 0 := by rw [show backward e.cur prev = 0#32 from e']; rfl
  omega

/-- Along the loop, while the nice length is not reached; `used` nodes were visited. -/
structure Advance.Recorded (e : Advance) (used : Nat) (w : Walk) : Prop where
  lenLe : w.len ≤ e.maxlen
  ltLe : w.bestLtLen ≤ e.maxlen
  gtLe : w.bestGtLen ≤ e.maxlen
  good : ∀ m ∈ w.ms, e.Record m
  below : ∀ m ∈ w.ms, m.length ≤ w.bestLen
  increase : LengthsIncrease w.ms
  count : w.ms.length + 1 ≤ w.bestLen
  visits : w.ms.length ≤ 2 + used

/-- The end of the call: as above, and a record of the nice length or more stands alone; fewer than the nice length
otherwise. -/
structure Advance.Answer (e : Advance) (depth : Nat) (ms : List MatchRec) : Prop where
  good : ∀ m ∈ ms, e.Record m
  increase : LengthsIncrease ms
  alone : ∀ m ∈ ms, e.niceLength ≤ m.length → ms = [m]
  count : ms.length ≤ 2 + min depth (e.niceLength - 4)

theorem Advance.recorded_start (e : Advance) (ht child : Sparse Word) (h : 4 ≤ e.maxlen) :
    e.Recorded 0 (e.startWalk ht child) ∧ (e.startWalk ht child).bestLen ≤ 3 := by
  have d2 : ∀ p, inWindow e.lgwin e.cur p = true → e.Record (e.matchAt p 2) := fun p hp =>
    Advance.record_of_inWindow hp (le_refl _) (by omega)
  have d3 : ∀ p, inWindow e.lgwin e.cur p = true → e.Record (e.matchAt p 3) := fun p hp =>
    Advance.record_of_inWindow hp (by decide) (by omega)
  simp only [Advance.startWalk, Advance.direct]
  split_ifs with h3 h2 h2
  all_goals simp only [Bool.and_eq_true] at *
  · refine ⟨⟨by simp, by simp, by simp, ?_, ?_, ?_, by simp, by simp⟩, le_refl _⟩
    · intro m hm
      rcases List.mem_append.1 hm with hm | hm
      · simp only [List.nil_append, List.mem_singleton] at hm; subst hm; exact d2 _ h2.1.2
      · simp only [List.mem_singleton] at hm; subst hm; exact d3 _ h3.1.2
    · intro m hm
      rcases List.mem_append.1 hm with hm | hm <;>
        · simp only [List.nil_append, List.mem_singleton] at hm; subst hm; simp [Advance.matchAt]
    · simp [LengthsIncrease, Advance.matchAt]
  · refine ⟨⟨by simp, by simp, by simp, ?_, ?_, ?_, by simp, by simp⟩, le_refl _⟩
    · intro m hm
      simp only [List.nil_append, List.mem_singleton] at hm; subst hm; exact d3 _ h3.1.2
    · intro m hm
      simp only [List.nil_append, List.mem_singleton] at hm; subst hm; simp [Advance.matchAt]
    · simp [LengthsIncrease]
  · refine ⟨⟨by simp, by simp, by simp, ?_, ?_, ?_, by simp, by simp⟩, by decide⟩
    · intro m hm
      simp only [List.nil_append, List.mem_singleton] at hm; subst hm; exact d2 _ h2.1.2
    · intro m hm
      simp only [List.nil_append, List.mem_singleton] at hm; subst hm; simp [Advance.matchAt]
    · simp [LengthsIncrease]
  · exact ⟨⟨by simp, by simp, by simp, by simp, by simp, List.Pairwise.nil, by simp, by simp⟩, by decide⟩

theorem Advance.Recorded.emit {e : Advance} {used : Nat} {w : Walk} (h : e.Recorded used w)
    (hp : inWindow e.lgwin e.cur w.prev = true) : e.Recorded (used + 1) (e.emit (e.extend w)) := by
  have hx := e.extend_le h.lenLe
  unfold Advance.emit
  split_ifs with hr
  · simp only [Bool.and_eq_true, decide_eq_true_eq] at hr
    have hb : (e.extend w).bestLen = w.bestLen := rfl
    have hm0 : (e.extend w).ms = w.ms := rfl
    have hc := h.count
    have hv := h.visits
    refine ⟨hx, h.ltLe, h.gtLe, ?_, ?_, ?_, ?_, ?_⟩
    · intro m hm
      rcases List.mem_append.1 hm with hm | hm
      · exact h.good m hm
      · simp only [List.mem_singleton] at hm; subst hm
        exact Advance.record_of_inWindow hp (by omega) hx
    · intro m hm
      rcases List.mem_append.1 hm with hm | hm
      · have := h.below m hm; simp only; omega
      · simp only [List.mem_singleton] at hm; subst hm; exact le_refl _
    · refine List.pairwise_append.2 ⟨h.increase, List.pairwise_singleton _ _, fun a ha b hb' => ?_⟩
      have := h.below a ha
      simp only [List.mem_singleton] at hb'; subst hb'
      simp only [Advance.matchAt]; omega
    · simp only [List.length_append, List.length_singleton, hm0]; omega
    · simp only [List.length_append, List.length_singleton, hm0]; omega
  · exact ⟨hx, h.ltLe, h.gtLe, h.good, h.below, h.increase, h.count, by have := h.visits; show w.ms.length ≤ _; omega⟩

theorem Advance.Recorded.descend {e : Advance} {used : Nat} {w : Walk} (h : e.Recorded used w) :
    e.Recorded used (e.descend w) := by
  obtain ⟨h1, h2, h3, h4, h5, h6, h7, h8⟩ := h
  unfold Advance.descend
  split
  · exact ⟨le_trans (min_le_left _ _) h1, h1, h3, h4, h5, h6, h7, h8⟩
  · exact ⟨le_trans (min_le_left _ _) h1, h2, h1, h4, h5, h6, h7, h8⟩

theorem Advance.descend_bestLen (e : Advance) (w : Walk) : (e.descend w).bestLen = w.bestLen := by
  unfold Advance.descend; split <;> rfl

theorem Advance.emit_bestLen (e : Advance) (w : Walk) (n : Nat) (hb : w.bestLen < n) (hl : (e.emit w).len < n) :
    (e.emit w).bestLen < n := by
  unfold Advance.emit at *; split_ifs at * <;> simp_all

theorem Advance.loop_answer (e : Advance) (hn : 4 ≤ e.niceLength) (total depth used : Nat) (hd : used + depth ≤ total)
    {w : Walk} (h : e.Recorded used w) (hb : w.bestLen < e.niceLength) : e.Answer total (e.loop depth w).ms := by
  have done : ∀ {u : Walk} {k : Nat}, k ≤ total → e.Recorded k u → u.bestLen < e.niceLength → e.Answer total u.ms := by
    intro u k hk hu hub
    refine ⟨hu.good, hu.increase, fun m hm hl => ?_, ?_⟩
    · have := hu.below m hm; omega
    · have := hu.count; have := hu.visits; omega
  induction depth generalizing used w with
  | zero => exact done (by omega) h hb
  | succ n ih =>
    unfold Advance.loop
    split
    · rename_i hp
      have h1 := h.emit hp
      simp only
      split
      · rename_i hl
        unfold Advance.collapse
        split_ifs with hr
        · have hrec : e.Record (e.matchAt (e.emit (e.extend w)).prev (e.emit (e.extend w)).len) :=
            Advance.record_of_inWindow (by rw [e.extend_prev]; exact hp) (by omega) h1.lenLe
          exact ⟨by simpa using hrec, by simp [LengthsIncrease], by simp, by simp only [List.length_singleton]; omega⟩
        · have hms : (e.emit (e.extend w)).ms = w.ms := by simp [Advance.emit, hr, Advance.extend]
          rw [hms]; exact done (by omega) h hb
      · rename_i hl
        refine ih (used + 1) (by omega) h1.descend ?_
        rw [e.descend_bestLen]
        exact e.emit_bestLen _ _ hb (by omega)
    · exact done (by omega) h hb

/-- What the call answers (R206). -/
theorem Advance.run_answer (e : Advance) (depth : Nat) (ht child : Sparse Word) (hn : 4 ≤ e.niceLength) :
    e.Answer depth (e.run depth ht child).ms := by
  unfold Advance.run
  split
  · exact ⟨by simp, List.Pairwise.nil, by simp, by simp⟩
  · rename_i hl
    have h := e.recorded_start ht child (by omega)
    exact e.loop_answer hn depth depth 0 (by omega) h.1 (by omega)

/-- The verified records of such a list are such a list (R206). -/
theorem Advance.Answer.verified {e : Advance} {depth : Nat} {ms : List MatchRec} (h : e.Answer depth ms) :
    e.Answer depth (ms.filter e.verified) := by
  refine ⟨fun m hm => h.good m (List.mem_filter.1 hm).1, h.increase.sublist List.filter_sublist, fun m hm hl => ?_,
    le_trans (List.length_filter_le _ _) h.count⟩
  have hm' := List.mem_filter.1 hm
  rw [h.alone m hm'.1 hl]
  simp [hm'.2]

theorem Advance.descend_ms (e : Advance) (w : Walk) : (e.descend w).ms = w.ms := by
  unfold Advance.descend; split <;> rfl

/-- What the loop keeps of a list: all of it, or a record of the nice length stands alone (R203). -/
theorem Advance.loop_keeps (e : Advance) (depth : Nat) {w : Walk} :
    (∀ m ∈ w.ms, m ∈ (e.loop depth w).ms) ∨ ∃ m, (e.loop depth w).ms = [m] ∧ e.niceLength ≤ m.length := by
  induction depth generalizing w with
  | zero => exact .inl fun _ h => h
  | succ n ih =>
    have hk : ∀ m ∈ w.ms, m ∈ (e.emit (e.extend w)).ms := fun m hm => by
      unfold Advance.emit; split
      · exact List.mem_append_left _ hm
      · exact hm
    unfold Advance.loop
    simp only
    split
    · split
      · rename_i hl
        unfold Advance.collapse
        split
        · exact .inr ⟨_, rfl, hl⟩
        · exact .inl hk
      · exact (ih (w := e.descend (e.emit (e.extend w)))).imp (fun h m hm => h m (by rw [e.descend_ms]; exact hk m hm)) id
    · exact .inl fun _ h => h

end Sys2Proof.Machine
end

