-- ==== Sys2Proof/Laws/Exec.lean ====
section
/-!
SUPPORT. What each command answers, by family, once its checks have passed; what a search's end leaves; the tables' form
after any number of stores.
-/
namespace Sys2Proof.Machine

/-! The checks. -/

theorem strategyOfQuality_some {q : Nat} (h : 1 ≤ q ∧ q ≤ 10) :
    ∃ h', strategyOfQuality q = some h' ∧ Strategy.quality h' = q := by
  obtain ⟨h1, h2⟩ := h
  interval_cases q <;> exact ⟨_, rfl, rfl⟩

theorem strategyOfQuality_none {q : Nat} (h : ¬ (1 ≤ q ∧ q ≤ 10)) : strategyOfQuality q = none := by
  unfold strategyOfQuality
  split <;> first | rfl | (exfalso; omega)

theorem strategyOfQuality_quality (h : Strategy) : strategyOfQuality (Strategy.quality h) = some h := by
  rcases h with h | h | _ <;> first | (cases h <;> rfl) | rfl

@[simp] theorem freshIndex_strategy (h : Strategy) : (freshIndex h).strategy? = some h := by cases h <;> rfl

/-- Tables in their RESET state read their RESET value everywhere (R222). -/
theorem freshIndex_allReset (lgwin : BitVec 5) (h : Strategy) : (freshIndex h).AllReset lgwin := by
  cases h with
  | quick h => exact fun _ => rfl
  | chain h => exact ⟨fun _ => rfl, fun _ => rfl⟩
  | tree => exact ⟨fun _ => rfl, fun _ => rfl⟩

/-- A RESET state has the tables' form for any legal window. -/
theorem freshIndex_inv (p : StrategyTable) {lgwin : BitVec 5} (hl : 10 ≤ lgwin.toNat ∧ lgwin.toNat ≤ 24) (h : Strategy) :
    (freshIndex h).Inv p lgwin := by
  cases h with
  | quick h => exact ⟨hl.1, hl.2, Sparse.wf_nil _, Sparse.below_nil _⟩
  | chain h => exact ⟨hl.1, hl.2, Sparse.wf_nil _, Sparse.below_nil _, Sparse.wf_nil _, Sparse.below_nil _⟩
  | tree => exact ⟨hl.1, hl.2, Sparse.wf_nil _, Sparse.below_nil _, Sparse.wf_nil _, Sparse.below_nil _⟩

/-! The answers. -/

section
variable {s : State}

/-- A store command's answer. -/
def State.withIndex (s : State) (t : Index) : State := { s with index := t }

@[simp] theorem State.withIndex_index (t : Index) : (s.withIndex t).index = t := rfl

theorem withIndex_self : s.withIndex s.index = s := rfl

/-- Tables of the same strategy leave everything else as it was. -/
theorem withIndex_onlyTables {t : Index} (h : t.strategy? = s.index.strategy?) : OnlyTablesChange s (s.withIndex t) := by
  refine ⟨fun _ _ => rfl, rfl, ⟨rfl, ?_, ?_, rfl⟩, ⟨rfl, rfl⟩, fun _ => rfl, fun _ => rfl, rfl, rfl, rfl⟩
  · have hc : (s.withIndex t).configured = s.configured := by simp [State.configured, State.withIndex, h]
    simp only [State.statusWord, hc]
    rfl
  · simp [State.configWord, State.quality, State.withIndex, h]

theorem exec_store (hc : s.index ≠ .absent) (hm : maskOK s = true) :
    exec .store s = .next (s.withIndex (storedIndex s 1 (s.getX 0) (s.getX 1).toNat)) := by
  unfold exec execStore
  cases hi : s.index with
  | absent => exact absurd hi hc
  | quick h qb => simp [hm, State.withIndex, regCurIx, regMaxLength]
  | chain h num ring => simp [hm, State.withIndex, regCurIx, regMaxLength]
  | tree ht child => simp [hm, State.withIndex, regCurIx, regMaxLength]

theorem exec_storeRange (hc : s.index ≠ .absent) (hm : maskOK s = true) :
    exec .storeRange s = .next (s.withIndex (storedIndex s (s.getX 3).toNat (s.getX 0) (s.getX 1).toNat)) := by
  unfold exec execStoreRange
  cases hi : s.index with
  | absent => exact absurd hi hc
  | quick h qb => simp [hm, State.withIndex, regCurIx, regMaxLength, regCount]
  | chain h num ring => simp [hm, State.withIndex, regCurIx, regMaxLength, regCount]
  | tree ht child => simp [hm, State.withIndex, regCurIx, regMaxLength, regCount]

theorem exec_prepend_quick {h : QuickStrategy} {qb : Sparse Word} (hi : s.index = .quick h qb) (hm : maskOK s = true) :
    exec .prependCustomDictionary s =
      .next (s.withIndex (storedIndex s ((s.getX 3).toNat + 1 - 8) 0#32 0)) := by
  simp [exec, execPrependCustomDictionary, hi, hm, State.withIndex, regCount, hashLoad]

theorem exec_prepend_chain {h : ChainStrategy} {num : Sparse (BitVec 16)} {ring : Sparse Word}
    (hi : s.index = .chain h num ring) (hm : maskOK s = true) :
    exec .prependCustomDictionary s =
      .next (s.withIndex (storedIndex s ((s.getX 3).toNat + 1 - 4) 0#32 0)) := by
  simp [exec, execPrependCustomDictionary, hi, hm, State.withIndex, regCount, hashLoad]

theorem exec_findLongest_quick {h : QuickStrategy} {qb : Sparse Word} (hi : s.index = .quick h qb)
    (hm : maskOK s = true) : exec .findLongestMatch s = .next ((quickSearch s h qb).finish s) := by
  simp [exec, execFindLongestMatch, hi, hm]

theorem exec_findLongest_chain {h : ChainStrategy} {num : Sparse (BitVec 16)} {ring : Sparse Word}
    (hi : s.index = .chain h num ring) (hm : maskOK s = true) :
    exec .findLongestMatch s = .next ((chainSearch s h num ring).finish s) := by
  simp [exec, execFindLongestMatch, hi, hm]

theorem exec_findAll_chain {h : ChainStrategy} {num : Sparse (BitVec 16)} {ring : Sparse Word}
    (hi : s.index = .chain h num ring) (hm : maskOK s = true) :
    exec .findAllMatches s = .next (outputMatches (chainMatches s h num ring) s) := by
  simp [exec, execFindAllMatches, hi, hm]

theorem exec_findAll_tree {ht child : Sparse Word} (hi : s.index = .tree ht child) (hm : maskOK s = true) :
    exec .findAllMatches s =
      .next (outputMatches (treeMatches s ht child)
        (s.withIndex (.tree (treeAdvanced s ht child).ht (treeAdvanced s ht child).child))) := by
  simp [exec, execFindAllMatches, hi, hm, State.withIndex]

end

/-! Every command at once: its fault, or its body (R94, R251, R252). -/

/-- The fault a command raises, `none` when it raises none; it depends on the configuration and RING_MASK alone. -/
def commandFault (i : Instr) (s : State) : ErrCode :=
  match i, s.index.strategy? with
  | .configure quality lgwin, _ =>
    if strategyOfQuality quality = none ∨ lgwin < 10 ∨ 24 < lgwin then .badConfig else .none
  | _, none => .notConfigured
  | .reset, some _ => .none
  | .findLongestMatch, some .tree => .unsupported
  | .prependCustomDictionary, some .tree => .unsupported
  | .findAllMatches, some (.quick _) => .unsupported
  | _, some _ => if maskOK s then .none else .badMask

/-- The state after a command that raises no fault. -/
def commandBody (i : Instr) (s : State) : State :=
  match i, s.index with
  | .configure quality lgwin, _ =>
    { emptyTables ((strategyOfQuality quality).getD .tree) s with lgwin := BitVec.ofNat 5 lgwin }
  | .reset, t => emptyTables (t.strategy?.getD .tree) s
  | .store, _ => s.withIndex (storedIndex s 1 (s.getX 0) (s.getX 1).toNat)
  | .storeRange, _ => s.withIndex (storedIndex s (s.getX 3).toNat (s.getX 0) (s.getX 1).toNat)
  | .prependCustomDictionary, t =>
    s.withIndex (storedIndex s ((s.getX 3).toNat + 1 - hashLoad t) 0#32 0)
  | .findLongestMatch, .quick h qb => (quickSearch s h qb).finish s
  | .findLongestMatch, .chain h num ring => (chainSearch s h num ring).finish s
  | .findLongestMatch, _ => s
  | .findAllMatches, .chain h num ring => outputMatches (chainMatches s h num ring) s
  | .findAllMatches, .tree ht child =>
    outputMatches (treeMatches s ht child)
      (s.withIndex (.tree (treeAdvanced s ht child).ht (treeAdvanced s ht child).child))
  | .findAllMatches, _ => s

/-- What a command answers: its body, or its fault recorded. -/
theorem exec_eq (i : Instr) (s : State) :
    exec i s = .next (if commandFault i s = .none then commandBody i s else raise (commandFault i s) s) := by
  cases i with
  | configure quality lgwin =>
    rcases Option.eq_none_or_eq_some (strategyOfQuality quality) with hq | ⟨h, hq⟩
    · simp [exec, execConfigure, commandFault, hq, faults]
    · by_cases hl : lgwin < 10 ∨ 24 < lgwin <;>
        simp [exec, execConfigure, commandFault, commandBody, hq, hl, faults]
  | reset =>
    rcases Option.eq_none_or_eq_some s.index.strategy? with hq | ⟨h, hq⟩ <;>
      simp [exec, execReset, commandFault, commandBody, hq, faults]
  | store =>
    cases hi : s.index <;> cases hm : maskOK s <;>
      simp [exec, execStore, commandFault, commandBody, hi, Index.strategy?, hm, faults, State.withIndex, regCurIx,
        regMaxLength]
  | storeRange =>
    cases hi : s.index <;> cases hm : maskOK s <;>
      simp [exec, execStoreRange, commandFault, commandBody, hi, Index.strategy?, hm, faults, State.withIndex, regCurIx,
        regMaxLength, regCount]
  | findLongestMatch =>
    cases hi : s.index <;> cases hm : maskOK s <;>
      simp [exec, execFindLongestMatch, commandFault, commandBody, hi, Index.strategy?, hm, faults]
  | findAllMatches =>
    cases hi : s.index <;> cases hm : maskOK s <;>
      simp [exec, execFindAllMatches, commandFault, commandBody, hi, Index.strategy?, hm, faults, State.withIndex]
  | prependCustomDictionary =>
    cases hi : s.index <;> cases hm : maskOK s <;>
      simp [exec, execPrependCustomDictionary, commandFault, commandBody, hi, Index.strategy?, hm, faults, State.withIndex,
        regCount]

/-- What a command can do: record a fault, or its body. -/
theorem exec_cases {i : Instr} {s t : State} (h : exec i s = .next t) :
    (commandFault i s = .none ∧ t = commandBody i s) ∨ (commandFault i s ≠ .none ∧ t = raise (commandFault i s) s) := by
  rw [exec_eq] at h
  simp only [Host.Outcome.next.injEq] at h
  split_ifs at h with hf
  · exact .inl ⟨hf, h.symm⟩
  · exact .inr ⟨hf, h.symm⟩

/-! The tables after stores (R223, R224, R227). -/

/-- The strategy stays. -/
theorem storedIndex_strategy (s : State) (n : Nat) (ix : Word) (maxlen : Nat) :
    (storedIndex s n ix maxlen).strategy? = s.index.strategy? := by
  unfold storedIndex
  split <;> simp_all [Index.strategy?]

/-- No position stored: the tables as they were. -/
theorem storedIndex_zero (s : State) (ix : Word) (maxlen : Nat) : storedIndex s 0 ix maxlen = s.index := by
  unfold storedIndex
  split <;> simp_all [storeMany, advanceMany]

/-- A range of positions on H10 depends on the view, the mask, the window and the parameters alone. -/
theorem advanceMany_congr {s t : State} (hr : t.ring = s.ring) (hl : t.lgwin = s.lgwin) (hp : t.params = s.params) (n : Nat)
    (ix : Word) (maxlen : Nat) (ht child : Sparse Word) :
    advanceMany t n ix maxlen ht child = advanceMany s n ix maxlen ht child := by
  induction n generalizing ix maxlen ht child with
  | zero => rfl
  | succ n ih => simp only [advanceMany, ih, advanceOneByte, State.advanceAt, hr, hl, hp]

/-- One position, then the rest. -/
theorem storedIndex_succ (s : State) (n : Nat) (ix : Word) (maxlen : Nat) :
    storedIndex s (n + 1) ix maxlen =
      storedIndex (s.withIndex (storedIndex s 1 ix maxlen)) n (ix + 1#32) (maxlen - 1) := by
  cases hi : s.index with
  | absent => simp [storedIndex, hi]
  | quick h qb => simp [storedIndex, hi, State.withIndex, storeMany, State.ring]
  | chain h num ring => simp [storedIndex, hi, State.withIndex, storeMany, State.ring]
  | tree ht child =>
    simp only [storedIndex, hi, State.withIndex_index, advanceMany]
    have h := fun x => advanceMany_congr (s := s) (t := s.withIndex x) rfl rfl rfl
    simp only [h]

/-- The tables depend on the view, the mask, the window, the parameters and the tables alone. -/
theorem storedIndex_congr {s t : State} (n : Nat) (ix : Word) (maxlen : Nat) (hi : t.index = s.index)
    (hv : t.view = s.view) (hr : t.ringMask = s.ringMask) (hl : t.lgwin = s.lgwin) (hp : t.params = s.params) :
    storedIndex t n ix maxlen = storedIndex s n ix maxlen := by
  have ha := advanceMany_congr (s := s) (t := t) (by simp only [State.ring, hv, hr]) hl hp
  unfold storedIndex
  simp only [hi, hp, State.ring, hv, hr, ha]

/-- On H1 to H9 the lookahead is not read. -/
theorem storedIndex_lookahead (s : State) (n : Nat) (ix : Word) (a b : Nat) (h : s.index.isTree = false) :
    storedIndex s n ix a = storedIndex s n ix b := by
  unfold storedIndex
  split <;> simp_all [Index.isTree]

/-- Stores keep the tables' form (R31 to R33). -/
theorem storedIndex_inv {s : State} (hp : s.params.strategy.WellFormed) (hi : s.index.Inv s.params.strategy s.lgwin) (n : Nat)
    (ix : Word) (maxlen : Nat) : (storedIndex s n ix maxlen).Inv s.params.strategy s.lgwin := by
  have hq : ∀ h, (s.params.strategy.quick h).WellFormed := by
    obtain ⟨h1, h2, h3, h4, _⟩ := hp; intro h; cases h <;> assumption
  have hc : ∀ h, (s.params.strategy.chain h).WellFormed := by
    obtain ⟨_, _, _, _, h5, h6, h7, h8, h9⟩ := hp; intro h; cases h <;> assumption
  unfold storedIndex
  split
  · rename_i h; rw [h] at hi; exact hi
  · rename_i h qb h'
    rw [h'] at hi
    exact ⟨hi.1, hi.2.1, storeMany_keeps (P := fun qb => Sparse.Wf 0#32 qb ∧ Sparse.Below _ qb)
      (fun ix _ ht => quickStore_inv (hq h) _ ix ht) n ix qb hi.2.2⟩
  · rename_i h num ring h'
    rw [h'] at hi
    have := storeMany_keeps (fun ix t ht => chainStore_inv (hc h) s.ring ix (t := t) ht) n ix (num, ring)
      hi.2.2
    exact ⟨hi.1, hi.2.1, this⟩
  · rename_i ht child h'
    rw [h'] at hi
    have := advanceMany_table s n ix maxlen (ht := ht) (child := child) ⟨hi.2.2.1, hi.2.2.2.1⟩ hi.2.2.2.2
    exact ⟨hi.1, hi.2.1, this.1.1, this.1.2, this.2⟩

/-- The H10 body of FIND_ALL_MATCHES is one call of `AdvanceOneByte` (R206), its matches the byte-exact ones. -/
theorem treeAdvanced_eq (s : State) (ht child : Sparse Word) :
    treeAdvanced s ht child =
      (s.advanceAt (s.getX 0) (s.getX 1).toNat true).run s.params.h10MaxSearchDepth ht child := rfl

theorem treeMatches_eq (s : State) (ht child : Sparse Word) :
    treeMatches s ht child =
      (treeAdvanced s ht child).ms.filter (s.advanceAt (s.getX 0) (s.getX 1).toNat true).verified := rfl

/-- That call keeps the tables' form. -/
theorem treeAdvanced_inv {s : State} {ht child : Sparse Word} (p : StrategyTable)
    (hi : (Index.tree ht child).Inv p s.lgwin) :
    (Index.tree (treeAdvanced s ht child).ht (treeAdvanced s ht child).child).Inv p s.lgwin := by
  have := Advance.run_table
    ⟨s.ring, s.lgwin, s.params.h10NiceLength, s.getX regCurIx, (s.getX regMaxLength).toNat, true⟩
    s.params.h10MaxSearchDepth (ht := ht) (child := child) ⟨hi.2.2.1, hi.2.2.2.1⟩ hi.2.2.2.2
  exact ⟨hi.1, hi.2.1, this.1.1, this.1.2, this.2⟩

end Sys2Proof.Machine
end

