-- ==== Sys2Proof/Laws/Frame.lean ====
section
/-!
SUPPORT. What a command's body leaves as it was (R229), what it does to the invariant's parts, and that the host's own side
does not matter to it.
-/
namespace Sys2Proof.Machine

/-! Fields no body writes. -/

section
variable (b : Search) (ms : List MatchRec) (i : Instr) (s : State)

@[simp] theorem finish_index : (b.finish s).index = s.index := (Search.finish_frame b s).2.1
@[simp] theorem finish_cmd : (b.finish s).cmd = s.cmd := by unfold Search.finish; split <;> rfl
@[simp] theorem finish_err : (b.finish s).err = s.err := by unfold Search.finish; split <;> rfl
@[simp] theorem finish_errOp : (b.finish s).errOp = s.errOp := by unfold Search.finish; split <;> rfl
@[simp] theorem finish_lgwin : (b.finish s).lgwin = s.lgwin := by unfold Search.finish; split <;> rfl
@[simp] theorem finish_ringMask : (b.finish s).ringMask = s.ringMask := by unfold Search.finish; split <;> rfl
@[simp] theorem finish_view : (b.finish s).view = s.view := by unfold Search.finish; split <;> rfl
@[simp] theorem finish_matchSpace : (b.finish s).matchSpace = s.matchSpace := by unfold Search.finish; split <;> rfl
@[simp] theorem finish_params : (b.finish s).params = s.params := by unfold Search.finish; split <;> rfl
@[simp] theorem finish_host : (b.finish s).host = s.host := by unfold Search.finish; split <;> rfl
@[simp] theorem finish_readData : (b.finish s).readData = s.readData := by unfold Search.finish; split <;> rfl
@[simp] theorem finish_numDictLookups : (b.finish s).numDictLookups = b.lookups := by
  unfold Search.finish; split <;> rfl
@[simp] theorem finish_numDictMatches : (b.finish s).numDictMatches = b.hits := by unfold Search.finish; split <;> rfl

@[simp] theorem outputMatches_bestScore : (outputMatches ms s).bestScore = s.bestScore := rfl
@[simp] theorem outputMatches_index : (outputMatches ms s).index = s.index := rfl
@[simp] theorem outputMatches_cmd : (outputMatches ms s).cmd = s.cmd := rfl
@[simp] theorem outputMatches_err : (outputMatches ms s).err = s.err := rfl
@[simp] theorem outputMatches_errOp : (outputMatches ms s).errOp = s.errOp := rfl
@[simp] theorem outputMatches_lgwin : (outputMatches ms s).lgwin = s.lgwin := rfl
@[simp] theorem outputMatches_ringMask : (outputMatches ms s).ringMask = s.ringMask := rfl
@[simp] theorem outputMatches_numDictLookups : (outputMatches ms s).numDictLookups = s.numDictLookups := rfl
@[simp] theorem outputMatches_numDictMatches : (outputMatches ms s).numDictMatches = s.numDictMatches := rfl
@[simp] theorem outputMatches_view : (outputMatches ms s).view = s.view := rfl
@[simp] theorem outputMatches_params : (outputMatches ms s).params = s.params := rfl
@[simp] theorem outputMatches_host : (outputMatches ms s).host = s.host := rfl
@[simp] theorem outputMatches_readData : (outputMatches ms s).readData = s.readData := rfl

/-- FIND_ALL_MATCHES writes `x[7]` and no other register. -/
theorem outputMatches_regs : RegsKept [7] s (outputMatches ms s) := fun j hj =>
  State.getX_setX_ne _ _ (by simpa [regResult] using hj)

/-- With no match, only RESULT is written (R187). -/
theorem outputMatches_nil : outputMatches [] s = s.setX 7 0#32 := rfl

/-- What no command's body writes. -/
theorem commandBody_fixed :
    (commandBody i s).cmd = s.cmd ∧ (commandBody i s).err = s.err ∧ (commandBody i s).errOp = s.errOp ∧
    (commandBody i s).ringMask = s.ringMask ∧ (commandBody i s).view = s.view ∧ (commandBody i s).params = s.params ∧
    (commandBody i s).host = s.host ∧ (commandBody i s).readData = s.readData := by
  unfold commandBody
  split <;> first | exact ⟨rfl, rfl, rfl, rfl, rfl, rfl, rfl, rfl⟩ | simp

end

/-- A command answers a next state in every state (R233). -/
theorem exec_answers (i : Instr) (s : State) : ∃ t, exec i s = .next t := ⟨_, exec_eq i s⟩

/-- A body that runs with no fault recorded records none. -/
theorem commandFault_of_err {i : Instr} {s t : State} (he : s.err = .none) (h : exec i s = .next t) :
    t.err = commandFault i s := by
  rcases exec_cases h with ⟨h1, rfl⟩ | ⟨h1, rfl⟩
  · rw [(commandBody_fixed i s).2.1, he, h1]
  · rfl

/-- A command keeps the configuration, or is a CONFIGURE with legal operands, after which some tables exist (R24, R25). -/
theorem exec_config {i : Instr} {s t : State} (h : exec i s = .next t) :
    (t.configWord = s.configWord ∧ t.index.strategy? = s.index.strategy? ∧ t.lgwin = s.lgwin) ∨
    ∃ quality lgwin, i = .configure quality lgwin ∧ 1 ≤ quality ∧ quality ≤ 10 ∧ 10 ≤ lgwin ∧ lgwin ≤ 24 ∧
      t.index ≠ .absent := by
  have key : ∀ u : State, u.index.strategy? = s.index.strategy? → u.lgwin = s.lgwin →
      u.configWord = s.configWord ∧ u.index.strategy? = s.index.strategy? ∧ u.lgwin = s.lgwin := by
    intro u h1 h2
    have hq : u.quality = s.quality := by simp [State.quality, h1]
    exact ⟨by simp only [State.configWord, hq, h2], h1, h2⟩
  rcases exec_cases h with ⟨hf, rfl⟩ | ⟨_, rfl⟩
  · cases i with
    | configure quality lgwin =>
      right
      simp only [commandFault, ite_eq_right_iff, reduceCtorEq, imp_false, not_or] at hf
      have hq : 1 ≤ quality ∧ quality ≤ 10 := by
        by_contra hc; exact hf.1 (strategyOfQuality_none hc)
      refine ⟨quality, lgwin, rfl, hq.1, hq.2, by omega, by omega, ?_⟩
      simp only [commandBody, emptyTables_index]
      cases (strategyOfQuality quality).getD .tree <;> simp [freshIndex]
    | reset =>
      refine .inl (key _ ?_ rfl)
      rcases Option.eq_none_or_eq_some s.index.strategy? with h | ⟨h, h'⟩
      · simp [commandFault, h] at hf
      · simp [commandBody, h']
    | store => exact .inl (key _ (storedIndex_strategy _ _ _ _) rfl)
    | storeRange => exact .inl (key _ (storedIndex_strategy _ _ _ _) rfl)
    | prependCustomDictionary => exact .inl (key _ (storedIndex_strategy _ _ _ _) rfl)
    | findLongestMatch =>
      refine .inl (key _ ?_ ?_) <;> unfold commandBody <;> split <;> simp_all
    | findAllMatches =>
      refine .inl (key _ ?_ ?_) <;> unfold commandBody <;> split <;> simp_all [Index.strategy?, State.withIndex]
  · exact .inl ⟨rfl, rfl, rfl⟩

/-! The host's pending accesses and the value last read do not matter to a command. -/

/-- The state with the host's own side replaced. -/
def State.withHost (s : State) (l : List HostAction) (r : Word64) : State := { s with host := l, readData := r }

theorem commandFault_withHost (i : Instr) (s : State) (l : List HostAction) (r : Word64) :
    commandFault i (s.withHost l r) = commandFault i s := rfl

theorem advanceMany_withHost (s : State) (l : List HostAction) (r : Word64) (n : Nat) (ix : Word) (maxlen : Nat)
    (ht child : Sparse Word) : advanceMany (s.withHost l r) n ix maxlen ht child = advanceMany s n ix maxlen ht child :=
  advanceMany_congr (s := s) (t := s.withHost l r) rfl rfl rfl n ix maxlen ht child

theorem storedIndex_withHost (s : State) (l : List HostAction) (r : Word64) (n : Nat) (ix : Word) (maxlen : Nat) :
    storedIndex (s.withHost l r) n ix maxlen = storedIndex s n ix maxlen :=
  storedIndex_congr (s := s) (t := s.withHost l r) n ix maxlen rfl rfl rfl rfl rfl

theorem finish_withHost (b : Search) (s : State) (l : List HostAction) (r : Word64) :
    b.finish (s.withHost l r) = (b.finish s).withHost l r := by unfold Search.finish; split <;> rfl

theorem commandBody_withHost (i : Instr) (s : State) (l : List HostAction) (r : Word64) :
    commandBody i (s.withHost l r) = (commandBody i s).withHost l r := by
  cases i with
  | configure quality lgwin => rfl
  | reset => rfl
  | store => simp only [commandBody, storedIndex_withHost]; rfl
  | storeRange => simp only [commandBody, storedIndex_withHost]; rfl
  | prependCustomDictionary => simp only [commandBody, storedIndex_withHost]; rfl
  | findLongestMatch =>
    have hi : (s.withHost l r).index = s.index := rfl
    simp only [commandBody, hi]
    cases s.index with
    | absent => rfl
    | quick h qb => exact finish_withHost _ _ _ _
    | chain h num ring => exact finish_withHost _ _ _ _
    | tree ht child => rfl
  | findAllMatches =>
    have hi : (s.withHost l r).index = s.index := rfl
    simp only [commandBody, hi]
    cases s.index <;> rfl

/-- A command in a state with another host side answers the same state with that host side. -/
theorem exec_withHost {i : Instr} {s t : State} (h : exec i s = .next t) (l : List HostAction) (r : Word64) :
    exec i (s.withHost l r) = .next (t.withHost l r) := by
  rw [exec_eq] at h ⊢
  rw [commandFault_withHost, commandBody_withHost]
  simp only [Host.Outcome.next.injEq] at h
  subst h
  split <;> rfl

/-! The invariant. -/

theorem State.Inv.raise {s : State} (h : s.Inv) {e : ErrCode} (he : e ≠ .none) : (raise e s).Inv :=
  ⟨h.1, h.2.1, h.2.2.1, fun h' => absurd h' he, h.2.2.2.2⟩

/-- Other tables of the right form. -/
theorem State.Inv.withIndex {s : State} (h : s.Inv) {t : Index} (ht : t.Inv s.params.strategy s.lgwin) :
    (s.withIndex t).Inv := ⟨h.1, h.2.1, ht, h.2.2.2.1, h.2.2.2.2⟩

theorem State.Inv.setX {s : State} (h : s.Inv) (i : Fin 16) (v : Word) : (s.setX i v).Inv := h

theorem State.Inv.finish {s : State} (h : s.Inv) (b : Search) : (b.finish s).Inv := by
  unfold Search.finish; split <;> exact h

theorem State.Inv.output {s : State} (h : s.Inv) (ms : List MatchRec) : (outputMatches ms s).Inv :=
  ⟨h.1, ⟨writeRecords_wf _ _ h.2.1.1, writeRecords_below _ _ h.2.1.2⟩, h.2.2⟩

/-- Tables that exist stand in a legal window. -/
theorem Index.Inv.window {p : StrategyTable} {lgwin : BitVec 5} {t : Index} (h : t.Inv p lgwin)
    (hs : t.strategy? ≠ none) : 10 ≤ lgwin.toNat ∧ lgwin.toNat ≤ 24 := by
  cases t with
  | absent => exact absurd rfl hs
  | quick _ _ => exact ⟨h.1, h.2.1⟩
  | chain _ _ _ => exact ⟨h.1, h.2.1⟩
  | tree _ _ => exact ⟨h.1, h.2.1⟩

/-- A command keeps the invariant. -/
theorem exec_inv {i : Instr} {s t : State} (h : s.Inv) (ht : exec i s = .next t) : t.Inv := by
  rcases exec_cases ht with ⟨hf, rfl⟩ | ⟨hf, rfl⟩
  · have hst := fun n ix maxlen => h.withIndex (storedIndex_inv h.2.2.2.2.1 h.2.2.1 n ix maxlen)
    cases i with
    | configure quality lgwin =>
      have hw : 10 ≤ lgwin ∧ lgwin ≤ 24 := by
        simp only [commandFault, ite_eq_right_iff, reduceCtorEq, imp_false, not_or] at hf; omega
      have hb : (BitVec.ofNat 5 lgwin).toNat = lgwin := by
        rw [BitVec.toNat_ofNat]; exact Nat.mod_eq_of_lt (by omega)
      exact ⟨h.1, h.2.1, freshIndex_inv (lgwin := BitVec.ofNat 5 lgwin) _ (by rw [hb]; exact hw) _, h.2.2.2⟩
    | reset =>
      have hs : s.index.strategy? ≠ none := by
        intro hn; simp [commandFault, hn] at hf
      exact ⟨h.1, h.2.1, freshIndex_inv _ (h.2.2.1.window hs) _, h.2.2.2⟩
    | store => exact hst _ _ _
    | storeRange => exact hst _ _ _
    | prependCustomDictionary => exact hst _ _ _
    | findLongestMatch =>
      unfold commandBody
      split <;> first | exact h | exact h.finish _ | simp_all
    | findAllMatches =>
      unfold commandBody
      split
      all_goals first | exact h | exact h.output _ | simp_all
      rename_i ht child _ hi
      have hx := h.2.2.1
      rw [hi] at hx
      exact (h.withIndex (treeAdvanced_inv _ hx)).output _
  · exact h.raise hf

end Sys2Proof.Machine
end

