-- ==== Sys2Proof/Laws/Find.lean ====
section
/-!
SUPPORT. The find commands from the host's registers: what a whole search can end in, and what its end leaves.
-/
namespace Sys2Proof.Machine

/-! Checks after a store. -/

theorem maskOK_withIndex (s : State) (n : Nat) (ix : Word) (maxlen : Nat) :
    maskOK (s.withIndex (storedIndex s n ix maxlen)) = maskOK s := by
  have h := storedIndex_strategy s n ix maxlen
  have ht : (storedIndex s n ix maxlen).isTree = s.index.isTree := by
    revert h; cases storedIndex s n ix maxlen <;> cases s.index <;> simp [Index.strategy?, Index.isTree]
  have hi : (s.withIndex (storedIndex s n ix maxlen)).index.isTree = s.index.isTree := ht
  unfold maskOK
  rw [hi]
  rfl

theorem storedIndex_ne_absent {s : State} (n : Nat) (ix : Word) (maxlen : Nat) (hc : s.index ≠ .absent) :
    storedIndex s n ix maxlen ≠ .absent := by
  have h := storedIndex_strategy s n ix maxlen
  intro hx
  rw [hx] at h
  revert h hc
  cases s.index <;> simp [Index.strategy?]

/-! Searches from the host's registers. -/

/-- `quickFind_cases` with the operands in their registers. -/
theorem quickSearch_cases (s : State) (h : QuickStrategy) (qb : Sparse Word) :
    (Search.Tracks (Search.start s) (QuickGood s.ring (s.getX 0) (s.getX 1) (s.getX 2) (s.getX 8)
        (quickSlots (s.params.strategy.quick h) s.ring qb (s.getX 0) (s.params.strategy.quick h).sweep))
      (quickSearch s h qb) ∧
      (5 ≤ (s.getX 1).toNat → (s.params.strategy.quick h).useDict = true →
        throttleOpen s.numDictLookups s.numDictMatches = true → (quickSearch s h qb).found = true)) ∨
    (5 ≤ (s.getX 1).toNat ∧ (s.params.strategy.quick h).useDict = true ∧
      throttleOpen s.numDictLookups s.numDictMatches = true ∧
      quickSearch s h qb =
        dictProbe s.params.dict s.ring (s.getX 0) (s.getX 1) (s.getX 2) (dictKey s.ring (s.getX 0)) (Search.start s)) :=
  quickFind_cases _ _ _ _ _ _ _ _ (scoreFits_toInt _) rfl

/-- `chainFind_cases` with the operands in their registers. -/
theorem chainSearch_cases (s : State) (h : ChainStrategy) (num : Sparse (BitVec 16)) (ring : Sparse Word) :
    (Search.Tracks (Search.start s) (ChainGood (s.params.strategy.chain h).lastDistToCheck s s.ring (s.getX 0) (s.getX 1) (s.getX 2)
        (chainWalk (s.params.strategy.chain h) s.ring num ring (s.getX 0) (s.getX 2))) (chainSearch s h num ring) ∧
      (4 ≤ (s.getX 1).toNat → throttleOpen s.numDictLookups s.numDictMatches = true →
        (chainSearch s h num ring).found = true)) ∨
    (4 ≤ (s.getX 1).toNat ∧ throttleOpen s.numDictLookups s.numDictMatches = true ∧
      chainSearch s h num ring =
        dictProbe s.params.dict s.ring (s.getX 0) (s.getX 1) (s.getX 2) (dictKey s.ring (s.getX 0) + 1)
          (dictProbe s.params.dict s.ring (s.getX 0) (s.getX 1) (s.getX 2) (dictKey s.ring (s.getX 0))
            (Search.start s))) :=
  chainFind_cases _ _ _ _ _ _ _ _ (scoreFits_toInt _) rfl

/-- Step 1 and the sweep examine `quickCandidates` in order (R163). -/
theorem quickCached_considers (s : State) (b : Search) :
    quickCached s.ring (s.getX 0) (s.getX 1) (s.getX 8) b =
      (if 1 ≤ (s.getX 8).toInt ∧ (s.getX 8).toInt ≤ (s.getX 0).toNat then
        [(⟨s.getX 8, 4, fun len => scoreLast len 0⟩ : Candidate)] else []).foldl
        (Search.consider s.ring (s.getX 0) (s.getX 1)) b := by
  unfold quickCached
  split_ifs <;> rfl

theorem quickProbe_considers (r : Ring) (cur maxlen maxback prev : Word) (b : Search) :
    quickProbe r cur maxlen maxback prev b =
      if decide (backward cur prev ≠ 0#32 ∧ backward cur prev ≤ maxback) = true then
        b.consider r cur maxlen ⟨backward cur prev, 4, fun len => score len (backward cur prev)⟩ else b := by
  have hx : cur - backward cur prev = prev := by simp [backward]
  simp only [quickProbe, Search.consider, hx, decide_eq_true_eq]
  by_cases h : backward cur prev = 0#32 ∨ maxback < backward cur prev
  · rw [if_pos h, if_neg]
    rintro ⟨h1, h2⟩
    exact h.elim h1 (BitVec.not_lt.2 h2)
  · have h' : backward cur prev ≠ 0#32 ∧ backward cur prev ≤ maxback := by rwa [not_or, BitVec.not_lt] at h
    rw [if_neg h]
    exact (if_pos h').symm

/-- The slots of the sweep, as candidates. -/
def quickSlotCandidates (s : State) (h : QuickStrategy) (qb : Sparse Word) : List Candidate :=
  (((List.range (s.params.strategy.quick h).sweep).map fun j =>
    s.getX 0 - qbGet qb (hash5 s.ring (s.getX 0) (s.params.strategy.quick h).bucketBits + j)).filter fun d =>
      decide (d ≠ 0#32 ∧ d ≤ s.getX 2)).map fun d => ⟨d, 4, fun len => score len d⟩

theorem quickSweep_considers (s : State) (h : QuickStrategy) (qb : Sparse Word) (b : Search) :
    quickSweep (s.params.strategy.quick h) s.ring qb (s.getX 0) (s.getX 1) (s.getX 2) b =
      (quickSlotCandidates s h qb).foldl (Search.consider s.ring (s.getX 0) (s.getX 1)) b := by
  simp only [quickSlotCandidates, quickSweep, List.foldl_map, List.foldl_filter]
  congr 1
  funext b j
  exact quickProbe_considers _ _ _ _ _ b

/-- A search of H1 to H4 ends with the last candidate taken (on H1 the first), or, when none is, as it began or with one
dictionary probe (R163). -/
theorem quickSearch_takes (s : State) (h : QuickStrategy) (qb : Sparse Word) (hl : 5 ≤ (s.getX 1).toNat) :
    let taken := takenFrom s.ring (s.getX 0) (s.getX 1).toNat (s.getX 4).toNat s.bestScore.toInt (quickCandidates s h qb)
    match (if (s.params.strategy.quick h).sweep = 1 then taken.head? else taken.getLast?) with
    | none => quickSearch s h qb = Search.start s ∨
        quickSearch s h qb = dictProbe s.params.dict s.ring (s.getX 0) (s.getX 1) (s.getX 2) (dictKey s.ring (s.getX 0))
          (Search.start s)
    | some c => quickSearch s h qb = (Search.start s).took s.ring (s.getX 0) (s.getX 1) c := by
  intro taken
  have hdict : ∀ b : Search, b.found = true →
      quickDict (s.params.strategy.quick h) s.params.dict s.ring (s.getX 0) (s.getX 1) (s.getX 2) b = b := fun b hb => by
    simp [quickDict, hb]
  have hidle : quickDict (s.params.strategy.quick h) s.params.dict s.ring (s.getX 0) (s.getX 1) (s.getX 2)
        (Search.start s) = Search.start s ∨
      quickDict (s.params.strategy.quick h) s.params.dict s.ring (s.getX 0) (s.getX 1) (s.getX 2) (Search.start s) =
        dictProbe s.params.dict s.ring (s.getX 0) (s.getX 1) (s.getX 2) (dictKey s.ring (s.getX 0)) (Search.start s) := by
    unfold quickDict
    split
    · exact .inr rfl
    · exact .inl rfl
  -- the whole list, when the sweep is entered
  have hall : ∀ o : Option Candidate, taken.getLast? = o →
      match o with
      | none => (quickSweep (s.params.strategy.quick h) s.ring qb (s.getX 0) (s.getX 1) (s.getX 2)
          (quickCached s.ring (s.getX 0) (s.getX 1) (s.getX 8) (Search.start s))) = Search.start s
      | some c => (quickSweep (s.params.strategy.quick h) s.ring qb (s.getX 0) (s.getX 1) (s.getX 2)
          (quickCached s.ring (s.getX 0) (s.getX 1) (s.getX 8) (Search.start s))) =
            (Search.start s).took s.ring (s.getX 0) (s.getX 1) c := fun o ho => by
    have hf := foldl_consider s.ring (s.getX 0) (s.getX 1) (quickCandidates s h qb) (Search.start s)
    rw [quickSweep_considers, quickCached_considers, ← List.foldl_append]
    have ht : (takenFrom s.ring (s.getX 0) (s.getX 1).toNat (Search.start s).bestLen.toNat (Search.start s).bestScore
        (quickCandidates s h qb)).getLast? = o := ho
    rw [ht] at hf
    cases o <;> exact hf
  have hfind : quickSearch s h qb =
      if ((quickCached s.ring (s.getX 0) (s.getX 1) (s.getX 8) (Search.start s)).found &&
          (s.params.strategy.quick h).sweep == 1) = true then
        quickCached s.ring (s.getX 0) (s.getX 1) (s.getX 8) (Search.start s)
      else quickDict (s.params.strategy.quick h) s.params.dict s.ring (s.getX 0) (s.getX 1) (s.getX 2)
        (quickSweep (s.params.strategy.quick h) s.ring qb (s.getX 0) (s.getX 1) (s.getX 2)
          (quickCached s.ring (s.getX 0) (s.getX 1) (s.getX 8) (Search.start s))) :=
    if_neg (Nat.not_lt.2 hl)
  -- and on H1, when the last distance was taken or not
  have hone : (s.params.strategy.quick h).sweep = 1 →
      (∃ c, taken.head? = some c ∧ quickCached s.ring (s.getX 0) (s.getX 1) (s.getX 8) (Search.start s) =
        (Search.start s).took s.ring (s.getX 0) (s.getX 1) c) ∨
      (taken.head? = taken.getLast? ∧
        (quickCached s.ring (s.getX 0) (s.getX 1) (s.getX 8) (Search.start s)).found = false) := fun h1 => by
    have hslots : (quickSlotCandidates s h qb).length ≤ 1 := by
      unfold quickSlotCandidates
      rw [List.length_map]
      exact le_trans (List.length_filter_le _ _) (by simp [h1])
    have hshort : ∀ n sc, (takenFrom s.ring (s.getX 0) (s.getX 1).toNat n sc (quickSlotCandidates s h qb)).head? =
        (takenFrom s.ring (s.getX 0) (s.getX 1).toNat n sc (quickSlotCandidates s h qb)).getLast? := fun n sc => by
      have := (takenFrom_sublist s.ring (s.getX 0) (s.getX 1).toNat (quickSlotCandidates s h qb) n sc).length_le
      match hx : takenFrom s.ring (s.getX 0) (s.getX 1).toNat n sc (quickSlotCandidates s h qb) with
      | [] => rfl
      | [_] => rfl
      | _ :: _ :: _ => rw [hx] at this; simp at this; omega
    have hcand : quickCandidates s h qb =
        (if 1 ≤ (s.getX 8).toInt ∧ (s.getX 8).toInt ≤ (s.getX 0).toNat then
          [(⟨s.getX 8, 4, fun len => scoreLast len 0⟩ : Candidate)] else []) ++ quickSlotCandidates s h qb := rfl
    rw [quickCached_considers, foldl_consider]
    simp only [taken, hcand]
    split_ifs with hc
    · rw [List.singleton_append]
      simp only [takenFrom]
      split_ifs with h2 h3
      · exact .inl ⟨_, rfl, rfl⟩
      · exact absurd h2 h3
      · rename_i h4; exact absurd h4 h2
      · exact .inr ⟨hshort _ _, rfl⟩
    · exact .inr ⟨hshort _ _, rfl⟩
  have hlast : (∃ c, taken.head? = some c ∧ (s.params.strategy.quick h).sweep = 1 ∧
        quickSearch s h qb = (Search.start s).took s.ring (s.getX 0) (s.getX 1) c) ∨
      ((if (s.params.strategy.quick h).sweep = 1 then taken.head? else taken.getLast?) = taken.getLast? ∧
        quickSearch s h qb = quickDict (s.params.strategy.quick h) s.params.dict s.ring (s.getX 0) (s.getX 1) (s.getX 2)
          (quickSweep (s.params.strategy.quick h) s.ring qb (s.getX 0) (s.getX 1) (s.getX 2)
            (quickCached s.ring (s.getX 0) (s.getX 1) (s.getX 8) (Search.start s)))) := by
    by_cases h1 : (s.params.strategy.quick h).sweep = 1
    · rcases hone h1 with ⟨c, h2, h3⟩ | ⟨h2, h3⟩
      · refine .inl ⟨c, h2, h1, ?_⟩
        rw [hfind, if_pos (by rw [h3, h1]; rfl), h3]
      · exact .inr ⟨by rw [if_pos h1, h2], by rw [hfind, if_neg (by simp [h3])]⟩
    · exact .inr ⟨if_neg h1, by rw [hfind, if_neg (by simp [h1])]⟩
  rcases hlast with ⟨c, h2, h1, h3⟩ | ⟨h2, h3⟩
  · rw [if_pos h1, h2]; exact h3
  · rw [h2, h3]
    have := hall _ rfl
    revert this
    cases taken.getLast? with
    | none => intro h4; simp only at h4 ⊢; rw [h4]; exact hidle
    | some c => intro h4; simp only at h4 ⊢; rw [h4]; exact hdict _ rfl

/-- Steps 1 and 2 examine `chainCandidates` in order (R185). -/
theorem chainCached_considers (s : State) (b : Search) (i : Fin 16) :
    chainCached s s.ring (s.getX 0) (s.getX 1) (s.getX 2) b i =
      ((if 1 ≤ cacheCandidate s i ∧ cacheCandidate s i ≤ (s.getX 0).toNat ∧ cacheCandidate s i ≤ (s.getX 2).toNat then
        some (⟨BitVec.ofInt 32 (cacheCandidate s i), if i.val < 2 then 2 else 3, fun len => scoreLast len i⟩ : Candidate)
        else none).elim b (b.consider s.ring (s.getX 0) (s.getX 1))) := by
  have hok : cacheCandidateOK (cacheCandidate s i) (s.getX 0) (s.getX 2) = true ↔
      1 ≤ cacheCandidate s i ∧ cacheCandidate s i ≤ (s.getX 0).toNat ∧ cacheCandidate s i ≤ (s.getX 2).toNat := by
    simp [cacheCandidateOK, and_assoc]
  have hlen : ∀ n : Nat, (3 ≤ n ∨ (n = 2 ∧ i.val < 2)) ↔ (if i.val < 2 then 2 else 3) ≤ n := fun n => by
    split_ifs <;> omega
  unfold chainCached Search.consider
  by_cases h : 1 ≤ cacheCandidate s i ∧ cacheCandidate s i ≤ (s.getX 0).toNat ∧ cacheCandidate s i ≤ (s.getX 2).toNat
  · simp only [hok.2 h, if_pos h, Option.elim_some, hlen, if_true]
  · simp only [hok, if_neg h, Option.elim_none]

theorem chainProbe_considers (r : Ring) (cur maxlen : Word) (b : Search) (prev : Word) :
    chainProbe r cur maxlen b prev =
      b.consider r cur maxlen ⟨backward cur prev, 4, fun len => score len (backward cur prev)⟩ := by
  have hx : cur - backward cur prev = prev := by simp [backward]
  simp only [chainProbe, Search.consider, hx]

theorem foldl_elim {α β γ : Type} (g : β → γ → β) (f : α → Option γ) (l : List α) : ∀ b,
    l.foldl (fun b a => (f a).elim b (g b)) b = (l.filterMap f).foldl g b := by
  induction l with
  | nil => exact fun _ => rfl
  | cons a rest ih =>
    intro b
    rw [List.foldl_cons, List.filterMap_cons, ih]
    cases f a <;> rfl

/-- A search of H5 to H9 ends with the last candidate taken, or, when none is, as it began or with the pair of dictionary
probes (R185). -/
theorem chainSearch_takes (s : State) (h : ChainStrategy) (num : Sparse (BitVec 16)) (ring : Sparse Word)
    (hl : 4 ≤ (s.getX 1).toNat) :
    let taken :=
      takenFrom s.ring (s.getX 0) (s.getX 1).toNat (s.getX 4).toNat s.bestScore.toInt (chainCandidates s h num ring)
    match taken.getLast? with
    | none => chainSearch s h num ring = Search.start s ∨
        chainSearch s h num ring = dictProbe s.params.dict s.ring (s.getX 0) (s.getX 1) (s.getX 2)
          (dictKey s.ring (s.getX 0) + 1)
          (dictProbe s.params.dict s.ring (s.getX 0) (s.getX 1) (s.getX 2) (dictKey s.ring (s.getX 0)) (Search.start s))
    | some c => chainSearch s h num ring = (Search.start s).took s.ring (s.getX 0) (s.getX 1) c := by
  intro taken
  have hf := foldl_consider s.ring (s.getX 0) (s.getX 1) (chainCandidates s h num ring) (Search.start s)
  have hw : (chainWalk (s.params.strategy.chain h) s.ring num ring (s.getX 0) (s.getX 2)).foldl
        (chainProbe s.ring (s.getX 0) (s.getX 1))
        (chainRecent (s.params.strategy.chain h) s s.ring (s.getX 0) (s.getX 1) (s.getX 2) (Search.start s)) =
      (chainCandidates s h num ring).foldl (Search.consider s.ring (s.getX 0) (s.getX 1)) (Search.start s) := by
    rw [chainCandidates]
    simp only [List.foldl_append, List.foldl_map, ← foldl_elim]
    unfold chainRecent
    rw [show chainCached s s.ring (s.getX 0) (s.getX 1) (s.getX 2) = _ from
      funext fun b => funext fun i => chainCached_considers s b i]
    rw [show chainProbe s.ring (s.getX 0) (s.getX 1) = _ from
      funext fun b => funext fun prev => chainProbe_considers s.ring (s.getX 0) (s.getX 1) b prev]
    rfl
  have hfind : chainSearch s h num ring = chainDict s.params.dict s.ring (s.getX 0) (s.getX 1) (s.getX 2)
      (taken.getLast?.elim (Search.start s) ((Search.start s).took s.ring (s.getX 0) (s.getX 1))) := by
    refine (if_neg (Nat.not_lt.2 hl)).trans ?_
    exact congrArg _ (hw.trans hf)
  rw [hfind]
  cases taken.getLast? with
  | none =>
    simp only [Option.elim_none]
    unfold chainDict
    split
    · exact .inr rfl
    · exact .inl rfl
  | some c =>
    simp only [Option.elim_some]
    exact if_neg (by simp [Search.took])

/-- What every search keeps (R166 (a)): nothing of the outputs changes until a candidate is taken, and a candidate taken
beats the host's BEST_SCORE. -/
structure Search.Improves (s : State) (b : Search) : Prop where
  idle : b.found = false →
    b.bestLen = s.getX 4 ∧ b.bestLenCode = s.getX 5 ∧ b.bestDistance = s.getX 6 ∧ b.bestScore = s.bestScore.toInt
  better : b.found = true → s.bestScore.toInt < b.bestScore
  fits : ScoreFits b.bestScore

theorem Search.Improves.start (s : State) : Search.Improves s (Search.start s) :=
  ⟨fun _ => ⟨rfl, rfl, rfl, rfl⟩, fun h => by simp [Search.start] at h, scoreFits_toInt _⟩

theorem Search.Tracks.improves {s : State} {G : Nat → Word → Int → Prop} {b : Search}
    (h : Search.Tracks (Search.start s) G b) : Search.Improves s b :=
  ⟨fun hf => by have := h.idle hf; subst this; exact ⟨rfl, rfl, rfl, rfl⟩, fun hf => (h.taken hf).1, h.fits⟩

theorem Search.Improves.probe {s : State} {b : Search} (h : Search.Improves s b) (d : Dict) (r : Ring)
    (cur maxlen maxback : Word) (idx : Nat) : Search.Improves s (dictProbe d r cur maxlen maxback idx b) := by
  rcases dictProbe_cases d r cur maxlen maxback idx b with e | ⟨c, hc, hs, e⟩
  · rw [e]; exact ⟨h.idle, h.better, h.fits⟩
  · rw [e]
    have hcf : ScoreFits c.score := by
      rw [hc.score]
      exact score_fits (lt_of_le_of_lt hc.lengthLe (lt_of_le_of_lt hc.codeLe maxlen.isLt)) _
    refine ⟨fun h' => by simp at h', fun _ => ?_, hcf⟩
    by_cases hf : b.found = true
    · exact lt_trans (h.better hf) hs
    · rw [← (h.idle (by simpa using hf)).2.2.2]; exact hs

theorem quickSearch_improves (s : State) (h : QuickStrategy) (qb : Sparse Word) :
    Search.Improves s (quickSearch s h qb) := by
  rcases quickSearch_cases s h qb with ⟨h1, _⟩ | ⟨_, _, _, e⟩
  · exact h1.improves
  · rw [e]; exact (Search.Improves.start s).probe _ _ _ _ _ _

theorem chainSearch_improves (s : State) (h : ChainStrategy) (num : Sparse (BitVec 16)) (ring : Sparse Word) :
    Search.Improves s (chainSearch s h num ring) := by
  rcases chainSearch_cases s h num ring with ⟨h1, _⟩ | ⟨_, _, e⟩
  · exact h1.improves
  · rw [e]; exact ((Search.Improves.start s).probe _ _ _ _ _ _).probe _ _ _ _ _ _

/-- The end of a search in the frame's terms. -/
theorem finish_findLongestFrame (s : State) (b : Search) : FindLongestFrame s (b.finish s) := by
  refine ⟨(Search.finish_frame b s).1, finish_index _ _, ⟨finish_cmd _ _, ?_, ?_, finish_ringMask _ _⟩,
    fun a => by rw [finish_view], fun n => by simp [State.matchRecord], finish_params _ _, finish_host _ _,
    finish_readData _ _⟩
  · unfold Search.finish; split <;> rfl
  · unfold Search.finish; split <;> rfl

/-- RESULT says whether something was found. -/
theorem finish_result (s : State) (b : Search) : (b.finish s).getX 7 = if b.found then 1#32 else 0#32 := by
  cases hf : b.found
  · rw [Search.finish_idle s hf]; simp
  · simp [(Search.finish_found s hf).2.2.2.1]

theorem finish_result_one {s : State} {b : Search} (h : (b.finish s).getX 7 = 1#32) : b.found = true := by
  rw [finish_result] at h
  cases hf : b.found <;> simp_all

/-- The final BEST_SCORE of a search that found something, as an integer. -/
theorem Search.Improves.finish_score {s : State} {b : Search} (h : Search.Improves s b) (hf : b.found = true) :
    (b.finish s).bestScore.toInt = b.bestScore := by
  rw [(Search.finish_found s hf).2.2.2.2, toInt_ofInt_of_fits h.fits]

/-- The final BEST_SCORE is the running score, whether anything was found or not. -/
theorem Search.Improves.final_score {s : State} {b : Search} (h : Search.Improves s b) :
    (b.finish s).bestScore.toInt = b.bestScore := by
  cases hf : b.found
  · rw [Search.finish_idle s hf, (h.idle hf).2.2.2]; rfl
  · exact h.finish_score hf

/-- The command answers the last candidate taken (R163, R185, R225). -/
theorem Search.Improves.took_answers {s : State} {b : Search} (h : Search.Improves s b) {c : Candidate}
    (hb : b = (Search.start s).took s.ring (s.getX 0) (s.getX 1) c) : AnswersWindow s (b.finish s) (some c) := by
  have hf : b.found = true := by rw [hb]; rfl
  obtain ⟨h4, h5, h6, h7, _⟩ := Search.finish_found s hf
  refine ⟨h7, by rw [h4, hb]; exact c.len_toNat _ _ _, by rw [h4, h5, hb]; rfl, by rw [h6, hb]; rfl,
    by rw [h.finish_score hf, hb]; rfl, by rw [finish_numDictLookups, hb]; rfl, by rw [finish_numDictMatches, hb]; rfl⟩

/-- A search that did nothing at all. -/
theorem start_finish (s : State) : (Search.start s).finish s = s.setX 7 0#32 := by
  rw [Search.finish_idle s rfl]; rfl

/-- A prefix length as a register value. -/
theorem ofNat_prefixMatch (r : Ring) (a b maxlen : Word) :
    (BitVec.ofNat 32 (prefixMatch r a b maxlen.toNat)).toNat = prefixMatch r a b maxlen.toNat := by
  rw [BitVec.toNat_ofNat]; exact Nat.mod_eq_of_lt (prefixMatch_word_lt _ _ _ _)

/-- Counting a dictionary match changes the counter. -/
theorem counter_add_one_ne (a : Word64) : a + 1#64 ≠ a := by simp

theorem counter_add_two_ne (a : Word64) : a + 1#64 + 1#64 ≠ a := by rw [BitVec.add_assoc]; simp

/-- What a FIND_LONGEST_MATCH answers: a fault recorded, or the end of one of the two searches. -/
theorem findLongest_cases {s t : State} (h : exec .findLongestMatch s = .next t) :
    (∃ e, t = raise e s) ∨ (∃ k qb, s.index = .quick k qb ∧ maskOK s = true ∧ t = (quickSearch s k qb).finish s) ∨
    ∃ k num ring, s.index = .chain k num ring ∧ maskOK s = true ∧ t = (chainSearch s k num ring).finish s := by
  simp only [exec, execFindLongestMatch] at h
  split at h
  · exact .inl ⟨_, faults_next h⟩
  · exact .inl ⟨_, faults_next h⟩
  · rcases withPrelude_cases h with ⟨hm, rfl⟩ | ⟨_, rfl⟩
    · exact .inr (.inl ⟨_, _, ‹_›, hm, rfl⟩)
    · exact .inl ⟨_, rfl⟩
  · rcases withPrelude_cases h with ⟨hm, rfl⟩ | ⟨_, rfl⟩
    · exact .inr (.inr ⟨_, _, _, ‹_›, hm, rfl⟩)
    · exact .inl ⟨_, rfl⟩

/-- With the throttle closed no dictionary entry is looked at, so no counter changes (R145, R146). -/
theorem findLongest_throttled {s t : State} (hc : throttleOpen s.numDictLookups s.numDictMatches = false)
    (h : exec .findLongestMatch s = .next t) : CountersKept s t := by
  rcases findLongest_cases h with ⟨e, rfl⟩ | ⟨k, qb, _, _, rfl⟩ | ⟨k, num, ring, _, _, rfl⟩
  · exact ⟨rfl, rfl⟩
  · rcases quickSearch_cases s k qb with ⟨hT, _⟩ | ⟨_, _, ho, _⟩
    · exact ⟨by rw [finish_numDictLookups, hT.lookups]; rfl, by rw [finish_numDictMatches, hT.hits]; rfl⟩
    · simp [hc] at ho
  · rcases chainSearch_cases s k num ring with ⟨hT, _⟩ | ⟨_, ho, _⟩
    · exact ⟨by rw [finish_numDictLookups, hT.lookups]; rfl, by rw [finish_numDictMatches, hT.hits]; rfl⟩
    · simp [hc] at ho

end Sys2Proof.Machine
end

