-- ==== Sys2Proof/Laws/HostPort.lean ====
section
/-!
SUPPORT. What one host access does (spec/10_state.md R27), said once for reads, writes and CMD writes; and that it keeps the
invariant.
-/
namespace Sys2Proof.Machine

/-- The register at an offset of the block. -/
theorem portOf_offset (base : Nat) {offset : Nat} (h1 : offset < 0x80) (h2 : offset % 4 = 0) :
    portOf base (base + offset) = some (portOfWord (offset / 4)) := by
  simp [portOf, h1, h2]

theorem portOfWord_x (i : Fin 16) : portOfWord ((0x40 + 4 * i.val) / 4) = .x i := by revert i; decide

theorem portOfWord_unassigned {n : Nat} (h : 10 ≤ n ∧ n < 16) : portOfWord n = .unassigned := by
  obtain ⟨h1, h2⟩ := h
  interval_cases n <;> rfl

theorem lowHalf_extract (v : Word64) : lowHalf v = v.extractLsb' 0 32 := by
  apply BitVec.eq_of_toNat_eq; simp [lowHalf, BitVec.extractLsb'_toNat]

theorem highHalf_extract (v : Word64) : highHalf v = v.extractLsb' 32 32 := by
  apply BitVec.eq_of_toNat_eq; simp [highHalf, BitVec.extractLsb'_toNat]

/-- Bits [7:0] of a word, as `raise` stores them. -/
theorem setWidth_opcode (w : Word) : w.setWidth 8 = w.extractLsb' 0 8 := by
  apply BitVec.eq_of_toNat_eq; simp [BitVec.extractLsb'_toNat]

/-- A write whose register's own effect is known. -/
theorem hostWrites_of {s t : State} {offset : Nat} {v : Word} (h1 : offset < 0x80) (h2 : offset % 4 = 0)
    (h : ∀ rest, portWrite { s with host := rest } (portOfWord (offset / 4)) v = .next { t with host := rest }) :
    HostWrites s offset v t := by
  intro rest
  simp only [step, hostStep, hostAccess, portOf_offset _ h1 h2, h]

/-- A read of a register whose value is known. -/
theorem hostReads_of {s : State} {offset : Nat} {v : Word} (h1 : offset < 0x80) (h2 : offset % 4 = 0)
    (h : portRead s (portOfWord (offset / 4)) = v) : HostReads s offset v := by
  intro rest
  subst h
  simp only [step, hostStep, hostAccess, portOf_offset _ h1 h2]
  rfl

/-- A CMD write of a command's word runs it (R94), whatever accesses follow. -/
theorem hostWrites_cmd {s t : State} {w : Word} {i : Instr} (he : s.err = .none) (hd : decode w = .ok i)
    (ht : exec i { s with cmd := w } = .next t) : HostWrites s 0 w t := by
  apply hostWrites_of (by decide) (by decide)
  intro rest
  have hr : t.readData = s.readData := by
    rcases exec_cases ht with ⟨_, rfl⟩ | ⟨_, rfl⟩
    · rw [(commandBody_fixed _ _).2.2.2.2.2.2.2]
    · rfl
  show writeCmd w _ = _
  simp only [writeCmd, he, if_true, hd]
  rw [← he]
  have := exec_withHost ht rest s.readData
  rw [← hr] at this
  simpa [State.withHost, hr] using this

/-- A host write of a register keeps the invariant. -/
theorem portWrite_inv {s t : State} {p : Port} {v : Word} (h : s.Inv) (ht : portWrite s p v = .next t) : t.Inv := by
  have hi : ∀ {u : State}, u.Inv → Host.Outcome.next (φ := Fault) (ρ := Refusal) u = .next t → t.Inv := by
    intro u hu e
    simp only [Host.Outcome.next.injEq] at e
    exact e ▸ hu
  have hc : ({ s with cmd := v } : State).Inv := h
  cases p with
  | cmd =>
    unfold portWrite writeCmd at ht
    simp only at ht
    split at ht
    · split at ht
      · exact hi (hc.raise (by decide)) ht
      · exact exec_inv hc ht
    · exact hi hc ht
  | status => exact hi (u := clearErr s) ⟨h.1, h.2.1, h.2.2.1, fun _ => rfl, h.2.2.2.2⟩ ht
  | x i => exact hi (h.setX i v) ht
  | ringMask => exact hi (u := { s with ringMask := v }) h ht
  | bestScoreLo => exact hi (u := { s with bestScore := highHalf s.bestScore ++ v }) h ht
  | bestScoreHi => exact hi (u := { s with bestScore := v ++ lowHalf s.bestScore }) h ht
  | config => exact hi h ht
  | lookupsLo => exact hi h ht
  | lookupsHi => exact hi h ht
  | matchesLo => exact hi h ht
  | matchesHi => exact hi h ht
  | unassigned => exact hi h ht

/-- Any host access keeps the invariant. -/
theorem hostAccess_inv {s t : State} {a : HostAction} (h : s.Inv) (ht : hostAccess a s = .next t) : t.Inv := by
  cases a with
  | write address v =>
    simp only [hostAccess] at ht
    split at ht
    · simp at ht
    · exact portWrite_inv h ht
  | read address =>
    simp only [hostAccess] at ht
    split at ht
    · simp at ht
    · simp only [Host.Outcome.next.injEq] at ht; subst ht; exact h
  | viewWrite address b =>
    simp only [hostAccess, Host.Outcome.next.injEq] at ht
    subst ht
    exact ⟨⟨Memory.write_wf _ _ h.1.1, Sparse.set_below _ h.1.2 address.isLt⟩, h.2⟩
  | viewRead address => simp only [hostAccess, Host.Outcome.next.injEq] at ht; subst ht; exact h
  | view position bytes =>
    simp only [hostAccess, Host.Outcome.next.injEq] at ht
    subst ht
    exact ⟨⟨Memory.writeMany_wf _ _ h.1.1, Memory.writeMany_below (fun _ => BitVec.isLt _) _ _ h.1.2⟩, h.2⟩
  | matchRead n => simp only [hostAccess, Host.Outcome.next.injEq] at ht; subst ht; exact h
  | powerOn =>
    simp only [hostAccess, Host.Outcome.next.injEq] at ht
    subst ht
    exact ⟨h.1, h.2.1, rfl, fun _ => rfl, h.2.2.2.2⟩

/-! What a step can do. -/

/-- CMD stands at `ENGINE_BASE` and nowhere else (R27). -/
theorem portOf_cmd {base address : Nat} (h : portOf base address = some .cmd) : address = base := by
  unfold portOf at h
  split_ifs at h with hc
  have hw : (address - base) / 4 = 0 := by
    simp only [Option.some.injEq] at h
    generalize (address - base) / 4 = n at h
    unfold portOfWord at h
    split at h <;> first | rfl | (simp at h) | skip
    split at h <;> simp at h
  omega

/-- What an access that runs no command leaves as it was. -/
structure Quiet (s t : State) : Prop where
  index : t.index = s.index
  lgwin : t.lgwin = s.lgwin
  lookups : t.numDictLookups = s.numDictLookups
  hits : t.numDictMatches = s.numDictMatches
  params : t.params = s.params

/-- A step that answers a next state runs a command, or is power-on reset, or leaves tables, configuration and counters
as they were. -/
theorem step_cases {s t : State} (h : step s = .next t) :
    Quiet s t ∨ (∃ rest, s.host = .powerOn :: rest ∧ t = powerOn { s with host := rest }) ∨
    ∃ w rest i, s.host = .write s.params.engineBase w :: rest ∧ s.err = .none ∧ decode w = .ok i ∧
      exec i { s with host := rest, cmd := w } = .next t := by
  have quiet : ∀ u : State, Host.Outcome.next (φ := Fault) (ρ := Refusal) u = .next t → Quiet s u → Quiet s t := by
    intro u e hq
    simp only [Host.Outcome.next.injEq] at e
    exact e ▸ hq
  cases hh : s.host with
  | nil => exact .inl (quiet s (by simpa [step, hostStep, hh] using h) ⟨rfl, rfl, rfl, rfl, rfl⟩)
  | cons a rest =>
    simp only [step, hostStep, hh] at h
    cases a with
    | powerOn => exact .inr (.inl ⟨rest, rfl, by simpa [hostAccess] using h.symm⟩)
    | viewWrite a b => exact .inl (quiet _ h ⟨rfl, rfl, rfl, rfl, rfl⟩)
    | viewRead a => exact .inl (quiet _ h ⟨rfl, rfl, rfl, rfl, rfl⟩)
    | view p b => exact .inl (quiet _ h ⟨rfl, rfl, rfl, rfl, rfl⟩)
    | matchRead n => exact .inl (quiet _ h ⟨rfl, rfl, rfl, rfl, rfl⟩)
    | read address =>
      simp only [hostAccess] at h
      split at h
      · simp at h
      · exact .inl (quiet _ h ⟨rfl, rfl, rfl, rfl, rfl⟩)
    | write address v =>
      simp only [hostAccess] at h
      split at h
      · simp at h
      · rename_i p hp
        cases p with
        | cmd =>
          obtain rfl := portOf_cmd hp
          simp only [portWrite, writeCmd] at h
          split at h
          · rename_i he
            split at h
            · exact .inl (quiet _ h ⟨rfl, rfl, rfl, rfl, rfl⟩)
            · exact .inr (.inr ⟨v, rest, _, rfl, he, ‹_›, h⟩)
          · exact .inl (quiet _ h ⟨rfl, rfl, rfl, rfl, rfl⟩)
        | _ => exact .inl (quiet _ h ⟨rfl, rfl, rfl, rfl, rfl⟩)

end Sys2Proof.Machine
end

