-- ==== Sys2Proof/Laws/PerInstr.lean ====
section
/-!
SUPPORT. The family `TableRow`, per command: the word the encoder writes carries its row's fixed bits
(spec/30_encoding.md R90, R92: `w & mask = match`).
-/
namespace Sys2Proof.Laws.TableRow

/-- The encoded word of a well-formed command is a word of its own row. -/
def Statement (i : Instr) : Prop := i.WellFormed = true → encode i &&& i.row.mask = i.row.pattern

theorem configure (quality lgwin : Nat) : Statement (.configure quality lgwin) := by
  intro h
  simp only [Instr.WellFormed, Bool.and_eq_true, decide_eq_true_eq] at h
  obtain ⟨hq, hl⟩ := h
  simp only [encode, Instr.row]
  have key : ∀ q : Fin 16, ∀ l : Fin 32,
      (0x01#32 ||| BitVec.ofNat 32 q.val <<< 8 ||| BitVec.ofNat 32 l.val <<< 16) &&& 0xFFE0F0FF#32 = 0x00000001#32 := by
    decide
  exact key ⟨quality, hq⟩ ⟨lgwin, hl⟩

theorem reset : Statement .reset := fun _ => rfl

theorem store : Statement .store := fun _ => rfl

theorem storeRange : Statement .storeRange := fun _ => rfl

theorem findLongestMatch : Statement .findLongestMatch := fun _ => rfl

theorem findAllMatches : Statement .findAllMatches := fun _ => rfl

theorem prependCustomDictionary : Statement .prependCustomDictionary := fun _ => rfl

end Sys2Proof.Laws.TableRow
end

