-- ==== Sys2Proof/Laws/TreeOrder.lean ====
section
/-!
SUPPORT. What `AdvanceOneByte` does to an ordered tree, once: the nodes it visits and the CHILD numbers it writes (R204 (f)),
that the carried `len` is the true prefix (R204 (c)), how the two halves hang (R204 (b)), and that they stay ordered
(R204 (d)).
-/
namespace Sys2Proof.Machine

/-! The visited nodes (R204 (f), R208). -/

theorem Advance.visits_congr {e : Advance} {a b : Walk} (h : Walk.SameTables a b) (depth : Nat) :
    e.visits depth a = e.visits depth b := by
  induction depth generalizing a b with
  | zero => rfl
  | succ n ih =>
    have hx : Walk.SameTables (e.extend a) (e.extend b) := e.extend_sameTables e.record h
    have hd : Walk.SameTables (e.descend (e.extend a)) (e.descend (e.extend b)) := e.descend_sameTables e.record hx
    simp only [Advance.visits, h.prev, hx.len, ih hd]

theorem Advance.visits_length (e : Advance) (depth : Nat) (w : Walk) : (e.visits depth w).length ≤ depth := by
  induction depth generalizing w with
  | zero => simp [Advance.visits]
  | succ n ih =>
    unfold Advance.visits
    have := ih (e.descend (e.extend w))
    split_ifs
    · simp
    · simpa using this
    · simp

theorem Advance.visits_inWindow (e : Advance) (depth : Nat) (w : Walk) :
    ∀ p ∈ e.visits depth w, inWindow e.lgwin e.cur p = true := by
  induction depth generalizing w with
  | zero => simp [Advance.visits]
  | succ n ih =>
    have hi := ih (e.descend (e.extend w))
    unfold Advance.visits
    split_ifs with h1 h2
    · simpa using h1
    · intro p hp
      rcases List.mem_cons.1 hp with rfl | hp
      · exact h1
      · exact hi p hp
    · simp

/-- One round of the loop up to the records: everything but `len` is as before, and `len` is the extended one. -/
theorem Advance.emit_extend (e : Advance) (w : Walk) : Walk.SameTables (e.emit (e.extend w)) (e.extend w) :=
  e.emit_sameTables _

/-- The tables after a round do not depend on the records. -/
theorem Advance.descend_emit (e : Advance) (w : Walk) :
    Walk.SameTables (e.descend (e.emit (e.extend w))) (e.descend (e.extend w)) :=
  e.descend_sameTables e.record (e.emit_extend w)

theorem Advance.close_congr {e : Advance} {a b : Walk} (h : Walk.SameTables a b) : e.close a = e.close b := by
  simp only [Advance.close, h.child, h.pendingLt, h.pendingGt]

/-- The tables the loop leaves, without the records. -/
theorem Advance.close_loop_succ (e : Advance) (depth : Nat) (w : Walk) :
    e.close (e.loop (depth + 1) w) =
      if inWindow e.lgwin e.cur w.prev = true ∧ ¬ e.niceLength ≤ (e.extend w).len then
        e.close (e.loop depth (e.descend (e.extend w)))
      else e.close w := by
  have hl := (e.emit_extend w).len
  have hw : e.close (e.collapse (e.emit (e.extend w))) = e.close (e.extend w) :=
    Advance.close_congr ((e.collapse_sameTables _).trans (e.emit_extend w))
  simp only [Advance.loop, hl]
  split_ifs with h1 h2 h3 h3 h3
  · exact absurd h2 h3.2
  · exact hw
  · exact Advance.close_congr (e.loop_sameTables e.record depth (e.descend_emit w))
  · exact absurd ⟨h1, h2⟩ h3
  · exact absurd h3.1 h1
  · rfl

theorem left_ne_right (lgwin : BitVec 5) (p q : Word) : leftChild lgwin p ≠ rightChild lgwin q := by
  unfold leftChild rightChild; omega

/-- The call writes no CHILD number but the pending ones and those of the nodes it visits (R204 (f)). -/
theorem Advance.close_loop_frame (e : Advance) (depth : Nat) (w : Walk) {i : Nat} (hl : i ≠ w.pendingLt)
    (hg : i ≠ w.pendingGt) (h : ∀ p ∈ e.visits depth w, i ≠ leftChild e.lgwin p ∧ i ≠ rightChild e.lgwin p) :
    treeGet e.lgwin (e.close (e.loop depth w)) i = treeGet e.lgwin w.child i := by
  have hc : ∀ u : Walk, i ≠ u.pendingLt → i ≠ u.pendingGt →
      treeGet e.lgwin (e.close u) i = treeGet e.lgwin u.child i := fun u h1 h2 => by
    simp [Advance.close, treeGet_treeSet, h1, h2]
  induction depth generalizing w with
  | zero => exact hc w hl hg
  | succ n ih =>
    rw [Advance.close_loop_succ]
    split_ifs with h1
    · have hv : e.visits (n + 1) w = w.prev :: e.visits n (e.descend (e.extend w)) := by
        simp [Advance.visits, h1.1, h1.2]
      rw [hv] at h
      have hp := h _ List.mem_cons_self
      have hr := fun p hp => h p (List.mem_cons_of_mem _ hp)
      rw [ih]
      · unfold Advance.descend
        split_ifs <;> simp [treeGet_treeSet, Advance.extend, hl, hg]
      · unfold Advance.descend
        split_ifs
        · exact hp.2
        · exact hl
      · unfold Advance.descend
        split_ifs
        · exact hg
        · exact hp.1
      · exact hr
    · exact hc w hl hg

/-! The order (R36 (c)). -/

theorem LexBefore.irrefl {r : Ring} {n : Nat} {a : Word} : ¬ LexBefore r n a a := fun ⟨_, _, _, h⟩ => BitVec.lt_irrefl _ h

theorem LexBefore.ne {r : Ring} {n : Nat} {a b : Word} (h : LexBefore r n a b) : a ≠ b := by
  rintro rfl; exact h.irrefl

theorem LexBefore.trans {r : Ring} {n : Nat} {a b c : Word} (h : LexBefore r n a b) (h' : LexBefore r n b c) :
    LexBefore r n a c := by
  obtain ⟨k, hk, he, hl⟩ := h
  obtain ⟨k', hk', he', hl'⟩ := h'
  rcases Nat.lt_trichotomy k k' with h | rfl | h
  · exact ⟨k, hk, fun j hj => (he j hj).trans (he' j (by omega)), by rw [← he' k h]; exact hl⟩
  · exact ⟨k, hk, fun j hj => (he j hj).trans (he' j hj), BitVec.lt_trans hl hl'⟩
  · exact ⟨k', hk', fun j hj => (he j (by omega)).trans (he' j hj), by rw [he k' h]; exact hl'⟩

/-- A node between two that agree with `c` over `m` bytes agrees with `c` over `m` bytes (R204 (c)). -/
theorem LexBefore.between {r : Ring} {n m : Nat} {a p b c : Word} (h1 : LexBefore r n a p) (h2 : LexBefore r n p b)
    (ha : ∀ j, j < m → r.byteAt a j = r.byteAt c j) (hb : ∀ j, j < m → r.byteAt b j = r.byteAt c j) :
    ∀ j, j < m → r.byteAt p j = r.byteAt c j := by
  intro j
  induction j using Nat.strong_induction_on with
  | _ j ih =>
    intro hj
    obtain ⟨k, _, he, hl⟩ := h1
    obtain ⟨k', _, he', hl'⟩ := h2
    rcases Nat.lt_trichotomy k j with h | rfl | h
    · have := ih k h (by omega)
      rw [this, ← ha k (by omega)] at hl; exact absurd hl (BitVec.lt_irrefl _)
    · rcases Nat.lt_trichotomy k' k with h' | rfl | h'
      · have := ih k' h' (by omega)
        rw [this, ← hb k' (by omega)] at hl'; exact absurd hl' (BitVec.lt_irrefl _)
      · rw [ha _ hj] at hl
        rw [hb _ hj] at hl'
        exact absurd (BitVec.lt_trans hl hl') (BitVec.lt_irrefl _)
      · exact (he' k h').trans (hb k hj)
    · exact (he j h).symm.trans (ha j hj)

/-- Two different in-window positions have different nodes (R200, R202). -/
theorem windowSlot_ne_of_inWindow {lgwin : BitVec 5} {cur p q : Word} (hp : inWindow lgwin cur p = true)
    (hq : inWindow lgwin cur q = true) (hne : p ≠ q) : windowSlot lgwin p ≠ windowSlot lgwin q := by
  rw [inWindow_iff] at hp hq
  unfold windowMask at hp hq
  intro he
  have hl := lgwin.isLt
  have hs : ∀ x : Word, ((backward cur x).toNat + x.toNat) % 2 ^ lgwin.toNat = cur.toNat % 2 ^ lgwin.toNat := fun x => by
    have h : backward cur x + x = cur := BitVec.sub_add_cancel _ _
    rw [← Nat.mod_mod_of_dvd _ (pow_dvd_pow 2 (show lgwin.toNat ≤ 32 by omega)), ← BitVec.toNat_add, h]
  have hm : (backward cur p).toNat % 2 ^ lgwin.toNat = (backward cur q).toNat % 2 ^ lgwin.toNat :=
    Nat.ModEq.add_right_cancel he ((hs p).trans (hs q).symm)
  rw [Nat.mod_eq_of_lt (by omega), Nat.mod_eq_of_lt (by omega)] at hm
  apply hne
  have h1 : backward cur p = backward cur q := BitVec.eq_of_toNat_eq hm
  unfold backward at h1
  have : cur - (cur - p) = cur - (cur - q) := by rw [h1]
  simpa using this

/-! The walk through an ordered tree (R204 (a) to (c)). -/

/-- Between two visited nodes, or with one side not yet visited: the state of the walk in a tree that is ordered. `below`
and `above` are the smaller and the greater visited nodes, the last one first. -/
structure Advance.Searches (e : Advance) (child : Sparse Word) (w : Walk) (below above : List Word) : Prop where
  lower : ∀ q ∈ below, inWindow e.lgwin e.cur q = true ∧ LexBefore e.ring e.niceLength q e.cur
  upper : ∀ q ∈ above, inWindow e.lgwin e.cur q = true ∧ LexBefore e.ring e.niceLength e.cur q
  lt : (w.bestLtLen = 0 ∧ w.pendingLt = leftChild e.lgwin e.cur) ∨
    ∃ q ∈ below, (∀ j, j < w.bestLtLen → e.ring.byteAt q j = e.ring.byteAt e.cur j) ∧ w.pendingLt = rightChild e.lgwin q
  gt : (w.bestGtLen = 0 ∧ w.pendingGt = rightChild e.lgwin e.cur) ∨
    ∃ q ∈ above, (∀ j, j < w.bestGtLen → e.ring.byteAt q j = e.ring.byteAt e.cur j) ∧ w.pendingGt = leftChild e.lgwin q
  len : w.len = min w.bestLtLen w.bestGtLen
  lenLe : w.len ≤ e.maxlen
  kept : ∀ i, (∀ q, q = e.cur ∨ q ∈ below ∨ q ∈ above → i ≠ leftChild e.lgwin q ∧ i ≠ rightChild e.lgwin q) →
    treeGet e.lgwin w.child i = treeGet e.lgwin child i

/-- A node strictly between the visited ones. -/
def Advance.Fits (e : Advance) (below above : List Word) (p : Word) : Prop :=
  inWindow e.lgwin e.cur p = true ∧ (∀ q ∈ below, LexBefore e.ring e.niceLength q p) ∧
    ∀ q ∈ above, LexBefore e.ring e.niceLength p q

/-- Such a node has CHILD numbers of its own. -/
theorem Advance.Searches.slot_ne {e : Advance} {child : Sparse Word} {w : Walk} {below above : List Word}
    (h : e.Searches child w below above) {p : Word} (hp : e.Fits below above p) {q : Word}
    (hq : q = e.cur ∨ q ∈ below ∨ q ∈ above) : windowSlot e.lgwin p ≠ windowSlot e.lgwin q := by
  rcases hq with rfl | hq | hq
  · exact (windowSlot_ne hp.1).symm
  · exact windowSlot_ne_of_inWindow hp.1 (h.lower q hq).1 (hp.2.1 q hq).ne.symm
  · exact windowSlot_ne_of_inWindow hp.1 (h.upper q hq).1 (hp.2.2 q hq).ne

theorem child_ne {lgwin : BitVec 5} {p q : Word} (h : windowSlot lgwin p ≠ windowSlot lgwin q) :
    leftChild lgwin p ≠ leftChild lgwin q ∧ rightChild lgwin p ≠ rightChild lgwin q := by
  unfold leftChild rightChild; omega

theorem Advance.Searches.pendingLt_eq {e : Advance} {child : Sparse Word} {w : Walk} {below above : List Word}
    (h : e.Searches child w below above) :
    ∃ q, (q = e.cur ∨ q ∈ below) ∧ (w.pendingLt = leftChild e.lgwin q ∧ q = e.cur ∨ w.pendingLt = rightChild e.lgwin q ∧ q ∈ below) := by
  rcases h.lt with ⟨_, h1⟩ | ⟨q, hq, _, h1⟩
  · exact ⟨e.cur, .inl rfl, .inl ⟨h1, rfl⟩⟩
  · exact ⟨q, .inr hq, .inr ⟨h1, hq⟩⟩

theorem Advance.Searches.pendingLt_ne {e : Advance} {child : Sparse Word} {w : Walk} {below above : List Word}
    (h : e.Searches child w below above) {p : Word} (hp : e.Fits below above p) :
    w.pendingLt ≠ leftChild e.lgwin p ∧ w.pendingLt ≠ rightChild e.lgwin p := by
  rcases h.lt with ⟨_, h1⟩ | ⟨q, hq, _, h1⟩ <;> rw [h1]
  · exact ⟨(child_ne (h.slot_ne hp (.inl rfl))).1.symm, left_ne_right _ _ _⟩
  · exact ⟨(left_ne_right _ _ _).symm, (child_ne (h.slot_ne hp (.inr (.inl hq)))).2.symm⟩

theorem Advance.Searches.pendingGt_ne {e : Advance} {child : Sparse Word} {w : Walk} {below above : List Word}
    (h : e.Searches child w below above) {p : Word} (hp : e.Fits below above p) :
    w.pendingGt ≠ leftChild e.lgwin p ∧ w.pendingGt ≠ rightChild e.lgwin p := by
  rcases h.gt with ⟨_, h1⟩ | ⟨q, hq, _, h1⟩ <;> rw [h1]
  · exact ⟨(left_ne_right _ _ _).symm, (child_ne (h.slot_ne hp (.inl rfl))).2.symm⟩
  · exact ⟨(child_ne (h.slot_ne hp (.inr (.inr hq)))).1.symm, left_ne_right _ _ _⟩

theorem Advance.Searches.pending_ne {e : Advance} {child : Sparse Word} {w : Walk} {below above : List Word}
    (h : e.Searches child w below above) : w.pendingLt ≠ w.pendingGt := by
  rcases h.lt with ⟨_, h1⟩ | ⟨q, hq, _, h1⟩ <;> rcases h.gt with ⟨_, h2⟩ | ⟨q', hq', _, h2⟩ <;> rw [h1, h2]
  · exact left_ne_right _ _ _
  · exact (child_ne (windowSlot_ne (h.upper _ hq').1)).1
  · exact (child_ne (windowSlot_ne (h.lower _ hq).1)).2.symm
  · exact (left_ne_right _ _ _).symm

/-- The carried length is a true prefix, so nothing of it is compared twice in vain (R204 (c)). -/
theorem Advance.Searches.carried {e : Advance} {child : Sparse Word} {w : Walk} {below above : List Word}
    (h : e.Searches child w below above) (hp : e.Fits below above w.prev) :
    ∀ j, j < w.len → e.ring.byteAt w.prev j = e.ring.byteAt e.cur j := by
  rcases h.lt with ⟨h1, _⟩ | ⟨q, hq, h1, _⟩
  · intro j hj; rw [h.len, h1] at hj; omega
  · rcases h.gt with ⟨h2, _⟩ | ⟨q', hq', h2, _⟩
    · intro j hj; rw [h.len, h2] at hj; omega
    · refine LexBefore.between (hp.2.1 q hq) (hp.2.2 q' hq') (fun j hj => h1 j ?_) (fun j hj => h2 j ?_)
      · rw [h.len] at hj; omega
      · rw [h.len] at hj; omega

/-- So in an ordered tree the extension gives the whole prefix (R204 (c)). -/
theorem Advance.Searches.extend_len {e : Advance} {child : Sparse Word} {w : Walk} {below above : List Word}
    (h : e.Searches child w below above) (hp : e.Fits below above w.prev) : (e.extend w).len = e.agree w.prev :=
  e.extend_len h.lenLe (h.carried hp)

/-- A node that hangs left is smaller than `cur`, one that hangs right greater (R204 (a)). -/
theorem Advance.hangsLeft_before {e : Advance} {p : Word} (h : e.hangsLeft p = true) :
    LexBefore e.ring e.niceLength p e.cur := by
  simp only [Advance.hangsLeft, Bool.and_eq_true, decide_eq_true_eq] at h
  exact ⟨_, h.1, e.agree_bytes p, h.2⟩

theorem Advance.hangsRight_after {e : Advance} {p : Word} (hm : e.niceLength ≤ e.maxlen) (h : e.hangsRight p = true) :
    LexBefore e.ring e.niceLength e.cur p := by
  simp only [Advance.hangsRight, Bool.and_eq_true, decide_eq_true_eq, Bool.not_eq_true', decide_eq_false_iff_not] at h
  refine ⟨_, h.1, fun j hj => (e.agree_bytes p j hj).symm, ?_⟩
  have hne := prefixMatch_stops e.ring p e.cur e.maxlen (by have := h.1; unfold Advance.agree at this; omega)
  have h2 := h.2
  unfold Advance.agree at *
  rw [BitVec.lt_def] at *
  have : (e.ring.byteAt p (prefixMatch e.ring p e.cur e.maxlen)).toNat ≠
    (e.ring.byteAt e.cur (prefixMatch e.ring p e.cur e.maxlen)).toNat := fun h => hne (BitVec.eq_of_toNat_eq h)
  omega

theorem Advance.hangs_cases (e : Advance) (p : Word) :
    (e.hangsLeft p = true ∧ e.hangsRight p = false ∧ e.agree p < e.niceLength ∧
      e.ring.byteAt p (e.agree p) < e.ring.byteAt e.cur (e.agree p)) ∨
    (e.hangsLeft p = false ∧ e.hangsRight p = true ∧ e.agree p < e.niceLength ∧
      ¬ e.ring.byteAt p (e.agree p) < e.ring.byteAt e.cur (e.agree p)) ∨
    (e.hangsLeft p = false ∧ e.hangsRight p = false ∧ e.niceLength ≤ e.agree p) := by
  unfold Advance.hangsLeft Advance.hangsRight
  by_cases h1 : e.agree p < e.niceLength
  · by_cases h2 : e.ring.byteAt p (e.agree p) < e.ring.byteAt e.cur (e.agree p)
    · left; simp [h1, h2]
    · right; left; simp [h1, h2]
  · right; right; simp [h1]; omega

/-- Descending past a smaller node. -/
theorem Advance.Searches.descend_left {e : Advance} {child : Sparse Word} {w : Walk} {below above : List Word}
    (h : e.Searches child w below above) (hp : e.Fits below above w.prev) (hs : e.hangsLeft w.prev = true) :
    e.Searches child (e.descend (e.extend w)) (w.prev :: below) above ∧
    (e.descend (e.extend w)).prev = treeGet e.lgwin child (rightChild e.lgwin w.prev) ∧
    (e.descend (e.extend w)).child = treeSet e.lgwin w.child w.pendingLt w.prev ∧
    (e.descend (e.extend w)).pendingLt = rightChild e.lgwin w.prev ∧
    (e.descend (e.extend w)).pendingGt = w.pendingGt := by
  have hl := h.extend_len hp
  have hb := hs
  simp only [Advance.hangsLeft, Bool.and_eq_true, decide_eq_true_eq] at hb
  have hd : e.descend (e.extend w) =
      { e.extend w with
        child := treeSet e.lgwin w.child w.pendingLt w.prev, pendingLt := rightChild e.lgwin w.prev,
        prev := treeGet e.lgwin (treeSet e.lgwin w.child w.pendingLt w.prev) (rightChild e.lgwin w.prev),
        bestLtLen := e.agree w.prev, len := min (e.agree w.prev) w.bestGtLen } := by
    have hb2 : e.ring.byteAt (e.extend w).prev (e.extend w).len < e.ring.byteAt e.cur (e.extend w).len := by
      rw [hl]; exact hb.2
    rw [Advance.descend, if_pos hb2, hl]
    rfl
  have hk : ∀ i, i ≠ w.pendingLt →
      treeGet e.lgwin (treeSet e.lgwin w.child w.pendingLt w.prev) i = treeGet e.lgwin w.child i := fun i hi => by
    simp [treeGet_treeSet, hi]
  rw [hd]
  refine ⟨⟨?_, h.upper, .inr ⟨w.prev, by simp, e.agree_bytes _, rfl⟩, ?_, rfl, ?_, fun i hi => ?_⟩, ?_, rfl, rfl, rfl⟩
  · intro q hq
    rcases List.mem_cons.1 hq with rfl | hq
    · exact ⟨hp.1, e.hangsLeft_before hs⟩
    · exact h.lower q hq
  · exact h.gt
  · exact le_trans (min_le_left _ _) (e.agree_le _)
  · have hne : i ≠ w.pendingLt := by
      obtain ⟨q, hq, hh | hh⟩ := h.pendingLt_eq
      · rw [hh.1]; exact (hi q (.inl hh.2)).1
      · rw [hh.1]; exact (hi q (.inr (.inl (List.mem_cons_of_mem _ hh.2)))).2
    rw [hk i hne]
    refine h.kept i fun q hq => hi q ?_
    rcases hq with hq | hq | hq
    · exact .inl hq
    · exact .inr (.inl (List.mem_cons_of_mem _ hq))
    · exact .inr (.inr hq)
  · rw [hk _ (h.pendingLt_ne hp).2.symm]
    refine h.kept _ fun q hq => ⟨(left_ne_right _ _ _).symm, (child_ne (h.slot_ne hp hq)).2⟩

/-- Descending past a greater node. -/
theorem Advance.Searches.descend_right {e : Advance} {child : Sparse Word} {w : Walk} {below above : List Word}
    (hm : e.niceLength ≤ e.maxlen) (h : e.Searches child w below above) (hp : e.Fits below above w.prev)
    (hs : e.hangsRight w.prev = true) :
    e.Searches child (e.descend (e.extend w)) below (w.prev :: above) ∧
    (e.descend (e.extend w)).prev = treeGet e.lgwin child (leftChild e.lgwin w.prev) ∧
    (e.descend (e.extend w)).child = treeSet e.lgwin w.child w.pendingGt w.prev ∧
    (e.descend (e.extend w)).pendingLt = w.pendingLt ∧
    (e.descend (e.extend w)).pendingGt = leftChild e.lgwin w.prev := by
  have hl := h.extend_len hp
  have hb := hs
  simp only [Advance.hangsRight, Bool.and_eq_true, decide_eq_true_eq, Bool.not_eq_true', decide_eq_false_iff_not] at hb
  have hd : e.descend (e.extend w) =
      { e.extend w with
        child := treeSet e.lgwin w.child w.pendingGt w.prev, pendingGt := leftChild e.lgwin w.prev,
        prev := treeGet e.lgwin (treeSet e.lgwin w.child w.pendingGt w.prev) (leftChild e.lgwin w.prev),
        bestGtLen := e.agree w.prev, len := min (e.agree w.prev) w.bestLtLen } := by
    have hb2 : ¬ e.ring.byteAt (e.extend w).prev (e.extend w).len < e.ring.byteAt e.cur (e.extend w).len := by
      rw [hl]; exact hb.2
    rw [Advance.descend, if_neg hb2, hl]
    rfl
  have hk : ∀ i, i ≠ w.pendingGt →
      treeGet e.lgwin (treeSet e.lgwin w.child w.pendingGt w.prev) i = treeGet e.lgwin w.child i := fun i hi => by
    simp [treeGet_treeSet, hi]
  rw [hd]
  refine ⟨⟨h.lower, ?_, h.lt, .inr ⟨w.prev, by simp, e.agree_bytes _, rfl⟩, min_comm _ _, ?_, fun i hi => ?_⟩, ?_, rfl, rfl,
    rfl⟩
  · intro q hq
    rcases List.mem_cons.1 hq with rfl | hq
    · exact ⟨hp.1, e.hangsRight_after hm hs⟩
    · exact h.upper q hq
  · exact le_trans (min_le_left _ _) (e.agree_le _)
  · have hne : i ≠ w.pendingGt := by
      rcases h.gt with ⟨_, h1⟩ | ⟨q, hq, _, h1⟩ <;> rw [h1]
      · exact (hi e.cur (.inl rfl)).2
      · exact (hi q (.inr (.inr (List.mem_cons_of_mem _ hq)))).1
    rw [hk i hne]
    refine h.kept i fun q hq => hi q ?_
    rcases hq with hq | hq | hq
    · exact .inl hq
    · exact .inr (.inl hq)
    · exact .inr (.inr (List.mem_cons_of_mem _ hq))
  · rw [hk _ (h.pendingGt_ne hp).1.symm]
    refine h.kept _ fun q hq => ⟨(child_ne (h.slot_ne hp hq)).1, left_ne_right _ _ _⟩

theorem Advance.searches_start (e : Advance) (ht child : Sparse Word) : e.Searches child (e.startWalk ht child) [] [] :=
  ⟨by simp, by simp, .inl ⟨rfl, rfl⟩, .inl ⟨rfl, rfl⟩, rfl, Nat.zero_le _, fun _ _ => rfl⟩

/-- The nodes of the path lie between the bounds. -/
theorem treePath_fits {e : Advance} {child : Sparse Word} (depth : Nat) :
    ∀ {p : Word} {below above : List Word}, TreeOrdered e child depth p below above →
      ∀ q ∈ treePath e child depth p, e.Fits below above q := by
  induction depth with
  | zero => intro p below above _ q hq; simp [treePath] at hq
  | succ n ih =>
    intro p below above ho q hq
    unfold treePath at hq
    unfold TreeOrdered at ho
    split_ifs at hq with hw h1 h2
    · obtain ⟨hb, ha, hl, hr⟩ := ho hw
      rcases List.mem_cons.1 hq with rfl | hq
      · exact ⟨hw, hb, ha⟩
      · have := ih hr q hq
        exact ⟨this.1, fun x hx => this.2.1 x (List.mem_cons_of_mem _ hx), this.2.2⟩
    · obtain ⟨hb, ha, hl, hr⟩ := ho hw
      rcases List.mem_cons.1 hq with rfl | hq
      · exact ⟨hw, hb, ha⟩
      · have := ih hl q hq
        exact ⟨this.1, this.2.1, fun x hx => this.2.2 x (List.mem_cons_of_mem _ hx)⟩
    · obtain ⟨hb, ha, hl, hr⟩ := ho hw
      simp only [List.mem_singleton] at hq
      subst hq
      exact ⟨hw, hb, ha⟩
    · simp at hq

/-- In an ordered tree the loop visits the search path (R204 (i)). -/
theorem Advance.Searches.visits_eq {e : Advance} {child : Sparse Word} (hm : e.niceLength ≤ e.maxlen) (depth : Nat) :
    ∀ {w : Walk} {below above : List Word}, e.Searches child w below above →
      TreeOrdered e child depth w.prev below above → e.visits depth w = treePath e child depth w.prev := by
  induction depth with
  | zero => intros; rfl
  | succ n ih =>
    intro w below above h ho
    unfold Advance.visits treePath
    unfold TreeOrdered at ho
    by_cases hw : inWindow e.lgwin e.cur w.prev = true
    · rw [if_pos hw, if_pos hw]
      obtain ⟨hb, ha, hl, hr⟩ := ho hw
      have hp : e.Fits below above w.prev := ⟨hw, hb, ha⟩
      rw [h.extend_len hp]
      rcases e.hangs_cases w.prev with ⟨h1, h2, h3, _⟩ | ⟨h1, h2, h3, _⟩ | ⟨h1, h2, h3⟩
      · obtain ⟨hd, he, _⟩ := h.descend_left hp h1
        rw [if_neg (by omega), if_pos h1, ih hd (by rw [he]; exact hr), he]
      · obtain ⟨hd, he, _⟩ := h.descend_right hm hp h2
        rw [if_neg (by omega), if_neg (by simp [h1]), if_pos h2, ih hd (by rw [he]; exact hl), he]
      · rw [if_pos h3, if_neg (by simp [h1]), if_neg (by simp [h2])]
    · rw [if_neg hw, if_neg hw]

/-- How the two halves hang (R204 (b)): the smaller nodes of the path in a chain of right children from the first pending
slot, the greater ones in a chain of left children from the second, each chain ended by the sentinel. -/
theorem Advance.Searches.hangs {e : Advance} {child : Sparse Word} (hm : e.niceLength ≤ e.maxlen) (depth : Nat) :
    ∀ {w : Walk} {below above : List Word}, e.Searches child w below above →
      TreeOrdered e child depth w.prev below above →
      let path := treePath e child depth w.prev
      let final := e.close (e.loop depth w)
      (w.pendingLt :: (path.filter e.hangsLeft).map (rightChild e.lgwin)).map (treeGet e.lgwin final) =
        path.filter e.hangsLeft ++ [sentinel e.lgwin] ∧
      (w.pendingGt :: (path.filter e.hangsRight).map (leftChild e.lgwin)).map (treeGet e.lgwin final) =
        path.filter e.hangsRight ++ [sentinel e.lgwin] ∧
      ∀ i, i ∉ w.pendingLt :: (path.filter e.hangsLeft).map (rightChild e.lgwin) →
        i ∉ w.pendingGt :: (path.filter e.hangsRight).map (leftChild e.lgwin) →
        treeGet e.lgwin final i = treeGet e.lgwin w.child i := by
  have hc : ∀ u : Walk, treeGet e.lgwin (e.close u) u.pendingLt = sentinel e.lgwin ∧
      treeGet e.lgwin (e.close u) u.pendingGt = sentinel e.lgwin ∧
      ∀ i, i ≠ u.pendingLt → i ≠ u.pendingGt → treeGet e.lgwin (e.close u) i = treeGet e.lgwin u.child i := fun u => by
    refine ⟨?_, ?_, fun i h1 h2 => ?_⟩ <;> simp [Advance.close, treeGet_treeSet, *]
  have stop : ∀ (w : Walk), ((w.pendingLt :: (([] : List Word)).map (rightChild e.lgwin)).map (treeGet e.lgwin (e.close w)) =
        [] ++ [sentinel e.lgwin]) ∧
      ((w.pendingGt :: (([] : List Word)).map (leftChild e.lgwin)).map (treeGet e.lgwin (e.close w)) =
        [] ++ [sentinel e.lgwin]) ∧
      ∀ i, i ∉ w.pendingLt :: (([] : List Word)).map (rightChild e.lgwin) →
        i ∉ w.pendingGt :: (([] : List Word)).map (leftChild e.lgwin) →
        treeGet e.lgwin (e.close w) i = treeGet e.lgwin w.child i := fun w => by
    have := hc w
    refine ⟨by simp [this.1], by simp [this.2.1], fun i h1 h2 => ?_⟩
    simp only [List.map_nil, List.mem_singleton] at h1 h2
    exact this.2.2 i h1 h2
  induction depth with
  | zero => intro w below above h _; exact stop w
  | succ n ih =>
    intro w below above h ho
    unfold TreeOrdered at ho
    simp only
    rw [Advance.close_loop_succ]
    unfold treePath
    by_cases hw : inWindow e.lgwin e.cur w.prev = true
    · obtain ⟨hb, ha, hl, hr⟩ := ho hw
      have hp : e.Fits below above w.prev := ⟨hw, hb, ha⟩
      rw [h.extend_len hp, if_pos hw]
      rcases e.hangs_cases w.prev with ⟨h1, h2, h3, _⟩ | ⟨h1, h2, h3, _⟩ | ⟨h1, h2, h3⟩
      · obtain ⟨hd, he, hch, hlt, hgt⟩ := h.descend_left hp h1
        rw [if_pos ⟨hw, by omega⟩, if_pos h1]
        have hr' : TreeOrdered e child n (e.descend (e.extend w)).prev (w.prev :: below) above := by rw [he]; exact hr
        obtain ⟨i1, i2, i3⟩ := ih hd hr'
        have hv := hd.visits_eq hm n hr'
        rw [he] at i1 i2 i3 hv
        rw [hlt] at i1 i3
        rw [hgt] at i2 i3
        have hpend : treeGet e.lgwin (e.close (e.loop n (e.descend (e.extend w)))) w.pendingLt = w.prev := by
          rw [Advance.close_loop_frame, hch, treeGet_treeSet, if_pos rfl]
          · rw [hlt]; exact (h.pendingLt_ne hp).2
          · rw [hgt]; exact h.pending_ne
          · rw [hv]
            intro p hp'
            have := treePath_fits n hr p hp'
            exact h.pendingLt_ne ⟨this.1, fun x hx => this.2.1 x (List.mem_cons_of_mem _ hx), this.2.2⟩
        simp only [List.filter_cons, h1, h2, if_true, Bool.false_eq_true, if_false, List.map_cons] at i1 ⊢
        refine ⟨?_, i2, fun i hi hg => ?_⟩
        · rw [hpend, i1]; rfl
        · rw [i3 i (fun hx => hi (List.mem_cons_of_mem _ hx)) hg, hch, treeGet_treeSet, if_neg]
          exact fun hx => hi (hx ▸ List.mem_cons_self)
      · obtain ⟨hd, he, hch, hlt, hgt⟩ := h.descend_right hm hp h2
        rw [if_pos ⟨hw, by omega⟩, if_neg (by simp [h1]), if_pos h2]
        have hr' : TreeOrdered e child n (e.descend (e.extend w)).prev below (w.prev :: above) := by rw [he]; exact hl
        obtain ⟨i1, i2, i3⟩ := ih hd hr'
        have hv := hd.visits_eq hm n hr'
        rw [he] at i1 i2 i3 hv
        rw [hlt] at i1 i3
        rw [hgt] at i2 i3
        have hpend : treeGet e.lgwin (e.close (e.loop n (e.descend (e.extend w)))) w.pendingGt = w.prev := by
          rw [Advance.close_loop_frame, hch, treeGet_treeSet, if_pos rfl]
          · rw [hlt]; exact h.pending_ne.symm
          · rw [hgt]; exact (h.pendingGt_ne hp).1
          · rw [hv]
            intro p hp'
            have := treePath_fits n hl p hp'
            exact h.pendingGt_ne ⟨this.1, this.2.1, fun x hx => this.2.2 x (List.mem_cons_of_mem _ hx)⟩
        simp only [List.filter_cons, h1, h2, if_true, Bool.false_eq_true, if_false, List.map_cons] at i2 ⊢
        refine ⟨i1, ?_, fun i hi hg => ?_⟩
        · rw [hpend, i2]; rfl
        · rw [i3 i hi (fun hx => hg (List.mem_cons_of_mem _ hx)), hch, treeGet_treeSet, if_neg]
          exact fun hx => hg (hx ▸ List.mem_cons_self)
      · rw [if_neg (fun hx => hx.2 h3), if_neg (by simp [h1]), if_neg (by simp [h2])]
        simpa [h1, h2] using stop w
    · rw [if_neg (fun hx => hw hx.1), if_neg hw]
      exact stop w

/-! The order stays (R204 (d)). -/

/-- An ordered tree seen with other bounds and another table, when every node it may hold meets the new bounds and has the
same children. -/
theorem TreeOrdered.transfer {e : Advance} {child final : Sparse Word} (n : Nat) :
    ∀ {p : Word} {below above below' above' : List Word}, TreeOrdered e child n p below above →
      (∀ q, e.Fits below above q → (∀ b ∈ below', LexBefore e.ring e.niceLength b q) ∧
        (∀ a ∈ above', LexBefore e.ring e.niceLength q a) ∧
        treeGet e.lgwin final (leftChild e.lgwin q) = treeGet e.lgwin child (leftChild e.lgwin q) ∧
        treeGet e.lgwin final (rightChild e.lgwin q) = treeGet e.lgwin child (rightChild e.lgwin q)) →
      TreeOrdered e final n p below' above' := by
  induction n with
  | zero => intros; trivial
  | succ n ih =>
    intro p below above below' above' ho h
    unfold TreeOrdered at ho ⊢
    intro hw
    obtain ⟨hb, ha, hl, hr⟩ := ho hw
    obtain ⟨hb', ha', e1, e2⟩ := h p ⟨hw, hb, ha⟩
    refine ⟨hb', ha', ?_, ?_⟩
    · rw [e1]
      refine ih hl fun q hq => ?_
      obtain ⟨g1, g2, g3⟩ := h q ⟨hq.1, hq.2.1, fun a ha => hq.2.2 a (List.mem_cons_of_mem _ ha)⟩
      refine ⟨g1, fun a ha => ?_, g3⟩
      rcases List.mem_cons.1 ha with rfl | ha
      · exact hq.2.2 _ List.mem_cons_self
      · exact g2 a ha
    · rw [e2]
      refine ih hr fun q hq => ?_
      obtain ⟨g1, g2, g3⟩ := h q ⟨hq.1, fun b hb => hq.2.1 b (List.mem_cons_of_mem _ hb), hq.2.2⟩
      refine ⟨fun b hb => ?_, g2, g3⟩
      rcases List.mem_cons.1 hb with rfl | hb
      · exact hq.2.1 _ List.mem_cons_self
      · exact g1 b hb

theorem treeOrdered_outside {e : Advance} {child : Sparse Word} {p : Word} (h : inWindow e.lgwin e.cur p = false) (n : Nat)
    (below above : List Word) : TreeOrdered e child n p below above := by
  cases n with
  | zero => trivial
  | succ n => unfold TreeOrdered; intro hw; rw [h] at hw; exact absurd hw (by decide)

/-- Nodes away from the rest of the walk keep their children. -/
theorem Advance.Searches.keeps {e : Advance} {child : Sparse Word} (hm : e.niceLength ≤ e.maxlen) {depth : Nat} {w : Walk}
    {below above : List Word} (h : e.Searches child w below above) (ho : TreeOrdered e child depth w.prev below above)
    {q : Word} (hq : inWindow e.lgwin e.cur q = true) (hs : ∀ x ∈ below ++ above, x ≠ q)
    (hv : ∀ x, e.Fits below above x → x ≠ q) :
    treeGet e.lgwin (e.close (e.loop depth w)) (leftChild e.lgwin q) = treeGet e.lgwin child (leftChild e.lgwin q) ∧
    treeGet e.lgwin (e.close (e.loop depth w)) (rightChild e.lgwin q) = treeGet e.lgwin child (rightChild e.lgwin q) := by
  have hne : ∀ x, x = e.cur ∨ x ∈ below ∨ x ∈ above → windowSlot e.lgwin q ≠ windowSlot e.lgwin x := by
    rintro x (rfl | hx | hx)
    · exact (windowSlot_ne hq).symm
    · exact windowSlot_ne_of_inWindow hq (h.lower x hx).1 (hs x (by simp [hx])).symm
    · exact windowSlot_ne_of_inWindow hq (h.upper x hx).1 (hs x (by simp [hx])).symm
  have hlt : leftChild e.lgwin q ≠ w.pendingLt ∧ rightChild e.lgwin q ≠ w.pendingLt := by
    rcases h.lt with ⟨_, h1⟩ | ⟨x, hx, _, h1⟩ <;> rw [h1]
    · exact ⟨(child_ne (hne _ (.inl rfl))).1, (left_ne_right _ _ _).symm⟩
    · exact ⟨left_ne_right _ _ _, (child_ne (hne x (.inr (.inl hx)))).2⟩
  have hgt : leftChild e.lgwin q ≠ w.pendingGt ∧ rightChild e.lgwin q ≠ w.pendingGt := by
    rcases h.gt with ⟨_, h1⟩ | ⟨x, hx, _, h1⟩ <;> rw [h1]
    · exact ⟨left_ne_right _ _ _, (child_ne (hne _ (.inl rfl))).2⟩
    · exact ⟨(child_ne (hne x (.inr (.inr hx)))).1, (left_ne_right _ _ _).symm⟩
  have hvis : ∀ p ∈ e.visits depth w, windowSlot e.lgwin q ≠ windowSlot e.lgwin p := by
    rw [h.visits_eq hm depth ho]
    intro p hp
    have hf := treePath_fits depth ho p hp
    exact windowSlot_ne_of_inWindow hq hf.1 (hv p hf).symm
  constructor
  · rw [Advance.close_loop_frame e depth w hlt.1 hgt.1 fun p hp =>
      ⟨(child_ne (hvis p hp)).1, left_ne_right _ _ _⟩]
    exact h.kept _ fun x hx => ⟨(child_ne (hne x hx)).1, left_ne_right _ _ _⟩
  · rw [Advance.close_loop_frame e depth w hlt.2 hgt.2 fun p hp =>
      ⟨(left_ne_right _ _ _).symm, (child_ne (hvis p hp)).2⟩]
    exact h.kept _ fun x hx => ⟨(left_ne_right _ _ _).symm, (child_ne (hne x hx)).2⟩

/-- The two halves are ordered, the smaller one below `cur`, the greater one above. -/
theorem Advance.Searches.ordered {e : Advance} {child : Sparse Word} (hm : e.niceLength ≤ e.maxlen)
    (hs : inWindow e.lgwin e.cur (sentinel e.lgwin) = false) (depth : Nat) :
    ∀ {w : Walk} {below above : List Word}, e.Searches child w below above →
      (∀ n, TreeOrdered e child n w.prev below above) →
      let final := e.close (e.loop depth w)
      ∀ n, TreeOrdered e final n (treeGet e.lgwin final w.pendingLt) below [e.cur] ∧
        TreeOrdered e final n (treeGet e.lgwin final w.pendingGt) [e.cur] above := by
  have hc : ∀ (u : Walk) (n : Nat) (below above : List Word),
      TreeOrdered e (e.close u) n (treeGet e.lgwin (e.close u) u.pendingLt) below [e.cur] ∧
      TreeOrdered e (e.close u) n (treeGet e.lgwin (e.close u) u.pendingGt) [e.cur] above := fun u n below above => by
    have h1 : treeGet e.lgwin (e.close u) u.pendingLt = sentinel e.lgwin := by simp [Advance.close, treeGet_treeSet]
    have h2 : treeGet e.lgwin (e.close u) u.pendingGt = sentinel e.lgwin := by simp [Advance.close, treeGet_treeSet]
    rw [h1, h2]
    exact ⟨treeOrdered_outside hs _ _ _, treeOrdered_outside hs _ _ _⟩
  induction depth with
  | zero => intro w below above h _ final n; exact hc w n below above
  | succ d ih =>
    intro w below above h ho final n
    have hfinal : final = _ := Advance.close_loop_succ e d w
    by_cases hw : inWindow e.lgwin e.cur w.prev = true
    · have ho1 : ∀ n, _ := fun n => (show TreeOrdered e child (n + 1) w.prev below above from ho (n + 1)) hw
      have hp : e.Fits below above w.prev := ⟨hw, (ho1 0).1, (ho1 0).2.1⟩
      rw [h.extend_len hp] at hfinal
      rcases e.hangs_cases w.prev with ⟨h1, h2, h3, _⟩ | ⟨h1, h2, h3, _⟩ | ⟨h1, h2, h3⟩
      · rw [if_pos ⟨hw, by omega⟩] at hfinal
        obtain ⟨hd, he, hch, hlt, hgt⟩ := h.descend_left hp h1
        have hr : ∀ n, TreeOrdered e child n (e.descend (e.extend w)).prev (w.prev :: below) above := fun n => by
          rw [he]; exact (ho1 n).2.2.2
        have hi := ih hd hr
        simp only [← hfinal, hlt, hgt] at hi
        refine ⟨?_, (hi n).2⟩
        have hpend : treeGet e.lgwin final w.pendingLt = w.prev := by
          rw [hfinal, Advance.close_loop_frame, hch, treeGet_treeSet, if_pos rfl]
          · rw [hlt]; exact (h.pendingLt_ne hp).2
          · rw [hgt]; exact h.pending_ne
          · rw [hd.visits_eq hm d (hr d)]
            intro p hp'
            have := treePath_fits d (hr d) p hp'
            exact h.pendingLt_ne ⟨this.1, fun x hx => this.2.1 x (List.mem_cons_of_mem _ hx), this.2.2⟩
        rw [hpend]
        cases n with
        | zero => trivial
        | succ n =>
          have hcur := e.hangsLeft_before h1
          have keep : ∀ q, e.Fits below (w.prev :: above) q → _ := fun q hq =>
            hd.keeps hm (hr d) hq.1 (fun x hx => by
              rcases List.mem_append.1 hx with hx | hx
              · rcases List.mem_cons.1 hx with rfl | hx
                · exact (hq.2.2 _ List.mem_cons_self).ne.symm
                · exact (hq.2.1 x hx).ne
              · exact (hq.2.2 x (List.mem_cons_of_mem _ hx)).ne.symm)
              (fun x hx => ((hq.2.2 _ List.mem_cons_self).trans (hx.2.1 _ List.mem_cons_self)).ne.symm)
          have hleft : treeGet e.lgwin final (leftChild e.lgwin w.prev) = treeGet e.lgwin child (leftChild e.lgwin w.prev) := by
            rw [hfinal, Advance.close_loop_frame, hch, treeGet_treeSet, if_neg (h.pendingLt_ne hp).1.symm]
            · exact h.kept _ fun q hq => ⟨(child_ne (h.slot_ne hp hq)).1, left_ne_right _ _ _⟩
            · rw [hlt]; exact left_ne_right _ _ _
            · rw [hgt]; exact (h.pendingGt_ne hp).1.symm
            · rw [hd.visits_eq hm d (hr d)]
              intro p hp'
              have := treePath_fits d (hr d) p hp'
              exact ⟨(child_ne (windowSlot_ne_of_inWindow hw this.1 (this.2.1 _ List.mem_cons_self).ne)).1,
                left_ne_right _ _ _⟩
          unfold TreeOrdered
          intro _
          refine ⟨hp.2.1, by simpa using hcur, ?_, (hi n).1⟩
          rw [hleft]
          refine ((ho1 n).2.2.1).transfer n fun q hq => ⟨hq.2.1, fun a ha => ?_, ?_⟩
          · have := hq.2.2 _ List.mem_cons_self
            simp only [List.mem_cons, List.not_mem_nil, or_false] at ha
            rcases ha with rfl | rfl
            · exact this
            · exact this.trans hcur
          · rw [hfinal]; exact keep q hq
      · rw [if_pos ⟨hw, by omega⟩] at hfinal
        obtain ⟨hd, he, hch, hlt, hgt⟩ := h.descend_right hm hp h2
        have hr : ∀ n, TreeOrdered e child n (e.descend (e.extend w)).prev below (w.prev :: above) := fun n => by
          rw [he]; exact (ho1 n).2.2.1
        have hi := ih hd hr
        simp only [← hfinal, hlt, hgt] at hi
        refine ⟨(hi n).1, ?_⟩
        have hpend : treeGet e.lgwin final w.pendingGt = w.prev := by
          rw [hfinal, Advance.close_loop_frame, hch, treeGet_treeSet, if_pos rfl]
          · rw [hlt]; exact h.pending_ne.symm
          · rw [hgt]; exact (h.pendingGt_ne hp).1
          · rw [hd.visits_eq hm d (hr d)]
            intro p hp'
            have := treePath_fits d (hr d) p hp'
            exact h.pendingGt_ne ⟨this.1, this.2.1, fun x hx => this.2.2 x (List.mem_cons_of_mem _ hx)⟩
        rw [hpend]
        cases n with
        | zero => trivial
        | succ n =>
          have hcur := e.hangsRight_after hm h2
          have keep : ∀ q, e.Fits (w.prev :: below) above q → _ := fun q hq =>
            hd.keeps hm (hr d) hq.1 (fun x hx => by
              rcases List.mem_append.1 hx with hx | hx
              · exact (hq.2.1 x (List.mem_cons_of_mem _ hx)).ne
              · rcases List.mem_cons.1 hx with rfl | hx
                · exact (hq.2.1 _ List.mem_cons_self).ne
                · exact (hq.2.2 x hx).ne.symm)
              (fun x hx => ((hx.2.2 _ List.mem_cons_self).trans (hq.2.1 _ List.mem_cons_self)).ne)
          have hright : treeGet e.lgwin final (rightChild e.lgwin w.prev) =
              treeGet e.lgwin child (rightChild e.lgwin w.prev) := by
            rw [hfinal, Advance.close_loop_frame, hch, treeGet_treeSet, if_neg (h.pendingGt_ne hp).2.symm]
            · exact h.kept _ fun q hq => ⟨(left_ne_right _ _ _).symm, (child_ne (h.slot_ne hp hq)).2⟩
            · rw [hlt]; exact (h.pendingLt_ne hp).2.symm
            · rw [hgt]; exact (left_ne_right _ _ _).symm
            · rw [hd.visits_eq hm d (hr d)]
              intro p hp'
              have := treePath_fits d (hr d) p hp'
              exact ⟨(left_ne_right _ _ _).symm,
                (child_ne (windowSlot_ne_of_inWindow hw this.1 (this.2.2 _ List.mem_cons_self).ne.symm)).2⟩
          unfold TreeOrdered
          intro _
          refine ⟨by simpa using hcur, hp.2.2, (hi n).2, ?_⟩
          rw [hright]
          refine ((ho1 n).2.2.2).transfer n fun q hq => ⟨fun b hb => ?_, hq.2.2, ?_⟩
          · have := hq.2.1 _ List.mem_cons_self
            simp only [List.mem_cons, List.not_mem_nil, or_false] at hb
            rcases hb with rfl | rfl
            · exact this
            · exact hcur.trans this
          · rw [hfinal]; exact keep q hq
      · rw [if_neg (fun hx => hx.2 h3)] at hfinal
        rw [hfinal]; exact hc w n below above
    · rw [if_neg (fun hx => hw hx.1)] at hfinal
      rw [hfinal]; exact hc w n below above

/-! The records, in any tree (R203, R206). -/

theorem Advance.descend_len_le (e : Advance) (w : Walk) : (e.descend w).len ≤ w.len := by
  unfold Advance.descend; split <;> exact min_le_left _ _

/-- Every visited node agrees over the length carried to it. -/
def Advance.Carries (e : Advance) : Nat → Walk → Prop
  | 0, _ => True
  | depth + 1, w =>
    inWindow e.lgwin e.cur w.prev = true →
      (∀ j, j < w.len → e.ring.byteAt w.prev j = e.ring.byteAt e.cur j) ∧
        (¬ e.niceLength ≤ (e.extend w).len → e.Carries depth (e.descend (e.extend w)))

theorem Advance.carries_congr {e : Advance} {a b : Walk} (h : Walk.SameTables a b) (depth : Nat) :
    e.Carries depth a ↔ e.Carries depth b := by
  induction depth generalizing a b with
  | zero => exact Iff.rfl
  | succ n ih =>
    have hx : Walk.SameTables (e.extend a) (e.extend b) := e.extend_sameTables e.record h
    have hd : Walk.SameTables (e.descend (e.extend a)) (e.descend (e.extend b)) := e.descend_sameTables e.record hx
    simp only [Advance.Carries, h.prev, h.len, hx.len, ih hd]

/-- So does every node of an ordered tree (R204 (c)). -/
theorem Advance.Searches.carries {e : Advance} {child : Sparse Word} (hm : e.niceLength ≤ e.maxlen) (depth : Nat) :
    ∀ {w : Walk} {below above : List Word}, e.Searches child w below above →
      TreeOrdered e child depth w.prev below above → e.Carries depth w := by
  induction depth with
  | zero => intros; trivial
  | succ n ih =>
    intro w below above h ho hw
    obtain ⟨hb, ha, hl, hr⟩ := ho hw
    have hp : e.Fits below above w.prev := ⟨hw, hb, ha⟩
    refine ⟨h.carried hp, fun hlt => ?_⟩
    rw [h.extend_len hp] at hlt
    rcases e.hangs_cases w.prev with ⟨h1, _⟩ | ⟨_, h2, _⟩ | ⟨_, _, h3⟩
    · obtain ⟨hd, he, _⟩ := h.descend_left hp h1
      exact ih hd (by rw [he]; exact hr)
    · obtain ⟨hd, he, _⟩ := h.descend_right hm hp h2
      exact ih hd (by rw [he]; exact hl)
    · exact absurd h3 hlt

/-- A record of the loop: a node of the list, its length at least the bytes it agrees over, and (under `C`) just these, more
than any node before it agrees over. -/
def Advance.FromNode (e : Advance) (C : Prop) (nodes : List Word) (m : MatchRec) : Prop :=
  ∃ before p after, nodes = before ++ p :: after ∧ m = e.matchAt p m.length ∧ e.agree p ≤ m.length ∧
    (C → m.length = e.agree p) ∧ ∀ q ∈ before, e.agree q < m.length

/-- Such a record that is byte-exact has all the bytes its node agrees over. -/
theorem Advance.FromNode.exact {e : Advance} {C : Prop} {nodes : List Word} {m : MatchRec} (h : e.FromNode C nodes m)
    (hl : m.length ≤ e.maxlen) (hb : BytesAgree e.ring e.cur m.distance m.length) :
    ∃ before p after, nodes = before ++ p :: after ∧ m = e.matchAt p (e.agree p) ∧ ∀ q ∈ before, e.agree q < e.agree p := by
  obtain ⟨before, p, after, h1, h2, h3, _, h5⟩ := h
  have h6 : m.length = e.agree p := by
    refine Nat.le_antisymm (not_lt.1 fun hlt => ?_) h3
    rw [h2] at hb
    exact prefixMatch_stops _ _ _ _ (by unfold Advance.agree at hlt; omega) (Advance.bytes_matchAt.1 hb _ hlt)
  rw [h6] at h2 h5
  exact ⟨before, p, after, h1, h2, h5⟩

/-- Along the loop: what has been recorded comes from `D` (the direct holders) or from a node, the running best is 1 or a
record's length, and no visited node agrees further. -/
structure Advance.Kept (e : Advance) (C : Prop) (D : MatchRec → Prop) (nodes seen : List Word) (w : Walk) : Prop where
  source : ∀ m ∈ w.ms, D m ∨ e.FromNode C nodes m
  top : w.bestLen = 1 ∨ ∃ m ∈ w.ms, m.length = w.bestLen
  covers : ∀ q ∈ seen, e.agree q ≤ w.bestLen

/-- Recording a node. -/
theorem Advance.Kept.emit {e : Advance} {C : Prop} {D : MatchRec → Prop} {nodes seen rest : List Word} {w : Walk}
    (h : e.Kept C D nodes seen w) (hr : e.record = true) (hx : w.len ≤ e.maxlen)
    (hc : C → ∀ j, j < w.len → e.ring.byteAt w.prev j = e.ring.byteAt e.cur j) (hn : nodes = seen ++ w.prev :: rest) :
    e.Kept C D nodes (seen ++ [w.prev]) (e.emit (e.extend w)) := by
  have ha := e.agree_le_extend hx
  have hb : (e.extend w).bestLen = w.bestLen := rfl
  unfold Advance.emit
  rw [hr, Bool.true_and]
  split_ifs with hl
  · simp only [decide_eq_true_eq, hb] at hl
    refine ⟨fun m hm => ?_, .inr ⟨_, List.mem_append_right _ List.mem_cons_self, rfl⟩, fun q hq => ?_⟩
    · rcases List.mem_append.1 hm with hm | hm
      · exact h.source m hm
      · rw [List.mem_singleton] at hm
        subst hm
        refine .inr ⟨seen, w.prev, rest, hn, rfl, ha, fun c => e.extend_len hx (hc c), fun q hq => ?_⟩
        exact lt_of_le_of_lt (h.covers q hq) hl
    · rcases List.mem_append.1 hq with hq | hq
      · exact le_trans (h.covers q hq) (le_of_lt hl)
      · rw [List.mem_singleton] at hq; subst hq; exact ha
  · simp only [decide_eq_true_eq, hb] at hl
    refine ⟨h.source, h.top, fun q hq => ?_⟩
    rcases List.mem_append.1 hq with hq | hq
    · exact h.covers q hq
    · rw [List.mem_singleton] at hq; subst hq; exact le_trans ha (not_lt.1 hl)

/-- What the loop records: nodes it visits, and none of these agrees further than the longest record. -/
theorem Advance.loop_records (e : Advance) (hr : e.record = true) {C : Prop} {D : MatchRec → Prop} {nodes : List Word}
    (depth : Nat) :
    ∀ {w : Walk} {seen : List Word}, e.Kept C D nodes seen w → w.bestLen < e.niceLength → w.len ≤ e.maxlen →
      (C → e.Carries depth w) → nodes = seen ++ e.visits depth w → e.Kept C D nodes nodes (e.loop depth w) := by
  induction depth with
  | zero => intro w seen hk _ _ _ hn; rw [show seen = nodes by simp [hn, Advance.visits]] at hk; exact hk
  | succ d ih =>
    intro w seen hk hb hx hC hn
    unfold Advance.visits at hn
    by_cases hw : inWindow e.lgwin e.cur w.prev = true
    · rw [if_pos hw] at hn
      have hc : C → ∀ j, j < w.len → e.ring.byteAt w.prev j = e.ring.byteAt e.cur j := fun c => (hC c hw).1
      have k1 := hk.emit hr hx hc hn
      have hl : (e.emit (e.extend w)).len = (e.extend w).len := (e.emit_extend w).len
      simp only [Advance.loop, if_pos hw]
      split_ifs at hn ⊢ with h1 h2 h2
      · have hbl : (e.emit (e.extend w)).bestLen = (e.extend w).len := by
          have : decide ((e.extend w).bestLen < (e.extend w).len) = true := by
            simp only [decide_eq_true_eq]; show w.bestLen < _; omega
          unfold Advance.emit
          rw [hr, this]; rfl
        have he : e.collapse (e.emit (e.extend w)) =
            { e.emit (e.extend w) with ms := [e.matchAt w.prev (e.extend w).len] } := by
          simp only [Advance.collapse, hr, if_true, hl, e.extend_prev]
        rw [he]
        refine ⟨fun m hm => ?_, .inr ⟨_, List.mem_cons_self, hbl.symm⟩, fun q hq => k1.covers q (hn ▸ hq)⟩
        rw [List.mem_singleton] at hm
        subst hm
        exact .inr ⟨seen, w.prev, [], hn, rfl, e.agree_le_extend hx, fun c => e.extend_len hx (hc c),
          fun q hq => lt_of_le_of_lt (hk.covers q hq) (lt_of_lt_of_le hb (by rw [← hl]; exact h1))⟩
      · exact absurd (hl ▸ h1) h2
      · exact absurd (hl.symm ▸ h2) h1
      · refine ih (w := e.descend (e.emit (e.extend w))) (seen := seen ++ [w.prev])
          ⟨by rw [e.descend_ms]; exact k1.source, by rw [e.descend_ms, e.descend_bestLen]; exact k1.top,
            by rw [e.descend_bestLen]; exact k1.covers⟩
          (by rw [e.descend_bestLen]; exact e.emit_bestLen _ _ hb (by omega))
          (le_trans (e.descend_len_le _) (by rw [hl]; exact e.extend_le hx))
          (fun c => (e.carries_congr (e.descend_emit w) d).2 ((hC c hw).2 h2))
          (by rw [hn, e.visits_congr (e.descend_emit w)]; simp)
    · rw [if_neg hw] at hn
      simp only [Advance.loop, if_neg hw]
      rw [show seen = nodes by simp [hn]] at hk; exact hk

/-- The direct holders' records (R203, part (a)) and the running best the loop starts with. -/
theorem Advance.kept_start (e : Advance) (C : Prop) (ht child : Sparse Word) (nodes : List Word) :
    let p2 := treeGet e.lgwin ht (treeKey2 e.ring e.cur)
    let p3 := treeGet e.lgwin ht (treeKey3 e.ring e.cur)
    e.Kept C (fun m => (m = e.matchAt p2 2 ∨ m = e.matchAt p3 3) ∧ BytesAgree e.ring e.cur m.distance m.length) nodes []
        (e.startWalk ht child) ∧
      (e.startWalk ht child).bestLen < 4 := by
  have b2 : ∀ p, toU16 (load32 e.ring p) = toU16 (load32 e.ring e.cur) →
      BytesAgree e.ring e.cur (e.matchAt p 2).distance 2 := fun p hb => by
    rw [toU16_load32_eq] at hb
    exact Advance.bytes_matchAt.2 fun j hj => by interval_cases j; exacts [hb.1, hb.2]
  have b3 : ∀ p, toU24 (load32 e.ring p) = toU24 (load32 e.ring e.cur) →
      BytesAgree e.ring e.cur (e.matchAt p 3).distance 3 := fun p hb => by
    rw [toU24_load32_eq] at hb
    exact Advance.bytes_matchAt.2 fun j hj => by interval_cases j; exacts [hb.1, hb.2.1, hb.2.2]
  simp only [Advance.startWalk, Advance.direct]
  split_ifs with c3 c2 c2
  all_goals simp only [Bool.and_eq_true, beq_iff_eq] at *
  · refine ⟨⟨fun m hm => ?_, .inr ⟨_, List.mem_append_right _ List.mem_cons_self, rfl⟩, by simp⟩, (by decide : 3 < 4)⟩
    simp only [List.nil_append, List.mem_append, List.mem_singleton] at hm
    rcases hm with rfl | rfl
    · exact .inl ⟨.inl rfl, b2 _ c2.2⟩
    · exact .inl ⟨.inr rfl, b3 _ c3.2⟩
  · refine ⟨⟨fun m hm => ?_, .inr ⟨_, List.mem_append_right _ List.mem_cons_self, rfl⟩, by simp⟩, (by decide : 3 < 4)⟩
    simp only [List.nil_append, List.mem_singleton] at hm
    subst hm
    exact .inl ⟨.inr rfl, b3 _ c3.2⟩
  · refine ⟨⟨fun m hm => ?_, .inr ⟨_, List.mem_append_right _ List.mem_cons_self, rfl⟩, by simp⟩, (by decide : 2 < 4)⟩
    simp only [List.nil_append, List.mem_singleton] at hm
    subst hm
    exact .inl ⟨.inl rfl, b2 _ c2.2⟩
  · exact ⟨⟨by simp, .inl rfl, by simp⟩, by decide⟩

/-- What the call records, in any tree: each an equal direct holder's or a visited node's, no shorter than the bytes it agrees
over, and longer than any node before it agrees over; and no visited node agrees further than the longest record. -/
theorem Advance.run_records (e : Advance) (depth : Nat) (ht child : Sparse Word) (hn : 4 ≤ e.niceLength)
    (hm : e.niceLength ≤ e.maxlen) (hr : e.record = true) :
    let p2 := treeGet e.lgwin ht (treeKey2 e.ring e.cur)
    let p3 := treeGet e.lgwin ht (treeKey3 e.ring e.cur)
    let nodes := e.visits depth (e.startWalk ht child)
    (∀ m ∈ (e.run depth ht child).ms,
      ((m = e.matchAt p2 2 ∨ m = e.matchAt p3 3) ∧ BytesAgree e.ring e.cur m.distance m.length) ∨
        e.FromNode (e.Carries depth (e.startWalk ht child)) nodes m) ∧
    ∀ p ∈ nodes, 2 ≤ e.agree p → ∃ m ∈ (e.run depth ht child).ms, e.agree p ≤ m.length := by
  intro p2 p3 nodes
  obtain ⟨k1, k2⟩ := e.kept_start (e.Carries depth (e.startWalk ht child)) ht child nodes
  have h := e.loop_records hr depth k1 (by omega) (Nat.zero_le _) id (List.nil_append _).symm
  have hms : (e.run depth ht child).ms = (e.loop depth (e.startWalk ht child)).ms := by rw [Advance.run_past hm]
  rw [hms]
  refine ⟨h.source, fun p hp h2 => ?_⟩
  have := h.covers p hp
  rcases h.top with h1 | ⟨m, hm', h1⟩
  · omega
  · exact ⟨m, hm', by omega⟩

/-- A record of a node that is longer than the bytes it agrees over is not byte-exact. -/
theorem Advance.not_exact {e : Advance} {p : Word} {n : Nat} (h : e.agree p < n) (hn : n ≤ e.maxlen) :
    ¬ BytesAgree e.ring e.cur (e.matchAt p n).distance (e.matchAt p n).length := fun hb =>
  prefixMatch_stops _ _ _ _ (lt_of_lt_of_le h hn) (Advance.bytes_matchAt.1 hb _ h)

/-- Along the loop: a visited node that agrees over more bytes than the running best and every node before it is recorded, and
its record kept, unless a longer record of the nice length stands alone or some record is not byte-exact (R203, step 2). -/
theorem Advance.loop_takes (e : Advance) (hr : e.record = true) {p : Word} {after : List Word} (depth : Nat) :
    ∀ {w : Walk} {before : List Word}, w.bestLen < e.niceLength → w.len ≤ e.maxlen →
      e.visits depth w = before ++ p :: after → (∀ q ∈ before, e.agree q < e.agree p) →
      (w.bestLen < e.agree p ∨ ∃ m ∈ w.ms, ¬ BytesAgree e.ring e.cur m.distance m.length) →
      e.matchAt p (e.agree p) ∈ (e.loop depth w).ms ∨ ∃ m ∈ (e.loop depth w).ms,
        (e.niceLength ≤ m.length ∧ e.agree p < m.length) ∨ ¬ BytesAgree e.ring e.cur m.distance m.length := by
  induction depth with
  | zero => intro w before _ _ hv; simp [Advance.visits] at hv
  | succ d ih =>
    intro w before hb hx hv hbefore hI
    have hw : inWindow e.lgwin e.cur w.prev = true := by
      by_contra hw
      simp [Advance.visits, hw] at hv
    have hge := e.agree_le_extend hx
    have hle := e.extend_le hx
    have hl : (e.emit (e.extend w)).len = (e.extend w).len := (e.emit_extend w).len
    -- what this node's record is
    have hrec : e.matchAt w.prev (e.extend w).len = e.matchAt w.prev (e.agree w.prev) ∨
        ¬ BytesAgree e.ring e.cur (e.matchAt w.prev (e.extend w).len).distance
          (e.matchAt w.prev (e.extend w).len).length := by
      rcases Nat.lt_or_eq_of_le hge with h | h
      · exact .inr (Advance.not_exact h hle)
      · exact .inl (by rw [h])
    have hstep : (w.bestLen < (e.extend w).len ∧ e.emit (e.extend w) =
          { e.extend w with bestLen := (e.extend w).len, ms := w.ms ++ [e.matchAt w.prev (e.extend w).len] }) ∨
        ((e.extend w).len ≤ w.bestLen ∧ e.emit (e.extend w) = e.extend w) := by
      unfold Advance.emit
      rw [hr, Bool.true_and]
      split_ifs with h
      · exact .inl ⟨of_decide_eq_true h, rfl⟩
      · exact .inr ⟨not_lt.1 fun h' => h (decide_eq_true h'), rfl⟩
    have hkept : ∀ m ∈ w.ms, m ∈ (e.emit (e.extend w)).ms := fun m hm => by
      rcases hstep with ⟨_, h⟩ | ⟨_, h⟩ <;> rw [h]
      · exact List.mem_append_left _ hm
      · exact hm
    simp only [Advance.visits, if_pos hw] at hv
    simp only [Advance.loop, if_pos hw, hl]
    by_cases hnice : e.niceLength ≤ (e.extend w).len
    · rw [if_pos hnice] at hv
      rw [if_pos hnice]
      obtain ⟨rfl, rfl⟩ : before = [] ∧ w.prev = p := by
        cases before with
        | nil => simp at hv; exact ⟨rfl, hv.1⟩
        | cons _ _ => simp at hv
      have hms : (e.collapse (e.emit (e.extend w))).ms = [e.matchAt w.prev (e.extend w).len] := by
        simp only [Advance.collapse, hr, if_true, hl, e.extend_prev]
      rw [hms]
      rcases hrec with h | h
      · exact .inl (by rw [h]; exact List.mem_cons_self)
      · exact .inr ⟨_, List.mem_cons_self, .inr h⟩
    · rw [if_neg hnice] at hv ⊢
      cases before with
      | nil =>
        simp only [List.nil_append, List.cons.injEq] at hv
        obtain ⟨rfl, -⟩ := hv
        have hin : e.matchAt w.prev (e.agree w.prev) ∈ (e.descend (e.emit (e.extend w))).ms ∨
            ∃ m ∈ (e.descend (e.emit (e.extend w))).ms, ¬ BytesAgree e.ring e.cur m.distance m.length := by
          rw [e.descend_ms]
          rcases hI with h | ⟨m, hm, hne⟩
          · rcases hstep with ⟨_, hs⟩ | ⟨hs, _⟩
            · rw [hs]
              rcases hrec with h' | h'
              · exact .inl (by rw [h']; exact List.mem_append_right _ List.mem_cons_self)
              · exact .inr ⟨_, List.mem_append_right _ List.mem_cons_self, h'⟩
            · omega
          · exact .inr ⟨m, hkept m hm, hne⟩
        rcases e.loop_keeps d (w := e.descend (e.emit (e.extend w))) with hk | ⟨m, hm, hz⟩
        · rcases hin with h | ⟨m, hm, hne⟩
          · exact .inl (hk _ h)
          · exact .inr ⟨m, hk m hm, .inr hne⟩
        · exact .inr ⟨m, by rw [hm]; exact List.mem_cons_self, .inl ⟨hz, by omega⟩⟩
      | cons q rest =>
        simp only [List.cons_append, List.cons.injEq] at hv
        obtain ⟨rfl, hv⟩ := hv
        have hq := hbefore w.prev List.mem_cons_self
        refine ih (by rw [e.descend_bestLen]; exact e.emit_bestLen _ _ hb (by omega))
          (le_trans (e.descend_len_le _) (by rw [hl]; exact hle))
          (by rw [e.visits_congr (e.descend_emit w)]; exact hv)
          (fun x hx' => hbefore x (List.mem_cons_of_mem _ hx')) ?_
        rw [e.descend_bestLen, e.descend_ms]
        rcases hI with h | ⟨m, hm, hne⟩
        · rcases hstep with ⟨_, hs⟩ | ⟨_, hs⟩ <;> rw [hs]
          · rcases Nat.lt_or_eq_of_le hge with h' | h'
            · exact .inr ⟨_, List.mem_append_right _ List.mem_cons_self, Advance.not_exact h' hle⟩
            · exact .inl (by simp only; omega)
          · exact .inl h
        · exact .inr ⟨m, hkept m hm, hne⟩

/-- The same of the whole call: a visited node that agrees over more bytes than the direct records and every node before
it. -/
theorem Advance.run_takes (e : Advance) (depth : Nat) (ht child : Sparse Word) (hn : 4 ≤ e.niceLength)
    (hm : e.niceLength ≤ e.maxlen) (hr : e.record = true) {before after : List Word} {p : Word}
    (hv : e.visits depth (e.startWalk ht child) = before ++ p :: after) (h2 : 2 ≤ e.agree p)
    (hd2 : inWindow e.lgwin e.cur (treeGet e.lgwin ht (treeKey2 e.ring e.cur)) = true →
      (∀ j, j < 2 → e.ring.byteAt (treeGet e.lgwin ht (treeKey2 e.ring e.cur)) j = e.ring.byteAt e.cur j) → 2 < e.agree p)
    (hd3 : inWindow e.lgwin e.cur (treeGet e.lgwin ht (treeKey3 e.ring e.cur)) = true →
      (∀ j, j < 3 → e.ring.byteAt (treeGet e.lgwin ht (treeKey3 e.ring e.cur)) j = e.ring.byteAt e.cur j) → 3 < e.agree p)
    (hb : ∀ q ∈ before, e.agree q < e.agree p) :
    e.matchAt p (e.agree p) ∈ (e.run depth ht child).ms.filter e.verified ∨ ∃ m ∈ (e.run depth ht child).ms,
      (e.niceLength ≤ m.length ∧ e.agree p < m.length) ∨ ¬ BytesAgree e.ring e.cur m.distance m.length := by
  have hstart : (e.startWalk ht child).bestLen < e.agree p := by
    simp only [Advance.startWalk, Advance.direct]
    split_ifs with c3 c2 c2
    all_goals simp only [Bool.and_eq_true, beq_iff_eq, toU16_load32_eq, toU24_load32_eq] at *
    · exact hd3 c3.1.2 fun j hj => by interval_cases j; exacts [c3.2.1, c3.2.2.1, c3.2.2.2]
    · exact hd3 c3.1.2 fun j hj => by interval_cases j; exacts [c3.2.1, c3.2.2.1, c3.2.2.2]
    · exact hd2 c2.1.2 fun j hj => by interval_cases j; exacts [c2.2.1, c2.2.2]
    · exact h2
  have h4 := (e.kept_start True ht child []).2
  have hms : (e.run depth ht child).ms = (e.loop depth (e.startWalk ht child)).ms := by rw [Advance.run_past hm]
  rw [hms]
  refine (e.loop_takes hr depth (by omega) (Nat.zero_le _) hv hb (.inl hstart)).imp (fun h => ?_) id
  exact List.mem_filter.2 ⟨h, Advance.verified_iff.2 (Advance.bytes_matchAt.2 (e.agree_bytes p))⟩

/-- The verified records, in any tree: an equal direct holder's, or a visited node's with all the bytes it agrees over, more
than any node before it. -/
theorem Advance.run_verified (e : Advance) (depth : Nat) (ht child : Sparse Word) (hn : 4 ≤ e.niceLength)
    (hm : e.niceLength ≤ e.maxlen) (hr : e.record = true) :
    ∀ m ∈ (e.run depth ht child).ms.filter e.verified,
      m = e.matchAt (treeGet e.lgwin ht (treeKey2 e.ring e.cur)) 2 ∨
      m = e.matchAt (treeGet e.lgwin ht (treeKey3 e.ring e.cur)) 3 ∨
      ∃ before p after, e.visits depth (e.startWalk ht child) = before ++ p :: after ∧ m = e.matchAt p (e.agree p) ∧
        ∀ q ∈ before, e.agree q < e.agree p := by
  intro m hm'
  obtain ⟨h1, h2⟩ := List.mem_filter.1 hm'
  rcases (e.run_records depth ht child hn hm hr).1 m h1 with ⟨h | h, _⟩ | h
  · exact .inl h
  · exact .inr (.inl h)
  · exact .inr (.inr (h.exact ((e.run_answer depth ht child hn).good m h1).lenLe (Advance.verified_iff.1 h2)))

/-- In an ordered tree every record is byte-exact, so that the test drops none (R206 (b)). -/
theorem Advance.run_all_verified (e : Advance) (depth : Nat) (ht child : Sparse Word) (hn : 4 ≤ e.niceLength)
    (hm : e.niceLength ≤ e.maxlen) (hr : e.record = true)
    (ho : TreeOrdered e child depth (treeGet e.lgwin ht (treeKey4 e.ring e.cur)) [] []) :
    (e.run depth ht child).ms.filter e.verified = (e.run depth ht child).ms := by
  refine List.filter_eq_self.2 fun m h => Advance.verified_iff.2 ?_
  rcases (e.run_records depth ht child hn hm hr).1 m h with ⟨_, hb⟩ | ⟨_, p, _, _, h2, _, h4, _⟩
  · exact hb
  · have hl := h4 ((e.searches_start ht child).carries hm depth ho)
    rw [h2]
    exact Advance.bytes_matchAt.2 (by rw [hl]; exact e.agree_bytes p)

/-! The whole call on an ordered tree. -/

theorem Advance.run_child_eq (e : Advance) (depth : Nat) (ht child : Sparse Word) (hm : e.niceLength ≤ e.maxlen) :
    (e.run depth ht child).child = e.close (e.loop depth (e.startWalk ht child)) := by
  rw [Advance.run_past hm]

/-- The CHILD numbers a call may write (R204 (f)): those of `cur` and of the at most `depth` nodes it visits. -/
theorem Advance.run_child_frame (e : Advance) (depth : Nat) (ht child : Sparse Word) (hm : e.niceLength ≤ e.maxlen) {i : Nat}
    (h : ∀ p ∈ e.cur :: e.visits depth (e.startWalk ht child), i ≠ leftChild e.lgwin p ∧ i ≠ rightChild e.lgwin p) :
    treeGet e.lgwin (e.run depth ht child).child i = treeGet e.lgwin child i := by
  have h0 := h e.cur List.mem_cons_self
  rw [e.run_child_eq depth ht child hm, e.close_loop_frame depth _ h0.1 h0.2 fun p hp => h p (List.mem_cons_of_mem _ hp)]
  rfl

/-- What the call leaves in CHILD when the tree is ordered (R204 (b), (d)). -/
theorem Advance.run_ordered (e : Advance) (depth : Nat) (ht child : Sparse Word) (hm : e.niceLength ≤ e.maxlen)
    (ho : ∀ n, TreeOrdered e child n (treeGet e.lgwin ht (treeKey4 e.ring e.cur)) [] []) :
    let path := treePath e child depth (treeGet e.lgwin ht (treeKey4 e.ring e.cur))
    let final := (e.run depth ht child).child
    (leftChild e.lgwin e.cur :: (path.filter e.hangsLeft).map (rightChild e.lgwin)).map (treeGet e.lgwin final) =
      path.filter e.hangsLeft ++ [sentinel e.lgwin] ∧
    (rightChild e.lgwin e.cur :: (path.filter e.hangsRight).map (leftChild e.lgwin)).map (treeGet e.lgwin final) =
      path.filter e.hangsRight ++ [sentinel e.lgwin] ∧
    (∀ i, i ∉ leftChild e.lgwin e.cur :: (path.filter e.hangsLeft).map (rightChild e.lgwin) →
      i ∉ rightChild e.lgwin e.cur :: (path.filter e.hangsRight).map (leftChild e.lgwin) →
      treeGet e.lgwin final i = treeGet e.lgwin child i) ∧
    (inWindow e.lgwin e.cur (sentinel e.lgwin) = false →
      ∀ n, TreeOrdered e final n (treeGet e.lgwin final (leftChild e.lgwin e.cur)) [] [e.cur] ∧
        TreeOrdered e final n (treeGet e.lgwin final (rightChild e.lgwin e.cur)) [e.cur] []) := by
  have h := e.searches_start ht child
  have hh := h.hangs hm depth (ho depth)
  simp only [e.run_child_eq depth ht child hm]
  exact ⟨hh.1, hh.2.1, hh.2.2, fun hs => h.ordered hm hs depth ho⟩

/-- In an ordered tree the call visits the search path (R204 (i)). -/
theorem Advance.run_visits (e : Advance) (depth : Nat) (ht child : Sparse Word) (hm : e.niceLength ≤ e.maxlen)
    (ho : TreeOrdered e child depth (treeGet e.lgwin ht (treeKey4 e.ring e.cur)) [] []) :
    e.visits depth (e.startWalk ht child) = treePath e child depth (treeGet e.lgwin ht (treeKey4 e.ring e.cur)) :=
  (e.searches_start ht child).visits_eq hm depth ho

/-- A direct holder that is in window and equal in its key's bytes is recorded, and its record kept unless one of the nice
length stands alone (R203, part (a)). -/
theorem Advance.run_direct (e : Advance) (depth : Nat) (ht child : Sparse Word) (hm : e.niceLength ≤ e.maxlen)
    (hr : e.record = true) :
    (∀ p, p = treeGet e.lgwin ht (treeKey2 e.ring e.cur) → inWindow e.lgwin e.cur p = true →
      (∀ j, j < 2 → e.ring.byteAt p j = e.ring.byteAt e.cur j) →
      e.matchAt p 2 ∈ (e.run depth ht child).ms.filter e.verified ∨ ∃ m ∈ (e.run depth ht child).ms, e.niceLength ≤ m.length) ∧
    ∀ p, p = treeGet e.lgwin ht (treeKey3 e.ring e.cur) → inWindow e.lgwin e.cur p = true →
      (∀ j, j < 3 → e.ring.byteAt p j = e.ring.byteAt e.cur j) →
      e.matchAt p 3 ∈ (e.run depth ht child).ms.filter e.verified ∨
        ∃ m ∈ (e.run depth ht child).ms, e.niceLength ≤ m.length := by
  have hms : (e.run depth ht child).ms = (e.loop depth (e.startWalk ht child)).ms := by rw [Advance.run_past hm]
  have key : ∀ p n, e.matchAt p n ∈ (e.startWalk ht child).ms →
      (∀ j, j < n → e.ring.byteAt p j = e.ring.byteAt e.cur j) →
      e.matchAt p n ∈ (e.run depth ht child).ms.filter e.verified ∨
        ∃ m ∈ (e.run depth ht child).ms, e.niceLength ≤ m.length := by
    intro p n hp hb
    rw [hms]
    rcases e.loop_keeps depth (w := e.startWalk ht child) with h | ⟨m, h1, h2⟩
    · exact .inl (List.mem_filter.2 ⟨h _ hp, Advance.verified_iff.2 (Advance.bytes_matchAt.2 hb)⟩)
    · exact .inr ⟨m, by rw [h1]; exact List.mem_cons_self, h2⟩
  constructor
  · rintro p rfl hw hb
    refine key _ 2 ?_ hb
    have c2 : toU16 (load32 e.ring (treeGet e.lgwin ht (treeKey2 e.ring e.cur))) = toU16 (load32 e.ring e.cur) :=
      (toU16_load32_eq _ _ _).2 ⟨hb 0 (by decide), hb 1 (by decide)⟩
    simp only [Advance.startWalk, Advance.direct, hr, hw, c2, beq_self_eq_true, Bool.and_self, if_true]
    split_ifs <;> simp
  · rintro p rfl hw hb
    refine key _ 3 ?_ hb
    have c3 : toU24 (load32 e.ring (treeGet e.lgwin ht (treeKey3 e.ring e.cur))) = toU24 (load32 e.ring e.cur) :=
      (toU24_load32_eq _ _ _).2 ⟨hb 0 (by decide), hb 1 (by decide), hb 2 (by decide)⟩
    simp only [Advance.startWalk, Advance.direct, hr, hw, c3, beq_self_eq_true, Bool.and_self, if_true]
    simp

end Sys2Proof.Machine
end

