-- ==== Sys2Proof/Tests/Slice0.lean ====
section
/-!
SUPPORT. Small tests: expected results are the spec's own examples (the rule is named), and for every obligation with
hypotheses a concrete state and operands that meet them.
-/
namespace Sys2Proof.Tests
open Sys2Proof.Machine

-- The kernel evaluations below one after the other: side by side each holds a thread that waits for the one before it.
set_option Elab.async false

/-! Well-formedness and decoding. -/

theorem test_wellFormed_refuses_quality : (Instr.configure 16 10).WellFormed = false := by decide
theorem test_wellFormed_refuses_lgwin : (Instr.configure 1 32).WellFormed = false := by decide
theorem test_wellFormed_admits_bounds : (Instr.configure 15 31).WellFormed = true ∧ (Instr.configure 0 0).WellFormed := by
  decide

/-- R91's example, bit by bit: lgwin 10110 in [20:16], quality 0101 in [11:8], opcode 00000001. -/
theorem test_decode_configure : decode 0b00000000000101100000010100000001#32 = .ok (.configure 5 22) := by rfl
theorem test_decode_reset : decode 0b00000000000000000000000000000010#32 = .ok .reset := by rfl
theorem test_decode_store : decode 0b00000000000000000000000000000011#32 = .ok .store := by rfl
theorem test_decode_storeRange : decode 0b00000000000000000000000000000100#32 = .ok .storeRange := by rfl
theorem test_decode_findLongest : decode 0b00000000000000000000000000000101#32 = .ok .findLongestMatch := by rfl
theorem test_decode_findAll : decode 0b00000000000000000000000000000110#32 = .ok .findAllMatches := by rfl
theorem test_decode_prepend : decode 0b00000000000000000000000000000111#32 = .ok .prependCustomDictionary := by rfl

/-- R93: opcode 0x00 and 0x08, a format N word with bit 8, a CONFIGURE word with bit 12 and one with bit 21. -/
theorem test_decode_illegal :
    decode 0x00000000#32 = .error .unknownOpcode ∧ decode 0x00000008#32 = .error .unknownOpcode ∧
    decode 0x00000105#32 = .error .reservedBitsN ∧ decode 0x00001501#32 = .error .reservedBitsC ∧
    decode 0x00200001#32 = .error .reservedBitsC := ⟨rfl, rfl, rfl, rfl, rfl⟩

theorem test_tableWord :
    decodeTableWord 32 0x00160501 = some (.configure 5 22) ∧ decodeTableWord 32 0x100 = none ∧
    decodeTableWord 8 0x07 = some .prependCustomDictionary := ⟨rfl, rfl, rfl⟩

/-! Small states. -/

/-- Bytes at consecutive addresses, none of them 0. -/
def bytesFrom (a : Nat) : List Nat → Memory
  | [] => []
  | b :: rest => (a, BitVec.ofNat 8 b) :: bytesFrom (a + 1) rest

/-- An engine with these tables, window, mask, bytes of VIEW and register values, all else as at reset. -/
def engine (index : Index) (lgwin : Nat) (mask : Word) (text : List Nat) (x : List (Fin 16 × Nat)) : State :=
  x.foldl (fun s p => s.setX p.1 (BitVec.ofNat 32 p.2))
    { State.reset with
      index := index, lgwin := BitVec.ofNat 5 lgwin, ringMask := mask, view := bytesFrom 0 text,
      params := { defaultParams with dictAllMatches := .table [] } }

/-- The state a command answers. -/
def after (i : Instr) (s : State) : State :=
  match exec i s with
  | .next t => t
  | .fault _ => s
  | .refused _ => s

/-- The state with this word in CMD. -/
def withCmd (w : Word) (s : State) : State := { s with cmd := w }

def abcd : List Nat := [97, 98, 99, 100]
def abcdefgh : List Nat := abcd ++ [101, 102, 103, 104]

/-- H1, `"abcdefgh"` twice, `cur = 8`; the slots of its key read 0, the position of the first copy. -/
def quickEight : State := engine (.quick .h1 []) 22 63 (abcdefgh ++ abcdefgh) [(0, 8), (1, 8), (2, 8)]

/-- H5 after the stores 0 to 3 of Example B1 (R224): `"abcdabcdabcd"`, each key once. -/
def chainB1 : Index :=
  .chain .h5 [(0x1BB7, 1), (0x1CCF, 1), (0x2338, 1), (0x2BA8, 1)]
    [(0x1BB7 * 16, 3), (0x1CCF * 16, 1), (0x2338 * 16, 2)]

/-- Example B1 at position 4. -/
def chainFour : State := engine chainB1 22 15 (abcd ++ abcd ++ abcd) [(0, 4), (1, 8), (2, 16)]

/-- H5 after the stores 0 to 8 of the same text (R227). -/
def chainNine : Index :=
  .chain .h5 [(0x1BB7, 2), (0x1CCF, 2), (0x2338, 2), (0x2BA8, 3)]
    [(0x1BB7 * 16, 3), (0x1BB7 * 16 + 1, 7), (0x1CCF * 16, 1), (0x1CCF * 16 + 1, 5), (0x2338 * 16, 2),
      (0x2338 * 16 + 1, 6), (0x2BA8 * 16 + 1, 4), (0x2BA8 * 16 + 2, 8)]

/-- `"abcdabcdabcdcdabXYZ0"` at position 12. -/
def chainTwelve : State :=
  engine chainNine 22 31 (abcd ++ abcd ++ abcd ++ [99, 100, 97, 98, 88, 89, 90, 48]) [(0, 12), (1, 8), (2, 12), (3, 12)]

/-- H10, window 2^10, after the store of position 0 of `"abcdefgh"` three times, at position 8. -/
def treeEight : State :=
  engine (.tree [(0x3F2, 0), (0x7150, 0), (0x1E143, 0)] []) 10 0x3FF (abcdefgh ++ abcdefgh ++ abcdefgh)
    [(0, 8), (1, 16)]

/-- H10, `"abcdXqrsabcdMq1sabcdZqrs"` after the stores of 0 and 8: node 8 has right child 0. -/
def treeSixteen : State :=
  engine (.tree [(0x3F2, 8), (0x7150, 8), (0x1E143, 8)] [(17, 0)]) 10 0x3FF
    (abcd ++ [88, 113, 114, 115] ++ abcd ++ [77, 113, 49, 115] ++ abcd ++ [90, 113, 114, 115]) [(0, 16), (1, 8)]

/-- H10, a tree without order at position 24 (`"abcdeMgh"`): root 0 (`"abcdeA.."`), its right child 8 (`"abcdeZ.."`), and below
both 16 (`"zzzzzMgQ"`), which R203's carried `len` of 5 compares from offset 5 on: to 7. -/
def treeBroken : State :=
  engine (.tree [(0x1E143, 0)] [(1, 8), (16, 16)]) 10 0x3FF
    (abcd ++ [101, 65, 120, 120] ++ abcd ++ [101, 90, 120, 120] ++ [122, 122, 122, 122, 122, 77, 103, 81] ++ abcd ++
      [101, 77, 103, 104]) [(0, 24), (1, 8)]

/-- `"a"` 48 times at position 32, H3: slot 0 holds 20, slot 1 holds 24; both agree over all 8 bytes, with equal scores. -/
def quickTie : State :=
  engine (.quick .h3 [(0xFDF2, 20), (0xFDF2 + 1, 24)]) 22 63 (List.replicate 48 97) [(0, 32), (1, 8), (2, 32)]

/-- The same on H5: the walk yields 24, then 20. -/
def chainTie : State :=
  engine (.chain .h5 [(0x3CA0, 2)] [(0x3CA0 * 16, 20), (0x3CA0 * 16 + 1, 24)]) 22 63 (List.replicate 48 97)
    [(0, 32), (1, 8), (2, 32)]

/-- The toy dictionary of spec/95_test_vectors.md: "banana", "orange", "yellow". -/
def toyDict : Dict where
  hash := [(0x4AA6, 6), (0x6148, 0x26), (0x7923, 0x46)]
  offsetsByLength := []
  sizeBitsByLength := [(6, 3)]
  cutoffTransforms := [(1, 12), (2, 27), (3, 23), (4, 42), (5, 63), (6, 56), (7, 48), (8, 59), (9, 64)]
  bytes := [98, 97, 110, 97, 110, 97, 111, 114, 97, 110, 103, 101, 121, 101, 108, 108, 111, 119]

/-- A text at position 0, nothing behind it, the toy dictionary. -/
def withToyDict (index : Index) (text : List Nat) : State :=
  let s := engine index 22 127 text [(0, 0), (1, 6), (2, 64)]
  { s with params := { s.params with dict := toyDict } }

def orange (index : Index) : State := withToyDict index [111, 114, 97, 110, 103, 101]
def yellow (index : Index) : State := withToyDict index [121, 101, 108, 108, 111, 119]

/-- `"orange"` on H5 with `"orangeorange"` as the dictionary, these entries at its key and one above (slot 0: 0x06, slot 1:
0x26), and this `x[2]`. -/
def orangePair (even odd maxback : Nat) : State :=
  let s := (orange (.chain .h5 [] [])).setX 2 (BitVec.ofNat 32 maxback)
  let word := [111, 114, 97, 110, 103, 101]
  { s with params := { s.params with dict := { toyDict with
      hash := [(0x6148, BitVec.ofNat 16 even), (0x6149, BitVec.ofNat 16 odd)], bytes := word ++ word } } }

/-- `"aaaaabbbaaaaaccc"` at position 8, the slots of the key on H3, or the one ring entry on H5, holding 0: it agrees over 5
bytes, and not at offset 5; this running best length. -/
def gated (index : Index) (bestLen : Nat) : State :=
  engine index 22 63 (List.replicate 5 97 ++ [98, 98, 98] ++ List.replicate 5 97 ++ [99, 99, 99])
    [(0, 8), (1, 8), (2, 8), (4, bestLen)]

/-- spec/95_test_vectors.md, setting B on H3, the find at 32: `"abcde000abcde111abcde222abcde333abcde22Z"`. -/
def quickSweep4 : State :=
  let abcde := abcd ++ [101]
  engine (.quick .h3 [(0x72AF, 8), (0x72B0, 16), (0x72B1, 24)]) 22 63
    (abcde ++ [48, 48, 48] ++ abcde ++ [49, 49, 49] ++ abcde ++ [50, 50, 50] ++ abcde ++ [51, 51, 51] ++ abcde ++
      [50, 50, 90]) [(0, 32), (1, 8), (2, 32)]

/-- The tables of vector V-C8 under the key of `"abcd"`: positions 0, 7 and 13. -/
def numC8 : Sparse (BitVec 16) := [(0x2BA8, 3)]
def ringC8 : Sparse Word := [(0x2BA8 * 16 + 1, 7), (0x2BA8 * 16 + 2, 13)]

/-- Vector V-C8: `"abcdef1abcde2abcd3abcdefg"` at position 18. -/
def chainC8 : State :=
  engine (.chain .h5 numC8 ringC8) 22 31
    (abcd ++ [101, 102, 49] ++ abcd ++ [101, 50] ++ abcd ++ [51] ++ abcd ++ [101, 102, 103]) [(0, 18), (1, 7), (2, 18)]

/-- One answer of `DICT_ALL_MATCHES` for the bytes `"abcdefgh"`: length 5, word id 9, length code 5. -/
def dictAnswered : State :=
  let s := engine (.chain .h5 [] []) 22 15 abcdefgh [(0, 0), (1, 8), (2, 64)]
  { s with params := { s.params with
      dictAllMatches := .table [⟨abcdefgh.map (BitVec.ofNat 8), 2, 8, 5, ⟨9, 4⟩⟩] } }

/-! The commands, from the spec's examples. -/

/-- R221: `cmd configure q=5, lgwin=22` leaves CONFIG = 0x00001605 and STATUS = 0x00000001. -/
theorem test_configure :
    (after (.configure 5 22) State.reset).configWord = 0x1605#32 ∧
    (after (.configure 5 22) State.reset).statusWord = 1#32 := by decide +kernel

/-- R221: `0x00190A01` (lgwin = 25) leaves STATUS = 0x00000130 if not configured before. -/
theorem test_configure_bad :
    (after (.configure 10 25) (withCmd 0x00190A01 State.reset)).statusWord = 0x130#32 := by decide +kernel

/-- R222: RESET on H5 empties the tables. -/
theorem test_reset : (after .reset chainFour).index = .chain .h5 [] [] := by decide +kernel

/-- R181: with `NUM[key] = 0xFFFF`, a store of 5 writes `RING[key][15]` and leaves `NUM[key] = 0`. -/
theorem test_store_wraps :
    (after .store (engine (.chain .h5 [(0x1CCF, 0xFFFF)] []) 22 15 (abcd ++ abcd ++ abcd) [(0, 5)])).index =
      .chain .h5 [] [(0x1CCF * 16 + 15, 5)] := by decide +kernel

/-- spec/95_test_vectors.md, the tree of Example T1 after the store of 16: node 16 has left child 8, node 8 right child 0. -/
theorem test_store_tree :
    (after .store treeSixteen).index = .tree [(0x3F2, 16), (0x7150, 16), (0x1E143, 16)] [(17, 0), (32, 8)] := by
  decide +kernel

/-- R224: Example B1's four ring entries. -/
theorem test_storeRange :
    (after .storeRange (engine (.chain .h5 [] []) 22 15 (abcd ++ abcd ++ abcd) [(0, 0), (3, 4)])).index = chainB1 := by
  decide +kernel

/-- spec/95_test_vectors.md, Example B1 with cache 4: length 8 at distance 4, score 4380. -/
theorem test_findLongest_cache :
    let t := after .findLongestMatch (chainFour.setX 8 4#32)
    t.getX 7 = 1#32 ∧ t.getX 4 = 8#32 ∧ t.getX 6 = 4#32 ∧ t.bestScore.toInt = 4380 := by decide +kernel

/-- R143's "orange" on H1: length 6, code 6, distance 66, score 2520, one lookup, one match. -/
theorem test_findLongest_dictionary :
    let t := after .findLongestMatch (orange (.quick .h1 []))
    t.getX 7 = 1#32 ∧ t.getX 4 = 6#32 ∧ t.getX 5 = 6#32 ∧ t.getX 6 = 66#32 ∧ t.bestScore.toInt = 2520 ∧
      t.numDictLookups = 1#64 ∧ t.numDictMatches = 1#64 := by decide +kernel

/-- R186, the toy dictionary's odd entry: "yellow" on H5 has length 6, distance 64 + 2 + 1, two lookups, one match. -/
theorem test_findLongest_odd :
    let t := after .findLongestMatch (yellow (.chain .h5 [] []))
    t.getX 4 = 6#32 ∧ t.getX 6 = 67#32 ∧ t.numDictLookups = 2#64 ∧ t.numDictMatches = 1#64 := by decide +kernel

/-- R146, R186: two lookups; two matches where the odd entry's candidate, at distance 63, beats the even one's at 64, one the
other way round and one, the even entry's, where both score the same. -/
theorem test_findLongest_pair :
    (let t := after .findLongestMatch (orangePair 0x26 0x06 62)
     t.numDictLookups = 2#64 ∧ t.numDictMatches = 2#64 ∧ t.getX 6 = 63#32) ∧
    (let t := after .findLongestMatch (orangePair 0x06 0x26 62)
     t.numDictLookups = 2#64 ∧ t.numDictMatches = 1#64 ∧ t.getX 6 = 63#32) ∧
    (let t := after .findLongestMatch (orangePair 0x26 0x06 64)
     t.numDictLookups = 2#64 ∧ t.numDictMatches = 1#64 ∧ t.getX 6 = 66#32) := by decide +kernel

/-- R163, R185, R167 (e), D15: the gate rejects a candidate of 5 equal bytes that differs at the offset of the running best
length 5, and admits it at 4. -/
theorem test_findLongest_gate :
    ∀ index ∈ [Index.quick .h3 [], .chain .h5 [(0x3CA0, 1)] []],
      (after .findLongestMatch (gated index 5)).getX 7 = 0#32 ∧
      (let t := after .findLongestMatch (gated index 4)
       t.getX 7 = 1#32 ∧ t.getX 4 = 5#32 ∧ t.getX 6 = 8#32) := by decide +kernel

/-- V-Q10: slot 2 replaces the match of slot 0. V-C8: the oldest entry replaces the two newer ones. -/
theorem test_findLongest_replaces :
    (let t := after .findLongestMatch quickSweep4
     t.getX 4 = 7#32 ∧ t.getX 6 = 16#32 ∧ t.bestScore.toInt = 3300) ∧
    (let t := after .findLongestMatch chainC8
     t.getX 4 = 6#32 ∧ t.getX 6 = 18#32 ∧ t.bestScore.toInt = 2760) := by decide +kernel

/-- R166 (c), R191 (e): of two candidates of score 3960 the earlier stays. -/
theorem test_findLongest_tie :
    (let t := after .findLongestMatch quickTie
     t.getX 6 = 12#32 ∧ t.bestScore.toInt = 3960) ∧
    (let t := after .findLongestMatch chainTie
     t.getX 6 = 8#32 ∧ t.bestScore.toInt = 3960) := by decide +kernel

/-- R203 by hand in a tree without order: 0 becomes 24's left child, 8 its right one; 16, whose byte at offset 7 is the
smaller, becomes 0's right child. -/
theorem test_store_brokenTree :
    (after .store treeBroken).index =
      .tree [(0x3F2, 24), (0x7150, 24), (0x1E143, 24)] [(1, 16), (48, 0), (49, 8)] := by decide +kernel

/-- R290, U3: in a tree without order returned matches are still byte-exact: 5 bytes at distance 24, and none of 7 at 8. -/
theorem test_findAll_brokenTree :
    let t := after .findAllMatches treeBroken
    t.getX 7 = 1#32 ∧ t.matchSpace = [(0, 0xA000000018#64)] := by decide +kernel

/-- spec/95_test_vectors.md: the two records at position 12 after the prepend. -/
theorem test_findAll_chain :
    let t := after .findAllMatches chainTwelve
    t.getX 7 = 2#32 ∧ t.matchSpace = [(0, 0x4000000002#64), (1, 0x8000000006#64)] := by decide +kernel

/-- spec/95_test_vectors.md, the nice-length exit: one record, length 16 at distance 8. -/
theorem test_findAll_tree :
    let t := after .findAllMatches treeEight
    t.getX 7 = 1#32 ∧ t.matchSpace = [(0, 0x20000000008#64)] := by decide +kernel

/-- R227: with `x[3] = 12`, positions 0 to 8 are stored. -/
theorem test_prepend :
    (after .prependCustomDictionary
      (engine (.chain .h5 [] []) 22 31 (abcd ++ abcd ++ abcd) [(3, 12)])).index = chainNine := by decide +kernel

/-! Primitives. -/

def ringAbcdefgh : Ring := ⟨bytesFrom 0 abcdefgh, 15#32⟩

/-- R110 to R112: the loads' examples, one of them past the end of the ring. -/
theorem test_loads :
    load16 ringAbcdefgh 1 = 0x6362#16 ∧ load32 ringAbcdefgh 14 = 0x62610000#32 ∧
    load64 ringAbcdefgh 1 = 0x0068676665646362#64 := by decide +kernel

/-- R117, R118, R201: the hash examples. -/
theorem test_hashes :
    hash32 0x64636261#32 14 = 0x2BA8 ∧ hash5 ringAbcdefgh 0 16 = 0x72AE ∧ hash5 ringAbcdefgh 0 17 = 0xE55D ∧
    treeKey2 ringAbcdefgh 0 = 0x3F2 ∧ treeKey3 ringAbcdefgh 0 = 0x7150 ∧ treeKey4 ringAbcdefgh 0 = 0x1E143 := by
  decide +kernel

/-- R131, R132: the score examples. -/
theorem test_scores :
    score 4 1#32 = 2160 ∧ score 4 65535#32 = 360 ∧ score 4 65536#32 = 240 ∧ score 4 0xFFFFFFFF#32 = -1560 ∧
    scoreLast 2 1 = 985 ∧ scoreLast 3 15 = 1495 := by decide +kernel

/-- R183: the sixteen candidates of the cache {4, 11, 15, 16}. -/
theorem test_cacheCandidates :
    (List.finRange 16).map (cacheCandidate (engine .absent 0 0 [] [(8, 4), (9, 11), (10, 15), (11, 16)])) =
      [4, 11, 15, 16, 3, 5, 2, 6, 1, 7, 10, 12, 9, 13, 8, 14] := by decide +kernel

/-! Witnesses: states and operands that meet the hypotheses of each statement in Obligations.lean, clause by clause. -/

theorem after_next (i : Instr) (s : State) : exec i s = .next (after i s) := by
  obtain ⟨t, ht⟩ := exec_answers i s
  simp [after, ht]

/-- DecodeInvertsEncode, EncodeInvertsDecode: the largest immediates. -/
theorem witness_encoding :
    (Instr.configure 15 31).WellFormed = true ∧ decode 0x001F0F01#32 = .ok (.configure 15 31) := ⟨rfl, rfl⟩

/-- Whether a word is no command. -/
def undecoded (w : Word) : Bool :=
  match decode w with
  | .ok _ => false
  | .error _ => true

/-- IllegalWordsRaise: each class of illegal word at its bounds, and a state with no fault. -/
theorem witness_illegalWords :
    State.reset.err = .none ∧
    (undecoded 0x00#32 && undecoded 0x08#32 && undecoded 0xFF#32 && undecoded 0x102#32 && undecoded 0x80000007#32 &&
      undecoded 0x1001#32 && undecoded 0x8001#32 && undecoded 0x200001#32 && undecoded 0x80000001#32) = true ∧
    ∀ w i, undecoded w = true → decode w ≠ .ok i :=
  ⟨rfl, by decide +kernel, fun w i h hd => by simp [undecoded, hd] at h⟩

/-- StepRunsDecodedCommand: a pending write of the word of a command, and the placed one. -/
theorem witness_step :
    quickEight.err = .none ∧ decode 0x03#32 = .ok .store ∧
    ∃ (s : State) (rest : List HostAction), s.err = .none ∧ s.host = .write s.params.engineBase 0x03#32 :: rest ∧
      (quickEight.withFetchWord 32 0x03).host = .write 0 0x03#32 :: quickEight.host :=
  ⟨rfl, rfl, { quickEight with host := [.write 0 0x03#32] }, [], rfl, rfl, rfl⟩

/-- RegisterMap: a CMD write that runs a command, and the unassigned offsets at their bounds. -/
theorem witness_registerMap :
    quickEight.err = .none ∧ decode 0x02#32 = .ok .reset ∧
    exec .reset { quickEight with cmd := 0x02#32 } = .next (after .reset (withCmd 0x02#32 quickEight)) ∧
    (0x28 ≤ 0x28 ∧ 0x28 < 0x40 ∧ 0x28 % 4 = 0) ∧ (0x28 ≤ 0x3C ∧ 0x3C < 0x40 ∧ 0x3C % 4 = 0) :=
  ⟨rfl, rfl, after_next _ _, by decide, by decide⟩

/-- A state with a recorded fault, and STATUS and CMD writes pending. -/
def faulted : State :=
  { State.reset with err := .illegalCmd, errOp := 0#8, host := [.write 0x04 7#32, .write 0x00 0x03#32] }

/-- RefusedWhileFaultRecorded, StatusWriteClearsFault: a recorded fault; the two writes in order, the second word a
command or not. -/
theorem witness_recordedFault :
    faulted.err ≠ .none ∧
    faulted.host = .write (faulted.params.engineBase + 0x04) 7#32 :: .write faulted.params.engineBase 0x03#32 :: [] ∧
    decode 0x03#32 = .ok .store ∧ decode 0x00#32 = .error .unknownOpcode ∧
    State.reset.err = .none ∧ State.reset.errOp = 0#8 := ⟨by decide, rfl, rfl, rfl, rfl, rfl⟩

/-- An engine at bus address 0x1000 with these accesses pending. -/
def based (host : List HostAction) : State :=
  { State.reset with params := { defaultParams with engineBase := 0x1000 }, host := host }

/-- StopsOnlyOutsideTheMap: no access pending; accesses just below the block, just above it and misaligned. -/
theorem witness_outside :
    (based []).host = [] ∧
    (0xFFF < (based []).params.engineBase) ∧ (based []).params.engineBase + 0x80 ≤ 0x1080 ∧
    (0x1002 - (based []).params.engineBase) % 4 ≠ 0 ∧
    (based [.read 0xFFF]).host = .read 0xFFF :: [] ∧ (based [.write 0x1080 0#32]).host = .write 0x1080 0#32 :: [] ∧
    ∀ t, step (based [.read 0x1002]) ≠ .next t :=
  ⟨rfl, by decide, by decide, by decide, rfl, rfl, fun t h => by
    have hf : step (based [.read 0x1002]) = .fault .hostAccessOutsideMap := rfl
    simp [hf] at h⟩

/-- ViewHoldsWhatTheHostWrites: another byte; a placement whose bytes have addresses of their own across the wrap (the reads
have no hypothesis). -/
theorem witness_view :
    (1#32 : Word) ≠ 0#32 ∧
    ∀ j k, j < [1#8, 2#8].length → k < [1#8, 2#8].length →
      (0xFFFFFFFF#32 + BitVec.ofNat 32 j) &&& chainFour.ringMask = (0xFFFFFFFF#32 + BitVec.ofNat 32 k) &&&
        chainFour.ringMask → j = k := by
  refine ⟨by decide, ?_⟩
  have : ∀ j, j < 2 → ∀ k, k < 2 →
      (0xFFFFFFFF#32 + BitVec.ofNat 32 j) &&& 15#32 = (0xFFFFFFFF#32 + BitVec.ofNat 32 k) &&& 15#32 → j = k := by decide
  exact fun j k hj hk => this j hj k hk

/-- ConfigurationChangesOnlyByConfigure: a CONFIGURE step that changes CONFIG, and power-on reset of a configured engine. -/
theorem witness_configurationChanges :
    (∃ t, step { State.reset with host := [.write 0 0x00160501#32] } = .next t ∧ t.configWord ≠ State.reset.configWord) ∧
    (∃ t, step { quickEight with host := [.powerOn] } = .next t ∧ t.index = .absent) ∧ quickEight.index ≠ .absent :=
  ⟨⟨_, rfl, by decide +kernel⟩, ⟨_, rfl, rfl⟩, by decide⟩

/-- PowerOnState, ConfigureSelectsStrategy: operands at both ends of both ranges, and just outside. -/
theorem witness_configureOperands :
    (1 ≤ 1 ∧ 1 ≤ 10 ∧ 10 ≤ 10 ∧ 10 ≤ 24) ∧ (1 ≤ 10 ∧ 10 ≤ 10 ∧ 10 ≤ 24 ∧ 24 ≤ 24) ∧
    (0 < 1 ∧ 10 < 11 ∧ 9 < 10 ∧ 24 < 25) := by decide

/-- FaultsArePrecise: a command that faults, and two states that differ in everything but what the checks read. -/
theorem witness_precise :
    State.reset.err = .none ∧ exec .store State.reset = .next (after .store State.reset) ∧
    (after .store State.reset).err ≠ .none ∧
    (let u := chainFour.setX 0 9#32
     u.err = .none ∧ u ≠ chainFour ∧ chainFour.index.strategy? = u.index.strategy? ∧ chainFour.lgwin = u.lgwin ∧
      chainFour.ringMask = u.ringMask ∧ exec .store u = .next (after .store u) ∧
      exec .store chainFour = .next (after .store chainFour)) :=
  ⟨rfl, after_next _ _, by decide, rfl, by decide +kernel, rfl, rfl, rfl, after_next _ _, after_next _ _⟩

/-- NotConfiguredFaults, ResetEmptiesTables: an engine without tables, and one with them and a legal window. -/
theorem witness_configured :
    State.reset.index = .absent ∧ chainFour.index ≠ .absent ∧ 10 ≤ chainFour.lgwin.toNat ∧
      chainFour.lgwin.toNat ≤ 24 := ⟨rfl, by decide, by decide, by decide⟩

/-- UnsupportedPairsFault, PreludeChecksTheMask: one engine of each family, with a mask that is no `2^n − 1`, and H10 with
a ring one bit smaller than its window. -/
theorem witness_masks :
    (∃ h qb, quickEight.index = .quick h qb ∧ maskOK { quickEight with ringMask := 62#32 } = false) ∧
    (∃ h num ring, chainFour.index = .chain h num ring ∧ maskOK { chainFour with ringMask := 0x80000000#32 } = false) ∧
    (∃ ht child, treeEight.index = .tree ht child ∧ maskOK { treeEight with ringMask := 0x1FF#32 } = false) ∧
    (maskOK { quickEight with ringMask := 0#32 } = true ∧ maskOK { quickEight with ringMask := 0xFFFFFFFF#32 } = true) :=
  ⟨⟨_, _, rfl, by decide⟩, ⟨_, _, _, rfl, by decide⟩, ⟨_, _, rfl, by decide⟩, by decide, by decide⟩

/-- The default rows are well formed. -/
theorem test_rows_wellFormed :
    (∀ h, (defaultStrategy.quick h).WellFormed) ∧ ∀ h, (defaultStrategy.chain h).WellFormed :=
  ⟨fun h => by cases h <;> decide, fun h => by cases h <;> decide⟩

/-- QuickStoreEffect, and every statement that asks for a quick engine with a good mask. -/
theorem witness_quick :
    quickEight.index = .quick .h1 [] ∧ maskOK quickEight = true ∧ (quickEight.params.strategy.quick .h1).WellFormed :=
  ⟨rfl, by decide, test_rows_wellFormed.1 .h1⟩

/-- ChainStoreEffect, ChainFindAllRecords and ChainFindAllCollapses: another key, another ring place. -/
theorem witness_chain :
    (∃ h num ring, chainFour.index = .chain h num ring) ∧ maskOK chainFour = true ∧
    (chainFour.params.strategy.chain .h5).WellFormed ∧
    1 ≤ chainFour.params.dictMaxLen ∧ chainFour.params.dictMaxLen < 325 ∧
    0 < 2 ^ (chainFour.params.strategy.chain .h5).blockBits ∧ (0 : Nat) ≠ 0x2BA8 :=
  ⟨⟨_, _, _, rfl⟩, by decide, test_rows_wellFormed.2 .h5, by decide, by decide, by decide, by decide⟩

/-- ChainFindAllCollapses: position 1 of an empty VIEW agrees with position 0 over all 325 bytes. -/
theorem witness_collapse :
    let s := engine (.chain .h5 [] []) 22 0 [] [(0, 1), (1, 325), (2, 1)]
    maskOK s = true ∧ chainMatches s .h5 [] [] = [⟨1#32, 325, 325⟩] := by decide +kernel

/-- ChainFindAllRecords, ChainFindAllMissesNothing: a lookahead of 4 or more and one below; a walk of three candidates; a
near position with no nearer one of 3 bytes; a length that `DICT_ALL_MATCHES` answers, with no window match below it; the same
answer where its distance wraps to 0. -/
theorem witness_chainFindAll :
    chainWalk (chainC8.params.strategy.chain .h5) chainC8.ring numC8 ringC8 18#32 18#32 = [13#32, 7#32, 0#32] ∧
    prefixMatch chainC8.ring 0#32 18#32 7 = 6 ∧ maskOK chainC8 = true ∧
    prefixMatch chainFour.ring (4#32 - 4#32) 4#32 8 = 8 ∧
    [1#32, 2#32, 3#32].map (fun d => prefixMatch chainFour.ring (4#32 - d) 4#32 8) = [0, 0, 0] ∧
    4 ≤ (chainC8.getX 1).toNat ∧ ((chainC8.setX 1 3#32).getX 1).toNat < 4 ∧
    maskOK dictAnswered = true ∧ min (dictAnswered.getX 1).toNat dictAnswered.params.dictMaxLen = 8 ∧
    (dictAllMatches dictAnswered.params.dictAllMatches (viewBytes dictAnswered.ring 0#32 8) 2 8 5).isSome = true ∧
    chainMatches dictAnswered .h5 [] [] = [⟨74#32, 5, 5⟩] ∧
    chainMatches (dictAnswered.setX 2 0xFFFFFFF6#32) .h5 [] [] = [] := by decide +kernel

/-- ChainFindAllMissesNothing, a record for every strictly longer candidate: in V-C8 no position is near beyond distance 5,
which agrees over 4 bytes; the walk's 7 and 0 agree over 5 and 6, each more than all before it. -/
theorem witness_strictlyLonger :
    let len := fun prev => prefixMatch chainC8.ring prev 18#32 7
    (∀ d : Word, d ≠ 0#32 → (∀ d' : Word, d' ≠ 0#32 → d' < d → len (18#32 - d') ≤ 2) → len (18#32 - d) < 5) ∧
    [13#32, 7#32, 0#32] = [13#32] ++ 7#32 :: [0#32] ∧ (len 13#32 = 4 ∧ len 7#32 = 5 ∧ len 0#32 = 6) ∧
    chainMatches chainC8 .h5 numC8 ringC8 = [⟨5#32, 4, 4⟩, ⟨11#32, 5, 5⟩, ⟨18#32, 6, 6⟩] := by
  refine ⟨fun d h0 h => ?_, by decide +kernel⟩
  by_cases h5 : 5#32 < d
  · exact absurd (h 5#32 (by decide) h5) (by decide +kernel)
  · have : ∀ k : Fin 6, prefixMatch chainC8.ring (18#32 - BitVec.ofNat 32 k) 18#32 7 < 5 ∨ k = 0 := by decide +kernel
    rw [BitVec.lt_def] at h5
    have hk : d.toNat < 6 := by simp at h5; omega
    rcases this ⟨d.toNat, hk⟩ with h' | h'
    · simpa using h'
    · exact absurd (BitVec.eq_of_toNat_eq (by simpa using congrArg Fin.val h')) h0

/-- TreeStoreInstalls, TreeLookaheadGuard, RecordFlagKeepsTables, TreeFindAllRecords: lookahead at and just below the nice
length. -/
theorem witness_tree :
    (∃ ht child, treeEight.index = .tree ht child) ∧ maskOK treeEight = true ∧
    (treeSixteen.params.h10NiceLength ≤ (treeSixteen.getX 1).toNat ∧ (treeSixteen.getX 1).toNat = 8) ∧
    ((treeSixteen.setX 1 7#32).getX 1).toNat < treeSixteen.params.h10NiceLength ∧
    4 ≤ treeEight.params.h10NiceLength ∧
    (∃ i, treeGet 10 [(17, 0)] i ≠ treeGet 10 ([] : Sparse Word) i) :=
  ⟨⟨_, _, rfl⟩, by decide, by decide +kernel, by decide +kernel, by decide, 17, by decide⟩

/-- A tree of two nodes, the second the right child of the first, is ordered when the first precedes the second. -/
theorem treeOrdered_two {e : Advance} {child : Sparse Word} {p q : Word}
    (hl : inWindow e.lgwin e.cur (treeGet e.lgwin child (leftChild e.lgwin p)) = false)
    (hr : treeGet e.lgwin child (rightChild e.lgwin p) = q) (hb : LexBefore e.ring e.niceLength p q)
    (hql : inWindow e.lgwin e.cur (treeGet e.lgwin child (leftChild e.lgwin q)) = false)
    (hqr : inWindow e.lgwin e.cur (treeGet e.lgwin child (rightChild e.lgwin q)) = false) (levels : Nat) :
    TreeOrdered e child levels p [] [] := by
  cases levels with
  | zero => trivial
  | succ levels =>
    refine fun _ => ⟨nofun, nofun, treeOrdered_outside hl _ _ _, ?_⟩
    rw [hr]
    cases levels with
    | zero => trivial
    | succ levels =>
      refine fun _ => ⟨fun x hx => ?_, nofun, treeOrdered_outside hql _ _ _, treeOrdered_outside hqr _ _ _⟩
      rw [List.mem_singleton.1 hx]
      exact hb

/-- TreeStoreInstalls, TreeHangsRoot, TreeFindAllRecords: the tree of `treeSixteen` is ordered; its two nodes are visited,
they are the search path, one node with depth 1, and both hang left; the first agrees over 4 bytes, more than both holders'
records; entry 40 belongs to none of the three positions; SENTINEL
is out of window. -/
theorem witness_treeOrdered :
    let s := treeSixteen
    let ht : Sparse Word := [(0x3F2, 8), (0x7150, 8), (0x1E143, 8)]
    (∀ record levels, TreeOrdered (s.advanceAt 16#32 8 record) [(17, 0)] levels 8#32 [] []) ∧
    s.getX 0 = 16#32 ∧ (s.getX 1).toNat = 8 ∧ treeGet s.lgwin ht (treeKey4 s.ring 16#32) = 8#32 ∧
    (let e := s.advanceAt 16#32 8 false
     e.visits 4 (e.startWalk ht [(17, 0)]) = [8#32, 0#32] ∧ treePath e [(17, 0)] 4 8#32 = [8#32, 0#32] ∧
     treePath e [(17, 0)] 1 8#32 = [8#32] ∧ [8#32, 0#32].filter e.hangsLeft = [8#32, 0#32]) ∧
    2 ≤ prefixMatch s.ring 0#32 16#32 8 ∧
    ([8#32, 0#32] = [] ++ 8#32 :: [0#32] ∧ prefixMatch s.ring 8#32 16#32 8 = 4 ∧
      treeMatches s ht [(17, 0)] = [⟨8#32, 2, 2⟩, ⟨8#32, 3, 3⟩, ⟨8#32, 4, 4⟩]) ∧
    40 ∉ [16#32, 8#32, 0#32].map (leftChild s.lgwin) ∧ 40 ∉ [16#32, 8#32, 0#32].map (rightChild s.lgwin) ∧
    inWindow s.lgwin 16#32 (sentinel s.lgwin) = false := by
  refine ⟨fun record levels => ?_, by decide +kernel⟩
  cases record <;>
    exact treeOrdered_two (q := 0#32) (by decide +kernel) (by decide +kernel) ⟨4, by decide +kernel⟩ (by decide +kernel)
      (by decide +kernel) levels

/-- TreeHangsRoot: a root that hangs left (`'M' < 'Z'`) whose right child is out of window once its entry is the sentinel,
and one that hangs right. -/
theorem witness_treeHangs :
    let s := { treeSixteen with index := .tree [(0x3F2, 8), (0x7150, 8), (0x1E143, 8)] [] }
    let u := (treeSixteen.setX 0 8#32).setX 1 16#32
    maskOK s = true ∧ 1 ≤ s.params.h10MaxSearchDepth ∧ s.params.h10NiceLength ≤ (s.getX 1).toNat ∧
    treeGet s.lgwin [(0x3F2, 8), (0x7150, 8), (0x1E143, 8)] (treeKey4 s.ring 16#32) = 8#32 ∧
    inWindow s.lgwin 16#32 8#32 = true ∧ prefixMatch s.ring 8#32 16#32 8 = 4 ∧
    s.ring.byteAt 8#32 4 < s.ring.byteAt 16#32 4 ∧
    inWindow s.lgwin 16#32 (treeGet s.lgwin [] (rightChild s.lgwin 8#32)) = false ∧
    inWindow u.lgwin 8#32 0#32 = true ∧ prefixMatch u.ring 0#32 8#32 16 = 4 ∧
    ¬ u.ring.byteAt 0#32 4 < u.ring.byteAt 8#32 4 ∧
    inWindow u.lgwin 8#32 (treeGet u.lgwin [] (leftChild u.lgwin 0#32)) = false := by decide +kernel

/-- StoreRangeIsStores: no position, one, and an engine where both fault. -/
theorem witness_storeRange :
    chainFour.index ≠ .absent ∧ maskOK chainFour = true ∧ chainFour.getX 3 = 0#32 ∧
    (chainFour.setX 3 1#32).getX 3 ≠ 0#32 ∧ State.reset.index = .absent ∧
    maskOK { chainFour with ringMask := 5#32 } = false := by decide +kernel

/-- PrependIsStoreRange, FindLongestCompletes, ShortLookaheadFindsNothing: both families; the lookahead just short. -/
theorem witness_families :
    ((∃ h qb, quickEight.index = .quick h qb) ∧ ∃ h num ring, chainFour.index = .chain h num ring) ∧
    ((quickEight.setX 1 4#32).getX 1).toNat < 5 ∧ ((chainFour.setX 1 3#32).getX 1).toNat < 4 :=
  ⟨⟨⟨_, _, rfl⟩, _, _, _, rfl⟩, by decide +kernel, by decide +kernel⟩

/-- QuickSingleProbe: the last distance 8 of `"abcdefgh"` twice, and with `x[8] = 0` the slot that holds 0. -/
theorem witness_singleProbe :
    let s := quickEight.setX 8 8#32
    maskOK s = true ∧ (s.params.strategy.quick .h1).sweep = 1 ∧ 5 ≤ (s.getX 1).toNat ∧
    (1 ≤ (s.getX 8).toInt ∧ (s.getX 8).toInt ≤ ((s.getX 0).toNat : Int)) ∧
    s.ring.byte (8#32 - 8#32 + s.getX 4) = s.ring.byte (8#32 + s.getX 4) ∧
    4 ≤ prefixMatch s.ring 0#32 8#32 8 ∧ s.bestScore.toInt < scoreLast (prefixMatch s.ring 0#32 8#32 8) 0 ∧
    ¬ (1 ≤ (quickEight.getX 8).toInt ∧ (quickEight.getX 8).toInt ≤ ((quickEight.getX 0).toNat : Int)) ∧
    qbGet [] (hash5 s.ring 8#32 16) = 0#32 ∧ (8#32 : Word) - 0#32 ≠ 0#32 ∧ (8#32 : Word) - 0#32 ≤ s.getX 2 ∧
    s.bestScore.toInt < score (prefixMatch s.ring 0#32 8#32 8) (8#32 - 0#32) := by decide +kernel

/-- QuickMatchIsTrue, QuickMissesNothing: the find of `quickEight` improves, with no dictionary answer; its candidate is the
slot at offset 0. -/
theorem witness_quickMatch :
    exec .findLongestMatch quickEight = .next (after .findLongestMatch quickEight) ∧
    (after .findLongestMatch quickEight).getX 7 = 1#32 ∧
    (after .findLongestMatch quickEight).numDictMatches = quickEight.numDictMatches ∧
    5 ≤ (quickEight.getX 1).toNat ∧ 0 < (quickEight.params.strategy.quick .h1).sweep ∧
    (quickEight.getX 4).toNat < prefixMatch quickEight.ring 0#32 8#32 8 :=
  ⟨after_next _ _, by decide +kernel, by decide +kernel, by decide +kernel, by decide, by decide +kernel⟩

/-- QuickMissesNothing, a later candidate: on H3 slot 2 is admissible and longer than slots 0 and 1 and than the last-distance
candidate 32. -/
theorem witness_quickReplaces :
    let s := quickSweep4.setX 8 32#32
    let len := fun prev => prefixMatch s.ring prev 32#32 8
    let slot := fun j => qbGet [(0x72AF, 8), (0x72B0, 16), (0x72B1, 24)] (hash5 s.ring 32#32 16 + j)
    maskOK s = true ∧ 5 ≤ (s.getX 1).toNat ∧ (s.params.strategy.quick .h3).bucketBits = 16 ∧
    (s.params.strategy.quick .h3).sweep = 4 ∧ (1 ≤ (s.getX 8).toInt ∧ (s.getX 8).toInt ≤ 32) ∧
    (s.getX 4).toNat = 0 ∧ len (32#32 - s.getX 8) = 5 ∧ (slot 0 = 0#32 ∧ slot 1 = 8#32 ∧ slot 2 = 16#32) ∧
    (len 0#32 = 5 ∧ len 8#32 = 5 ∧ len 16#32 = 7) ∧ (32#32 : Word) - 16#32 ≠ 0#32 ∧
    (32#32 : Word) - 16#32 ≤ s.getX 2 := by decide +kernel

/-- QuickMissesNothing, ChainMissesNothing: finds with no candidate accepted, with one, and with one replaced by longer ones. -/
theorem witness_candidates :
    let quick := fun s qb =>
      (takenFrom s.ring (s.getX 0) 8 (s.getX 4).toNat s.bestScore.toInt (quickCandidates s .h3 qb)).map Candidate.dist
    let chain := fun s num ring =>
      (takenFrom s.ring (s.getX 0) (s.getX 1).toNat (s.getX 4).toNat s.bestScore.toInt
        (chainCandidates s .h5 num ring)).map Candidate.dist
    quick (gated (.quick .h3 []) 5) [] = [] ∧ quick (gated (.quick .h3 []) 4) [] = [8#32] ∧
    quick quickSweep4 [(0x72AF, 8), (0x72B0, 16), (0x72B1, 24)] = [32#32, 16#32] ∧
    chain (gated (.chain .h5 [(0x3CA0, 1)] []) 5) [(0x3CA0, 1)] [] = [] ∧
    chain (gated (.chain .h5 [(0x3CA0, 1)] []) 4) [(0x3CA0, 1)] [] = [8#32] ∧
    chain chainC8 numC8 ringC8 = [5#32, 11#32, 18#32] := by decide +kernel

/-- QuickMissesNothing: a tie of slot 1 with slot 0, which ends the search; on H1 a valid last distance that is not accepted. -/
theorem witness_quickTie :
    let s := quickTie
    let u := quickEight.setX 8 1#32
    let slot := fun j => qbGet [(0xFDF2, 20), (0xFDF2 + 1, 24)] (hash5 s.ring 32#32 16 + j)
    maskOK s = true ∧ (slot 0 = 20#32 ∧ slot 1 = 24#32) ∧ (s.getX 4).toNat = 0 ∧ s.bestScore.toInt = 0 ∧
    (prefixMatch s.ring 20#32 32#32 8 = 8 ∧ prefixMatch s.ring 24#32 32#32 8 = 8) ∧
    (score 8 12#32 = 3960 ∧ score 8 8#32 = 3960) ∧ (after .findLongestMatch s).bestScore.toInt = 3960 ∧
    (u.params.strategy.quick .h1).sweep = 1 ∧ (1 ≤ (u.getX 8).toInt ∧ (u.getX 8).toInt ≤ 8) ∧
    prefixMatch u.ring (8#32 - u.getX 8) 8#32 8 = 0 := by decide +kernel

/-- ChainMissesNothing: a tie of the walk's two candidates, and of the cache candidates of a find that the first one ends. -/
theorem witness_chainTie :
    let s := chainTie
    let u := chainFour.setX 8 4#32
    chainWalk (s.params.strategy.chain .h5) s.ring [(0x3CA0, 2)] [(0x3CA0 * 16, 20), (0x3CA0 * 16 + 1, 24)] 32#32 32#32 =
      [24#32, 20#32] ∧
    s.bestScore.toInt = 0 ∧ (after .findLongestMatch s).bestScore.toInt = score 8 (32#32 - 24#32) ∧
    u.bestScore.toInt = 0 ∧ (after .findLongestMatch u).bestScore.toInt = scoreLast 8 0 := by decide +kernel

/-- ChainMissesNothing, a later candidate: position 0 is longer than the newer 13 and 7 and than any cache candidate (with the
cache at 0 there is none); with the cache at 18 the candidate 0 is admissible, and 1 to 3 are at distance 0. -/
theorem witness_chainReplaces :
    let s := chainC8
    let u := chainC8.setX 8 18#32
    let len := fun prev => prefixMatch s.ring prev 18#32 7
    [13#32, 7#32, 0#32] = [13#32, 7#32] ++ 0#32 :: [] ∧ (len 13#32 = 4 ∧ len 7#32 = 5 ∧ len 0#32 = 6) ∧
    (s.getX 4).toNat = 0 ∧ (s.params.strategy.chain .h5).lastDistToCheck = 4 ∧
    (∀ i : Fin 16, i.val < 4 → cacheCandidate s i = 0) ∧ cacheCandidate u 0 = 18 ∧ cacheCandidate u 1 = 0 ∧
    ((18#32 : Word) ≠ 0#32 ∧ 18#32 ≤ u.getX 0 ∧ 18#32 ≤ u.getX 2) := by decide +kernel

/-- ChainMatchIsTrue, ChainMissesNothing, ChainFindAllMissesNothing, ChainWalkYields: the same on H5; position 0 is
yielded by the walk and is near; the cache candidate 4 is admissible. -/
theorem witness_chainMatch :
    exec .findLongestMatch chainFour = .next (after .findLongestMatch chainFour) ∧
    (after .findLongestMatch chainFour).getX 7 = 1#32 ∧
    (after .findLongestMatch chainFour).numDictMatches = chainFour.numDictMatches ∧
    4 ≤ (chainFour.getX 1).toNat ∧
    chainWalk (chainFour.params.strategy.chain .h5) chainFour.ring [(0x1BB7, 1), (0x1CCF, 1), (0x2338, 1), (0x2BA8, 1)]
      [] 4#32 16#32 = [0#32] ∧
    prefixMatch chainFour.ring 0#32 4#32 8 = 8 ∧ chainFour.bestScore.toInt < score 8 (4#32 - 0#32) ∧
    cacheCandidate (chainFour.setX 8 4#32) 0 = 4 ∧ (0 : Fin 16).val < 4 ∧ chainFour.bestScore.toInt < scoreLast 8 0 ∧
    ((4#32 : Word) ≠ 0#32 ∧ (4#32 : Word) ≤ 64#32 ∧ (4#32 : Word) ≤ chainFour.getX 0 ∧ (4#32 : Word) ≤ chainFour.getX 2) :=
  ⟨after_next _ _, by decide +kernel, by decide +kernel, by decide +kernel, by decide +kernel, by decide +kernel,
    by decide +kernel, by decide +kernel, by decide, by decide +kernel, by decide +kernel⟩

/-- QuickStoreThenFind: the store of 0 and the find at 8 on the tables it leaves. -/
theorem witness_quickStoreThenFind :
    let s := quickEight.setX 0 0#32
    let t := after .store s
    let u := t.setX 0 8#32
    exec .store s = .next t ∧ maskOK s = true ∧ u.index = t.index ∧ u.view = t.view ∧ u.ringMask = t.ringMask ∧
    u.lgwin = t.lgwin ∧ u.params = t.params ∧ u.getX 0 - s.getX 0 ≠ 0#32 ∧ u.getX 0 - s.getX 0 ≤ u.getX 2 ∧
    5 ≤ (u.getX 1).toNat ∧ u.getX 4 = 0#32 ∧ (∀ j, j < 5 → u.ring.byteAt 0#32 j = u.ring.byteAt 8#32 j) ∧
    u.bestScore.toInt < score (prefixMatch u.ring 0#32 8#32 8) 8#32 :=
  ⟨after_next _ _, by decide +kernel, rfl, rfl, rfl, rfl, rfl, by decide +kernel, by decide +kernel, by decide +kernel,
    by decide +kernel, by decide +kernel, by decide +kernel⟩

/-- ChainStoreThenFind: the same on H5, the counter not about to wrap. -/
theorem witness_chainStoreThenFind :
    let s := engine (.chain .h5 [] []) 22 15 (abcd ++ abcd ++ abcd) [(0, 0), (1, 8), (2, 16)]
    let t := after .store s
    let u := t.setX 0 4#32
    exec .store s = .next t ∧ maskOK s = true ∧ numGet [] (hash32 (load32 s.ring 0#32) 14) ≠ 0xFFFF#16 ∧
    u.index = t.index ∧ u.view = t.view ∧ u.ringMask = t.ringMask ∧ u.lgwin = t.lgwin ∧ u.params = t.params ∧
    u.getX 0 - s.getX 0 ≠ 0#32 ∧ u.getX 0 - s.getX 0 ≤ u.getX 2 ∧ 4 ≤ (u.getX 1).toNat ∧ u.getX 4 = 0#32 ∧
    (∀ j, j < 4 → u.ring.byteAt 0#32 j = u.ring.byteAt 4#32 j) ∧
    u.bestScore.toInt < score (prefixMatch u.ring 0#32 4#32 8) 4#32 :=
  ⟨after_next _ _, by decide +kernel, by decide +kernel, rfl, rfl, rfl, rfl, rfl, by decide +kernel, by decide +kernel,
    by decide +kernel, by decide +kernel, by decide +kernel, by decide +kernel⟩

/-- FreshTablesFindNothing: RESET tables of each family at position 0. -/
theorem witness_fresh :
    let s := engine (.chain .h5 [] []) 22 15 abcdefgh []
    let u := engine (.tree [] []) 10 0x3FF abcdefgh [(1, 8)]
    let q := engine (.quick .h1 []) 22 15 abcdefgh []
    (maskOK q = true ∧ q.index.AllReset q.lgwin ∧ q.getX 0 = 0#32) ∧
    (maskOK s = true ∧ s.index.AllReset s.lgwin ∧ s.getX 0 = 0#32 ∧ s.params.dictAllMatches = .table []) ∧
    maskOK u = true ∧ u.index.AllReset u.lgwin ∧ (u.getX 0).toNat + windowMask u.lgwin < 2 ^ 32 :=
  ⟨⟨by decide +kernel, fun _ => rfl, by decide +kernel⟩,
    ⟨by decide +kernel, ⟨fun _ => rfl, fun _ => rfl⟩, by decide +kernel, rfl⟩,
    by decide +kernel, ⟨fun _ => rfl, fun _ => rfl⟩, by decide +kernel⟩

/-- DictionaryMatch, ThrottleCounting: a find that a dictionary entry answers, on H1 and H5 from the even entry, on H5 from
the odd one; both counters move. -/
theorem witness_dictionary :
    ∀ s ∈ [orange (.quick .h1 []), orange (.chain .h5 [] []), yellow (.chain .h5 [] [])],
      maskOK s = true ∧ exec .findLongestMatch s = .next (after .findLongestMatch s) ∧
      (after .findLongestMatch s).numDictMatches ≠ s.numDictMatches ∧
      (after .findLongestMatch s).numDictLookups ≠ s.numDictLookups := by
  intro s hs
  refine ⟨?_, ?_, ?_⟩
  · revert s; decide +kernel
  · exact after_next _ _
  · revert s; decide +kernel

/-- DictionaryMatch: the odd entry of `"yellow"` is longer than 0 and its candidate admissible, the even one is empty. -/
theorem witness_oddEntry :
    let s := yellow (.chain .h5 [] [])
    dictKey s.ring 0#32 = 0x7922 ∧ Sparse.get 0#16 toyDict.hash 0x7922 = 0#16 ∧
    (Sparse.get 0#16 toyDict.hash 0x7923).toNat % 32 = 6 ∧ 6 ≤ (s.getX 1).toNat ∧
    prefixMatchDict toyDict s.ring 0#32 12 6 = 6 := by decide +kernel

/-- DictionaryMatch: two entries of one score, above BEST_SCORE. -/
theorem witness_evenEntry :
    let s := orangePair 0x26 0x06 64
    let look := dictLookup s.params.dict s.ring (s.getX 0) (s.getX 1) (s.getX 2)
    dictKey s.ring 0#32 = 0x6148 ∧ look 0x6148 = some ⟨66#32, 6, 6, 2520⟩ ∧ look 0x6149 = some ⟨65#32, 6, 6, 2520⟩ ∧
    s.bestScore.toInt = 0 ∧ (after .findLongestMatch s).numDictLookups ≠ s.numDictLookups := by decide +kernel

/-- ThrottleStaysClosed: below 128 lookups, and at 128 with a find pending. -/
theorem witness_throttle :
    (127#64 : Word64) < 128#64 ∧
    let s := { orange (.quick .h1 []) with numDictLookups := 128#64, host := [.write 0 0x05#32] }
    128#64 ≤ s.numDictLookups ∧ s.numDictMatches = 0#64 ∧ ∃ t, step s = .next t :=
  ⟨by decide, by decide +kernel, rfl, _, rfl⟩

/-- TreeNiceLengthExit, TreeDirectMatches: the root of `treeEight` agrees over 16 bytes; with the root's entry alone at
the sentinel the two direct holders are in window. -/
theorem witness_treeFinds :
    let s := treeEight
    maskOK s = true ∧ 1 ≤ s.params.h10MaxSearchDepth ∧ s.params.h10NiceLength ≤ (s.getX 1).toNat ∧
    inWindow s.lgwin 8#32 (treeGet s.lgwin [(0x3F2, 0), (0x7150, 0), (0x1E143, 0)] (treeKey4 s.ring 8#32)) = true ∧
    s.params.h10NiceLength ≤ prefixMatch s.ring 0#32 8#32 16 ∧
    inWindow s.lgwin 8#32 (treeGet s.lgwin [(0x3F2, 0), (0x7150, 0)] (treeKey4 s.ring 8#32)) = false ∧
    inWindow s.lgwin 8#32 (treeGet s.lgwin [(0x3F2, 0), (0x7150, 0)] (treeKey2 s.ring 8#32)) = true := by decide +kernel

/-- CommandsWriteOnlyTheirOwn, CommandsReadOnlyTheirOwn: a command that runs, and a register it does not use. -/
theorem witness_commands :
    (∀ i ∈ [Instr.reset, .store, .storeRange, .findLongestMatch, .findAllMatches, .prependCustomDictionary],
      exec i chainFour = .next (after i chainFour) ∧ (13 : Fin 16) ∉ registersUsed i chainFour.index) ∧
    exec (.configure 1 10) chainFour = .next (after (.configure 1 10) chainFour) := by
  refine ⟨fun i hi => ⟨?_, ?_⟩, after_next _ _⟩
  · exact after_next _ _
  · revert i; decide

/-- Hash32TopBits, Hash5FiveBytes, ScoresCompare, PackedRecordReadsBack, WindowTest: widths at both ends, two byte strings
that agree in five bytes, distances 1 and 4, a code that is the length and one that is not, a position below the wrap. -/
theorem witness_primitives :
    (1 ≤ 1 ∧ 32 ≤ 32 ∧ 64 ≤ 64) ∧
    (∀ j, j < 5 → ringAbcdefgh.byteAt 0#32 j = (⟨bytesFrom 0 [97, 98, 99, 100, 101, 88], 15#32⟩ : Ring).byteAt 0#32 j) ∧
    ((1#32 : Word) ≠ 0#32 ∧ 2 ^ 0 ≤ (1#32 : Word).toNat ∧ (1#32 : Word).toNat < 2 ^ 1 ∧ 4 ≤ (4#32 : Word).toNat) ∧
    ((⟨5#32, 4, 4⟩ : MatchRec).lengthCode = (⟨5#32, 4, 4⟩ : MatchRec).length ∧ 1 ≤ 31 ∧ 2 ^ 27 - 1 < 2 ^ 27) ∧
    (0#32 : Word).toNat + (2 ^ (10#5 : BitVec 5).toNat - 1) < 2 ^ 32 := by decide +kernel

/-- StepKeepsInv: an engine that meets the invariant, with an access pending. -/
theorem witness_invariant :
    let s := { quickEight with host := [.read 0x04] }
    s.Inv ∧ ∃ t, step s = .next t := by
  refine ⟨⟨by decide +kernel, ⟨by decide, by decide⟩, ⟨by decide, by decide, by decide, by decide⟩, fun _ => rfl, ?_⟩, _,
    rfl⟩
  refine ⟨?_, by decide, by decide, by decide, by decide, ⟨by decide, by decide⟩, ⟨by decide, by decide⟩,
    ⟨by decide, by decide, by decide⟩, ⟨by decide, by decide⟩, nofun⟩
  exact ⟨test_rows_wellFormed.1 .h1, test_rows_wellFormed.1 .h2, test_rows_wellFormed.1 .h3, test_rows_wellFormed.1 .h4,
    test_rows_wellFormed.2 .h5, test_rows_wellFormed.2 .h6, test_rows_wellFormed.2 .h7, test_rows_wellFormed.2 .h8,
    test_rows_wellFormed.2 .h9⟩

end Sys2Proof.Tests
end

