-- ==== Sys2Proof/Proofs/State.lean ====
section
/-!
PROOFS. The programmer-visible state (spec/10_state.md): the register map, the fields of STATUS and CONFIG, where a step
stops, what changes the configuration, and the invariant.
-/
namespace Sys2Proof.Machine

/-! One step, by what is pending (notes/assumptions/1.md). -/

theorem step_of_idle {s : State} (h : s.host = []) : step s = .next s := by simp [step, hostStep, h]

theorem step_of_pending {s : State} {a : HostAction} {rest : List HostAction} (h : s.host = a :: rest) :
    step s = hostAccess a { s with host := rest } := by simp [step, hostStep, h]

/-! The invariant. -/

theorem emptyDict_wellFormed : emptyDict.WellFormed :=
  ⟨⟨Sparse.wf_nil _, Sparse.below_nil _⟩, ⟨Sparse.wf_nil _, Sparse.below_nil _⟩,
    ⟨Sparse.wf_nil _, Sparse.below_nil _, nofun⟩, ⟨Sparse.wf_nil _, Sparse.below_nil _⟩, nofun⟩

theorem defaultStrategy_wellFormed : defaultStrategy.WellFormed := by decide

theorem defaultParams_wellFormed : defaultParams.WellFormed :=
  ⟨defaultStrategy_wellFormed, ⟨rfl, rfl⟩, by decide, by decide, by decide, emptyDict_wellFormed⟩

/-- A step keeps the invariant: its access does, and the list of pending accesses is no part of it. -/
theorem step_inv {s t : State} (h : s.Inv) (ht : step s = .next t) : t.Inv := by
  rcases hh : s.host with _ | ⟨a, rest⟩
  · rw [step_of_idle hh, Host.Outcome.next.injEq] at ht
    exact ht ▸ h
  · have hrest : ({ s with host := rest } : State).Inv := h
    exact hostAccess_inv hrest (step_of_pending hh ▸ ht)

/-! The configuration (R24, R25). -/

theorem Index.strategy?_eq_none_iff {t : Index} : t.strategy? = none ↔ t = .absent := by
  cases t <;> simp [Index.strategy?]

theorem Quiet.configWord {s t : State} (h : Quiet s t) : t.configWord = s.configWord := by
  simp only [State.configWord, State.quality, h.index, h.lgwin]

/-- The tables are lost by power-on reset alone. -/
theorem step_index_ne_absent {s t : State} (h : step s = .next t) (hs : s.index ≠ .absent) :
    t.index ≠ .absent ∨ ∃ rest, s.host = .powerOn :: rest := by
  rcases step_cases h with hq | ⟨rest, hh, _⟩ | ⟨w, rest, i, _, _, _, hx⟩
  · exact .inl (hq.index ▸ hs)
  · exact .inr ⟨rest, hh⟩
  · rcases exec_config hx with ⟨_, hidx, _⟩ | ⟨_, _, _, _, _, _, _, ht⟩
    · have hns : s.index.strategy? ≠ none := mt Index.strategy?_eq_none_iff.mp hs
      exact .inl (mt Index.strategy?_eq_none_iff.mpr (hidx ▸ hns))
    · exact .inl ht

/-- CONFIG changes by power-on reset, or by a CONFIGURE with legal operands while no fault is recorded. -/
theorem step_configWord_ne {s t : State} (h : step s = .next t) (hc : t.configWord ≠ s.configWord) :
    (∃ rest, s.host = .powerOn :: rest) ∨
      ∃ w rest quality lgwin, s.host = .write s.params.engineBase w :: rest ∧ s.err = .none ∧
        decode w = .ok (.configure quality lgwin) ∧ 1 ≤ quality ∧ quality ≤ 10 ∧ 10 ≤ lgwin ∧ lgwin ≤ 24 := by
  rcases step_cases h with hq | ⟨rest, hh, _⟩ | ⟨w, rest, i, hh, he, hd, hx⟩
  · exact absurd hq.configWord hc
  · exact .inl ⟨rest, hh⟩
  · rcases exec_config hx with ⟨hcw, _⟩ | ⟨quality, lgwin, rfl, hq1, hq2, hl1, hl2, _⟩
    · exact absurd hcw hc
    · exact .inr ⟨w, rest, quality, lgwin, hh, he, hd, hq1, hq2, hl1, hl2⟩

/-! Where a step stops (R27, spec/93 U21). -/

/-- A bus address where R27 offers no access. -/
def OutsideMap (base address : Nat) : Prop :=
  address < base ∨ base + 0x80 ≤ address ∨ (address - base) % 4 ≠ 0

theorem portOf_eq_none_iff {base address : Nat} : portOf base address = none ↔ OutsideMap base address := by
  unfold portOf OutsideMap
  split_ifs with hc
  · simp only [false_iff]; omega
  · simp only [true_iff]; omega

/-- The pending access is to the register block, at this bus address. -/
def RegisterAccess (s : State) (address : Nat) (rest : List HostAction) : Prop :=
  s.host = .read address :: rest ∨ ∃ v, s.host = .write address v :: rest

theorem step_outsideMap {s : State} {address : Nat} {rest : List HostAction} (ha : RegisterAccess s address rest)
    (ho : OutsideMap s.params.engineBase address) : step s = .fault .hostAccessOutsideMap := by
  have hp := portOf_eq_none_iff.mpr ho
  rcases ha with hh | ⟨v, hh⟩ <;> simp [step_of_pending hh, hostAccess, hp]

/-- A write to any register answers: a command it starts does (R233). -/
theorem portWrite_answers (s : State) (p : Port) (v : Word) : ∃ t, portWrite s p v = .next t := by
  cases p with
  | cmd =>
    simp only [portWrite, writeCmd]
    split
    · split
      · exact ⟨_, rfl⟩
      · exact exec_answers _ _
    · exact ⟨_, rfl⟩
  | _ => exact ⟨_, rfl⟩

theorem hostAccess_read_answers {s : State} {address : Nat} {p : Port}
    (hp : portOf s.params.engineBase address = some p) : ∃ t, hostAccess (.read address) s = .next t :=
  ⟨_, by simp only [hostAccess, hp]; rfl⟩

theorem hostAccess_write_answers {s : State} {address : Nat} {p : Port}
    (hp : portOf s.params.engineBase address = some p) (v : Word) : ∃ t, hostAccess (.write address v) s = .next t := by
  simpa only [hostAccess, hp] using portWrite_answers s p v

/-- The accesses that answer no next state are those to the register block outside the map. -/
theorem outsideMap_of_hostAccess_stops {s : State} {a : HostAction} (hs : ∀ t, hostAccess a s ≠ .next t) :
    ∃ address, (a = .read address ∨ ∃ v, a = .write address v) ∧ OutsideMap s.params.engineBase address := by
  have outside {address : Nat} (h : ∀ p, portOf s.params.engineBase address ≠ some p) :
      OutsideMap s.params.engineBase address := portOf_eq_none_iff.mp (Option.eq_none_iff_forall_ne_some.mpr h)
  have stops {P : Prop} : (∃ t, hostAccess a s = .next t) → P := fun ⟨t, ht⟩ => absurd ht (hs t)
  cases a with
  | write address v => exact ⟨address, .inr ⟨v, rfl⟩, outside fun _ hp => stops (hostAccess_write_answers hp v)⟩
  | read address => exact ⟨address, .inl rfl, outside fun _ hp => stops (hostAccess_read_answers hp)⟩
  | _ => exact stops ⟨_, rfl⟩

/-- A step that answers no next state takes such an access. -/
theorem outsideMap_of_step_stops {s : State} (hs : ∀ t, step s ≠ .next t) :
    ∃ address rest, RegisterAccess s address rest ∧ OutsideMap s.params.engineBase address := by
  rcases hh : s.host with _ | ⟨a, rest⟩
  · exact absurd (step_of_idle hh) (hs s)
  · rw [step_of_pending hh] at hs
    obtain ⟨address, ha, ho⟩ := outsideMap_of_hostAccess_stops hs
    refine ⟨address, rest, ?_, ho⟩
    rcases ha with rfl | ⟨v, rfl⟩
    · exact .inl hh
    · exact .inr ⟨v, hh⟩

/-! The register map (R27). -/

theorem hostReads_x (s : State) (i : Fin 16) : HostReads s (0x40 + 4 * i.val) (s.getX i) :=
  hostReads_of (by omega) (by omega) (by rw [portOfWord_x]; rfl)

theorem hostWrites_x (s : State) (i : Fin 16) (v : Word) : HostWrites s (0x40 + 4 * i.val) v (s.setX i v) :=
  hostWrites_of (by omega) (by omega) fun _ => by rw [portOfWord_x]; rfl

section
variable {s : State} {offset : Nat}

theorem hostReads_unassigned (h1 : 0x28 ≤ offset) (h2 : offset < 0x40) (h3 : offset % 4 = 0) :
    HostReads s offset 0#32 :=
  hostReads_of (by omega) h3 (by rw [portOfWord_unassigned (by omega)]; rfl)

theorem hostWrites_unassigned (h1 : 0x28 ≤ offset) (h2 : offset < 0x40) (h3 : offset % 4 = 0) (v : Word) :
    HostWrites s offset v s :=
  hostWrites_of (by omega) h3 fun _ => by rw [portOfWord_unassigned (by omega)]; rfl

end

/-- The read half of R27's table. -/
theorem hostReads_registers (s : State) :
    HostReads s 0x00 s.cmd ∧ HostReads s 0x04 s.statusWord ∧ HostReads s 0x08 s.configWord ∧
      HostReads s 0x0C s.ringMask ∧
      HostReads s 0x10 (s.numDictLookups.extractLsb' 0 32) ∧ HostReads s 0x14 (s.numDictLookups.extractLsb' 32 32) ∧
      HostReads s 0x18 (s.numDictMatches.extractLsb' 0 32) ∧ HostReads s 0x1C (s.numDictMatches.extractLsb' 32 32) ∧
      HostReads s 0x20 (s.bestScore.extractLsb' 0 32) ∧ HostReads s 0x24 (s.bestScore.extractLsb' 32 32) :=
  have read {offset : Nat} {v : Word} := @hostReads_of s offset v
  ⟨read (by decide) (by decide) rfl, read (by decide) (by decide) rfl, read (by decide) (by decide) rfl,
    read (by decide) (by decide) rfl, read (by decide) (by decide) (lowHalf_extract _),
    read (by decide) (by decide) (highHalf_extract _), read (by decide) (by decide) (lowHalf_extract _),
    read (by decide) (by decide) (highHalf_extract _), read (by decide) (by decide) (lowHalf_extract _),
    read (by decide) (by decide) (highHalf_extract _)⟩

/-- The write half of R27's table, but for CMD and the index registers. -/
theorem hostWrites_registers (s : State) (v : Word) :
    HostWrites s 0x04 v { s with err := .none, errOp := 0#8 } ∧ HostWrites s 0x08 v s ∧
      HostWrites s 0x0C v { s with ringMask := v } ∧
      HostWrites s 0x10 v s ∧ HostWrites s 0x14 v s ∧ HostWrites s 0x18 v s ∧ HostWrites s 0x1C v s ∧
      HostWrites s 0x20 v { s with bestScore := s.bestScore.extractLsb' 32 32 ++ v } ∧
      HostWrites s 0x24 v { s with bestScore := v ++ s.bestScore.extractLsb' 0 32 } := by
  rw [← highHalf_extract, ← lowHalf_extract]
  refine ⟨?_, ?_, ?_, ?_, ?_, ?_, ?_, ?_, ?_⟩
  all_goals exact hostWrites_of (by decide) (by decide) fun _ => rfl

/-! The fields of STATUS and CONFIG (R24, R25, R251). -/

theorem ErrCode.code_le (e : ErrCode) : e.code ≤ 5 := by cases e <;> decide

theorem Strategy.quality_le (h : Strategy) : Strategy.quality h ≤ 10 := by
  cases h with
  | quick h => cases h <;> decide
  | chain h => cases h <;> decide
  | tree => decide

theorem State.quality_le (s : State) : s.quality ≤ 10 := by
  unfold State.quality
  split
  · decide
  · exact Strategy.quality_le _

theorem State.statusWord_toNat (s : State) :
    s.statusWord.toNat = s.configured.toNat + 2 ^ 4 * s.err.code + 2 ^ 8 * s.errOp.toNat := by
  have he := s.err.code_le
  have ho := s.errOp.isLt
  have hc := Bool.toNat_le s.configured
  have hf : (if s.configured then 1 else 0) = s.configured.toNat := by cases s.configured <;> rfl
  rw [State.statusWord, BitVec.toNat_ofNat, hf]
  omega

theorem State.configWord_toNat (s : State) : s.configWord.toNat = s.quality + 2 ^ 8 * s.lgwin.toNat := by
  have hq := s.quality_le
  have hl := s.lgwin.isLt
  rw [State.configWord, BitVec.toNat_ofNat]
  omega

/-- A field of a word, by division. -/
theorem toNat_extractLsb'_div (w : Word) (lo len : Nat) : (w.extractLsb' lo len).toNat = w.toNat / 2 ^ lo % 2 ^ len := by
  rw [BitVec.extractLsb'_toNat, Nat.shiftRight_eq_div_pow]

theorem State.configured_iff (s : State) : s.configured = true ↔ s.index ≠ .absent := by
  rw [State.configured, Option.isSome_iff_ne_none, ne_eq, Index.strategy?_eq_none_iff]

/-- STATUS (R24): CONFIGURED [0], ERR [7:4], ERR_OP [15:8], the rest 0. -/
theorem State.statusWord_fields (s : State) :
    s.statusWord.extractLsb' 0 1 = BitVec.ofBool s.configured ∧ s.statusWord.extractLsb' 1 3 = 0#3 ∧
    s.statusWord.extractLsb' 4 4 = BitVec.ofNat 4 s.err.code ∧
    s.statusWord.extractLsb' 8 8 = s.errOp ∧ s.statusWord.extractLsb' 16 16 = 0#16 := by
  have hs := s.statusWord_toNat
  have he := s.err.code_le
  have ho := s.errOp.isLt
  have hc := Bool.toNat_le s.configured
  refine ⟨?_, ?_, ?_, ?_, ?_⟩
  all_goals
    apply BitVec.eq_of_toNat_eq
    simp only [toNat_extractLsb'_div, hs, BitVec.toNat_ofBool, BitVec.toNat_ofNat]
    omega

/-- CONFIG (R25): QUALITY [3:0], LGWIN [12:8], the rest 0. -/
theorem State.configWord_fields (s : State) :
    (s.configWord.extractLsb' 0 4).toNat = s.quality ∧ s.configWord.extractLsb' 4 4 = 0#4 ∧
    s.configWord.extractLsb' 8 5 = s.lgwin ∧ s.configWord.extractLsb' 13 19 = 0#19 := by
  have hs := s.configWord_toNat
  have hq := s.quality_le
  have hl := s.lgwin.isLt
  refine ⟨?_, BitVec.eq_of_toNat_eq ?_, BitVec.eq_of_toNat_eq ?_, BitVec.eq_of_toNat_eq ?_⟩
  all_goals
    simp only [toNat_extractLsb'_div, hs, BitVec.toNat_ofNat]
    omega

/-! The obligations. -/

/-- Settles O14, by the three things a step can do and what a command does to the configuration. -/
theorem configurationChangesOnlyByConfigure : Obligations.ConfigurationChangesOnlyByConfigure :=
  fun _ _ h => ⟨step_index_ne_absent h, step_configWord_ne h⟩

/-- Settles O60: every host access keeps the invariant. -/
theorem stepKeepsInv : Obligations.StepKeepsInv := fun _ _ => step_inv

/-- Settles O12: every access but those outside the register map answers a next state. -/
theorem stopsOnlyOutsideTheMap : Obligations.StopsOnlyOutsideTheMap :=
  fun _ => ⟨step_of_idle, fun _ _ => step_outsideMap, outsideMap_of_step_stops⟩

/-- Settles O7, register by register. -/
theorem registerMap : Obligations.RegisterMap := by
  intro s
  obtain ⟨hcmd, hstatus, hconfig, hmask, hll, hlh, hml, hmh, hbl, hbh⟩ := hostReads_registers s
  refine ⟨⟨hcmd, hstatus, hconfig, hmask, hll, hlh, hml, hmh, hbl, hbh, hostReads_x s⟩, fun v => ?_,
    fun offset h1 h2 h3 => ⟨hostReads_unassigned h1 h2 h3, hostWrites_unassigned h1 h2 h3⟩⟩
  obtain ⟨wstatus, wconfig, wmask, wll, wlh, wml, wmh, wbl, wbh⟩ := hostWrites_registers s v
  exact ⟨fun i t => hostWrites_cmd, wstatus, wconfig, wmask, wll, wlh, wml, wmh, wbl, wbh, fun i => hostWrites_x s i v⟩

/-- Settles O8, from the sums STATUS and CONFIG are. -/
theorem statusAndConfigFields : Obligations.StatusAndConfigFields := by
  intro s
  obtain ⟨hconfigured, hlow, herr, herrOp, hhigh⟩ := s.statusWord_fields
  refine ⟨?_, hlow, ?_, herrOp, hhigh, s.configWord_fields⟩
  · rw [hconfigured, ← s.configured_iff]
    cases s.configured <;> decide
  · rw [herr]
    cases s.err <;> rfl

/-- Settles O59: no table, no record and no byte is written at reset, and the default parameters are well formed. -/
theorem resetInv : Obligations.ResetInv :=
  ⟨⟨Sparse.wf_nil _, Sparse.below_nil _⟩, ⟨Sparse.wf_nil _, Sparse.below_nil _⟩, rfl, fun _ => rfl,
    defaultParams_wellFormed⟩

end Sys2Proof.Machine
end

