-- ==== Sys2Proof/Proofs/Memory.lean ====
section
/-!
PROOFS. The memories (spec/20_memory.md): VIEW as the host writes and reads it, and the fields of a MATCH record.
-/
namespace Sys2Proof.Machine

/-- A pending access is the step. -/
theorem step_pending (s : State) (a : HostAction) (rest : List HostAction) :
    step { s with host := a :: rest } = hostAccess a { s with host := rest } := step_of_pending rfl

/-! VIEW (R60 to R62, R100). -/

/-- Where the script's `view` places its byte `j`: through RING_MASK, even an illegal one (notes/assumptions/16.md). -/
def viewPlace (p mask : Word) (j : Nat) : Nat := ((p + BitVec.ofNat 32 j) &&& mask).toNat

/-- VIEW after the script's `view` (R100). -/
def placeView (s : State) (p : Word) (bytes : List Byte) : Memory :=
  Memory.writeMany (viewPlace p s.ringMask) s.view 0 bytes

theorem hostAccess_view (s : State) (p : Word) (bytes : List Byte) :
    hostAccess (.view p bytes) s = .next { s with view := placeView s p bytes } := rfl

section
variable {s : State} {p : Word} {bytes : List Byte}

/-- A byte at none of the masked positions is as before. -/
theorem read_placeView_ne {a : Word} (h : ∀ j, j < bytes.length → a ≠ (p + BitVec.ofNat 32 j) &&& s.ringMask) :
    (placeView s p bytes).read a.toNat = s.view.read a.toNat :=
  Memory.read_writeMany_ne bytes _ _ _ fun j hj e => by
    rw [Nat.zero_add] at e
    exact h j hj (BitVec.eq_of_toNat_eq e)

/-- Bytes placed at different masked positions are read back at them. -/
theorem read_placeView
    (h : ∀ j k, j < bytes.length → k < bytes.length →
      (p + BitVec.ofNat 32 j) &&& s.ringMask = (p + BitVec.ofNat 32 k) &&& s.ringMask → j = k)
    {j : Nat} (hj : j < bytes.length) : (placeView s p bytes).read (viewPlace p s.ringMask j) = bytes[j] := by
  have hread := Memory.read_writeMany (place := viewPlace p s.ringMask) bytes s.view 0 fun a b ha hb e => by
    rw [Nat.zero_add, Nat.zero_add] at e
    exact h a b ha hb (BitVec.eq_of_toNat_eq e)
  simpa only [placeView, Nat.zero_add] using hread j hj

end

/-! A MATCH record (R64, R187). -/

/-- The length code from a record's code and length, unless a length code of 0 stands beside a longer length. -/
theorem MatchRec.lengthCode_eq_of_code (m : MatchRec) (h : m.lengthCode = m.length ∨ 1 ≤ m.lengthCode) :
    (if m.code ≠ 0 then m.code else m.length) = m.lengthCode := by
  unfold MatchRec.code
  split_ifs <;> omega

/-- The three fields of a record, whose code fits its five bits. -/
theorem MatchRec.pack_fields (m : MatchRec) (h : m.lengthCode = m.length ∨ m.lengthCode < 32) :
    m.pack.extractLsb' 0 32 = m.distance ∧ (m.pack.extractLsb' 32 5).toNat = m.code ∧
      (m.pack.extractLsb' 37 27).toNat = m.length % 2 ^ 27 := by
  obtain ⟨hc, hp⟩ := m.pack_toNat h
  have hd := m.distance.isLt
  refine ⟨BitVec.eq_of_toNat_eq ?_, ?_, ?_⟩
  all_goals
    rw [BitVec.extractLsb'_toNat, Nat.shiftRight_eq_div_pow, hp]
    omega

/-! The obligations. -/

/-- Settles O57: the fields of the packed word, of which the code tells whether the length code is the length. -/
theorem packedRecordReadsBack : Obligations.PackedRecordReadsBack := by
  intro m hm
  obtain ⟨hdist, hcode, hlen⟩ := m.pack_fields (hm.imp_right fun h => Nat.lt_succ_of_le h.2)
  refine ⟨hdist, hcode, hlen, fun hlt => ?_⟩
  rw [hcode, hlen, Nat.mod_eq_of_lt hlt]
  exact m.lengthCode_eq_of_code (hm.imp_right And.left)

/-- Settles O13, access by access. -/
theorem viewHoldsWhatTheHostWrites : Obligations.ViewHoldsWhatTheHostWrites := by
  intro s rest
  refine ⟨fun a v => ?_, fun p bytes => ?_, fun a => step_pending s (.viewRead a) rest,
    fun n => step_pending s (.matchRead n) rest⟩
  · refine ⟨_, step_pending s (.viewWrite a v) rest, rfl, Memory.read_write_same s.view _ _, fun b hb => ?_⟩
    exact Memory.read_write_ne s.view _ fun e => hb (BitVec.eq_of_toNat_eq e)
  · exact ⟨_, (step_pending s _ rest).trans (hostAccess_view _ p bytes), rfl, fun _ => read_placeView_ne,
      fun h _ => read_placeView h⟩

end Sys2Proof.Machine
end

