-- ==== Sys2Proof/Proofs/Encoding.lean ====
section
/-!
PROOFS. The command words (spec/30_encoding.md): the decoder as the inverse of the encoder, the rows of the opcode map, the
illegal words, and what a CMD write of a word does.
-/
namespace Sys2Proof

/-! Words by their fields (R90). -/

/-- Two words agree when the five fields of format C do (R90). -/
theorem eq_iff_formatC_fields {u v : Word} : u = v ↔
    u.extractLsb' 0 8 = v.extractLsb' 0 8 ∧ u.extractLsb' 8 4 = v.extractLsb' 8 4 ∧
    u.extractLsb' 12 4 = v.extractLsb' 12 4 ∧ u.extractLsb' 16 5 = v.extractLsb' 16 5 ∧
    u.extractLsb' 21 11 = v.extractLsb' 21 11 := by
  constructor
  · rintro rfl
    exact ⟨rfl, rfl, rfl, rfl, rfl⟩
  · simp only [← BitVec.toNat_inj, Machine.toNat_extractLsb'_div]
    omega

/-- The row of CONFIGURE, field by field: the opcode, and 0 in both reserved fields (R90, R92). -/
theorem configure_row_iff {w : Word} : w &&& 0xFFE0F0FF#32 = 0x00000001#32 ↔
    w.extractLsb' 0 8 = 0x01#8 ∧ w.extractLsb' 12 4 = 0#4 ∧ w.extractLsb' 21 11 = 0#11 := by
  have h8 (x : BitVec 8) : x &&& 0xFF#8 = x := BitVec.and_allOnes
  have h4 (x : BitVec 4) : x &&& 0xF#4 = x := BitVec.and_allOnes
  have h11 (x : BitVec 11) : x &&& 0x7FF#11 = x := BitVec.and_allOnes
  simp [eq_iff_formatC_fields, BitVec.extractLsb'_and, h8, h4, h11]

/-- The word of a well-formed CONFIGURE (R90, R100). -/
theorem encode_configure_toNat {quality lgwin : Nat} (hq : quality < 16) (hl : lgwin < 32) :
    (encode (.configure quality lgwin)).toNat = 1 + 2 ^ 8 * quality + 2 ^ 16 * lgwin := by
  have hq8 : (BitVec.ofNat 32 quality <<< 8).toNat = quality <<< 8 := by
    simp only [BitVec.toNat_shiftLeft, BitVec.toNat_ofNat, Nat.shiftLeft_eq]
    omega
  have hl16 : (BitVec.ofNat 32 lgwin <<< 16).toNat = lgwin <<< 16 := by
    simp only [BitVec.toNat_shiftLeft, BitVec.toNat_ofNat, Nat.shiftLeft_eq]
    omega
  have hlow : quality <<< 8 + 1 < 2 ^ 16 := by
    rw [Nat.shiftLeft_eq]
    omega
  calc (encode (.configure quality lgwin)).toNat
      = lgwin <<< 16 ||| (quality <<< 8 ||| 1) := by
        rw [encode, BitVec.toNat_or, BitVec.toNat_or, hq8, hl16, Nat.or_comm, Nat.or_comm (BitVec.toNat _)]
        rfl
    _ = lgwin <<< 16 + (quality <<< 8 + 1) := by
        rw [Nat.shiftLeft_add_eq_or_of_lt hlow, Nat.shiftLeft_add_eq_or_of_lt (by decide : 1 < 2 ^ 8)]
    _ = 1 + 2 ^ 8 * quality + 2 ^ 16 * lgwin := by
        rw [Nat.shiftLeft_eq, Nat.shiftLeft_eq]
        omega

/-! The decoder, command by command (R92). -/

theorem candidate_configure_iff {w : Word} {quality lgwin : Nat} : candidate w = some (.configure quality lgwin) ↔
    w.extractLsb' 0 8 = 0x01#8 ∧ quality = (w.extractLsb' 8 4).toNat ∧ lgwin = (w.extractLsb' 16 5).toNat := by
  rw [← BitVec.toNat_inj, ← field_extract, ← field_extract, ← field_extract, BitVec.toNat_ofNat, candidate]
  split
  case h_1 h => simp [h, eq_comm]
  case h_8 h _ _ _ _ _ _ => exact iff_of_false nofun fun hw => h hw.1
  all_goals simp [*]

theorem decode_configure_iff {w : Word} {quality lgwin : Nat} : decode w = .ok (.configure quality lgwin) ↔
    w &&& 0xFFE0F0FF#32 = 0x00000001#32 ∧ quality = (w.extractLsb' 8 4).toNat ∧
      lgwin = (w.extractLsb' 16 5).toNat := by
  rw [decode_ok, candidate_configure_iff, Instr.row, OpcodeRow.matchesWord, beq_iff_eq]
  exact ⟨fun ⟨⟨_, hfields⟩, hrow⟩ => ⟨hrow, hfields⟩, fun ⟨hrow, hfields⟩ => ⟨⟨configure_opcode hrow, hfields⟩, hrow⟩⟩

/-- A format N command has one word. -/
theorem decode_formatN_iff {w : Word} {i : Instr} (hi : ∀ quality lgwin, i ≠ .configure quality lgwin) :
    decode w = .ok i ↔ w = encode i := by
  rw [decode_ok, row_of_formatN hi, OpcodeRow.matchesWord, and_full_mask, beq_iff_eq, and_iff_right_iff_imp]
  rintro rfl
  cases i with
  | configure quality lgwin => exact absurd rfl (hi quality lgwin)
  | _ => rfl

/-- The decoder and the encoder are inverse to each other, between the words that decode and the well-formed commands. -/
theorem decode_eq_ok_iff {w : Word} {i : Instr} : decode w = .ok i ↔ i.WellFormed = true ∧ encode i = w := by
  cases i with
  | configure quality lgwin =>
    rw [decode_configure_iff, configure_row_iff]
    simp only [Instr.WellFormed, Bool.and_eq_true, decide_eq_true_eq, ← BitVec.toNat_inj,
      Machine.toNat_extractLsb'_div, BitVec.toNat_ofNat]
    constructor
    · rintro ⟨⟨hop, hmid, hhigh⟩, hq, hl⟩
      have hwf : quality < 16 ∧ lgwin < 32 := by omega
      refine ⟨hwf, ?_⟩
      rw [encode_configure_toNat hwf.1 hwf.2]
      omega
    · rintro ⟨⟨hq, hl⟩, hw⟩
      rw [encode_configure_toNat hq hl] at hw
      omega
  | _ => rw [decode_formatN_iff (by nofun), eq_comm]; simp [Instr.WellFormed]

/-! The legal words (R93). -/

theorem decode_of_formatN_opcode {n : Nat} (h1 : 2 ≤ n) (h2 : n ≤ 7) : ∃ i, decode (BitVec.ofNat 32 n) = .ok i := by
  interval_cases n
  all_goals exact ⟨_, rfl⟩

/-- The legal words: CONFIGURE's row, and the format N opcodes with nothing above them. -/
theorem decodes_iff {w : Word} : (∃ i, decode w = .ok i) ↔
    (w.extractLsb' 0 8 = 0x01#8 ∧ w.extractLsb' 12 4 = 0#4 ∧ w.extractLsb' 21 11 = 0#11) ∨
    (0x02#8 ≤ w.extractLsb' 0 8 ∧ w.extractLsb' 0 8 ≤ 0x07#8 ∧ w.extractLsb' 8 24 = 0#24) := by
  constructor
  · rintro ⟨i, hi⟩
    cases i with
    | configure quality lgwin => exact .inl (configure_row_iff.mp (decode_configure_iff.mp hi).1)
    | _ => rw [(decode_formatN_iff (by nofun)).mp hi]; exact .inr (by decide)
  · rintro (hrow | ⟨hlow, hhigh, hrest⟩)
    · exact ⟨_, decode_configure_iff.mpr ⟨configure_row_iff.mpr hrow, rfl, rfl⟩⟩
    · simp only [BitVec.le_def, ← BitVec.toNat_inj, Machine.toNat_extractLsb'_div, BitVec.toNat_ofNat] at hlow hhigh hrest
      simpa using decode_of_formatN_opcode (n := w.toNat) (by omega) (by omega)

end Sys2Proof

namespace Sys2Proof.Machine

/-! A write to CMD (R94). -/

section
variable {s : State} {w : Word} {i : Instr}

theorem writeCmd_command (he : s.err = .none) (hd : decode w = .ok i) : writeCmd w s = exec i { s with cmd := w } := by
  simp [writeCmd, he, hd]

/-- An illegal word is stored and raises E_ILLEGAL_CMD (R93, R252). -/
theorem writeCmd_illegal (he : s.err = .none) (hd : ∀ i, decode w ≠ .ok i) :
    writeCmd w s = .next { s with cmd := w, err := .illegalCmd, errOp := w.extractLsb' 0 8 } := by
  cases hw : decode w with
  | ok i => exact absurd hw (hd i)
  | error e => simp [writeCmd, he, hw, faults, raise, setWidth_opcode]

/-- A pending CMD write is the step (R27: CMD stands at `ENGINE_BASE`). -/
theorem step_cmdWrite {rest : List HostAction} (hh : s.host = .write s.params.engineBase w :: rest) :
    step s = writeCmd w { s with host := rest } := by
  have hp : portOf s.params.engineBase s.params.engineBase = some .cmd := portOf_offset _ (offset := 0) (by decide) rfl
  rw [step_of_pending hh]
  simp only [hostAccess, hp, portWrite]

/-- The host's next access after `withFetchWord` writes that word to CMD. -/
theorem withFetchWord_host (s : State) (w : Word) :
    (s.withFetchWord 32 w.toNat).host = .write s.params.engineBase w :: s.host := by
  simp only [State.withFetchWord, BitVec.toNat_mod_cancel, BitVec.ofNat_toNat, BitVec.setWidth_eq]

/-- Without tables every command but CONFIGURE faults with E_NOT_CONFIGURED, whatever the mask (R94, R251). -/
theorem commandFault_absent (hs : s.index = .absent) (hi : ∀ quality lgwin, i ≠ .configure quality lgwin) :
    commandFault i s = .notConfigured := by
  cases i with
  | configure quality lgwin => exact absurd rfl (hi quality lgwin)
  | _ => simp [commandFault, hs, Index.strategy?]

end

/-! The obligations. -/

/-- Settles O2: the word of a well-formed command is one the decoder answers with that command. -/
theorem decodeInvertsEncode : Obligations.DecodeInvertsEncode := fun _ hi => decode_eq_ok_iff.mpr ⟨hi, rfl⟩

/-- Settles O3: the same equivalence, read from the word. -/
theorem encodeInvertsDecode : Obligations.EncodeInvertsDecode := fun _ _ => decode_eq_ok_iff.mp

/-- Settles O4: CONFIGURE by the fields its mask keeps, the others by the one word each has. -/
theorem rowsDecideCommands : Obligations.RowsDecideCommands := by
  intro w
  refine ⟨fun _ _ => decode_configure_iff, ?_⟩
  rw [and_full_mask]
  exact ⟨decode_formatN_iff nofun, decode_formatN_iff nofun, decode_formatN_iff nofun, decode_formatN_iff nofun,
    decode_formatN_iff nofun, decode_formatN_iff nofun⟩

/-- Settles O5: the illegal words are those outside the two legal classes, and a CMD write of one faults. -/
theorem illegalWordsRaise : Obligations.IllegalWordsRaise := by
  intro w
  refine ⟨?_, fun s he hd => hostWrites_of (by decide) (by decide) fun rest => writeCmd_illegal he hd⟩
  rw [← not_exists, decodes_iff]
  simp only [BitVec.le_def, ne_eq, ← BitVec.toNat_inj, BitVec.toNat_ofNat]
  omega

/-- Settles O1: the spec's example words, each evaluated. -/
theorem specWordsDecode : Obligations.SpecWordsDecode :=
  ⟨rfl, rfl, rfl, rfl, rfl, rfl, rfl, rfl, rfl, rfl, rfl, rfl⟩

/-- Settles O6: the step is the CMD write, which runs the command. -/
theorem stepRunsDecodedCommand : Obligations.StepRunsDecodedCommand := by
  intro s w i he hd
  refine ⟨fun rest hh => (step_cmdWrite hh).trans (writeCmd_command he hd), ?_⟩
  exact (step_cmdWrite (withFetchWord_host s w)).trans (writeCmd_command he hd)

/-- Settles O17: the fault of every command but CONFIGURE is decided before the mask is looked at. -/
theorem notConfiguredFaults : Obligations.NotConfiguredFaults := by
  intro s hs i hi
  have hf : commandFault i s = .notConfigured := commandFault_absent hs (by rintro q l rfl; simp at hi)
  simp [exec_eq, hf, raise, setWidth_opcode]

end Sys2Proof.Machine
end

