-- ==== Sys2Proof/Proofs/Primitives.lean ====
section
/-!
PROOFS. The primitives (spec/40_primitives.md): the loads and the narrowings in numbers, the two prefix matches as the
largest agreeing lengths, the hashes.
-/
namespace Sys2Proof.Machine

/-! The loads (R110 to R112). -/

theorem toNat_append_eq_add {m n : Nat} (x : BitVec m) (y : BitVec n) :
    (x ++ y).toNat = y.toNat + x.toNat * 2 ^ n := by
  rw [BitVec.toNat_append, Nat.shiftLeft_eq, Nat.mul_comm, ← Nat.two_pow_add_eq_or_of_lt y.isLt, Nat.add_comm]

theorem load16_toNat (r : Ring) (p : Word) :
    (load16 r p).toNat = (r.byteAt p 0).toNat + (r.byteAt p 1).toNat * 2 ^ 8 := toNat_append_eq_add _ _

theorem Ring.byteAt_add (r : Ring) (p : Word) (k j : Nat) :
    r.byteAt (p + BitVec.ofNat 32 k) j = r.byteAt p (k + j) := by
  rw [Ring.byteAt, Ring.byteAt, BitVec.ofNat_add, BitVec.add_assoc]

/-- `Load64` is two `Load32`, the low one first. -/
theorem load64_eq_append (r : Ring) (p : Word) : load64 r p = load32 r (p + 4#32) ++ load32 r p := by
  simp only [load64, load32, Ring.byteAt_add]

/-- `Load64` in numbers (R112). -/
theorem load64_toNat (r : Ring) (p : Word) : (load64 r p).toNat = (r.byteAt p 0).toNat + (r.byteAt p 1).toNat * 2 ^ 8 +
    (r.byteAt p 2).toNat * 2 ^ 16 + (r.byteAt p 3).toNat * 2 ^ 24 + (r.byteAt p 4).toNat * 2 ^ 32 +
    (r.byteAt p 5).toNat * 2 ^ 40 + (r.byteAt p 6).toNat * 2 ^ 48 + (r.byteAt p 7).toNat * 2 ^ 56 := by
  rw [load64_eq_append, toNat_append_eq_add, load32_toNat, load32_toNat]
  simp only [Ring.byteAt_add, Nat.reduceAdd]
  omega

/-! The narrowings (R113, R114). -/

theorem toU24_toNat (w : Word) : (toU24 w).toNat = w.toNat % 2 ^ 24 :=
  (BitVec.toNat_and ..).trans (Nat.and_two_pow_sub_one_eq_mod w.toNat 24)

theorem toU16_toNat (w : Word) : (toU16 w).toNat = w.toNat % 2 ^ 16 :=
  (BitVec.toNat_and ..).trans (Nat.and_two_pow_sub_one_eq_mod w.toNat 16)

/-! The prefix matches (R116). -/

/-- A length is at most `PrefixMatch` iff it is within the cap and its bytes agree. -/
theorem le_prefixMatch_iff {r : Ring} {a b : Word} {limit n : Nat} :
    n ≤ limit ∧ (∀ j, j < n → r.byteAt a j = r.byteAt b j) ↔ n ≤ prefixMatch r a b limit :=
  ⟨fun ⟨hn, hb⟩ => le_prefixMatch r a b hn hb, fun h =>
    ⟨h.trans (prefixMatch_le r a b limit), fun j hj => prefixMatch_bytes r a b limit j (hj.trans_le h)⟩⟩

theorem prefixMatch_self (r : Ring) (a : Word) (limit : Nat) : prefixMatch r a a limit = limit :=
  (prefixMatch_le r a a limit).antisymm (le_prefixMatch r a a le_rfl fun _ _ => rfl)

/-- Agreement is symmetric, so the two prefix matches bound the same lengths. -/
theorem prefixMatch_comm (r : Ring) (a b : Word) (limit : Nat) : prefixMatch r a b limit = prefixMatch r b a limit := by
  refine eq_of_forall_le_iff fun n => ?_
  simp only [← le_prefixMatch_iff, eq_comm]

/-- The same for `PrefixMatchDict`: past it stands a byte that differs, unless the cap is reached. -/
theorem le_prefixMatchDict_iff {d : Dict} {r : Ring} {p : Word} {off limit n : Nat} :
    n ≤ limit ∧ (∀ j, j < n → r.byteAt p j = dictByte d (off + j)) ↔ n ≤ prefixMatchDict d r p off limit := by
  obtain ⟨hle, hbytes, hstops⟩ := prefixMatchDict_spec d r p off limit
  refine ⟨fun ⟨hn, hb⟩ => ?_, fun h => ⟨h.trans hle, fun j hj => hbytes j (hj.trans_le h)⟩⟩
  by_contra hlt
  rw [not_le] at hlt
  exact hstops (hlt.trans_le hn) (hb _ hlt)

/-! The hashes (R117, R118). -/

theorem hash32_zero (k : Nat) : hash32 0#32 k = 0 := by simp [hash32_eq]

/-- `HASH_MUL` is odd: its inverse modulo 2^32. -/
def hashMulInverse : Word := 0x22B54B95#32

theorem mul_hashMul_mul_inverse (w : Word) : w * 0x1E35A7BD#32 * hashMulInverse = w := by
  rw [BitVec.mul_assoc, show 0x1E35A7BD#32 * hashMulInverse = 1#32 by decide, BitVec.mul_one]

theorem mul_inverse_mul_hashMul (w : Word) : w * hashMulInverse * 0x1E35A7BD#32 = w := by
  rw [BitVec.mul_assoc, show hashMulInverse * 0x1E35A7BD#32 = 1#32 by decide, BitVec.mul_one]

/-! The obligations. -/

/-- Settles O52: the loads as sums of their bytes, the narrowings as remainders. -/
theorem loadsAreLittleEndian : Obligations.LoadsAreLittleEndian := fun r p =>
  ⟨load16_toNat r p, load32_toNat r p, load64_toNat r p, fun _ => rfl, fun w => ⟨toU24_toNat w, toU16_toNat w⟩⟩

/-- Settles O53: both prefix matches by the lengths they bound. -/
theorem prefixMatchIsLargest : Obligations.PrefixMatchIsLargest := fun r a b limit =>
  ⟨fun _ => le_prefixMatch_iff, prefixMatch_self r a limit, prefixMatch_comm r a b limit,
    fun _ _ _ => le_prefixMatchDict_iff⟩

/-- Settles O54: the product is undone by the inverse of its odd factor. -/
theorem hash32TopBits : Obligations.Hash32TopBits := by
  refine ⟨fun w k _ hk => ⟨hash32_eq w k, hash32_lt w hk, hash32_zero k⟩, fun v w h => ?_,
    fun v => ⟨v * hashMulInverse, mul_inverse_mul_hashMul v⟩⟩
  rw [← mul_hashMul_mul_inverse v, h, mul_hashMul_mul_inverse]

/-- Settles O55: the load's three high bytes are shifted out of the product. -/
theorem hash5FiveBytes : Obligations.Hash5FiveBytes := fun r _ p _ k _ hk =>
  ⟨hash5_eq r p k, hash5_lt r p hk, fun h => hash5_congr h k⟩

end Sys2Proof.Machine
end

