-- ==== Sys2Proof/Proofs/Scoring.lean ====
section
/-!
PROOFS. The scores (spec/41_scoring.md): the general score by the highest set bit of the distance, and which of the two
scores is the greater.
-/
namespace Sys2Proof.Machine

/-- The logarithm in `Score` is the index of the distance's highest set bit (R131). -/
theorem score_eq_of_highestBit {dist : Word} {e : Nat} (len : Nat) (hlow : 2 ^ e ≤ dist.toNat)
    (hhigh : dist.toNat < 2 ^ (e + 1)) : score len dist = 540 * (len : Int) - 120 * (e : Int) := by
  have hne : dist.toNat ≠ 0 := (Nat.two_pow_pos e).trans_le hlow |>.ne'
  rw [score, (Nat.log2_eq_iff hne).2 ⟨hlow, hhigh⟩]

/-- A recent distance scores more than the general score iff its cost is less than the distance's (R133). -/
theorem score_lt_scoreLast_iff {len : Nat} {dist : Word} {i : Fin 16} :
    score len dist < scoreLast len i ↔ shortCodeCost[i] < 120 * (Nat.log2 dist.toNat : Int) := by
  rw [score, scoreLast, sub_lt_sub_iff_left]

/-- The last distance's cost is negative, so it is preferred at every distance (R133). -/
theorem score_lt_scoreLast_zero (len : Nat) (dist : Word) : score len dist < scoreLast len 0 := by
  have hcost : shortCodeCost[(0 : Fin 16)] = -60 := rfl
  rw [score_lt_scoreLast_iff, hcost]
  omega

/-- From distance 4 on the logarithm is at least 2, and no cost reaches 240 (R133). -/
theorem score_lt_scoreLast_of_four_le {dist : Word} (len : Nat) (i : Fin 16) (h : 4 ≤ dist.toNat) :
    score len dist < scoreLast len i := by
  have hlog : 2 ≤ Nat.log2 dist.toNat := (Nat.le_log2 (by omega)).2 h
  obtain ⟨-, hcost⟩ := shortCodeCost_bounds i
  rw [score_lt_scoreLast_iff]
  omega

/-! The obligation. -/

/-- Settles O56: R131 by the distance's highest bit, R132 by its table, R133 by comparing the costs. -/
theorem scoresCompare : Obligations.ScoresCompare := fun len dist _ =>
  ⟨fun _ => score_eq_of_highestBit len, fun _ => rfl, score_lt_scoreLast_zero len dist,
    fun i _ => score_lt_scoreLast_of_four_le len i⟩

end Sys2Proof.Machine
end

