-- ==== Sys2Proof/Proofs/Dictionary.lean ====
section
/-!
PROOFS. The static dictionary (spec/42_static_dictionary.md): what the entries probed by a FIND_LONGEST_MATCH can answer,
what the throttle counts, and that it stays closed.
-/
namespace Sys2Proof.Machine

/-! The throttle gate (R145). -/

theorem throttleOpen_iff {lookups hits : Word64} : throttleOpen lookups hits = true ↔ lookups >>> 7 ≤ hits := by
  simp [throttleOpen]

theorem throttleOpen_of_lookups_lt {lookups : Word64} (h : lookups < 128#64) (hits : Word64) :
    throttleOpen lookups hits = true := by
  have hlt : lookups.toNat < 128 := h
  simp only [throttleOpen_iff, BitVec.le_def, BitVec.toNat_ushiftRight, Nat.shiftRight_eq_div_pow]
  omega

theorem throttleOpen_no_hits {lookups : Word64} (h : 128#64 ≤ lookups) : throttleOpen lookups 0#64 = false := by
  have hle : 128 ≤ lookups.toNat := h
  simp only [← Bool.not_eq_true, throttleOpen_iff, BitVec.le_def, BitVec.toNat_ushiftRight, BitVec.toNat_ofNat,
    Nat.shiftRight_eq_div_pow]
  omega

/-! What moves the counters (R29, R229). -/

theorem Quiet.countersKept {s t : State} (h : Quiet s t) : CountersKept s t := ⟨h.lookups, h.hits⟩

/-- Of the commands only RESET, CONFIGURE and FIND_LONGEST_MATCH move a counter. -/
theorem exec_countersKept {i : Instr} {s t : State} (h : exec i s = .next t) :
    CountersKept s t ∨ i = .findLongestMatch ∨ i = .reset ∨ ∃ quality lgwin, i = .configure quality lgwin := by
  rcases exec_cases h with ⟨_, rfl⟩ | ⟨_, rfl⟩
  · cases i with
    | configure quality lgwin => exact .inr (.inr (.inr ⟨_, _, rfl⟩))
    | reset => exact .inr (.inr (.inl rfl))
    | findLongestMatch => exact .inr (.inl rfl)
    | store => exact .inl ⟨rfl, rfl⟩
    | storeRange => exact .inl ⟨rfl, rfl⟩
    | prependCustomDictionary => exact .inl ⟨rfl, rfl⟩
    | findAllMatches =>
      refine .inl ?_
      simp only [CountersKept, commandBody]
      cases s.index <;> exact ⟨rfl, rfl⟩
  · exact .inl ⟨rfl, rfl⟩

/-- A command run with the throttle closed moves no counter, but for RESET and CONFIGURE. -/
theorem exec_throttled {i : Instr} {s t : State} (hc : throttleOpen s.numDictLookups s.numDictMatches = false)
    (h : exec i s = .next t) :
    CountersKept s t ∨ i = .reset ∨ ∃ quality lgwin, i = .configure quality lgwin := by
  rcases exec_countersKept h with hk | rfl | hr
  · exact .inl hk
  · exact .inl (findLongest_throttled hc h)
  · exact .inr hr

/-! The candidate of one entry (R143). -/

/-- What an entry offers, whether or not the tests of `DictProbe` let it through. -/
def dictCandidate (d : Dict) (r : Ring) (cur maxback : Word) (idx : Nat) : DictCandidate :=
  let v := Sparse.get 0#16 d.hash idx
  let len := dictEntryLen v
  let m := prefixMatchDict d r cur (dictWordOffset d len (dictEntrySlot v)) len
  let dist := dictDistance maxback (dictWordId d len (dictEntrySlot v) (len - m))
  { distance := dist, length := m, lengthCode := len, score := score m dist }

/-- The tests of `DictProbe` (R143). -/
def DictCandidate.Admissible (c : DictCandidate) (maxlen : Word) : Prop :=
  1 ≤ c.lengthCode ∧ c.lengthCode ≤ maxlen.toNat ∧ 1 ≤ c.length ∧ c.lengthCode < c.length + 10 ∧ c.distance ≠ 0#32

section
variable {d : Dict} {r : Ring} {cur maxlen maxback : Word} {idx : Nat} {c : DictCandidate}

/-- What an entry can give is what it offers, where that passes the tests. -/
theorem dictFinds_iff :
    DictFinds d r cur maxlen maxback idx c ↔ c = dictCandidate d r cur maxback idx ∧ c.Admissible maxlen := by
  constructor
  · intro h
    refine ⟨?_, Nat.pos_of_ne_zero h.codePos, h.codeLe, h.lengthPos, h.shortfall, h.distancePos⟩
    obtain ⟨dist, m, len, sc⟩ := c
    obtain ⟨hcode, -, -, hm, -, -, -, hdist, -, hsc⟩ := h
    dsimp only at hcode hm hdist hsc
    subst hcode hm hdist hsc
    rfl
  · rintro ⟨rfl, hpos, hle, hmpos, hshort, hdpos⟩
    exact ⟨rfl, Nat.ne_of_gt hpos, hle, rfl, hmpos, (prefixMatchDict_spec ..).1, hshort, rfl, hdpos, rfl⟩

/-- `DictFinds` says when an entry has a candidate and which. -/
theorem dictLookup_eq_some_iff :
    dictLookup d r cur maxlen maxback idx = some c ↔ DictFinds d r cur maxlen maxback idx c := by
  refine ⟨dictLookup_finds, fun h => ?_⟩
  obtain ⟨dist, m, len, sc⟩ := c
  obtain ⟨hcode, hpos, hle, hm, hmpos, -, hshort, hdist, hdpos, hsc⟩ := h
  dsimp only at *
  have hshort' : (len : Int) - 10 < (m : Int) := by omega
  simp only [dictLookup, ← hcode, ← hm, ← hdist, ← hsc, if_neg hpos, if_neg (Nat.not_lt.2 hle),
    if_pos (And.intro hshort' hmpos), if_neg hdpos]

theorem DictFinds.lengthCode_lt (h : DictFinds d r cur maxlen maxback idx c) : c.lengthCode < 32 :=
  h.code ▸ Nat.mod_lt _ (by decide)

/-- The bytes of a candidate agree, and below its declared length the next byte differs (R142). -/
theorem DictFinds.bytes (h : DictFinds d r cur maxlen maxback idx c) :
    let off := dictWordOffset d c.lengthCode (dictEntrySlot (Sparse.get 0#16 d.hash idx))
    (∀ j, j < c.length → r.byteAt cur j = dictByte d (off + j)) ∧
      (c.length < c.lengthCode → r.byteAt cur c.length ≠ dictByte d (off + c.length)) := by
  obtain ⟨-, hbytes, hstops⟩ := prefixMatchDict_spec d r cur
    (dictWordOffset d c.lengthCode (dictEntrySlot (Sparse.get 0#16 d.hash idx))) c.lengthCode
  rw [← h.length] at hbytes hstops
  exact ⟨hbytes, hstops⟩

end

/-! Entries probed one after the other (R146). -/

/-- The running best is this dictionary candidate. -/
structure Search.Holds (b : Search) (c : DictCandidate) : Prop where
  found : b.found = true
  bestLen : b.bestLen = BitVec.ofNat 32 c.length
  bestLenCode : b.bestLenCode = BitVec.ofNat 32 c.lengthCode
  bestDistance : b.bestDistance = c.distance
  bestScore : b.bestScore = c.score

/-- The entries of the list, probed in its order. -/
def dictProbes (d : Dict) (r : Ring) (cur maxlen maxback : Word) (entries : List Nat) (b : Search) : Search :=
  entries.foldl (fun b idx => dictProbe d r cur maxlen maxback idx b) b

section
variable {d : Dict} {r : Ring} {cur maxlen maxback : Word}

/-- Probes never lower the running score. -/
theorem dictProbes_raises (entries : List Nat) (b : Search) :
    b.bestScore ≤ (dictProbes d r cur maxlen maxback entries b).bestScore :=
  foldl_keeps (P := fun b' => b.bestScore ≤ b'.bestScore) (fun _ _ h => h.trans (dictProbe_raises ..)) entries b le_rfl

/-- No candidate of a probed entry scores more than the result. -/
theorem dictProbes_beats {entries : List Nat} {idx : Nat} {c : DictCandidate} (hidx : idx ∈ entries)
    (hc : DictFinds d r cur maxlen maxback idx c) (b : Search) :
    c.score ≤ (dictProbes d r cur maxlen maxback entries b).bestScore := by
  obtain ⟨before, after, rfl⟩ := List.append_of_mem hidx
  simp only [dictProbes, List.foldl_append, List.foldl_cons]
  exact (dictProbe_beats (dictLookup_eq_some_iff.mpr hc) _).trans (dictProbes_raises after _)

/-- No match is counted, or the result is a candidate of a probed entry. -/
theorem dictProbes_holds (entries : List Nat) (b : Search) :
    (dictProbes d r cur maxlen maxback entries b).hits = b.hits ∨
      ∃ idx ∈ entries, ∃ c, DictFinds d r cur maxlen maxback idx c ∧
        (dictProbes d r cur maxlen maxback entries b).Holds c := by
  refine foldl_keeps_mem (P := fun b' => b'.hits = b.hits ∨ ∃ idx ∈ entries, ∃ c,
    DictFinds d r cur maxlen maxback idx c ∧ Search.Holds b' c) entries (fun b' idx hidx h => ?_) b (.inl rfl)
  rcases dictProbe_cases d r cur maxlen maxback idx b' with e | ⟨c, hc, _, e⟩ <;> rw [e]
  · rcases h with hhits | ⟨idx', hidx', c, hc, hb⟩
    · exact .inl hhits
    · exact .inr ⟨idx', hidx', c, hc, hb.found, hb.bestLen, hb.bestLenCode, hb.bestDistance, hb.bestScore⟩
  · exact .inr ⟨idx, hidx, c, hc, rfl, rfl, rfl, rfl, rfl⟩

/-- The first entry's candidate, where it beats the start, stays unless a later one's scores strictly more (R185). -/
theorem dictProbes_first {idx : Nat} {later : List Nat} {b : Search} {c : DictCandidate}
    (hc : DictFinds d r cur maxlen maxback idx c) (hs : b.bestScore < c.score)
    (hlater : ∀ idx' ∈ later, ∀ c', DictFinds d r cur maxlen maxback idx' c' → c'.score ≤ c.score) :
    (dictProbes d r cur maxlen maxback (idx :: later) b).Holds c := by
  simp only [dictProbes, List.foldl_cons, dictProbe_some (dictLookup_eq_some_iff.mpr hc) hs]
  refine foldl_keeps_mem (P := fun b' => Search.Holds b' c) later (fun b' idx' hidx' h => ?_) _ ⟨rfl, rfl, rfl, rfl, rfl⟩
  rw [dictProbe_leaves fun c' hc' => h.bestScore ▸ hlater idx' hidx' c' (dictLookup_finds hc')]
  exact ⟨h.found, h.bestLen, h.bestLenCode, h.bestDistance, h.bestScore⟩

theorem Search.Improves.probes {s : State} {b : Search} (h : Search.Improves s b) (entries : List Nat) :
    Search.Improves s (dictProbes d r cur maxlen maxback entries b) :=
  foldl_keeps (fun _ _ hb => hb.probe _ _ _ _ _ _) entries b h

end

/-! The dictionary stage of FIND_LONGEST_MATCH (R165, R186). -/

/-- The odd entry of the pair, on H5 to H9 alone. -/
def dictOddEntries (s : State) : List Nat :=
  match s.index with
  | .chain _ _ _ => [dictKey s.ring (s.getX 0) + 1]
  | .absent | .quick _ _ | .tree _ _ => []

/-- The entries the strategy probes: the even one, and after it the odd one if any. -/
def dictEntries (s : State) : List Nat := dictKey s.ring (s.getX 0) :: dictOddEntries s

theorem dictOddEntries_quick {s : State} {h : QuickStrategy} {qb : Sparse Word} (hi : s.index = .quick h qb) :
    dictOddEntries s = [] := by simp [dictOddEntries, hi]

theorem dictOddEntries_chain {s : State} {h : ChainStrategy} {num : Sparse (BitVec 16)} {ring : Sparse Word}
    (hi : s.index = .chain h num ring) : dictOddEntries s = [dictKey s.ring (s.getX 0) + 1] := by
  simp [dictOddEntries, hi]

theorem mem_dictOddEntries {s : State} {idx : Nat} : idx ∈ dictOddEntries s ↔
    idx = dictKey s.ring (s.getX 0) + 1 ∧ ∃ h num ring, s.index = .chain h num ring := by
  cases hi : s.index <;> simp [dictOddEntries, hi]

theorem mem_dictEntries {s : State} {idx : Nat} : idx ∈ dictEntries s ↔ idx = dictKey s.ring (s.getX 0) ∨
    (idx = dictKey s.ring (s.getX 0) + 1 ∧ ∃ h num ring, s.index = .chain h num ring) := by
  rw [dictEntries, List.mem_cons, mem_dictOddEntries]

/-- The whole dictionary stage, with the operands in their registers. -/
def dictSearch (s : State) : Search :=
  dictProbes s.params.dict s.ring (s.getX 0) (s.getX 1) (s.getX 2) (dictEntries s) (Search.start s)

theorem dictSearch_improves (s : State) : Search.Improves s (dictSearch s) := (Search.Improves.start s).probes _

/-- The window stages count nothing. -/
theorem Search.Tracks.countersKept {s : State} {G : Nat → Word → Int → Prop} {b : Search}
    (h : Search.Tracks (Search.start s) G b) : CountersKept s (b.finish s) :=
  ⟨(finish_numDictLookups b s).trans h.lookups, (finish_numDictMatches b s).trans h.hits⟩

/-- They leave both counters, and where the dictionary stage's other conditions hold they found something. -/
theorem Search.Tracks.counts {s : State} {G : Nat → Word → Int → Prop} {b : Search} {entered : Prop}
    (h : Search.Tracks (Search.start s) G b) (hfound : entered → b.found = true) :
    (b.finish s).numDictLookups = s.numDictLookups ∧ (b.finish s).numDictMatches = s.numDictMatches ∧
      (entered → (b.finish s).getX 7 = 1#32) := by
  obtain ⟨hl, hh⟩ := h.countersKept
  exact ⟨hl, hh, fun he => by rw [finish_result, hfound he, if_pos rfl]⟩

/-- What a search counted and whether it found something, as the registers say it at its end (R225). -/
theorem finish_counts {s : State} {b : Search} {lookups hits : Word64} {found : Bool}
    (h : b.lookups = lookups ∧ b.hits = hits ∧ b.found = found) :
    (b.finish s).numDictLookups = lookups ∧ (b.finish s).numDictMatches = hits ∧
      (b.finish s).getX 7 = if found then 1#32 else 0#32 := by
  obtain ⟨rfl, rfl, rfl⟩ := h
  exact ⟨finish_numDictLookups b s, finish_numDictMatches b s, finish_result s b⟩

/-- A find moves no counter, or it is the dictionary stage from the host's values on. -/
theorem findLongest_countersKept_or_dictSearch {s t : State} (h : exec .findLongestMatch s = .next t) :
    CountersKept s t ∨ t = (dictSearch s).finish s := by
  rcases findLongest_cases h with ⟨e, rfl⟩ | ⟨k, qb, hi, _, rfl⟩ | ⟨k, num, ring, hi, _, rfl⟩
  · exact .inl ⟨rfl, rfl⟩
  · rcases quickSearch_cases s k qb with ⟨hT, _⟩ | ⟨_, _, _, e⟩
    · exact .inl hT.countersKept
    · exact .inr (by rw [e, dictSearch, dictEntries, dictOddEntries_quick hi]; rfl)
  · rcases chainSearch_cases s k num ring with ⟨hT, _⟩ | ⟨_, _, e⟩
    · exact .inl hT.countersKept
    · exact .inr (by rw [e, dictSearch, dictEntries, dictOddEntries_chain hi]; rfl)

/-- What the registers hold at the end of a search whose running best is a dictionary candidate (R225). -/
theorem Search.Holds.finish {s : State} {b : Search} {d : Dict} {r : Ring} {cur maxlen maxback : Word} {idx : Nat}
    {c : DictCandidate} (hb : b.Holds c) (hi : Search.Improves s b) (hc : DictFinds d r cur maxlen maxback idx c) :
    ((b.finish s).getX 4).toNat = c.length ∧ ((b.finish s).getX 5).toNat = c.lengthCode ∧
      (b.finish s).getX 6 = c.distance ∧ (b.finish s).getX 7 = 1#32 ∧ (b.finish s).bestScore.toInt = c.score := by
  obtain ⟨h4, h5, h6, h7, -⟩ := Search.finish_found s hb.found
  have hlen := hc.lengthLe
  have hcode := hc.lengthCode_lt
  refine ⟨?_, ?_, h6.trans hb.bestDistance, h7, (hi.finish_score hb.found).trans hb.bestScore⟩
  · rw [h4, hb.bestLen, BitVec.toNat_ofNat]; omega
  · rw [h5, hb.bestLenCode, BitVec.toNat_ofNat]; omega

/-! The obligations. -/

/-- Settles O43: 128 lookups without a match close the throttle, and then no find reaches the dictionary stage. -/
theorem throttleStaysClosed : Obligations.ThrottleStaysClosed := by
  refine ⟨fun _ hits hl => throttleOpen_of_lookups_lt hl hits, fun s t hl hm h => ?_⟩
  have hclosed : throttleOpen s.numDictLookups s.numDictMatches = false := hm ▸ throttleOpen_no_hits hl
  rcases step_cases h with hq | ⟨rest, hh, _⟩ | ⟨w, rest, i, hh, _, hd, hx⟩
  · exact .inl hq.countersKept
  · exact .inr (.inl ⟨rest, hh⟩)
  · rcases exec_throttled (s := { s with host := rest, cmd := w }) hclosed hx with hk | rfl | ⟨quality, lgwin, rfl⟩
    · exact .inl hk
    · exact .inr (.inr ⟨w, rest, hh, .inl hd⟩)
    · exact .inr (.inr ⟨w, rest, hh, .inr ⟨quality, lgwin, hd⟩⟩)

/-- Settles O42: by family, the window stages count nothing, and the probes count what `dictProbe_counts` and
`dictPair_counts` say. -/
theorem throttleCounting : Obligations.ThrottleCounting := by
  intro s t hm h key look even odd
  constructor
  · intro k qb hi entered
    rw [exec_findLongest_quick hi hm, Host.Outcome.next.injEq] at h
    subst h
    rcases quickSearch_cases s k qb with ⟨hT, hfound⟩ | ⟨hlen, huse, hopen, e⟩
    · exact .inl (hT.counts fun ⟨hlen, huse, hopen⟩ => hfound hlen huse (throttleOpen_iff.mpr hopen))
    · have hc := dictProbe_counts s.params.dict s.ring (s.getX 0) (s.getX 1) (s.getX 2) key (Search.start s)
      exact .inr ⟨⟨hlen, huse, throttleOpen_iff.mp hopen⟩, finish_counts (e ▸ hc)⟩
  · intro k num ring hi entered
    rw [exec_findLongest_chain hi hm, Host.Outcome.next.injEq] at h
    subst h
    rcases chainSearch_cases s k num ring with ⟨hT, hfound⟩ | ⟨hlen, hopen, e⟩
    · exact .inl (hT.counts fun ⟨hlen, hopen⟩ => hfound hlen (throttleOpen_iff.mpr hopen))
    · have hc := dictPair_counts s.params.dict s.ring (s.getX 0) (s.getX 1) (s.getX 2) key (Search.start s)
      exact .inr ⟨⟨hlen, throttleOpen_iff.mp hopen⟩, finish_counts (e ▸ hc)⟩

/-- Settles O41: a find that moves a counter is the dictionary stage, whose result is a candidate of a probed entry. -/
theorem dictionaryMatch : Obligations.DictionaryMatch := by
  intro s t _ h d key probed len slot off dist matching candidate scored
  have finds {idx : Nat} (hc : candidate idx) : DictFinds d s.ring (s.getX 0) (s.getX 1) (s.getX 2) idx
      (dictCandidate d s.ring (s.getX 0) (s.getX 2) idx) := dictFinds_iff.mpr ⟨rfl, hc⟩
  rcases findLongest_countersKept_or_dictSearch h with ⟨hl, hh⟩ | rfl
  · exact ⟨fun hne => absurd hh hne, fun hne => absurd hl hne⟩
  have himp := dictSearch_improves s
  refine ⟨fun hne => ?_, fun _ => ⟨fun idx hp hc => ?_, fun hc hs hodd => ?_⟩⟩
  · rcases dictProbes_holds (dictEntries s) (Search.start s) with hhits | ⟨idx, hmem, c, hc, hb⟩
    · exact absurd ((finish_numDictMatches (dictSearch s) s).trans hhits) hne
    · obtain ⟨h4, h5, h6, h7, hscore⟩ := Search.Holds.finish (b := dictSearch s) hb himp hc
      obtain ⟨hbytes, hstops⟩ := hc.bytes
      obtain ⟨hcode, -, hcodeLe, -, hpos, hle, hshort, hdist, hdpos, hsc⟩ := hc
      rw [hcode] at hbytes hstops hcodeLe hle hshort hdist h5
      rw [hsc] at hscore
      rw [← h6] at hdist hdpos hscore
      rw [← h4] at hbytes hstops hpos hle hshort hdist hscore
      exact ⟨idx, mem_dictEntries.mp hmem, h7, hpos, hle, hshort, hcodeLe, h5, hbytes, hstops, hdist, hdpos, hscore⟩
  · rw [himp.final_score]
    exact dictProbes_beats (mem_dictEntries.mpr hp) (finds hc) _
  · have hb : (dictSearch s).Holds _ := dictProbes_first (finds hc) hs fun idx hmem c' hc' => by
      obtain ⟨rfl, hchain⟩ := mem_dictOddEntries.mp hmem
      obtain ⟨rfl, hcand⟩ := dictFinds_iff.mp hc'
      exact hodd (.inr ⟨rfl, hchain⟩) hcand
    obtain ⟨h4, h5, h6, -, -⟩ := hb.finish himp (finds hc)
    exact ⟨h4, h5, h6⟩

end Sys2Proof.Machine
end

/-!
PROOFS. The quick matcher (spec/43_quick_matcher.md): what a store writes, what a FIND_LONGEST_MATCH of H1 to H4 answers, and
the finds of all families that have nothing to examine: a lookahead below the hash width, tables in their RESET state.
-/
namespace Sys2Proof.Machine

/-! The store (R160). -/

/-- The slot of a store with the position's group as a quotient (R160). -/
theorem quickSlot_eq_div (p : QuickParams) (r : Ring) (ix : Word) :
    quickSlot p r ix = hash5 r ix p.bucketBits + ix.toNat / 8 % p.sweep := by
  rw [quickSlot, quickKey, Nat.shiftRight_eq_div_pow]

theorem storedIndex_one_quick {s : State} {h : QuickStrategy} {qb : Sparse Word} (hi : s.index = .quick h qb) (ix : Word)
    (maxlen : Nat) :
    storedIndex s 1 ix maxlen = .quick h (quickStore (s.params.strategy.quick h) s.ring ix qb) := by
  simp [storedIndex, hi, storeMany]

/-! A lookahead below the hash width (R167 (a), R191 (a)). -/

theorem quickSearch_short {s : State} (hl : (s.getX 1).toNat < 5) (h : QuickStrategy) (qb : Sparse Word) :
    quickSearch s h qb = Search.start s := if_pos hl

section
variable {s : State} (hl : (s.getX 1).toNat < 4) (h : ChainStrategy) (num : Sparse (BitVec 16)) (ring : Sparse Word)
include hl

theorem chainSearch_short : chainSearch s h num ring = Search.start s := if_pos hl

theorem chainMatches_short : chainMatches s h num ring = [] := if_pos hl

end

/-! A find that took no window candidate (R165, R186). -/

/-- A search that counts a match for whatever it found answers no window candidate. -/
theorem answersWindow_none {s : State} {b : Search} (h : b.found = true → b.hits ≠ s.numDictMatches) :
    AnswersWindow s (b.finish s) none := fun h7 => by
  rw [finish_numDictMatches]
  exact h (finish_result_one h7)

theorem answersWindow_none_of_idle (s : State) {b : Search} (h : b.found = false) : AnswersWindow s (b.finish s) none :=
  answersWindow_none fun hf => absurd (h.symm.trans hf) Bool.false_ne_true

/-- One probe from the host's values on counts what it finds (R165). -/
theorem answersWindow_none_of_probe (s : State) (d : Dict) (r : Ring) (cur maxlen maxback : Word) (idx : Nat) :
    AnswersWindow s ((dictProbe d r cur maxlen maxback idx (Search.start s)).finish s) none := by
  rcases dictProbe_cases d r cur maxlen maxback idx (Search.start s) with e | ⟨c, _, _, e⟩ <;> rw [e]
  · exact answersWindow_none_of_idle s rfl
  · exact answersWindow_none fun _ => counter_add_one_ne _

/-- So do the two probes of the pair (R186). -/
theorem answersWindow_none_of_pair (s : State) (d : Dict) (r : Ring) (cur maxlen maxback : Word) (k : Nat) :
    AnswersWindow s ((dictProbe d r cur maxlen maxback (k + 1)
      (dictProbe d r cur maxlen maxback k (Search.start s))).finish s) none := by
  obtain ⟨-, ⟨hf, -⟩ | ⟨-, hh, -⟩⟩ := dictPair_spec d r cur maxlen maxback k (b := Search.start s) rfl rfl
  · exact answersWindow_none_of_idle s hf
  · refine answersWindow_none fun _ => ?_
    rcases hh with hh | hh <;> rw [hh] <;> simp [Search.start]

/-- Without a window candidate RESULT is 0, or a dictionary match was counted. -/
theorem AnswersWindow.result_none {s : State} {b : Search} (h : AnswersWindow s (b.finish s) none) :
    (b.finish s).getX 7 = 0#32 ∨ (b.finish s).numDictMatches ≠ s.numDictMatches := by
  cases hf : b.found with
  | false => exact .inl (by rw [finish_result, hf]; rfl)
  | true => exact .inr (h (by rw [finish_result, hf]; rfl))

/-- Where no candidate can be accepted, the window stages found nothing. -/
theorem Search.Tracks.found_eq_false {b0 b : Search} {G : Nat → Word → Int → Prop} (h : Search.Tracks b0 G b)
    (hG : ∀ len dist sc, ¬ G len dist sc) : b.found = false := by
  by_contra hf
  obtain ⟨-, -, hg⟩ := h.taken (by simpa using hf)
  exact hG _ _ _ hg

/-! What a find of H1 to H4 answers (R163, R166). -/

/-- The distance register holds the running best's distance, whether anything was found or not (R225). -/
theorem Search.Improves.final_distance {s : State} {b : Search} (hb : Search.Improves s b) :
    (b.finish s).getX 6 = b.bestDistance := by
  cases hf : b.found with
  | false =>
    obtain ⟨-, -, hdist, -⟩ := hb.idle hf
    rw [Search.finish_idle s hf, hdist]
    exact State.getX_setX_ne _ _ (by decide)
  | true =>
    obtain ⟨-, -, hdist, -⟩ := Search.finish_found s hf
    exact hdist

/-- The candidates accepted one after the other, from the host's running best on. -/
def quickTaken (s : State) (h : QuickStrategy) (qb : Sparse Word) : List Candidate :=
  takenFrom s.ring (s.getX 0) (s.getX 1).toNat (s.getX 4).toNat s.bestScore.toInt (quickCandidates s h qb)

section
variable {r : Ring} {cur maxlen maxback cache0 : Word} {slots : List Word} {len : Nat} {dist : Word} {sc : Int}

theorem QuickGood.lenLe (hg : QuickGood r cur maxlen maxback cache0 slots len dist sc) : len ≤ maxlen.toNat :=
  hg.lenEq.trans_le (prefixMatch_le ..)

theorem QuickGood.bytesAgree (hg : QuickGood r cur maxlen maxback cache0 slots len dist sc) :
    BytesAgree r cur dist len := by
  rw [hg.lenEq]
  exact bytesAgree_of_prefix_sub r cur dist _

end

section
variable {s : State} {h : QuickStrategy} {qb : Sparse Word}

/-- The find answers the last of them, on H1 the first. -/
theorem quickSearch_answers (hl : 5 ≤ (s.getX 1).toNat) :
    AnswersWindow s ((quickSearch s h qb).finish s)
      (if (s.params.strategy.quick h).sweep = 1 then (quickTaken s h qb).head? else (quickTaken s h qb).getLast?) := by
  have htakes := quickSearch_takes s h qb hl
  dsimp only at htakes
  unfold quickTaken
  generalize (if (s.params.strategy.quick h).sweep = 1 then _ else _ : Option Candidate) = answer at htakes ⊢
  cases answer with
  | none =>
    rcases htakes with e | e <;> rw [e]
    · exact answersWindow_none_of_idle s rfl
    · exact answersWindow_none_of_probe s _ _ _ _ _ _
  | some c => exact (quickSearch_improves s h qb).took_answers htakes

/-- A match that no dictionary answer gave was accepted by a window stage. -/
theorem quickGood_of_match {t : State} (hi : s.index = .quick h qb) (hm : maskOK s = true)
    (ht : exec .findLongestMatch s = .next t) (h7 : t.getX 7 = 1#32) (hd : t.numDictMatches = s.numDictMatches) :
    t.getX 5 = t.getX 4 ∧
      QuickGood s.ring (s.getX 0) (s.getX 1) (s.getX 2) (s.getX 8)
        (quickSlots (s.params.strategy.quick h) s.ring qb (s.getX 0) (s.params.strategy.quick h).sweep)
        (t.getX 4).toNat (t.getX 6) t.bestScore.toInt := by
  rw [exec_findLongest_quick hi hm, Host.Outcome.next.injEq] at ht
  subst ht
  rcases quickSearch_cases s h qb with ⟨htracks, -⟩ | ⟨-, -, -, e⟩
  · have hf := finish_result_one h7
    obtain ⟨h4, h5, h6, -, -⟩ := Search.finish_found s hf
    obtain ⟨-, hcode, hgood⟩ := htracks.taken hf
    rw [htracks.improves.finish_score hf, h4, h5, h6]
    exact ⟨hcode, hgood⟩
  · rw [e] at h7 hd
    exact absurd hd (answersWindow_none_of_probe s _ _ _ _ _ _ h7)

/-! The first candidate (R163). -/

theorem Ring.byteAt_toNat (r : Ring) (p w : Word) : r.byteAt p w.toNat = r.byte (p + w) := by simp [Ring.byteAt]

/-- A candidate that passes the tests is taken. -/
theorem takenFrom_cons_of_accepted {r : Ring} {cur : Word} {limit bestLen : Nat} {bestScore : Int} {c : Candidate}
    {rest : List Candidate} (hgate : r.byteAt (cur - c.dist) bestLen = r.byteAt cur bestLen)
    (hlen : c.least ≤ c.len r cur limit) (hscore : bestScore < c.score (c.len r cur limit)) :
    takenFrom r cur limit bestLen bestScore (c :: rest) =
      c :: takenFrom r cur limit (c.len r cur limit) (c.score (c.len r cur limit)) rest :=
  if_pos ⟨hgate, hlen, hscore⟩

/-- The candidate at the last distance. -/
def lastCandidate (s : State) : Candidate := ⟨s.getX 8, 4, fun len => scoreLast len 0⟩

/-- The candidate of a stored position. -/
def slotCandidate (cur prev : Word) : Candidate := ⟨cur - prev, 4, fun len => score len (cur - prev)⟩

theorem slotCandidate_len (r : Ring) (cur prev : Word) (limit : Nat) :
    (slotCandidate cur prev).len r cur limit = prefixMatch r prev cur limit := by
  simp [Candidate.len, slotCandidate]

theorem quickCandidates_of_cached (hc : QuickCachedOK (s.getX 0) (s.getX 8)) :
    quickCandidates s h qb = lastCandidate s :: quickSlotCandidates s h qb :=
  congrArg (· ++ quickSlotCandidates s h qb) (if_pos hc)

theorem quickCandidates_of_not_cached (hc : ¬ QuickCachedOK (s.getX 0) (s.getX 8)) :
    quickCandidates s h qb = quickSlotCandidates s h qb :=
  congrArg (· ++ quickSlotCandidates s h qb) (if_neg hc)

/-- With sweep 1 the one slot, if its distance is admissible. -/
theorem quickSlotCandidates_single (hs : (s.params.strategy.quick h).sweep = 1) {prev : Word}
    (hp : prev = qbGet qb (hash5 s.ring (s.getX 0) (s.params.strategy.quick h).bucketBits))
    (h0 : s.getX 0 - prev ≠ 0#32) (h2 : s.getX 0 - prev ≤ s.getX 2) :
    quickSlotCandidates s h qb = [slotCandidate (s.getX 0) prev] := by
  subst hp
  simp [quickSlotCandidates, hs, h0, h2, slotCandidate]

/-- On H1 a first candidate that passes the tests is the answer. -/
theorem quick_answers_first (hi : s.index = .quick h qb) (hm : maskOK s = true)
    (hs : (s.params.strategy.quick h).sweep = 1) (hl : 5 ≤ (s.getX 1).toNat) {c : Candidate} {rest : List Candidate}
    {len : Nat} (hc : quickCandidates s h qb = c :: rest) (hlen : c.len s.ring (s.getX 0) (s.getX 1).toNat = len)
    (hgate : s.ring.byte (s.getX 0 - c.dist + s.getX 4) = s.ring.byte (s.getX 0 + s.getX 4)) (hleast : c.least ≤ len)
    (hscore : s.bestScore.toInt < c.score len) :
    ∃ t, exec .findLongestMatch s = .next t ∧ t.getX 7 = 1#32 ∧ (t.getX 4).toNat = len ∧ (t.getX 5).toNat = len ∧
      t.getX 6 = c.dist ∧ t.bestScore.toInt = c.score len ∧ CountersKept s t ∧ FindLongestFrame s t := by
  subst hlen
  have hfirst : (quickTaken s h qb).head? = some c := by
    rw [quickTaken, hc, takenFrom_cons_of_accepted (by rwa [Ring.byteAt_toNat, Ring.byteAt_toNat]) hleast hscore,
      List.head?_cons]
  have hanswers := quickSearch_answers (h := h) (qb := qb) hl
  rw [if_pos hs, hfirst] at hanswers
  obtain ⟨h7, h4, h5, h6, hbest, hcount⟩ := hanswers
  exact ⟨_, exec_findLongest_quick hi hm, h7, h4, h5 ▸ h4, h6, hbest, hcount, finish_findLongestFrame s _⟩

/-! Nothing is missed (R163, R166, R167 (e)). -/

/-- A find takes something where step 1 or some slot of the sweep, started from the host's values, would. -/
theorem quickSearch_finds (hl : 5 ≤ (s.getX 1).toNat)
    (htakes : (quickCached s.ring (s.getX 0) (s.getX 1) (s.getX 8) (Search.start s)).found = true ∨
      ∃ j, j < (s.params.strategy.quick h).sweep ∧
        (quickProbe s.ring (s.getX 0) (s.getX 1) (s.getX 2)
          (qbGet qb (quickKey (s.params.strategy.quick h) s.ring (s.getX 0) + j)) (Search.start s)).found = true) :
    (quickSearch s h qb).found = true := by
  by_contra hf
  obtain ⟨hcached, hslots⟩ := quickFind_idle hl (Bool.not_eq_true _ ▸ hf)
  rcases htakes with htaken | ⟨j, hj, htaken⟩
  · rw [hcached] at htaken
    exact Bool.false_ne_true htaken
  · rw [hslots j hj] at htaken
    exact Bool.false_ne_true htaken

end

/-! Tables in their RESET state (R164, R191 (b), R209 (a)). -/

theorem not_quickCachedOK_zero (cache0 : Word) : ¬ QuickCachedOK 0#32 cache0 :=
  fun ⟨hlow, hhigh⟩ => absurd (hlow.trans hhigh) (by decide)

/-- At position 0 every slot of RESET tables is the position itself, and no last distance is one into the stream. -/
theorem not_quickGood_reset {p : QuickParams} {r : Ring} {qb : Sparse Word} (hqb : ∀ i, qbGet qb i = 0#32)
    (maxlen maxback cache0 : Word) (len : Nat) (dist : Word) (sc : Int) :
    ¬ QuickGood r 0#32 maxlen maxback cache0 (quickSlots p r qb 0#32 p.sweep) len dist sc := by
  rintro ⟨-, -, hpos, ⟨-, hslot, -⟩ | ⟨-, hcached, -⟩⟩
  · obtain ⟨j, -, hj⟩ := mem_quickSlots.mp hslot
    rw [hqb] at hj
    exact hpos (by simpa using hj.symm)
  · exact not_quickCachedOK_zero cache0 hcached

theorem chainWalk_reset {num : Sparse (BitVec 16)} (hnum : ∀ key, numGet num key = 0#16) (p : ChainParams) (r : Ring)
    (ring : Sparse Word) (cur maxback : Word) : chainWalk p r num ring cur maxback = [] := by
  simp [chainWalk, chainEntries, hnum]

/-- At position 0 no distance is one into the stream, so without a walk there is no candidate. -/
theorem not_chainGood_zero (n : Nat) (s : State) (r : Ring) (maxlen maxback : Word) (len : Nat) (dist : Word) (sc : Int) :
    ¬ ChainGood n s r 0#32 maxlen maxback [] len dist sc := by
  rintro ⟨-, hpos, -, ⟨-, -, _, hmem, -⟩ | ⟨_, -, -, hle, -⟩⟩
  · simp at hmem
  · exact hpos (BitVec.le_zero_iff.mp hle)

theorem dictAllMatches_table_nil (bytes : List Byte) (lo hi len : Nat) :
    dictAllMatches (.table []) bytes lo hi len = none := rfl

theorem dictRecords_table_nil {ps : Params} (hd : ps.dictAllMatches = .table []) (r : Ring) (cur maxback : Word)
    (lo hi : Nat) : dictRecords ps r cur maxback lo hi = [] := by
  simp [dictRecords, hd, dictAllMatches_table_nil]

/-- Phase 1 stops before the first position back from 0. -/
theorem nearProbe_zero (r : Ring) (maxlen maxback : Word) (left : Nat) (c : Collect) :
    nearProbe r 0#32 maxlen maxback left 1#32 c = c := by
  cases left <;> simp [nearProbe]

/-- At position 0 phases 1 and 2 examine nothing, and the dictionary listed has no answer (R191 (b)). -/
theorem chainFindAll_reset {ps : Params} {num : Sparse (BitVec 16)} (hnum : ∀ key, numGet num key = 0#16)
    (hd : ps.dictAllMatches = .table []) (p : ChainParams) (r : Ring) (ring : Sparse Word) (maxlen maxback : Word) :
    chainFindAll p ps r num ring 0#32 maxlen maxback = [] := by
  have hcollect : chainCollect p r num ring 0#32 maxlen maxback = ⟨1, []⟩ := by
    rw [chainCollect, chainWalk_reset hnum, List.foldl_nil, nearProbe_zero]
  simp [chainFindAll, hcollect, dictRecords_table_nil hd]

/-- A holder out of window is no match. -/
theorem Advance.direct_outside {e : Advance} {holder : Word} (hw : inWindow e.lgwin e.cur holder = false)
    (narrow : Word → Word) (len : Nat) (c : Nat × List MatchRec) : e.direct narrow len holder c = c := by
  simp [Advance.direct, hw]

/-- Where every head is out of window nothing is recorded (R209 (a)). -/
theorem Advance.run_ms_of_outside {e : Advance} {ht : Sparse Word}
    (hw : ∀ i, inWindow e.lgwin e.cur (treeGet e.lgwin ht i) = false) (depth : Nat) (child : Sparse Word) :
    (e.run depth ht child).ms = [] := by
  rcases Nat.lt_or_ge e.maxlen e.niceLength with hg | hg
  · rw [Advance.run_guard hg]
  · have hroot : inWindow e.lgwin e.cur (e.startWalk ht child).prev = false := hw (treeKey4 e.ring e.cur)
    rw [Advance.run_past hg, Advance.loop_outside hroot]
    simp only [Advance.startWalk, Advance.direct_outside (hw _)]

/-- Below the wrap SENTINEL is out of window, so H10's RESET tables give no match (R209 (a), R295). -/
theorem treeMatches_reset {s : State} {ht : Sparse Word} (hht : ∀ i, treeGet s.lgwin ht i = sentinel s.lgwin)
    (hwrap : (s.getX 0).toNat + windowMask s.lgwin < 2 ^ 32) (child : Sparse Word) : treeMatches s ht child = [] := by
  have hout := sentinel_outside hwrap
  have hms : (treeAdvanced s ht child).ms = [] :=
    Advance.run_ms_of_outside (e := s.advanceAt (s.getX 0) (s.getX 1).toNat true)
      (fun i => (congrArg (inWindow s.lgwin (s.getX 0)) (hht i)).trans hout) s.params.h10MaxSearchDepth child
  rw [treeMatches_eq, hms, List.filter_nil]

/-- At position 0 on RESET tables a find of H1 to H4 answers no window candidate (R164). -/
theorem quickSearch_reset_answers_none {s : State} {h : QuickStrategy} {qb : Sparse Word} (h0 : s.getX 0 = 0#32)
    (hqb : ∀ i, qbGet qb i = 0#32) : AnswersWindow s ((quickSearch s h qb).finish s) none := by
  rcases quickSearch_cases s h qb with ⟨htracks, -⟩ | ⟨-, -, -, e⟩
  · rw [h0] at htracks
    exact answersWindow_none_of_idle s (htracks.found_eq_false (not_quickGood_reset hqb _ _ _))
  · exact e ▸ answersWindow_none_of_probe s _ _ _ _ _ _

/-- The same on H5 to H9 (R191 (b)). -/
theorem chainSearch_reset_answers_none {s : State} {h : ChainStrategy} {num : Sparse (BitVec 16)} (h0 : s.getX 0 = 0#32)
    (hnum : ∀ key, numGet num key = 0#16) (ring : Sparse Word) :
    AnswersWindow s ((chainSearch s h num ring).finish s) none := by
  rcases chainSearch_cases s h num ring with ⟨htracks, -⟩ | ⟨-, -, e⟩
  · rw [h0, chainWalk_reset hnum] at htracks
    exact answersWindow_none_of_idle s (htracks.found_eq_false (not_chainGood_zero _ _ _ _ _))
  · exact e ▸ answersWindow_none_of_pair s _ _ _ _ _ _

/-! The obligations. -/

/-- Settles O22: one store is one write of the table, below its last slot. -/
theorem quickStoreEffect : Obligations.QuickStoreEffect := by
  intro s h qb hi hm
  have hc : s.index ≠ .absent := by simp [hi]
  refine ⟨_, _, exec_store hc hm, storedIndex_one_quick hi _ _, withIndex_onlyTables (storedIndex_strategy ..), ?_⟩
  intro p slot
  have hslot : slot = quickSlot p s.ring (s.getX 0) := (quickSlot_eq_div ..).symm
  rw [hslot]
  exact ⟨qbGet_quickStore_slot .., fun _ => qbGet_quickStore_ne _ _ _ _, fun hp => quickSlot_lt hp _ _⟩

/-- Settles O31: the guard leaves the search as it began and the list empty. -/
theorem shortLookaheadFindsNothing : Obligations.ShortLookaheadFindsNothing := by
  refine fun s hm => ⟨fun h qb hi hl => ?_, fun h num ring hi hl => ⟨?_, ?_⟩⟩
  · rw [exec_findLongest_quick hi hm, quickSearch_short hl, start_finish]
  · rw [exec_findLongest_chain hi hm, chainSearch_short hl, start_finish]
  · rw [exec_findAll_chain hi hm, chainMatches_short hl, outputMatches_nil]

/-- Settles O32: on H1 the first candidate that is taken is the answer. -/
theorem quickSingleProbe : Obligations.QuickSingleProbe := by
  intro s h qb hi hm hs hl cur
  constructor
  · intro hlow hhigh len hgate hlen hscore
    exact quick_answers_first hi hm hs hl (quickCandidates_of_cached ⟨hlow, hhigh⟩) rfl hgate hlen hscore
  · intro hnot prev len hpos hback hgate hlen hscore
    have hc : quickCandidates s h qb = [slotCandidate cur prev] :=
      (quickCandidates_of_not_cached hnot).trans (quickSlotCandidates_single hs rfl hpos hback)
    have hat : cur - (slotCandidate cur prev).dist = prev := by simp [slotCandidate]
    exact quick_answers_first hi hm hs hl hc (slotCandidate_len ..) (hat.symm ▸ hgate) hlen hscore

/-- Settles O33: what no dictionary answer gave was accepted by a window stage. -/
theorem quickMatchIsTrue : Obligations.QuickMatchIsTrue := by
  intro s t h qb hi hm ht h7 hd cur p len dist
  obtain ⟨hcode, hgood⟩ := quickGood_of_match hi hm ht h7 hd
  refine ⟨hgood.lenGe, hgood.lenEq, hgood.lenLe, hcode, hgood.distPos, hgood.bytesAgree, ?_⟩
  rcases hgood.source with ⟨hback, hslot, hsc⟩ | ⟨hlast, ⟨hlow, hhigh⟩, hsc⟩
  · obtain ⟨j, hj, hj'⟩ := mem_quickSlots.mp hslot
    exact .inl ⟨hback, ⟨j, hj, hj'.symm⟩, hsc⟩
  · exact .inr ⟨hlast, hlow, hhigh, hsc⟩

/-- Settles O35: the answer by the candidates taken in turn, the bounds by what each stage leaves as the running best. -/
theorem quickMissesNothing : Obligations.QuickMissesNothing := by
  intro s h qb hi hm hl cur sweep slot len admissible cached last accepted taken
  have himp := quickSearch_improves s h qb
  refine ⟨_, exec_findLongest_quick hi hm, quickSearch_answers hl, fun hbetter => ?_, fun hok hlen hlonger => ?_,
    fun j prev hj hp hadm hlen hlonger hone hlast hearlier => ?_⟩
  · rw [finish_result, quickSearch_finds hl ?_, if_pos rfl]
    rcases hbetter with ⟨hok, hlen, hlonger, hscore⟩ | ⟨j, prev, hj, rfl, ⟨hpos, hback⟩, hlen, hlonger, hscore⟩
    · exact .inl (quickCached_takes hok hlen hlonger hscore)
    · exact .inr ⟨j, hj, quickProbe_takes hpos hback hlen hlonger hscore⟩
  · rw [himp.final_score, himp.final_distance]
    exact quickFind_best_cached (scoreFits_toInt _) rfl hl hok hlen hlonger
  · rw [himp.final_score, himp.final_distance]
    obtain ⟨hpos, hback⟩ := hadm
    exact quickFind_best_slot (d := s.params.dict) (cache0 := s.getX 8) (b0 := Search.start s)
      (scoreFits_toInt _) rfl hl hj hp hpos hback hlen hlonger hone hlast
      fun j' hj' hpos' hback' => hearlier j' hj' ⟨hpos', hback'⟩

/-- Settles O40: at position 0 no window stage has a candidate, and H10's heads are out of window. -/
theorem freshTablesFindNothing : Obligations.FreshTablesFindNothing := by
  intro s hm hreset
  refine ⟨?_, fun h num ring hi h0 hd => ?_, fun ht child hi hwrap => ?_⟩
  · rintro h0 (⟨h, qb, hi⟩ | ⟨h, num, ring, hi⟩) <;> rw [hi] at hreset
    · exact ⟨_, exec_findLongest_quick hi hm, (quickSearch_reset_answers_none h0 hreset).result_none⟩
    · exact ⟨_, exec_findLongest_chain hi hm, (chainSearch_reset_answers_none h0 hreset.1 ring).result_none⟩
  · rw [hi] at hreset
    rw [exec_findAll_chain hi hm, chainMatches, regCurIx, h0, chainFindAll_reset hreset.1 hd, outputMatches_nil]
  · rw [hi] at hreset
    refine ⟨_, exec_findAll_tree hi hm, ?_⟩
    rw [treeMatches_reset hreset.1 hwrap, outputMatches_nil]
    exact State.getX_setX_same _ _ _

end Sys2Proof.Machine

/-!
PROOFS. The block-chain matcher (spec/44_block_chain_matcher.md): what a store writes, what the walk yields, and what
FIND_LONGEST_MATCH and FIND_ALL_MATCHES of H5 to H9 answer.
-/
namespace Sys2Proof.Machine

/-! The store (R181). -/

theorem storedIndex_one_chain {s : State} {h : ChainStrategy} {num : Sparse (BitVec 16)} {ring : Sparse Word}
    (hi : s.index = .chain h num ring) (ix : Word) (maxlen : Nat) :
    storedIndex s 1 ix maxlen =
      .chain h (chainStore (s.params.strategy.chain h) s.ring ix (num, ring)).1
        (chainStore (s.params.strategy.chain h) s.ring ix (num, ring)).2 := by
  simp [storedIndex, hi, storeMany]

theorem counter_succ_toNat (c : BitVec 16) : (c + 1#16).toNat = (c.toNat + 1) % 2 ^ 16 := by
  simp [BitVec.toNat_add]

/-- A counter that wraps at `2^16` goes on in a ring of at most that many entries. -/
theorem counter_succ_mod_ring {b : Nat} (hb : b ≤ 16) (n : Nat) : (n + 1) % 2 ^ 16 % 2 ^ b = (n + 1) % 2 ^ b :=
  Nat.mod_mod_of_dvd _ (Nat.pow_dvd_pow 2 hb)

/-- One before the new counter is the slot just written, across the wrap too. -/
theorem counter_pred_succ_mod_ring {b : Nat} (hb : b ≤ 16) (n : Nat) :
    ((n + 1) % 2 ^ 16 + 2 ^ 16 - 1) % 2 ^ b = n % 2 ^ b := by
  have hpred : ((n + 1) % 2 ^ 16 + 2 ^ 16 - 1) % 2 ^ 16 = n % 2 ^ 16 := by omega
  have hdvd : 2 ^ b ∣ 2 ^ 16 := Nat.pow_dvd_pow 2 hb
  rw [← Nat.mod_mod_of_dvd _ hdvd, hpred, Nat.mod_mod_of_dvd _ hdvd]

/-! The walk (R182). -/

/-- The `t`-th newest ring entry of the position's key (R182). -/
def chainEntry (p : ChainParams) (r : Ring) (num : Sparse (BitVec 16)) (ring : Sparse Word) (cur : Word) (t : Nat) : Word :=
  ringGet p ring (chainKey p r cur) (((numGet num (chainKey p r cur)).toNat - 1 - t) % 2 ^ p.blockBits)

theorem chainEntries_eq_map (p : ChainParams) (r : Ring) (num : Sparse (BitVec 16)) (ring : Sparse Word) (cur : Word) :
    chainEntries p r num ring cur =
      (List.range (min (numGet num (chainKey p r cur)).toNat (2 ^ p.blockBits))).map (chainEntry p r num ring cur) := rfl

/-- The walk yields the entries up to the first beyond `maxback`, without the self-distance. -/
theorem mem_chainWalk {p : ChainParams} {r : Ring} {num : Sparse (BitVec 16)} {ring : Sparse Word}
    {cur maxback prev : Word} :
    prev ∈ chainWalk p r num ring cur maxback ↔
      ∃ t, t < (numGet num (chainKey p r cur)).toNat ∧ t < 2 ^ p.blockBits ∧ prev = chainEntry p r num ring cur t ∧
        backward cur prev ≠ 0#32 ∧ ∀ t', t' ≤ t → backward cur (chainEntry p r num ring cur t') ≤ maxback := by
  simp only [chainWalk, chainEntries_eq_map, List.mem_filter, mem_takeWhile_range, decide_eq_true_eq, lt_min_iff]
  constructor
  · rintro ⟨⟨t, ⟨hn, hring⟩, hentry, hback⟩, hpos⟩
    exact ⟨t, hn, hring, hentry, hpos, hback⟩
  · rintro ⟨t, hn, hring, hentry, hpos, hback⟩
    exact ⟨⟨t, ⟨hn, hring⟩, hentry, hback⟩, hpos⟩

/-! What a FIND_LONGEST_MATCH answers (R185, R190). -/

/-- The answer of a search tracked from the host's registers is what its window stages accepted. -/
theorem Search.Tracks.answer {s : State} {G : Nat → Word → Int → Prop} {b : Search}
    (hb : Search.Tracks (Search.start s) G b) (h7 : (b.finish s).getX 7 = 1#32) :
    (b.finish s).getX 5 = (b.finish s).getX 4 ∧
      G ((b.finish s).getX 4).toNat ((b.finish s).getX 6) (b.finish s).bestScore.toInt := by
  have hf := finish_result_one h7
  obtain ⟨h4, h5, h6, -, -⟩ := Search.finish_found s hf
  obtain ⟨-, hcode, hgood⟩ := hb.taken hf
  rw [hb.improves.finish_score hf, h4, h5, h6]
  exact ⟨hcode, hgood⟩

/-- The cache candidate `i` is the distance `d`, admissible (R183). -/
def CacheAdmits (s : State) (cur maxback : Word) (i : Fin 16) (d : Word) : Prop :=
  (d.toNat : Int) = cacheCandidate s i ∧ d ≠ 0#32 ∧ d ≤ cur ∧ d ≤ maxback

section
variable {n len : Nat} {s : State} {r : Ring} {cur maxlen maxback dist : Word} {walk : List Word} {sc : Int}

theorem ChainGood.two_le (hg : ChainGood n s r cur maxlen maxback walk len dist sc) : 2 ≤ len := by
  rcases hg.source with ⟨hlen, -⟩ | ⟨i, -, -, -, hlen, -⟩ <;> omega

theorem ChainGood.bytesAgree (hg : ChainGood n s r cur maxlen maxback walk len dist sc) : BytesAgree r cur dist len := by
  rw [hg.lenEq]
  exact bytesAgree_of_prefix_sub r cur dist _

/-- The distance of an accepted candidate is that of an entry of the walk or of one of the first `n` cache candidates. -/
theorem ChainGood.walk_or_cached (hg : ChainGood n s r cur maxlen maxback walk len dist sc) :
    (∃ q ∈ walk, dist = cur - q) ∨ ∃ i : Fin 16, i.val < n ∧ CacheAdmits s cur maxback i dist := by
  rcases hg.source with ⟨-, -, hwalk⟩ | ⟨i, hi, hd, hcur, -, -⟩
  · exact .inl hwalk
  · exact .inr ⟨i, hi, hd, hg.distPos, hcur, hg.distLe⟩

theorem cachedBelow_of_admits {i : Fin 16} (hlen : ∀ d, CacheAdmits s cur maxback i d →
    prefixMatch r (cur - d) cur maxlen.toNat < n) : CachedBelow s r cur maxlen maxback n i :=
  fun d hd h0 hcur hback => hlen d ⟨hd, h0, hcur, hback⟩

end

section
variable {s : State} {h : ChainStrategy} {num : Sparse (BitVec 16)} {ring : Sparse Word}

/-- A match that no dictionary answer gave was accepted by a window stage. -/
theorem chainGood_of_match {t : State} (hi : s.index = .chain h num ring) (hm : maskOK s = true)
    (ht : exec .findLongestMatch s = .next t) (h7 : t.getX 7 = 1#32) (hd : t.numDictMatches = s.numDictMatches) :
    t.getX 5 = t.getX 4 ∧
      ChainGood (s.params.strategy.chain h).lastDistToCheck s s.ring (s.getX 0) (s.getX 1) (s.getX 2)
        (chainWalk (s.params.strategy.chain h) s.ring num ring (s.getX 0) (s.getX 2))
        (t.getX 4).toNat (t.getX 6) t.bestScore.toInt := by
  rw [exec_findLongest_chain hi hm, Host.Outcome.next.injEq] at ht
  subst ht
  rcases chainSearch_cases s h num ring with ⟨htracks, -⟩ | ⟨-, -, e⟩
  · exact htracks.answer h7
  · rw [e] at h7 hd
    exact absurd hd (answersWindow_none_of_pair s _ _ _ _ _ _ h7)

/-- The candidates accepted one after the other, from the host's running best on. -/
def chainTaken (s : State) (h : ChainStrategy) (num : Sparse (BitVec 16)) (ring : Sparse Word) : List Candidate :=
  takenFrom s.ring (s.getX 0) (s.getX 1).toNat (s.getX 4).toNat s.bestScore.toInt (chainCandidates s h num ring)

/-- The find answers the last of them. -/
theorem chainSearch_answers (hl : 4 ≤ (s.getX 1).toNat) :
    AnswersWindow s ((chainSearch s h num ring).finish s) (chainTaken s h num ring).getLast? := by
  have htakes := chainSearch_takes s h num ring hl
  dsimp only at htakes
  unfold chainTaken
  generalize (takenFrom _ _ _ _ _ _).getLast? = answer at htakes ⊢
  cases answer with
  | none =>
    rcases htakes with e | e <;> rw [e]
    · exact answersWindow_none_of_idle s rfl
    · exact answersWindow_none_of_pair s _ _ _ _ _ _
  | some c => exact (chainSearch_improves s h num ring).took_answers htakes

/-- A find takes something where some cache candidate or entry of the walk, started from the host's values, would be
taken. -/
theorem chainSearch_finds (hl : 4 ≤ (s.getX 1).toNat)
    (htakes :
      (∃ i : Fin 16, i.val < (s.params.strategy.chain h).lastDistToCheck ∧
        (chainCached s s.ring (s.getX 0) (s.getX 1) (s.getX 2) (Search.start s) i).found = true) ∨
      ∃ prev ∈ chainWalk (s.params.strategy.chain h) s.ring num ring (s.getX 0) (s.getX 2),
        (chainProbe s.ring (s.getX 0) (s.getX 1) (Search.start s) prev).found = true) :
    (chainSearch s h num ring).found = true := by
  by_contra hf
  obtain ⟨hcached, hwalk⟩ := chainFind_idle hl (Bool.not_eq_true _ ▸ hf)
  rcases htakes with ⟨i, hi, htaken⟩ | ⟨prev, hprev, htaken⟩
  · rw [hcached i hi] at htaken
    exact Bool.false_ne_true htaken
  · rw [hwalk prev hprev] at htaken
    exact Bool.false_ne_true htaken

/-! The lists of FIND_ALL_MATCHES (R187 to R189). -/

/-- The records of phases 1 and 2 with the operands in their registers. -/
def chainWindow (s : State) (h : ChainStrategy) (num : Sparse (BitVec 16)) (ring : Sparse Word) : List MatchRec :=
  (chainCollect (s.params.strategy.chain h) s.ring num ring (s.getX 0) (s.getX 1) (s.getX 2)).ms

/-- Where the dictionary phase begins: one above the longest record so far, 2 without one. -/
def dictLow (window : List MatchRec) : Nat := (window.getLast?.map MatchRec.length).getD 1 + 1

/-- Where it ends. -/
def dictHigh (s : State) : Nat := min (s.getX 1).toNat s.params.dictMaxLen

/-- The records of the dictionary phase after those of phases 1 and 2. -/
def chainDictRecords (s : State) (window : List MatchRec) : List MatchRec :=
  dictRecords s.params s.ring (s.getX 0) (s.getX 2) (dictLow window) (dictHigh s)

theorem chainMatches_split (hl : 4 ≤ (s.getX 1).toNat) :
    chainMatches s h num ring = chainWindow s h num ring ++ chainDictRecords s (chainWindow s h num ring) :=
  chainFindAll_split _ _ _ _ _ _ _ _ hl

theorem chainMatches_listed (s : State) (h : ChainStrategy) (num : Sparse (BitVec 16)) (ring : Sparse Word) :
    ChainListed s.params s.ring (s.getX 0) (s.getX 1) (s.getX 2) (chainMatches s h num ring) :=
  chainFindAll_listed _ _ _ _ _ _ _ _

theorem chainMatches_output (s : State) (h : ChainStrategy) (num : Sparse (BitVec 16)) (ring : Sparse Word) :
    MatchesOutput s (outputMatches (chainMatches s h num ring) s) (chainMatches s h num ring) :=
  outputMatches_spec _ _ (chainMatches_listed s h num ring).count

/-- A record of phases 1 and 2 is a byte-exact match within the lookahead and `maxback`. -/
theorem chainWindow_match {m : MatchRec} (hm : m ∈ chainWindow s h num ring) :
    2 ≤ m.length ∧ m.length ≤ (s.getX 1).toNat ∧ m.lengthCode = m.length ∧ m.distance ≠ 0#32 ∧ m.distance ≤ s.getX 2 ∧
      BytesAgree s.ring (s.getX 0) m.distance m.length :=
  (chainCollect_good ..).window m hm

theorem chainWindow_source {m : MatchRec} (hm : m ∈ chainWindow s h num ring) :
    WindowSource s.ring (s.getX 0) (s.getX 1)
      (chainWalk (s.params.strategy.chain h) s.ring num ring (s.getX 0) (s.getX 2)) m :=
  chainCollect_source _ _ _ _ _ _ _ m hm

/-- A record reaches every length from 2 up to the running best. -/
theorem Collect.Top.reaches {c : Collect} (hc : c.Top) {n : Nat} (hn : 2 ≤ n) (hle : n ≤ c.bestLen) :
    ∃ m ∈ c.ms, n ≤ m.length := by
  rcases hc with hone | ⟨m, hm, hlen⟩
  · omega
  · exact ⟨m, hm, hlen ▸ hle⟩

/-- No candidate of the walk is longer than every record. -/
theorem chainWindow_covers_walk {prev : Word}
    (hp : prev ∈ chainWalk (s.params.strategy.chain h) s.ring num ring (s.getX 0) (s.getX 2))
    (hlen : 2 ≤ prefixMatch s.ring prev (s.getX 0) (s.getX 1).toNat) :
    ∃ m ∈ chainWindow s h num ring, prefixMatch s.ring prev (s.getX 0) (s.getX 1).toNat ≤ m.length := by
  obtain ⟨htop, hwalk, -⟩ :=
    chainCollect_covers (s.params.strategy.chain h) s.ring num ring (s.getX 0) (s.getX 1) (s.getX 2)
  exact htop.reaches hlen (hwalk prev hp)

/-- Nor is a near position up to the first that agrees over 3 bytes; beyond it, none up to length 3. -/
theorem chainWindow_covers_near {d : Word} (h0 : d ≠ 0#32) (hreach : d ≤ 64#32) (hcur : d ≤ s.getX 0) (hback : d ≤ s.getX 2)
    (hlen : 2 ≤ prefixMatch s.ring (s.getX 0 - d) (s.getX 0) (s.getX 1).toNat) :
    (¬ NearerThree s.ring (s.getX 0) (s.getX 1) d →
      ∃ m ∈ chainWindow s h num ring, prefixMatch s.ring (s.getX 0 - d) (s.getX 0) (s.getX 1).toNat ≤ m.length) ∧
    ∃ m ∈ chainWindow s h num ring, min 3 (prefixMatch s.ring (s.getX 0 - d) (s.getX 0) (s.getX 1).toNat) ≤ m.length := by
  obtain ⟨htop, -, hnear⟩ :=
    chainCollect_covers (s.params.strategy.chain h) s.ring num ring (s.getX 0) (s.getX 1) (s.getX 2)
  have hd := hnear d h0 hreach hcur hback
  refine ⟨fun hnone => htop.reaches hlen (hd.resolve_right fun hthree => hnone hthree.2), htop.reaches (by omega) ?_⟩
  rcases hd with hle | ⟨hthree, -⟩ <;> omega

/-- The records of the dictionary phase: the answers inside its range whose distance is not 0 (R189). -/
theorem mem_dictRecords {ps : Params} {r : Ring} {cur maxback : Word} {lo hi : Nat} {m : MatchRec} :
    m ∈ dictRecords ps r cur maxback lo hi ↔ lo ≤ m.length ∧ m.length ≤ hi ∧
      ∃ hit, dictAllMatches ps.dictAllMatches (viewBytes r cur hi) lo hi m.length = some hit ∧
        dictRecord maxback m.length hit = some m := by
  refine ⟨(dictRecords_spec ps r cur maxback lo hi).2 m, fun ⟨hlo, hhi, hit, hans, hrec⟩ => ?_⟩
  refine List.mem_filterMap.mpr ⟨m.length, List.mem_range'_1.mpr ⟨hlo, by omega⟩, ?_⟩
  rw [hans]
  exact hrec

end

/-! What FIND_ALL_MATCHES leaves as it was (R226). -/

theorem outputMatches_findAllFrame (ms : List MatchRec) (s : State) : FindAllFrame s (outputMatches ms s) :=
  ⟨outputMatches_regs ms s, rfl, ⟨rfl, rfl, rfl, rfl⟩, ⟨rfl, rfl⟩, fun _ => rfl, rfl, rfl, rfl⟩

/-! The obligations. -/

/-- Settles O23: one store is one write of each table; a ring holds at most `2^16` entries, so its size divides the
counter's range. -/
theorem chainStoreEffect : Obligations.ChainStoreEffect := by
  intro s h num ring hi hm
  have hc : s.index ≠ .absent := by simp [hi]
  refine ⟨_, _, _, exec_store hc hm, storedIndex_one_chain hi _ _, withIndex_onlyTables (storedIndex_strategy ..), ?_⟩
  intro p key n
  obtain ⟨hnum, hnums, hring, hrings⟩ := chainStore_spec p s.ring (s.getX 0) (num, ring)
  have hn : (numGet (chainStore p s.ring (s.getX 0) (num, ring)).1 key).toNat = (n + 1) % 2 ^ 16 :=
    (congrArg BitVec.toNat hnum).trans (counter_succ_toNat _)
  refine ⟨hn, hnums, hring, fun key' j hj hne => hrings key' j hj (not_and_or.mpr hne), fun ⟨_, _, hb, _⟩ => ?_⟩
  exact ⟨hn ▸ counter_succ_mod_ring hb n, hn ▸ counter_pred_succ_mod_ring hb n⟩

/-- Settles O34: what no dictionary answer gave was accepted by a window stage. -/
theorem chainMatchIsTrue : Obligations.ChainMatchIsTrue := by
  intro s t h num ring hi hm ht h7 hd len dist
  obtain ⟨hcode, hgood⟩ := chainGood_of_match hi hm ht h7 hd
  exact ⟨hgood.two_le, hgood.lenEq, hcode, hgood.distPos, hgood.distLe, hgood.bytesAgree, hgood.source⟩

/-- Settles O36: the answer by the candidates taken in turn, the bounds by what each stage leaves as the running best. -/
theorem chainMissesNothing : Obligations.ChainMissesNothing := by
  intro s h num ring hi hm hl cur toCheck walk len candidate taken
  have himp := chainSearch_improves s h num ring
  refine ⟨_, exec_findLongest_chain hi hm, chainSearch_answers hl, fun hbetter => ?_,
    fun i d hi' hd hlen hlonger hearlier => ?_, fun newer older prev hw hlen hlonger hcached hnewer => ?_⟩
  · rw [finish_result, chainSearch_finds hl ?_, if_pos rfl]
    rcases hbetter with ⟨i, d, hi', ⟨hd, h0, hcur, hback⟩, hlen, hlonger, hscore⟩ | ⟨prev, hprev, hlen, hlonger, hscore⟩
    · exact .inl ⟨i, hi', chainCached_takes hd h0 hcur hback hlen hlonger hscore⟩
    · exact .inr ⟨prev, hprev, chainProbe_takes hlen hlonger hscore⟩
  · rw [himp.final_score, himp.final_distance]
    obtain ⟨hd, h0, hcur, hback⟩ := hd
    obtain ⟨hbest, hfirst⟩ := chainFind_best_cached (num := num) (ring := ring) (b0 := Search.start s)
      (scoreFits_toInt _) rfl hl hi' hd h0 hcur hback hlen hlonger
      fun i' hi'' => cachedBelow_of_admits fun d' hd' => hearlier i' d' hi'' hd'
    refine ⟨hbest, fun hscore heq => ?_⟩
    rcases (hfirst hscore heq).walk_or_cached with ⟨q, hq, -⟩ | ⟨i', hi'', hadm⟩
    · exact absurd hq List.not_mem_nil
    · exact ⟨i', Nat.le_of_lt_succ hi'', hadm⟩
  · rw [himp.final_score, himp.final_distance]
    obtain ⟨hbest, hfirst⟩ := chainFind_best_walk (s := s) (b0 := Search.start s) (scoreFits_toInt _) rfl hl hw hlen hlonger
      (fun i' hi' => cachedBelow_of_admits fun d' hd' => hcached i' d' hi' hd') hnewer
    exact ⟨hbest, fun hscore heq => (hfirst hscore heq).walk_or_cached⟩

/-- Settles O37: the walk is the numbered entries cut at the first beyond `maxback`, the self-distance left out. -/
theorem chainWalkYields : Obligations.ChainWalkYields := by
  intro p r num ring cur maxback key n entry
  exact ⟨chainWalk_sublist .., fun prev => mem_chainWalk⟩

/-- Settles O44: phases 1 and 2 give the window's records, each with its source, the dictionary phase the rest. -/
theorem chainFindAllRecords : Obligations.ChainFindAllRecords := by
  intro s h num ring hi hm cur walk len
  have hlisted := chainMatches_listed s h num ring
  have hout := chainMatches_output s h num ring
  have hincrease := hlisted.increase
  have hpos := hlisted.distPos
  rcases Nat.lt_or_ge (s.getX 1).toNat 4 with hl | hl
  · have hnone := chainMatches_short hl h num ring
    rw [hnone] at hout
    exact ⟨_, [], [], exec_findAll_chain hi hm, outputMatches_findAllFrame _ s, rfl, hnone, hnone.symm ▸ hout, .nil, nofun,
      nofun, fun _ => ⟨rfl, rfl⟩, fun hge => absurd hl (Nat.not_lt.mpr hge)⟩
  · have hsplit := chainMatches_split (h := h) (num := num) (ring := ring) hl
    rw [hsplit] at hincrease hpos
    refine ⟨_, _, _, exec_findAll_chain hi hm, outputMatches_findAllFrame _ s, rfl, hsplit, hsplit ▸ hout, hincrease, hpos,
      fun m hmem => ?_, fun hlt => absurd hlt (Nat.not_lt.mpr hl), fun _ => rfl⟩
    obtain ⟨htwo, hle, hcode, -, hback, hbytes⟩ := chainWindow_match hmem
    obtain ⟨hlen, hsource⟩ := chainWindow_source hmem
    exact ⟨htwo, hlen, hle, hcode, hback, hbytes, hsource⟩

/-- Settles O45: beside a record of 325 or more there is none; else the lengths stay in 2..324. -/
theorem chainFindAllCollapses : Obligations.ChainFindAllCollapses := by
  intro s h num ring hi hm hone hmax ms
  have hlisted := chainMatches_listed s h num ring
  have hout : MatchesOutput s (outputMatches ms s) ms := chainMatches_output s h num ring
  have halone : ∀ m ∈ ms, 325 ≤ m.length → ms = [m] := hlisted.alone hmax
  refine ⟨_, exec_findAll_chain hi hm, hout, halone, ?_⟩
  have hcount : ms.length ≤ 323 := by
    by_cases hlong : ∃ m ∈ ms, 325 ≤ m.length
    · obtain ⟨m, hmem, hlen⟩ := hlong
      simp [halone m hmem hlen]
    · push Not at hlong
      exact hlisted.increase.count fun m hmem => ⟨(hlisted.range m hmem).1, Nat.le_of_lt_succ (hlong m hmem)⟩
  exact hout.1.trans_le (by omega)

/-- Settles O46: what phases 1 and 2 record and what they cover, and the dictionary phase's members. -/
theorem chainFindAllMissesNothing : Obligations.ChainFindAllMissesNothing := by
  intro s h num ring hi hm hl cur walk len near
  have hsplit := chainMatches_split (h := h) (num := num) (ring := ring) hl
  have hout := chainMatches_output s h num ring
  obtain ⟨hnear, hwalk⟩ := chainCollect_takes (s.params.strategy.chain h) s.ring num ring cur (s.getX 1) (s.getX 2)
  refine ⟨_, _, _, exec_findAll_chain hi hm, hsplit, hsplit ▸ hout, fun m hmem => ?_,
    fun prev hp => chainWindow_covers_walk hp, hnear, hwalk, fun d h0 hreach hcur hback hlen => ?_, fun l hit hlo hhi hans => ?_⟩
  · obtain ⟨-, -, -, hpos, hback, hbytes⟩ := chainWindow_match hmem
    exact ⟨hpos, hback, hbytes⟩
  · refine (chainWindow_covers_near h0 hreach hcur hback hlen).imp_left fun hcovers hshort => hcovers ?_
    rintro ⟨d', hpos, hlt, hthree⟩
    exact absurd (hshort d' hpos hlt) (Nat.not_le.mpr hthree)
  · refine ⟨fun hdist => mem_dictRecords.mpr ⟨hlo, hhi, hit, hans, dictRecord_eq_some.mpr ⟨rfl, hdist⟩⟩,
      fun hdist m hmem hlen => ?_⟩
    obtain ⟨-, -, hit', hans', hrec⟩ := mem_dictRecords.mp hmem
    obtain ⟨hm', hpos⟩ := dictRecord_eq_some.mp hrec
    rw [hlen] at hans'
    obtain rfl := Option.some.inj (hans.symm.trans hans')
    exact hpos ((congrArg MatchRec.distance hm').trans hdist)

end Sys2Proof.Machine

/-!
PROOFS. The binary-tree matcher (spec/45_binary_tree_matcher.md): the window test, what a STORE of H10 leaves in `HT` and
`CHILD`, and what FIND_ALL_MATCHES of H10 returns.
-/
namespace Sys2Proof.Machine

/-! The two commands, each one call of `AdvanceOneByte` (R205, R206). -/

section
variable {s : State} {ht child : Sparse Word}

/-- STORE on H10 is SkipByte (R205). -/
theorem exec_store_tree (hi : s.index = .tree ht child) (hm : maskOK s = true) :
    exec .store s = .next (s.withIndex (.tree
      (advanceOneByte s (s.getX 0) (s.getX 1).toNat false ht child).ht
      (advanceOneByte s (s.getX 0) (s.getX 1).toNat false ht child).child)) := by
  rw [exec_store (by simp [hi]) hm]
  simp [storedIndex, hi, advanceMany]

/-- The byte test only leaves records out, so what FIND_ALL_MATCHES on H10 returns is an answer of the call (R206). -/
theorem treeMatches_answer (hn : 4 ≤ s.params.h10NiceLength) :
    (s.advanceAt (s.getX 0) (s.getX 1).toNat true).Answer s.params.h10MaxSearchDepth (treeMatches s ht child) :=
  (Advance.run_answer _ _ ht child hn).verified

theorem mem_treeMatches {m : MatchRec} : m ∈ treeMatches s ht child ↔
    m ∈ (treeAdvanced s ht child).ms ∧ BytesAgree s.ring (s.getX 0) m.distance m.length :=
  List.mem_filter.trans (and_congr_right' Advance.verified_iff)

/-- The tables installed with the output do not matter to the records. -/
theorem outputMatches_withIndex_spec (t : Index) {ms : List MatchRec} (hl : ms.length < 2 ^ 32) :
    MatchesOutput s (outputMatches ms (s.withIndex t)) ms := outputMatches_spec ms (s.withIndex t) hl

theorem outputMatches_withIndex_findAllFrame {t : Index} (ht : t.strategy? = s.index.strategy?) (ms : List MatchRec) :
    FindAllFrame s (outputMatches ms (s.withIndex t)) := by
  obtain ⟨-, -, hcontrol, -⟩ := withIndex_onlyTables ht
  exact ⟨outputMatches_regs ms (s.withIndex t), rfl, hcontrol, ⟨rfl, rfl⟩, fun _ => rfl, rfl, rfl, rfl⟩

/-- Lengths that increase within 2..`maxlen` are fewer than `maxlen`. -/
theorem Advance.Answer.length_lt {e : Advance} {depth : Nat} {ms : List MatchRec} (h : e.Answer depth ms)
    (hl : e.maxlen < 2 ^ 32) : ms.length < 2 ^ 32 := by
  have hcount := h.increase.count fun m hm => ⟨(h.good m hm).lenGe, (h.good m hm).lenLe⟩
  omega

end

/-! A walk that ends at its first node (R203, steps 2 to 4). -/

section
variable {e : Advance} {w : Walk} {ht child : Sparse Word}

/-- A node out of window or of the nice length is not hung. -/
theorem Advance.close_loop_exit (h : inWindow e.lgwin e.cur w.prev = true → e.niceLength ≤ (e.extend w).len) (depth : Nat) :
    e.close (e.loop depth w) = e.close w := by
  cases depth with
  | zero => rfl
  | succ n => rw [Advance.close_loop_succ, if_neg fun ⟨hw, hn⟩ => hn (h hw)]

/-- Nothing is carried to the root, so it is compared from its first byte on. -/
theorem Advance.extend_startWalk_len :
    (e.extend (e.startWalk ht child)).len = e.agree (treeGet e.lgwin ht (treeKey4 e.ring e.cur)) :=
  e.extend_len (w := e.startWalk ht child) (Nat.zero_le _) nofun

/-- When the root is not hung, both entries of `cur` hold SENTINEL. -/
theorem Advance.run_child_exit (hm : e.niceLength ≤ e.maxlen)
    (h : inWindow e.lgwin e.cur (treeGet e.lgwin ht (treeKey4 e.ring e.cur)) = true →
      e.niceLength ≤ e.agree (treeGet e.lgwin ht (treeKey4 e.ring e.cur))) (depth : Nat) :
    treeGet e.lgwin (e.run depth ht child).child (leftChild e.lgwin e.cur) = sentinel e.lgwin ∧
    treeGet e.lgwin (e.run depth ht child).child (rightChild e.lgwin e.cur) = sentinel e.lgwin := by
  rw [Advance.run_child_eq _ _ _ _ hm, Advance.close_loop_exit (fun hw => Advance.extend_startWalk_len ▸ h hw)]
  simp [Advance.close, Advance.startWalk, treeGet_treeSet]

/-- A root of the nice length is recorded alone (R206 (c)). -/
theorem Advance.run_ms_nice (hm : e.niceLength ≤ e.maxlen) (hr : e.record = true) {depth : Nat} (hd : 1 ≤ depth)
    (hw : inWindow e.lgwin e.cur (treeGet e.lgwin ht (treeKey4 e.ring e.cur)) = true)
    (hn : e.niceLength ≤ e.agree (treeGet e.lgwin ht (treeKey4 e.ring e.cur))) :
    (e.run depth ht child).ms =
      [e.matchAt (treeGet e.lgwin ht (treeKey4 e.ring e.cur))
        (e.agree (treeGet e.lgwin ht (treeKey4 e.ring e.cur)))] := by
  obtain ⟨d, rfl⟩ := Nat.exists_eq_add_of_le' hd
  have hw' : inWindow e.lgwin e.cur (e.startWalk ht child).prev = true := hw
  have hl := (e.emit_extend (e.startWalk ht child)).len.trans Advance.extend_startWalk_len
  rw [Advance.run_past hm]
  simp only [Advance.loop, hw', if_true, hl, hn, Advance.collapse, hr, e.extend_prev]
  rfl

/-- With the root out of window the loop records nothing. -/
theorem Advance.run_ms_outside (hm : e.niceLength ≤ e.maxlen)
    (hout : inWindow e.lgwin e.cur (treeGet e.lgwin ht (treeKey4 e.ring e.cur)) = false) (depth : Nat) :
    (e.run depth ht child).ms = (e.startWalk ht child).ms := by
  rw [Advance.run_past hm, Advance.loop_outside (e := e) (w := e.startWalk ht child) hout]

/-! The direct tables alone (R203, part (a)). -/

/-- A direct table appends at most its holder's record. -/
theorem Advance.direct_ms (hr : e.record = true) (narrow : Word → Word) (len : Nat) (holder : Word)
    (c : Nat × List MatchRec) :
    (e.direct narrow len holder c).2 = c.2 ++
      if inWindow e.lgwin e.cur holder = true ∧ narrow (load32 e.ring holder) = narrow (load32 e.ring e.cur) then
        [e.matchAt holder len] else [] := by
  simp only [Advance.direct, hr, Bool.true_and, Bool.and_eq_true, beq_iff_eq]
  split_ifs <;> simp

theorem Advance.startWalk_ms (hr : e.record = true) :
    (e.startWalk ht child).ms =
      (if inWindow e.lgwin e.cur (treeGet e.lgwin ht (treeKey2 e.ring e.cur)) = true ∧
          e.ring.byteAt (treeGet e.lgwin ht (treeKey2 e.ring e.cur)) 0 = e.ring.byteAt e.cur 0 ∧
          e.ring.byteAt (treeGet e.lgwin ht (treeKey2 e.ring e.cur)) 1 = e.ring.byteAt e.cur 1 then
        [e.matchAt (treeGet e.lgwin ht (treeKey2 e.ring e.cur)) 2] else []) ++
      (if inWindow e.lgwin e.cur (treeGet e.lgwin ht (treeKey3 e.ring e.cur)) = true ∧
          e.ring.byteAt (treeGet e.lgwin ht (treeKey3 e.ring e.cur)) 0 = e.ring.byteAt e.cur 0 ∧
          e.ring.byteAt (treeGet e.lgwin ht (treeKey3 e.ring e.cur)) 1 = e.ring.byteAt e.cur 1 ∧
          e.ring.byteAt (treeGet e.lgwin ht (treeKey3 e.ring e.cur)) 2 = e.ring.byteAt e.cur 2 then
        [e.matchAt (treeGet e.lgwin ht (treeKey3 e.ring e.cur)) 3] else []) := by
  simp only [Advance.startWalk, Advance.direct_ms hr, toU16_load32_eq, toU24_load32_eq, List.nil_append]

/-- The direct records pass the byte test. -/
theorem Advance.startWalk_all_verified :
    (e.startWalk ht child).ms.filter e.verified = (e.startWalk ht child).ms := by
  refine List.filter_eq_self.2 fun m hm => Advance.verified_iff.2 ?_
  rcases (e.kept_start True ht child []).1.source m hm with ⟨-, hbytes⟩ | ⟨before, p, after, hnil, -⟩
  · exact hbytes
  · simp at hnil

/-! The root hung alone (R203, step 3; R204 (b)). -/

/-- Two entries overwritten with one value after a third. -/
theorem treeGet_three_writes {lgwin : BitVec 5} {a b c : Nat} (hb : a ≠ b) (hc : a ≠ c) (t : Sparse Word) (v u : Word) :
    let t' := treeSet lgwin (treeSet lgwin (treeSet lgwin t a v) b u) c u
    treeGet lgwin t' a = v ∧ treeGet lgwin t' b = u ∧ treeGet lgwin t' c = u ∧
      ∀ i, i ∉ [a, b, c] → treeGet lgwin t' i = treeGet lgwin t i := by
  refine ⟨?_, ?_, ?_, fun i hi => ?_⟩
  · simp [treeGet_treeSet, hb, hc]
  · simp [treeGet_treeSet]
  · simp [treeGet_treeSet]
  · simp only [List.mem_cons, List.not_mem_nil, or_false, not_or] at hi
    simp [treeGet_treeSet, hi]

section
variable (hw : inWindow e.lgwin e.cur w.prev = true) (hn : (e.extend w).len < e.niceLength)
include hw hn

/-- A node that is not of the nice length is hung, and the walk ends where its child is out of window. -/
theorem Advance.close_loop_descend (hout : inWindow e.lgwin e.cur (e.descend (e.extend w)).prev = false) (depth : Nat) :
    e.close (e.loop (depth + 1) w) = e.close (e.descend (e.extend w)) := by
  rw [Advance.close_loop_succ, if_pos ⟨hw, Nat.not_le.2 hn⟩, Advance.loop_outside hout]

/-- A smaller node hangs at the lesser pending slot, its right child at the walk's end cut off. -/
theorem Advance.close_loop_less
    (hlt : e.ring.byteAt w.prev (e.extend w).len < e.ring.byteAt e.cur (e.extend w).len)
    (hne : rightChild e.lgwin w.prev ≠ w.pendingLt)
    (hout : inWindow e.lgwin e.cur (treeGet e.lgwin w.child (rightChild e.lgwin w.prev)) = false) (depth : Nat) :
    e.close (e.loop (depth + 1) w) =
      treeSet e.lgwin (treeSet e.lgwin (treeSet e.lgwin w.child w.pendingLt w.prev)
        (rightChild e.lgwin w.prev) (sentinel e.lgwin)) w.pendingGt (sentinel e.lgwin) := by
  have hside : e.descend (e.extend w) = _ := if_pos hlt
  have hprev : (e.descend (e.extend w)).prev = treeGet e.lgwin w.child (rightChild e.lgwin w.prev) := by
    rw [hside]; exact (treeGet_treeSet ..).trans (if_neg hne)
  rw [Advance.close_loop_descend hw hn (hprev ▸ hout), hside]
  rfl

/-- A greater node, symmetrically. -/
theorem Advance.close_loop_greater
    (hge : ¬ e.ring.byteAt w.prev (e.extend w).len < e.ring.byteAt e.cur (e.extend w).len)
    (hne : leftChild e.lgwin w.prev ≠ w.pendingGt)
    (hout : inWindow e.lgwin e.cur (treeGet e.lgwin w.child (leftChild e.lgwin w.prev)) = false) (depth : Nat) :
    e.close (e.loop (depth + 1) w) =
      treeSet e.lgwin (treeSet e.lgwin (treeSet e.lgwin w.child w.pendingGt w.prev)
        w.pendingLt (sentinel e.lgwin)) (leftChild e.lgwin w.prev) (sentinel e.lgwin) := by
  have hside : e.descend (e.extend w) = _ := if_neg hge
  have hprev : (e.descend (e.extend w)).prev = treeGet e.lgwin w.child (leftChild e.lgwin w.prev) := by
    rw [hside]; exact (treeGet_treeSet ..).trans (if_neg hne)
  rw [Advance.close_loop_descend hw hn (hprev ▸ hout), hside]
  rfl

end
end

/-! The obligations. -/

/-- Settles O24: the three heads by the install, CHILD by what the walk stores and the nodes it visits. -/
theorem treeStoreInstalls : Obligations.TreeStoreInstalls := by
  intro s ht child hi hm hn
  refine ⟨_, _, _, exec_store_tree hi hm, rfl, withIndex_onlyTables (by rw [hi]; rfl), ?_⟩
  intro cur e visited
  have hpast : e.niceLength ≤ e.maxlen := hn
  obtain ⟨-, hleft, hright⟩ := e.run_child s.params.h10MaxSearchDepth ht child hpast
  refine ⟨fun i => ?_, fun i hmem => ?_, e.visits_length _ _, e.visits_inWindow _ _, fun i =>
    e.run_child_frame s.params.h10MaxSearchDepth ht child hpast⟩
  · rw [advanceOneByte, Advance.run_past hpast]
    exact e.install_get ht i
  · rcases List.mem_pair.1 hmem with rfl | rfl
    exacts [hleft, hright]

/-- Settles O25: the guard answers the tables as they are and an empty list. -/
theorem treeLookaheadGuard : Obligations.TreeLookaheadGuard := by
  intro s ht child hi hm hl
  have hguard : ∀ record, advanceOneByte s (s.getX 0) (s.getX 1).toNat record ht child = ⟨ht, child, []⟩ := fun record =>
    Advance.run_guard (e := s.advanceAt (s.getX 0) (s.getX 1).toNat record) hl _ _ _
  have hkept : s.withIndex (.tree ht child) = s := hi ▸ withIndex_self
  have hfind : treeAdvanced s ht child = ⟨ht, child, []⟩ := hguard true
  constructor
  · rw [exec_store_tree hi hm, hguard, hkept]
  · rw [exec_findAll_tree hi hm, treeMatches_eq, hfind, hkept, List.filter_nil, outputMatches_nil]

/-- Settles O26: a root hung alone is one round of the loop; an ordered tree is split along its search path. -/
theorem treeHangsRoot : Obligations.TreeHangsRoot := by
  intro s ht child hi hm hn cur root len
  refine ⟨fun hd hw hlt => ?_, ?_⟩
  · obtain ⟨depth, hdepth⟩ := Nat.exists_eq_add_of_le' hd
    let e := s.advanceAt cur (s.getX 1).toNat false
    let w := e.startWalk ht child
    have hlen : (e.extend w).len = len := Advance.extend_startWalk_len
    have hchild : (advanceOneByte s cur (s.getX 1).toNat false ht child).child = e.close (e.loop (depth + 1) w) := by
      rw [← hdepth]; exact e.run_child_eq _ ht child hn
    refine ⟨fun hless hout => ⟨_, _, _, exec_store_tree hi hm, rfl, ?_⟩,
      fun hge hout => ⟨_, _, _, exec_store_tree hi hm, rfl, ?_⟩⟩
    · rw [hchild, Advance.close_loop_less (e := e) (w := w) hw (hlen ▸ hlt) (hlen ▸ hless) (left_ne_right _ _ _).symm hout]
      exact treeGet_three_writes (left_ne_right _ _ _) (left_ne_right _ _ _) child root _
    · rw [hchild, Advance.close_loop_greater (e := e) (w := w) hw (hlen ▸ hlt) (hlen ▸ hge) (left_ne_right _ _ _) hout]
      obtain ⟨hhung, hleft, hcut, hkept⟩ := treeGet_three_writes (lgwin := s.lgwin) (left_ne_right s.lgwin cur cur).symm
        (left_ne_right s.lgwin root cur).symm child root (sentinel s.lgwin)
      exact ⟨hhung, hcut, hleft, fun i hmem => hkept i (by simpa [or_comm] using hmem)⟩
  · intro e hordered
    exact ⟨_, _, _, exec_store_tree hi hm, rfl, e.run_ordered s.params.h10MaxSearchDepth ht child hn hordered⟩

/-- Settles O27: the record flag guards the appends alone. -/
theorem recordFlagKeepsTables : Obligations.RecordFlagKeepsTables := by
  intro s ht child hi hm
  obtain ⟨hht, hchild⟩ := (s.advanceAt (s.getX 0) (s.getX 1).toNat false).run_tables true s.params.h10MaxSearchDepth ht child
  exact ⟨_, _, exec_store_tree hi hm, exec_findAll_tree hi hm, congrArg₂ Index.tree hht hchild⟩

/-- Settles O47: the laws of the recorded list, in any tree and in an ordered one. -/
theorem treeFindAllRecords : Obligations.TreeFindAllRecords := by
  intro s ht child hi hm hn cur ms advanced
  have hanswer := treeMatches_answer (ht := ht) (child := child) hn
  refine ⟨_, _, _, exec_findAll_tree hi hm, outputMatches_withIndex_findAllFrame (by rw [hi]; rfl) _, rfl,
    outputMatches_withIndex_spec _ (hanswer.length_lt (s.getX 1).isLt), hanswer.increase, fun m hmem => ?_, hanswer.count,
    List.filter_sublist, fun m => mem_treeMatches, fun hpast => ?_⟩
  · obtain ⟨htwo, hle, hcode, hpos, hdist⟩ := hanswer.good m hmem
    exact ⟨htwo, hle, hcode, hpos, hdist, hanswer.alone m hmem⟩
  · intro p2 p3 root holds2 holds3 e nodes len
    obtain ⟨hdirect2, hdirect3⟩ := e.run_direct s.params.h10MaxSearchDepth ht child hpast rfl
    refine ⟨fun i => ?_, fun h => hdirect2 p2 rfl h.1 h.2, fun h => hdirect3 p3 rfl h.1 h.2,
      e.run_verified _ ht child hn hpast rfl, (e.run_records _ ht child hn hpast rfl).2,
      fun before p after hnodes htwo h2 h3 hbefore => e.run_takes _ ht child hn hpast rfl hnodes htwo
        (fun hw hb => h2 ⟨hw, hb⟩) (fun hw hb => h3 ⟨hw, hb⟩) hbefore,
      fun hordered => ⟨e.run_visits _ ht child hpast (hordered _), e.run_all_verified _ ht child hn hpast rfl (hordered _)⟩⟩
    rw [treeAdvanced_eq, Advance.run_past hpast]
    exact e.install_get ht i

/-- Settles O48: the walk ends at the root, whose record replaces the list. -/
theorem treeNiceLengthExit : Obligations.TreeNiceLengthExit := by
  intro s ht child hi hm hd hpast cur root len hw hnice
  have hbytes : BytesAgree s.ring cur (cur - root) len := bytesAgree_of_prefix s.ring cur root (s.getX 1).toNat
  have hms : treeMatches s ht child = [⟨cur - root, len, len⟩] := by
    have hrun : (treeAdvanced s ht child).ms = [⟨cur - root, len, len⟩] :=
      Advance.run_ms_nice (e := s.advanceAt cur (s.getX 1).toNat true) hpast rfl hd hw hnice
    rw [treeMatches_eq, hrun]
    exact List.filter_eq_self.2 (by simpa using Advance.verified_iff.2 hbytes)
  refine ⟨_, _, _, exec_findAll_tree hi hm, rfl, ?_, hbytes,
    Advance.run_child_exit (e := s.advanceAt cur (s.getX 1).toNat true) hpast (fun _ => hnice) _⟩
  rw [hms]
  exact outputMatches_withIndex_spec _ (by simp)

/-- Settles O49: the walk visits no node, so the list is the direct tables'. -/
theorem treeDirectMatches : Obligations.TreeDirectMatches := by
  intro s ht child hi hm hpast cur p2 p3 hout
  have hms : treeMatches s ht child = ((s.advanceAt cur (s.getX 1).toNat true).startWalk ht child).ms := by
    rw [treeMatches_eq, treeAdvanced_eq, Advance.run_ms_outside (e := s.advanceAt cur (s.getX 1).toNat true) hpast hout]
    exact Advance.startWalk_all_verified
  refine ⟨_, _, _, exec_findAll_tree hi hm, rfl, ?_, Advance.run_child_exit (e := s.advanceAt cur (s.getX 1).toNat true) hpast
    (fun hw => absurd (hout.symm.trans hw) Bool.false_ne_true) _⟩
  rw [hms, Advance.startWalk_ms rfl]
  exact outputMatches_withIndex_spec _ (by split_ifs <;> simp)

/-- Settles O58: the test in numbers, and SENTINEL's distance below the wrap. -/
theorem windowTest : Obligations.WindowTest := fun lgwin cur prev => ⟨inWindow_iff lgwin cur prev, sentinel_outside⟩

end Sys2Proof.Machine

/-!
PROOFS. The commands (spec/46_commands.md): that each CMD word has one outcome, the prelude's checks, CONFIGURE and RESET,
the range stores as single stores, FIND_LONGEST_MATCH as a whole and after a store, and what each command reads and
writes.
-/
namespace Sys2Proof.Machine

/-! The outcomes of a CMD word (R233, R252, R253). -/

section
variable {i : Instr} {s t : State} {w : Word}

/-- What `raise` records, the opcode as bits [7:0] of CMD (R252). -/
theorem raise_eq (e : ErrCode) (s : State) : raise e s = { s with err := e, errOp := s.cmd.extractLsb' 0 8 } := by
  simp [raise, setWidth_opcode]

theorem exec_of_fault {e : ErrCode} (hf : commandFault i s = e) (he : e ≠ .none) :
    exec i s = .next { s with err := e, errOp := s.cmd.extractLsb' 0 8 } := by
  rw [exec_eq, hf, if_neg he, raise_eq]

theorem exec_of_no_fault (hf : commandFault i s = .none) : exec i s = .next (commandBody i s) := by
  rw [exec_eq, if_pos hf]

/-- A command that leaves a fault recorded, where none was, has written ERR and ERR_OP and nothing else (R252). -/
theorem eq_of_exec_fault (he : s.err = .none) (h : exec i s = .next t) (hf : t.err ≠ .none) :
    t = { s with err := t.err, errOp := s.cmd.extractLsb' 0 8 } := by
  rw [commandFault_of_err he h] at hf ⊢
  rcases exec_cases h with ⟨hnone, -⟩ | ⟨-, ht⟩
  · exact absurd hnone hf
  · exact ht.trans (raise_eq _ s)

/-- While a fault is recorded a CMD write stores the word and nothing else (R253). -/
theorem hostWrites_refused (he : s.err ≠ .none) (w : Word) : HostWrites s 0 w { s with cmd := w } :=
  hostWrites_of (by decide) (by decide) fun _ => if_neg he

theorem hostWrites_illegal (he : s.err = .none) (hd : ∀ i, decode w ≠ .ok i) :
    HostWrites s 0 w { s with cmd := w, err := .illegalCmd, errOp := w.extractLsb' 0 8 } :=
  hostWrites_of (by decide) (by decide) fun _ => writeCmd_illegal he hd

end

/-! The checks (R94, R220). -/

section
variable {i : Instr} {s t : State}

theorem Index.exists_strategy {t : Index} (h : t ≠ .absent) : ∃ k, t.strategy? = some k :=
  Option.ne_none_iff_exists'.mp (mt Index.strategy?_eq_none_iff.mp h)

/-- The ring-mask check in numbers (R220). -/
theorem maskOK_iff : maskOK s = true ↔ (∃ n, n ≤ 32 ∧ s.ringMask.toNat + 1 = 2 ^ n) ∧
    ∀ ht child, s.index = .tree ht child → 2 ^ s.lgwin.toNat - 1 ≤ s.ringMask.toNat := by
  rw [← mask_test]
  cases hi : s.index <;> simp [maskOK, hi, Index.isTree, windowMask]

/-- The check reads the tables' kind, the window and RING_MASK alone. -/
theorem maskOK_congr (hi : t.index = s.index) (hl : t.lgwin = s.lgwin) (hr : t.ringMask = s.ringMask) :
    maskOK t = maskOK s := by
  simp only [maskOK, hi, hl, hr]

/-- STORE and STORE_RANGE make the same checks (R223, R224). -/
theorem commandFault_storeRange (s : State) : commandFault .storeRange s = commandFault .store s := by
  unfold commandFault
  cases s.index <;> rfl

/-- Where tables exist the mask alone decides of a store (R220). -/
theorem commandFault_store (hc : s.index ≠ .absent) :
    commandFault .store s = if maskOK s then .none else .badMask := by
  obtain ⟨k, hk⟩ := Index.exists_strategy hc
  simp [commandFault, hk]

theorem commandFault_store_ne_none (h : s.index = .absent ∨ maskOK s = false) : commandFault .store s ≠ .none := by
  by_cases hc : s.index = .absent
  · rw [commandFault_absent (i := .store) hc nofun]
    decide
  · rw [commandFault_store hc, h.resolve_left hc]
    decide

/-- Where its strategy supports a command, a bad mask is its fault (R220). -/
theorem exec_badMask (hm : maskOK s = false) (hf : commandFault i s = if maskOK s then .none else .badMask) :
    exec i s = .next { s with err := .badMask, errOp := s.cmd.extractLsb' 0 8 } :=
  exec_of_fault (by simp [hf, hm]) (by decide)

end

/-! CONFIGURE and RESET (R221, R222). -/

section
variable {s t : State} {h : Strategy} {quality lgwin : Nat}

theorem exec_configure (hq : strategyOfQuality quality = some h) (hl : 10 ≤ lgwin) (hu : lgwin ≤ 24) :
    exec (.configure quality lgwin) s = .next { emptyTables h s with lgwin := BitVec.ofNat 5 lgwin } := by
  have hw : ¬ (lgwin < 10 ∨ 24 < lgwin) := by omega
  simp [exec, execConfigure, hq, hw]

theorem commandFault_configure (hbad : quality < 1 ∨ 10 < quality ∨ lgwin < 10 ∨ 24 < lgwin) :
    commandFault (.configure quality lgwin) s = .badConfig := by
  have hn : strategyOfQuality quality = none ∨ lgwin < 10 ∨ 24 < lgwin := by
    rw [← or_assoc] at hbad
    exact hbad.imp_left fun hq => strategyOfQuality_none (by omega)
  simp [commandFault, hn]

theorem exec_reset (hs : s.index.strategy? = some h) : exec .reset s = .next (emptyTables h s) := by
  simp [exec, execReset, hs]

/-- STATUS reads the same where the fault and whether tables exist are the same (R24). -/
theorem statusWord_congr (hs : t.index.strategy? = s.index.strategy?) (he : t.err = s.err) (ho : t.errOp = s.errOp) :
    t.statusWord = s.statusWord := by
  have hc : t.configured = s.configured := by rw [State.configured, State.configured, hs]
  rw [State.statusWord, State.statusWord, hc, he, ho]

theorem configWord_congr (hs : t.index.strategy? = s.index.strategy?) (hl : t.lgwin = s.lgwin) :
    t.configWord = s.configWord := by
  simp only [State.configWord, State.quality, hs, hl]

theorem quality_eq (hs : s.index.strategy? = some h) : s.quality = Strategy.quality h := by
  simp [State.quality, hs]

end

/-! The range stores (R224, R227). -/

section
variable {s : State}

/-- The state from which STORE_RANGE goes on after its first STORE, where `t` is the state after that STORE: the next
position, one position fewer, the lookahead one less and at least 0. -/
def rangeRest (s t : State) : State :=
  ((t.setX 0 (s.getX 0 + 1#32)).setX 1 (BitVec.ofNat 32 ((s.getX 1).toNat - 1))).setX 3 (s.getX 3 - 1#32)

@[simp] theorem rangeRest_position (s t : State) : (rangeRest s t).getX 0 = s.getX 0 + 1#32 := by simp [rangeRest]

@[simp] theorem rangeRest_lookahead (s t : State) : ((rangeRest s t).getX 1).toNat = (s.getX 1).toNat - 1 := by
  have hx := (s.getX 1).isLt
  simp only [rangeRest, State.getX_setX_ne _ _ (show (1 : Fin 16) ≠ 3 by decide), State.getX_setX_same,
    BitVec.toNat_ofNat]
  omega

@[simp] theorem rangeRest_count (s t : State) : (rangeRest s t).getX 3 = s.getX 3 - 1#32 := by simp [rangeRest]

/-- The state from which a STORE_RANGE stores `n` positions from 0. -/
def rangeFromZero (s : State) (n : Nat) : State := (s.setX 0 0#32).setX 3 (BitVec.ofNat 32 n)

@[simp] theorem rangeFromZero_position (s : State) (n : Nat) : (rangeFromZero s n).getX 0 = 0#32 := by
  simp [rangeFromZero]

theorem rangeFromZero_count {n : Nat} (hn : n < 2 ^ 32) (s : State) : ((rangeFromZero s n).getX 3).toNat = n := by
  rw [rangeFromZero, State.getX_setX_same, BitVec.toNat_ofNat, Nat.mod_eq_of_lt hn]

/-- A STORE_RANGE of one position or more is a STORE and the STORE_RANGE of the rest (R224). -/
theorem exec_storeRange_step (hc : s.index ≠ .absent) (hm : maskOK s = true) (hn : s.getX 3 ≠ 0#32) :
    ∃ t u, exec .store s = .next t ∧ exec .storeRange (rangeRest s t) = .next u ∧
      exec .storeRange s = .next { u with x := s.x } := by
  have hstore := exec_store hc hm
  generalize ht : s.withIndex (storedIndex s 1 (s.getX 0) (s.getX 1).toNat) = t at hstore
  have hcRest : (rangeRest s t).index ≠ .absent := by
    subst ht
    exact storedIndex_ne_absent _ _ _ hc
  have hmRest : maskOK (rangeRest s t) = true := by
    subst ht
    exact (maskOK_withIndex ..).trans hm
  refine ⟨t, _, hstore, exec_storeRange hcRest hmRest, ?_⟩
  have hcount : (s.getX 3).toNat = ((rangeRest s t).getX 3).toNat + 1 := by
    have hpos : (s.getX 3).toNat ≠ 0 := fun h0 => hn (BitVec.eq_of_toNat_eq h0)
    have hlt := (s.getX 3).isLt
    rw [rangeRest_count, BitVec.toNat_sub, BitVec.toNat_ofNat]
    omega
  have hrest (n : Nat) (ix : Word) (maxlen : Nat) :
      storedIndex (rangeRest s t) n ix maxlen = storedIndex t n ix maxlen :=
    storedIndex_congr n ix maxlen rfl rfl rfl rfl rfl
  rw [exec_storeRange hc hm, hcount, storedIndex_succ, ht, hrest, rangeRest_position, rangeRest_lookahead]
  subst ht
  rfl

/-- PREPEND_CUSTOM_DICTIONARY on H1 to H9, by the load of the family (R227, D31). -/
theorem exec_prepend (ht : s.index.isTree = false) (hc : s.index ≠ .absent) (hm : maskOK s = true) :
    exec .prependCustomDictionary s =
      .next (s.withIndex (storedIndex s ((s.getX 3).toNat + 1 - hashLoad s.index) 0#32 0)) := by
  cases hi : s.index with
  | absent => exact absurd hi hc
  | quick h qb => exact exec_prepend_quick hi hm
  | chain h num ring => exact exec_prepend_chain hi hm
  | tree ht' child => simp [hi, Index.isTree] at ht

/-- The positions of a PREPEND_CUSTOM_DICTIONARY as a STORE_RANGE from 0: on H1 to H9 the lookahead is not read. -/
theorem exec_storeRange_fromZero (ht : s.index.isTree = false) (hc : s.index ≠ .absent) (hm : maskOK s = true) {n : Nat}
    (hn : n < 2 ^ 32) :
    exec .storeRange (rangeFromZero s n) = .next ((rangeFromZero s n).withIndex (storedIndex s n 0#32 0)) := by
  rw [exec_storeRange (s := rangeFromZero s n) hc hm, rangeFromZero_count hn, rangeFromZero_position,
    storedIndex_lookahead (rangeFromZero s n) _ _ _ 0 ht,
    storedIndex_congr (s := s) (t := rangeFromZero s n) _ _ _ rfl rfl rfl rfl rfl]

end

/-! FIND_LONGEST_MATCH (R166, R225). -/

/-- A search that improves ends with a risen BEST_SCORE, or with RESULT 0 and the other outputs as they were. -/
theorem Search.Improves.finish_outcome {s : State} {b : Search} (hb : Search.Improves s b) :
    ((b.finish s).getX 7 = 1#32 ∧ s.bestScore.toInt < (b.finish s).bestScore.toInt) ∨
      ((b.finish s).getX 7 = 0#32 ∧ RegsKept [7] s (b.finish s) ∧ (b.finish s).bestScore = s.bestScore) := by
  cases hf : b.found with
  | true =>
    refine .inl ⟨by simp [finish_result, hf], ?_⟩
    rw [hb.finish_score hf]
    exact hb.better hf
  | false =>
    rw [Search.finish_idle s hf]
    exact .inr ⟨State.getX_setX_same _ _ _, fun j hj => State.getX_setX_ne _ _ (by simpa using hj), rfl⟩

/-! A find after a store (R231 (a)). -/

/-- With the tables that stores left and the view, mask, window and parameters as they were, a find passes the same
mask check and sees the same bytes. -/
theorem find_inputs_after_store {s u : State} {n : Nat} {ix : Word} {maxlen : Nat} (hm : maskOK s = true)
    (hidx : u.index = (s.withIndex (storedIndex s n ix maxlen)).index) (hview : u.view = s.view)
    (hmask : u.ringMask = s.ringMask) (hlgwin : u.lgwin = s.lgwin) (hparams : u.params = s.params) :
    maskOK u = true ∧ u.ring = s.ring ∧ u.params = s.params :=
  ⟨((maskOK_congr hidx hlgwin hmask).trans (maskOK_withIndex ..)).trans hm, by rw [State.ring, State.ring, hview, hmask],
    hparams⟩

section
variable {r : Ring} {p cur : Word}

/-- A register that holds 0 holds less than a positive length. -/
theorem toNat_lt_of_eq_zero {v : Word} (hv : v = 0#32) {n : Nat} (hn : 0 < n) : v.toNat < n := by
  rw [hv]
  exact hn

/-- Where the bytes that the key of H1 to H4 reads agree, the slot of the stored position lies in the sweep (R160,
R163). -/
theorem quickSlot_in_sweep {ps : QuickParams} (hp : ps.WellFormed)
    (hbytes : ∀ j, j < 5 → r.byteAt p j = r.byteAt cur j) :
    ∃ j, j < ps.sweep ∧ quickSlot ps r p = quickKey ps r cur + j := by
  obtain ⟨hsweep, -⟩ := hp
  refine ⟨(p.toNat >>> 3) % ps.sweep, Nat.mod_lt _ (by omega), ?_⟩
  rw [quickSlot, quickKey, quickKey, hash5_congr hbytes]

/-- Where the bytes that the key of H5 to H9 reads agree, and the counter does not wrap, the walk after a store begins with
the stored position (R181, R182). -/
theorem mem_chainWalk_chainStore {ps : ChainParams} {t : Sparse (BitVec 16) × Sparse Word} {maxback : Word}
    (hbytes : ∀ j, j < 4 → r.byteAt p j = r.byteAt cur j) (hcount : numGet t.1 (chainKey ps r p) ≠ 0xFFFF#16)
    (hpos : cur - p ≠ 0#32) (hback : cur - p ≤ maxback) :
    p ∈ chainWalk ps r (chainStore ps r p t).1 (chainStore ps r p t).2 cur maxback := by
  have hkey : chainKey ps r cur = chainKey ps r p := by rw [chainKey, chainKey, load32_congr hbytes]
  obtain ⟨hnum, -, hring, -⟩ := chainStore_spec ps r p t
  have hn : (numGet (chainStore ps r p t).1 (chainKey ps r p)).toNat = (numGet t.1 (chainKey ps r p)).toNat + 1 := by
    have hne : (numGet t.1 (chainKey ps r p)).toNat ≠ 0xFFFF := fun h => hcount (BitVec.eq_of_toNat_eq h)
    have hlt := (numGet t.1 (chainKey ps r p)).isLt
    rw [hnum, counter_succ_toNat]
    omega
  have hnewest : p = chainEntry ps r (chainStore ps r p t).1 (chainStore ps r p t).2 cur 0 := by
    rw [chainEntry, hkey, hn, Nat.add_sub_cancel, Nat.sub_zero, hring]
  refine mem_chainWalk.mpr ⟨0, by rw [hkey, hn]; omega, by positivity, hnewest, hpos, fun t' ht' => ?_⟩
  rwa [Nat.le_zero.mp ht', ← hnewest]

end

section
variable {u : State} {p : Word}

/-- A find of H1 to H4 from `x[4] = 0` improves where a slot of the sweep holds a position with the same five bytes at an
admissible distance whose score beats BEST_SCORE. -/
theorem quick_find_improves {h : QuickStrategy} {qb : Sparse Word} (hi : u.index = .quick h qb) (hm : maskOK u = true)
    {j : Nat} (hj : j < (u.params.strategy.quick h).sweep)
    (hslot : qbGet qb (quickKey (u.params.strategy.quick h) u.ring (u.getX 0) + j) = p)
    (hpos : u.getX 0 - p ≠ 0#32) (hback : u.getX 0 - p ≤ u.getX 2) (hl : 5 ≤ (u.getX 1).toNat) (h4 : u.getX 4 = 0#32)
    (hbytes : ∀ j, j < 5 → u.ring.byteAt p j = u.ring.byteAt (u.getX 0) j)
    (hscore : u.bestScore.toInt < score (prefixMatch u.ring p (u.getX 0) (u.getX 1).toNat) (u.getX 0 - p)) :
    ∃ v, exec .findLongestMatch u = .next v ∧ v.getX 7 = 1#32 := by
  refine ⟨_, exec_findLongest_quick hi hm, ?_⟩
  have hlen := le_prefixMatch u.ring p (u.getX 0) hl hbytes
  have hfound : (quickSearch u h qb).found = true := quickSearch_finds hl <| .inr ⟨j, hj, by
    rw [hslot]
    exact quickProbe_takes hpos hback (by omega) (toNat_lt_of_eq_zero h4 (by omega)) hscore⟩
  rw [finish_result, hfound, if_pos rfl]

/-- The same on H5 to H9, for an entry of the walk with the same four bytes. -/
theorem chain_find_improves {h : ChainStrategy} {num : Sparse (BitVec 16)} {ring : Sparse Word}
    (hi : u.index = .chain h num ring) (hm : maskOK u = true)
    (hwalk : p ∈ chainWalk (u.params.strategy.chain h) u.ring num ring (u.getX 0) (u.getX 2))
    (hl : 4 ≤ (u.getX 1).toNat) (h4 : u.getX 4 = 0#32)
    (hbytes : ∀ j, j < 4 → u.ring.byteAt p j = u.ring.byteAt (u.getX 0) j)
    (hscore : u.bestScore.toInt < score (prefixMatch u.ring p (u.getX 0) (u.getX 1).toNat) (u.getX 0 - p)) :
    ∃ v, exec .findLongestMatch u = .next v ∧ v.getX 7 = 1#32 := by
  refine ⟨_, exec_findLongest_chain hi hm, ?_⟩
  have hlen := le_prefixMatch u.ring p (u.getX 0) hl hbytes
  have hfound : (chainSearch u h num ring).found = true := chainSearch_finds hl <| .inr ⟨p, hwalk,
    chainProbe_takes hlen (toNat_lt_of_eq_zero h4 (by omega)) hscore⟩
  rw [finish_result, hfound, if_pos rfl]

end
/-! What a command writes (R229). -/

section
variable {i : Instr} {s t : State}

/-- The registers that R229's row of the command marks written. -/
def registersWritten : Instr → List (Fin 16)
  | .findLongestMatch => [4, 5, 6, 7]
  | .findAllMatches => [7]
  | .configure _ _ | .reset | .store | .storeRange | .prependCustomDictionary => []

theorem RegsKept.mono {few many : List (Fin 16)} (h : RegsKept few s t) (hsub : few ⊆ many) : RegsKept many s t :=
  fun j hj => h j fun hmem => hj (hsub hmem)

theorem commandBody_regsKept (i : Instr) (s : State) : RegsKept (registersWritten i) s (commandBody i s) := by
  cases i with
  | findLongestMatch =>
    unfold commandBody
    cases s.index with
    | quick h qb => exact (Search.finish_frame _ s).1
    | chain h num ring => exact (Search.finish_frame _ s).1
    | _ => exact fun _ _ => rfl
  | findAllMatches =>
    unfold commandBody
    cases s.index with
    | chain h num ring => exact outputMatches_regs _ s
    | tree ht child => exact outputMatches_regs _ (s.withIndex _)
    | _ => exact fun _ _ => rfl
  | _ => exact fun _ _ => rfl

/-- A command writes the registers its row marks written, and no other. -/
theorem exec_regsKept (h : exec i s = .next t) : RegsKept (registersWritten i) s t := by
  rcases exec_cases h with ⟨-, rfl⟩ | ⟨-, rfl⟩
  · exact commandBody_regsKept i s
  · exact fun _ _ => rfl

theorem registersWritten_subset_outputs (i : Instr) : registersWritten i ⊆ [4, 5, 6, 7] := by
  cases i <;> simp [registersWritten]

theorem registersWritten_subset_result (hi : i ≠ .findLongestMatch) : registersWritten i ⊆ [7] := by
  cases i with
  | findLongestMatch => exact absurd rfl hi
  | _ => simp [registersWritten]

theorem registersWritten_eq_nil (h1 : i ≠ .findLongestMatch) (h2 : i ≠ .findAllMatches) : registersWritten i = [] := by
  cases i with
  | findLongestMatch => exact absurd rfl h1
  | findAllMatches => exact absurd rfl h2
  | _ => rfl

/-- What no command writes (R21, R26, R61). -/
theorem exec_fixed (h : exec i s = .next t) :
    t.cmd = s.cmd ∧ t.ringMask = s.ringMask ∧ ViewKept s t ∧ SurroundingsKept s t := by
  rcases exec_cases h with ⟨-, rfl⟩ | ⟨-, rfl⟩
  · obtain ⟨hcmd, -, -, hmask, hview, hparams, hhost, hread⟩ := commandBody_fixed i s
    exact ⟨hcmd, hmask, fun _ => by rw [hview], hparams, hhost, hread⟩
  · exact ⟨rfl, rfl, fun _ => rfl, rfl, rfl, rfl⟩

theorem exec_bestScore (h : exec i s = .next t) (hi : i ≠ .findLongestMatch) : t.bestScore = s.bestScore := by
  rcases exec_cases h with ⟨-, rfl⟩ | ⟨-, rfl⟩
  · cases i with
    | findLongestMatch => exact absurd rfl hi
    | findAllMatches =>
      unfold commandBody
      cases s.index <;> rfl
    | _ => rfl
  · rfl

theorem exec_matchKept (h : exec i s = .next t) (hi : i ≠ .findAllMatches) : MatchKept s t := by
  rcases exec_cases h with ⟨-, rfl⟩ | ⟨-, rfl⟩
  · cases i with
    | findAllMatches => exact absurd rfl hi
    | findLongestMatch =>
      intro n
      unfold commandBody
      cases s.index <;> simp [State.matchRecord]
    | _ => exact fun _ => rfl
  · exact fun _ => rfl

theorem exec_findLongest_index (h : exec .findLongestMatch s = .next t) : t.index = s.index := by
  rcases findLongest_cases h with ⟨_, rfl⟩ | ⟨_, _, _, _, rfl⟩ | ⟨_, _, _, _, _, rfl⟩
  · rfl
  · exact finish_index _ s
  · exact finish_index _ s

/-- CONFIG is CONFIGURE's alone (R25). -/
theorem exec_configWord (h : exec i s = .next t) (hi : ∀ quality lgwin, i ≠ .configure quality lgwin) :
    t.configWord = s.configWord := by
  rcases exec_config h with ⟨hkept, -⟩ | ⟨quality, lgwin, hc, -⟩
  · exact hkept
  · exact absurd hc (hi quality lgwin)

end

/-! What a command reads (R229). -/

section
variable {i : Instr} {s t : State} {r : Fin 16} {v : Word}

/-- An update of the state goes through a command that neither looks at what it changes nor writes it. -/
theorem exec_commutes {f : State → State} (hfault : commandFault i (f s) = commandFault i s)
    (hbody : commandBody i (f s) = f (commandBody i s)) (hraise : ∀ e, raise e (f s) = f (raise e s))
    (h : exec i s = .next t) : exec i (f s) = .next (f t) := by
  rcases exec_cases h with ⟨hf, rfl⟩ | ⟨hf, rfl⟩
  · rw [exec_of_no_fault (hfault.trans hf), hbody]
  · rw [exec_eq, hfault, if_neg hf, hraise]

/-- The checks read no register. -/
theorem commandFault_setX (i : Instr) (s : State) (r : Fin 16) (v : Word) :
    commandFault i (s.setX r v) = commandFault i s := rfl

theorem storedIndex_setX (s : State) (r : Fin 16) (v : Word) (n : Nat) (ix : Word) (maxlen : Nat) :
    storedIndex (s.setX r v) n ix maxlen = storedIndex s n ix maxlen :=
  storedIndex_congr n ix maxlen rfl rfl rfl rfl rfl

/-- A store's lookahead is read on H10 alone (R223, R224). -/
theorem storedIndex_lookahead_setX (s : State) (h : s.index.isTree = true → 1 ≠ r) (n : Nat) (ix : Word) :
    storedIndex s n ix ((s.setX r v).getX 1).toNat = storedIndex s n ix (s.getX 1).toNat := by
  cases ht : s.index.isTree with
  | false => exact storedIndex_lookahead s n ix _ _ ht
  | true => rw [State.getX_setX_ne s v (h ht)]

theorem ne_of_not_mem_registersUsed_store (hr : r ∉ registersUsed .store s.index) :
    0 ≠ r ∧ (s.index.isTree = true → 1 ≠ r) := by
  cases hi : s.index <;> simp_all [registersUsed, Index.isTree, eq_comm]

theorem ne_of_not_mem_registersUsed_storeRange (hr : r ∉ registersUsed .storeRange s.index) :
    0 ≠ r ∧ 3 ≠ r ∧ (s.index.isTree = true → 1 ≠ r) := by
  cases hi : s.index <;> simp_all [registersUsed, Index.isTree, eq_comm]

theorem ne_of_not_mem_outputs (hr : r ∉ [4, 5, 6, 7]) : 4 ≠ r ∧ 5 ≠ r ∧ 6 ≠ r ∧ 7 ≠ r := by
  simpa [eq_comm] using hr

/-- The end of a search writes `x[4]` to `x[7]` (R225). -/
theorem finish_setX (b : Search) (s : State) (hr : r ∉ [4, 5, 6, 7]) (v : Word) :
    b.finish (s.setX r v) = (b.finish s).setX r v := by
  obtain ⟨h4, h5, h6, h7⟩ := ne_of_not_mem_outputs hr
  cases hf : b.found with
  | false =>
    rw [Search.finish_idle _ hf, Search.finish_idle _ hf, State.setX_comm _ _ _ h7]
    rfl
  | true =>
    simp only [Search.finish, hf, if_true]
    rw [State.setX_comm _ _ _ h7, State.setX_comm _ _ _ h6, State.setX_comm _ _ _ h5, State.setX_comm _ _ _ h4]
    rfl

/-- A search starts from the registers its end may write. -/
theorem start_setX (s : State) (hr : r ∉ [4, 5, 6, 7]) (v : Word) : Search.start (s.setX r v) = Search.start s := by
  obtain ⟨h4, h5, h6, -⟩ := ne_of_not_mem_outputs hr
  simp [Search.start, h4, h5, h6]

/-- A cache candidate reads `x[8]` to `x[11]` (R183). -/
theorem cacheCandidate_setX (s : State) (hr : r ∉ [8, 9, 10, 11]) (v : Word) (i : Fin 16) :
    cacheCandidate (s.setX r v) i = cacheCandidate s i := by
  have hj : ∀ j : Fin 4, (⟨8 + j.val, by omega⟩ : Fin 16) ∈ [8, 9, 10, 11] := by decide
  have hne : (⟨8 + (s.params.distIndex[i]).val, by omega⟩ : Fin 16) ≠ r := fun h => hr (h ▸ hj _)
  simp only [cacheCandidate, State.distCache, State.setX_params, State.getX_setX_ne s v hne]

theorem quickSearch_setX (s : State) (hr : r ∉ [0, 1, 2, 4, 5, 6, 7, 8]) (v : Word) (h : QuickStrategy)
    (qb : Sparse Word) : quickSearch (s.setX r v) h qb = quickSearch s h qb := by
  have hstart := start_setX s (r := r) (by simp_all) v
  obtain ⟨h0, h1, h2, h8⟩ : 0 ≠ r ∧ 1 ≠ r ∧ 2 ≠ r ∧ 8 ≠ r := by simp_all [eq_comm]
  simp only [quickSearch, hstart, State.setX_params, State.setX_ring, State.getX_setX_ne s v h0,
    State.getX_setX_ne s v h1, State.getX_setX_ne s v h2, State.getX_setX_ne s v h8]

/-- Of the registers step 1 of `ChainFind` reads the last distances alone (R185). -/
theorem chainFind_setX (p : ChainParams) (s : State) (hr : r ∉ [8, 9, 10, 11]) (v : Word) (ring : Ring)
    (num : Sparse (BitVec 16)) (rings : Sparse Word) (cur maxlen maxback : Word) (b : Search) :
    chainFind p (s.setX r v) ring num rings cur maxlen maxback b =
      chainFind p s ring num rings cur maxlen maxback b := by
  have hcached : chainCached (s.setX r v) ring cur maxlen maxback = chainCached s ring cur maxlen maxback := by
    funext b i
    simp only [chainCached, cacheCandidate_setX s hr]
  simp only [chainFind, chainRecent, hcached, State.setX_params]

theorem chainSearch_setX (s : State) (hr : r ∉ [0, 1, 2, 4, 5, 6, 7, 8, 9, 10, 11]) (v : Word) (h : ChainStrategy)
    (num : Sparse (BitVec 16)) (ring : Sparse Word) : chainSearch (s.setX r v) h num ring = chainSearch s h num ring := by
  have hstart := start_setX s (r := r) (by simp_all) v
  have hfind := chainFind_setX (s.params.strategy.chain h) s (r := r) (by simp_all) v
  obtain ⟨h0, h1, h2⟩ : 0 ≠ r ∧ 1 ≠ r ∧ 2 ≠ r := by simp_all [eq_comm]
  simp only [chainSearch, hstart, hfind, State.setX_params, State.setX_ring, State.getX_setX_ne s v h0,
    State.getX_setX_ne s v h1, State.getX_setX_ne s v h2]

/-- The record output reads `x[12]` and writes `x[7]` (R187). -/
theorem outputMatches_setX (ms : List MatchRec) (s : State) (h7 : 7 ≠ r) (h12 : 12 ≠ r) (v : Word) :
    outputMatches ms (s.setX r v) = (outputMatches ms s).setX r v := by
  simp only [outputMatches, State.getX_setX_ne s v h12]
  rw [State.setX_comm _ _ _ h7]
  rfl

theorem chainMatches_setX (s : State) (h0 : 0 ≠ r) (h1 : 1 ≠ r) (h2 : 2 ≠ r) (v : Word) (h : ChainStrategy)
    (num : Sparse (BitVec 16)) (ring : Sparse Word) :
    chainMatches (s.setX r v) h num ring = chainMatches s h num ring := by
  simp only [chainMatches, State.setX_params, State.setX_ring, State.getX_setX_ne s v h0, State.getX_setX_ne s v h1,
    State.getX_setX_ne s v h2]

/-- The call of `AdvanceOneByte` reads its two operands (R206). -/
theorem advanceAt_setX (s : State) (r : Fin 16) (v : Word) (cur : Word) (maxlen : Nat) (record : Bool) :
    (s.setX r v).advanceAt cur maxlen record = s.advanceAt cur maxlen record := rfl

theorem treeAdvanced_setX (s : State) (h0 : 0 ≠ r) (h1 : 1 ≠ r) (v : Word) (ht child : Sparse Word) :
    treeAdvanced (s.setX r v) ht child = treeAdvanced s ht child := by
  simp only [treeAdvanced_eq, advanceAt_setX, State.setX_params, State.getX_setX_ne s v h0, State.getX_setX_ne s v h1]

theorem treeMatches_setX (s : State) (h0 : 0 ≠ r) (h1 : 1 ≠ r) (v : Word) (ht child : Sparse Word) :
    treeMatches (s.setX r v) ht child = treeMatches s ht child := by
  simp only [treeMatches_eq, treeAdvanced_setX s h0 h1, advanceAt_setX, State.getX_setX_ne s v h0,
    State.getX_setX_ne s v h1]

/-- A command's body neither reads nor writes a register outside its row. -/
theorem commandBody_setX (hr : r ∉ registersUsed i s.index) (v : Word) :
    commandBody i (s.setX r v) = (commandBody i s).setX r v := by
  cases i with
  | configure quality lgwin => rfl
  | reset => rfl
  | store =>
    obtain ⟨h0, h1⟩ := ne_of_not_mem_registersUsed_store hr
    simp only [commandBody, storedIndex_setX, State.getX_setX_ne s v h0, storedIndex_lookahead_setX s h1]
    rfl
  | storeRange =>
    obtain ⟨h0, h3, h1⟩ := ne_of_not_mem_registersUsed_storeRange hr
    simp only [commandBody, storedIndex_setX, State.getX_setX_ne s v h0, State.getX_setX_ne s v h3,
      storedIndex_lookahead_setX s h1]
    rfl
  | prependCustomDictionary =>
    have h3 : 3 ≠ r := by simpa [registersUsed, eq_comm] using hr
    simp only [commandBody, storedIndex_setX, State.getX_setX_ne s v h3]
    rfl
  | findLongestMatch =>
    cases hi : s.index with
    | quick h qb =>
      have hrow : r ∉ [0, 1, 2, 4, 5, 6, 7, 8] := by simpa [hi, registersUsed] using hr
      simp only [commandBody, State.setX_index, hi, quickSearch_setX s hrow]
      exact finish_setX _ s (by simp_all) v
    | chain h num ring =>
      have hrow : r ∉ [0, 1, 2, 4, 5, 6, 7, 8, 9, 10, 11] := by simpa [hi, registersUsed] using hr
      simp only [commandBody, State.setX_index, hi, chainSearch_setX s hrow]
      exact finish_setX _ s (by simp_all) v
    | _ => simp only [commandBody, State.setX_index, hi]
  | findAllMatches =>
    cases hi : s.index with
    | chain h num ring =>
      obtain ⟨h0, h1, h2, h7, h12⟩ : 0 ≠ r ∧ 1 ≠ r ∧ 2 ≠ r ∧ 7 ≠ r ∧ 12 ≠ r := by
        simpa [hi, registersUsed, eq_comm] using hr
      simp only [commandBody, State.setX_index, hi, chainMatches_setX s h0 h1 h2]
      exact outputMatches_setX _ s h7 h12 v
    | tree ht child =>
      obtain ⟨h0, h1, h7, h12⟩ : 0 ≠ r ∧ 1 ≠ r ∧ 7 ≠ r ∧ 12 ≠ r := by simpa [hi, registersUsed, eq_comm] using hr
      simp only [commandBody, State.setX_index, hi, treeMatches_setX s h0 h1, treeAdvanced_setX s h0 h1]
      exact outputMatches_setX _ (s.withIndex (.tree _ _)) h7 h12 v
    | _ => simp only [commandBody, State.setX_index, hi]

/-- The state with BEST_SCORE replaced. -/
def State.withBestScore (s : State) (b : Word64) : State := { s with bestScore := b }

/-- The state with RING_MASK replaced. -/
def State.withRingMask (s : State) (m : Word) : State := { s with ringMask := m }

/-- Of the commands FIND_LONGEST_MATCH alone reads or writes BEST_SCORE (R22). -/
theorem commandBody_withBestScore (hi : i ≠ .findLongestMatch) (s : State) (b : Word64) :
    commandBody i (s.withBestScore b) = (commandBody i s).withBestScore b := by
  have hstored (n : Nat) (ix : Word) (maxlen : Nat) :
      storedIndex (s.withBestScore b) n ix maxlen = storedIndex s n ix maxlen :=
    storedIndex_congr n ix maxlen rfl rfl rfl rfl rfl
  cases i with
  | findLongestMatch => exact absurd rfl hi
  | findAllMatches =>
    have hindex : (s.withBestScore b).index = s.index := rfl
    simp only [commandBody, hindex]
    cases s.index <;> rfl
  | store => simp only [commandBody, hstored]; rfl
  | storeRange => simp only [commandBody, hstored]; rfl
  | prependCustomDictionary => simp only [commandBody, hstored]; rfl
  | configure quality lgwin => rfl
  | reset => rfl

/-- RESET and CONFIGURE do not look at RING_MASK (R221, R222). -/
theorem commandFault_withRingMask (hi : i = .reset ∨ ∃ quality lgwin, i = .configure quality lgwin) (s : State)
    (m : Word) : commandFault i (s.withRingMask m) = commandFault i s := by
  rcases hi with rfl | ⟨quality, lgwin, rfl⟩
  · cases hs : s.index.strategy? <;> simp [commandFault, State.withRingMask, hs]
  · rfl

theorem commandBody_withRingMask (hi : i = .reset ∨ ∃ quality lgwin, i = .configure quality lgwin) (s : State)
    (m : Word) : commandBody i (s.withRingMask m) = (commandBody i s).withRingMask m := by
  rcases hi with rfl | ⟨quality, lgwin, rfl⟩ <;> rfl

end

/-! The obligations. -/

/-- Settles O11: the refusal, the illegal word's fault, and what a command answers. -/
theorem everyCommandWordHasAnOutcome : Obligations.EveryCommandWordHasAnOutcome := by
  intro s w
  by_cases he : s.err = .none
  · by_cases hd : ∃ i, decode w = .ok i
    · obtain ⟨i, hd⟩ := hd
      obtain ⟨t, ht⟩ := exec_answers i { s with cmd := w }
      refine ⟨t, hostWrites_cmd he hd ht, .inr ?_⟩
      by_cases hf : t.err = .none
      · exact .inr ⟨he, hf, i, hd, ht⟩
      · exact .inl ⟨he, hf, eq_of_exec_fault (s := { s with cmd := w }) he ht hf⟩
    · exact ⟨_, hostWrites_illegal he (not_exists.mp hd), .inr (.inl ⟨he, nofun, rfl⟩)⟩
  · exact ⟨_, hostWrites_refused he w, .inl ⟨he, rfl⟩⟩

/-- Settles O19: the bit test in numbers, and the fault of each supported command. -/
theorem preludeChecksTheMask : Obligations.PreludeChecksTheMask := by
  refine fun s => ⟨maskOK_iff, fun hm =>
    ⟨fun hc => ?_, fun h qb hi => ?_, fun h num ring hi => ?_, fun ht child hi => ?_⟩⟩
  · have hstore := commandFault_store hc
    simp only [List.forall_mem_cons]
    exact ⟨exec_badMask hm hstore, exec_badMask hm ((commandFault_storeRange s).trans hstore), nofun⟩
  · have hfault : ∀ i ∈ [Instr.findLongestMatch, .prependCustomDictionary],
        commandFault i s = if maskOK s then .none else .badMask := by simp [commandFault, hi, Index.strategy?]
    exact fun i hmem => exec_badMask hm (hfault i hmem)
  · have hfault : ∀ i ∈ [Instr.findLongestMatch, .findAllMatches, .prependCustomDictionary],
        commandFault i s = if maskOK s then .none else .badMask := by simp [commandFault, hi, Index.strategy?]
    exact fun i hmem => exec_badMask hm (hfault i hmem)
  · exact exec_badMask hm (by simp [commandFault, hi, Index.strategy?])

/-- Settles O20: the strategy of the quality with its tables in their RESET state, or E_BAD_CONFIG. -/
theorem configureSelectsStrategy : Obligations.ConfigureSelectsStrategy := by
  refine fun s quality lgwin => ⟨fun hq1 hq2 hl hu => ?_, fun hbad => exec_of_fault (commandFault_configure hbad) nofun⟩
  obtain ⟨h, hh, rfl⟩ := strategyOfQuality_some ⟨hq1, hq2⟩
  refine ⟨_, exec_configure hh hl hu, ?_⟩
  generalize ht : ({ emptyTables h s with lgwin := BitVec.ofNat 5 lgwin } : State) = t
  have hs : t.index.strategy? = some h := ht ▸ freshIndex_strategy h
  have hlgwin : t.lgwin.toNat = lgwin := by
    rw [← ht, BitVec.toNat_ofNat]
    omega
  have hc : t.index ≠ .absent := fun ha => by simp [ha, Index.strategy?] at hs
  have hconfig : t.configWord = BitVec.ofNat 32 (Strategy.quality h + 256 * lgwin) := by
    have hsum : Strategy.quality h + lgwin * 2 ^ 8 = Strategy.quality h + 256 * lgwin := by omega
    rw [State.configWord, quality_eq hs, hlgwin]
    exact congrArg (BitVec.ofNat 32) hsum
  have hstatus : t.statusWord.extractLsb' 0 1 = 1#1 := by
    rw [t.statusWord_fields.1, t.configured_iff.mpr hc]
    rfl
  have hreset : t.index.AllReset t.lgwin := ht ▸ freshIndex_allReset _ h
  subst ht
  exact ⟨hconfig, quality_eq hs, hlgwin, hstatus, hc, hreset, rfl, rfl, fun _ _ => rfl, rfl, rfl, rfl, rfl, rfl,
    fun _ => rfl, fun _ => rfl, rfl, rfl, rfl⟩

/-- Settles O21: the RESET state of the tables that exist, which is what CONFIGURE with the current fields leaves. -/
theorem resetEmptiesTables : Obligations.ResetEmptiesTables := by
  refine fun s => ⟨fun hc => ?_, fun hc hl hu => ?_, fun ha => exec_of_fault (commandFault_absent ha nofun) nofun⟩
  · obtain ⟨h, hs⟩ := Index.exists_strategy hc
    have hkept : (emptyTables h s).index.strategy? = s.index.strategy? := (freshIndex_strategy h).trans hs.symm
    exact ⟨_, exec_reset hs, hkept, freshIndex_allReset _ h, rfl, rfl, fun _ _ => rfl, rfl,
      ⟨rfl, statusWord_congr hkept rfl rfl, configWord_congr hkept rfl, rfl⟩, fun _ => rfl, fun _ => rfl, rfl, rfl, rfl⟩
  · obtain ⟨h, hs⟩ := Index.exists_strategy hc
    rw [exec_reset hs, exec_configure (by rw [quality_eq hs]; exact strategyOfQuality_quality h) hl hu,
      BitVec.ofNat_toNat, BitVec.setWidth_eq]
    rfl

/-- Settles O28: one position and then the rest, and the same checks. -/
theorem storeRangeIsStores : Obligations.StoreRangeIsStores := by
  refine fun s => ⟨fun hc hm => ⟨fun hn => ?_, exec_storeRange_step hc hm, ?_⟩, fun hbad => ?_⟩
  · rw [exec_storeRange hc hm, hn, BitVec.toNat_ofNat, Nat.zero_mod, storedIndex_zero, withIndex_self]
  · exact ⟨_, exec_storeRange hc hm, withIndex_onlyTables (storedIndex_strategy ..)⟩
  · have hf := commandFault_store_ne_none hbad
    rw [exec_of_fault rfl hf, exec_of_fault (commandFault_storeRange s) hf]

/-- Settles O29: both are the stores from 0 of the same number of positions, and the lookahead is not read. -/
theorem prependIsStoreRange : Obligations.PrependIsStoreRange := by
  intro s load hfam hm
  obtain ⟨hc, htree, rfl⟩ : s.index ≠ .absent ∧ s.index.isTree = false ∧ load = hashLoad s.index := by
    rcases hfam with ⟨⟨h, qb, hi⟩, rfl⟩ | ⟨⟨h, num, ring, hi⟩, rfl⟩ <;> simp [hi, Index.isTree, hashLoad]
  have hload : 4 ≤ hashLoad s.index := by
    cases hi : s.index <;> simp_all [hashLoad]
  have hcount := (s.getX 3).isLt
  exact ⟨_, _, exec_prepend htree hc hm, exec_storeRange_fromZero htree hc hm (by omega), rfl,
    withIndex_onlyTables (storedIndex_strategy ..)⟩

/-- Settles O30: the search of either family improves or leaves the outputs. -/
theorem findLongestCompletes : Obligations.FindLongestCompletes := by
  rintro s (⟨h, qb, hi⟩ | ⟨h, num, ring, hi⟩) hm
  · exact ⟨_, exec_findLongest_quick hi hm, finish_findLongestFrame s _, (quickSearch_improves s h qb).finish_outcome⟩
  · exact ⟨_, exec_findLongest_chain hi hm, finish_findLongestFrame s _,
      (chainSearch_improves s h num ring).finish_outcome⟩

/-- Settles O38: the stored position stands in a slot of the sweep, where the find takes it. -/
theorem quickStoreThenFind : Obligations.QuickStoreThenFind := by
  intro s u h qb hi hm hp p cur
  refine ⟨_, exec_store (by simp [hi]) hm, fun hidx hview hmask hlgwin hparams hpos hback hl h4 hbytes hscore => ?_⟩
  obtain ⟨hmu, hring, hps⟩ := find_inputs_after_store hm hidx hview hmask hlgwin hparams
  rw [State.withIndex_index, storedIndex_one_quick hi, ← hring, ← hps] at hidx
  obtain ⟨j, hj, hslot⟩ := quickSlot_in_sweep (hps ▸ hp) hbytes
  refine quick_find_improves hidx hmu hj ?_ hpos hback hl h4 hbytes hscore
  rw [← hslot, qbGet_quickStore_slot]

/-- Settles O39: the stored position is the newest entry of the walk, where the find takes it. -/
theorem chainStoreThenFind : Obligations.ChainStoreThenFind := by
  intro s u h num ring hi hm hcount p cur
  refine ⟨_, exec_store (by simp [hi]) hm, fun hidx hview hmask hlgwin hparams hpos hback hl h4 hbytes hscore => ?_⟩
  obtain ⟨hmu, hring, hps⟩ := find_inputs_after_store hm hidx hview hmask hlgwin hparams
  rw [State.withIndex_index, storedIndex_one_chain hi, ← hring, ← hps] at hidx
  rw [← hring, ← hps] at hcount
  exact chain_find_improves hidx hmu (mem_chainWalk_chainStore hbytes hcount hpos hback) hl h4 hbytes hscore

/-- Settles O50: the written half of R229's rows, field by field. -/
theorem commandsWriteOnlyTheirOwn : Obligations.CommandsWriteOnlyTheirOwn := by
  intro i s t h
  have hregs := exec_regsKept h
  obtain ⟨hcmd, hmask, hview, hsurroundings⟩ := exec_fixed h
  refine ⟨hregs.mono (registersWritten_subset_outputs i), hcmd, hmask, hview, hsurroundings,
    fun hi => ⟨hregs.mono (registersWritten_subset_result hi), exec_bestScore h hi⟩,
    fun h1 h2 => registersWritten_eq_nil h1 h2 ▸ hregs, exec_matchKept h,
    fun hi => ⟨exec_configWord h hi, fun hreset hfind => ?_⟩, ?_⟩
  · rcases exec_countersKept h with hkept | rfl | rfl | ⟨quality, lgwin, rfl⟩
    · exact hkept
    · exact absurd rfl hfind
    · exact absurd rfl hreset
    · exact absurd rfl (hi quality lgwin)
  · rintro rfl
    exact exec_findLongest_index h

/-- Settles O51: an update of what the command does not read goes through its checks and its body. -/
theorem commandsReadOnlyTheirOwn : Obligations.CommandsReadOnlyTheirOwn := by
  refine fun i s t h => ⟨fun r v hr => ?_, fun hi b => ?_, fun hi m => ?_⟩
  · exact exec_commutes (f := (·.setX r v)) (commandFault_setX i s r v) (commandBody_setX hr v) (fun _ => rfl) h
  · exact exec_commutes (f := (·.withBestScore b)) rfl (commandBody_withBestScore hi s b) (fun _ => rfl) h
  · exact exec_commutes (f := (·.withRingMask m)) (commandFault_withRingMask hi s m) (commandBody_withRingMask hi s m)
      (fun _ => rfl) h

end Sys2Proof.Machine

/-!
PROOFS. Exceptions (spec/60_exceptions.md): which fault a command raises and what it records, the refusal while a fault is
recorded, the return from it by a STATUS write, and the undefined pairs of command and strategy.
-/
namespace Sys2Proof.Machine

/-! Which fault a command raises (R220, R251, R252). -/

section
variable {i : Instr} {s t : State}

theorem Index.isTree_iff {k : Index} : k.isTree = true ↔ k.strategy? = some .tree := by
  cases k <;> simp [Index.isTree, Index.strategy?]

/-- Of the tables the ring-mask check reads only whose they are (R220). -/
theorem maskOK_congr_strategy (hs : t.index.strategy? = s.index.strategy?) (hl : t.lgwin = s.lgwin)
    (hr : t.ringMask = s.ringMask) : maskOK t = maskOK s := by
  have htree : t.index.isTree = s.index.isTree := by rw [Bool.eq_iff_iff, Index.isTree_iff, Index.isTree_iff, hs]
  rw [maskOK, maskOK, htree, hl, hr]

/-- The checks read the configuration and RING_MASK alone (R252). -/
theorem commandFault_congr (i : Instr) (hs : t.index.strategy? = s.index.strategy?) (hl : t.lgwin = s.lgwin)
    (hr : t.ringMask = s.ringMask) : commandFault i t = commandFault i s := by
  simp only [commandFault, hs, maskOK_congr_strategy hs hl hr]

/-- FIND_ALL_MATCHES is undefined on H1 to H4 (R226), tested before the mask (R255). -/
theorem commandFault_findAll_quick {h : QuickStrategy} {qb : Sparse Word} (hi : s.index = .quick h qb) :
    commandFault .findAllMatches s = .unsupported := by
  simp [commandFault, hi, Index.strategy?]

/-- FIND_LONGEST_MATCH and PREPEND_CUSTOM_DICTIONARY are undefined on H10 (R225, R227), tested before the mask (R255). -/
theorem commandFault_unsupported_tree {ht child : Sparse Word} (hi : s.index = .tree ht child)
    (hc : i = .findLongestMatch ∨ i = .prependCustomDictionary) : commandFault i s = .unsupported := by
  rcases hc with rfl | rfl <;> simp [commandFault, hi, Index.strategy?]

end

/-! The return from a fault (R254). -/

/-- A pending STATUS write is the step (R27: STATUS stands at offset 4). -/
theorem step_statusWrite {s : State} {v : Word} {rest : List HostAction}
    (hh : s.host = .write (s.params.engineBase + 0x04) v :: rest) : step s = .next (clearErr { s with host := rest }) := by
  rw [step_of_pending hh]
  simp only [hostAccess, portOf_offset _ (offset := 0x04) (by decide) rfl]
  rfl

/-- With no fault recorded a STATUS write has nothing to clear. -/
theorem clearErr_self {s : State} (he : s.err = .none) (ho : s.errOp = 0#8) : clearErr s = s := by
  rw [clearErr, ← he, ← ho]

/-! The obligations. -/

/-- Settles O16: a fault is recorded by `raise`, and the checks are decided by the configuration and RING_MASK. -/
theorem faultsArePrecise : Obligations.FaultsArePrecise := by
  refine ⟨fun i s t => eq_of_exec_fault, fun i s s' t t' he he' hs hl hr h h' => ?_⟩
  rw [commandFault_of_err he h, commandFault_of_err he' h', commandFault_congr i hs hl hr]

/-- Settles O9: the CMD write is refused, and no other register's access looks at the fault. -/
theorem refusedWhileFaultRecorded : Obligations.RefusedWhileFaultRecorded := by
  refine fun s he => ⟨hostWrites_refused he, fun i v => ⟨hostWrites_x s i v, hostReads_x s i⟩, fun v => ?_,
    hostReads_registers s⟩
  obtain ⟨-, -, hmask, -, -, -, -, hlow, hhigh⟩ := hostWrites_registers s v
  exact ⟨hmask, hlow, hhigh⟩

/-- Settles O10: after the STATUS write no fault is recorded, so the CMD write that follows is decoded. -/
theorem statusWriteClearsFault : Obligations.StatusWriteClearsFault := by
  intro s v
  have hclear := (hostWrites_registers s v).1
  refine ⟨hclear, fun he ho => ?_, fun w rest hh => ⟨_, step_statusWrite hh, ?_⟩⟩
  · rwa [← clearErr, clearErr_self he ho] at hclear
  · have hcmd := step_cmdWrite (s := clearErr { s with host := .write s.params.engineBase w :: rest }) (w := w) rfl
    exact ⟨fun i hd => hcmd.trans (writeCmd_command rfl hd), fun hd => hcmd.trans (writeCmd_illegal rfl hd)⟩

/-- Settles O18: the pair is rejected before the mask is looked at. -/
theorem unsupportedPairsFault : Obligations.UnsupportedPairsFault := fun _ =>
  ⟨fun _ _ hi => exec_of_fault (commandFault_findAll_quick hi) nofun, fun _ _ hi =>
    ⟨exec_of_fault (commandFault_unsupported_tree hi (.inl rfl)) nofun,
      exec_of_fault (commandFault_unsupported_tree hi (.inr rfl)) nofun⟩⟩

end Sys2Proof.Machine

/-!
PROOFS. Power-on reset (spec/70_reset_and_hazards.md R280, spec/10_state.md R38): the registers it leaves, as the host
reads them, and what a command does then.
-/
namespace Sys2Proof.Machine

/-! What power-on reset leaves (R38). -/

/-- `State.reset` is what power-on reset leaves of itself, so its registers are those of `powerOn`. -/
theorem powerOn_reset : powerOn State.reset = State.reset := rfl

section
variable (s : State)

@[simp] theorem powerOn_getX (i : Fin 16) : (powerOn s).getX i = 0#32 := by
  simp [powerOn, State.reset, State.getX]

@[simp] theorem powerOn_err : (powerOn s).err = .none := rfl

@[simp] theorem powerOn_statusWord : (powerOn s).statusWord = 0#32 := by
  simp [State.statusWord, State.configured, Index.strategy?, ErrCode.code]

@[simp] theorem powerOn_configWord : (powerOn s).configWord = 0#32 := by
  simp [State.configWord, State.quality, Index.strategy?]

/-- Every register reads 0, and there are no tables (R38). -/
theorem powerOn_registers :
    (∀ i, (powerOn s).getX i = 0#32) ∧ (powerOn s).bestScore = 0#64 ∧ (powerOn s).cmd = 0#32 ∧
    (powerOn s).statusWord = 0#32 ∧ (powerOn s).configWord = 0#32 ∧ (powerOn s).ringMask = 0#32 ∧
    (powerOn s).numDictLookups = 0#64 ∧ (powerOn s).numDictMatches = 0#64 ∧ (powerOn s).index = .absent :=
  ⟨powerOn_getX s, rfl, rfl, powerOn_statusWord s, powerOn_configWord s, rfl, rfl, rfl, powerOn_index s⟩

end

/-- In any state a CONFIGURE with legal operands creates tables, in their RESET state (R221). -/
theorem exec_configure_allReset (s : State) {quality lgwin : Nat} (hq1 : 1 ≤ quality) (hq2 : quality ≤ 10)
    (hl : 10 ≤ lgwin) (hu : lgwin ≤ 24) :
    ∃ u, exec (.configure quality lgwin) s = .next u ∧ u.index ≠ .absent ∧ u.index.AllReset u.lgwin := by
  obtain ⟨u, hexec, -, -, -, -, hindex, hreset, -⟩ := (configureSelectsStrategy s quality lgwin).1 hq1 hq2 hl hu
  exact ⟨u, hexec, hindex, hreset⟩

/-! The obligation. -/

/-- Settles O15: power-on reset leaves no tables, and an engine without tables runs CONFIGURE alone. -/
theorem powerOnState : Obligations.PowerOnState := by
  refine ⟨powerOn_reset ▸ powerOn_registers State.reset, fun s rest =>
    ⟨powerOn { s with host := rest }, step_pending s .powerOn rest, ?_⟩⟩
  obtain ⟨hx, hscore, hcmd, hstatus, hconfig, hmask, hlookups, hmatches, hindex⟩ :=
    powerOn_registers { s with host := rest }
  exact ⟨hx, hscore, hcmd, hstatus, hconfig, hmask, hlookups, hmatches, hindex, powerOn_view _, powerOn_matchSpace _,
    powerOn_params _, notConfiguredFaults _ hindex, fun _ _ => exec_configure_allReset _⟩

end Sys2Proof.Machine
